-- ==== Sys2Proof/Word.lean ====
section
/-! DEFINITION. The plainest data of the Fentura FP-512: bytes, panel rows, planes. -/

namespace Sys2Proof

/-- A byte of a line, a table or a body (00_scope, "Bytes on the lines"): bit 7 is the most significant. -/
abbrev Byte := BitVec 8

/-- A row number or a column number of the panel, 0..511 (00_scope, "Cells, rows and rectangles"). -/
abbrev RowNo := Fin 512

/-- The 512 cells of one row: bit x is the cell of column x (R1, R3). -/
abbrev RowBits := BitVec 512

/-- A plane: 512 rows of 512 bits (R1). -/
abbrev Plane := Vector RowBits 512

/-- A set of stripe indices 0..511 (R17): bit i is set when index i is a member. -/
abbrev StripeSet := BitVec 512

end Sys2Proof
end

