-- ==== Sys2Proof/Syntax.lean ====
section
/-! DEFINITION. The commands of the FP-512: one constructor of `Instr` for each row of spec/opcode_table.json.

A command that is the arrival of a lesson-line block carries the block's header bytes and its body as they travel
(R174, R175); the kind byte, and a body's selecting first byte where the row fixes it, are the row's own. A command
that is a step of the part itself (a take of the render engine, an address slot, a timeout) carries no operand but
what the outside world returns or which of several like items it concerns. -/

namespace Sys2Proof

/-- The header bytes of a block that no command fixes: address, channel and sequence (R174, bytes 0, 1 and 3). -/
structure Header where
  /-- bits 7..6 form, bits 5..0 number -/
  addr : Byte
  /-- bits 5..0 channel, bits 7..6 reserved -/
  chan : Byte
  /-- the sequence byte -/
  seq : Byte
  deriving DecidableEq, Repr

/-- The levels of the input lines that a reset samples (R121, R157, R161, R156). -/
structure InputLevels where
  /-- the service line is asserted -/
  service : Bool
  /-- the accessory's fault line is asserted -/
  fault : Bool
  /-- the levels of signal lines 3..0 (bit n is line n, set is high) -/
  lines : BitVec 4
  /-- the grant wire is asserted -/
  grant : Bool
  deriving DecidableEq, Repr

/-- The rate strap's two levels (R136). -/
inductive LineRate where
  | bps19200
  | bps76800
  deriving DecidableEq, Repr

/-- What power-on reset samples: the straps (R120, R136, R157), power-good (R105) and the input lines. -/
structure PowerOnPins where
  rate : LineRate
  /-- the 5 terminal straps -/
  terminal : Fin 32
  /-- the accessory-fitted strap -/
  fitted : Bool
  powerGood : Bool
  levels : InputLevels
  /-- the accessory's busy line is asserted (R159) -/
  busy : Bool
  deriving DecidableEq, Repr

/-- What one scan interval samples: the beams broken on each axis (R109), the service line (R121), the signal
lines (R162) and the accessory's fault line (R160). -/
structure ScanSample where
  /-- bit n is X beam n, set is broken -/
  xBroken : BitVec 16
  /-- bit n is Y beam n, set is broken -/
  yBroken : BitVec 16
  service : Bool
  fault : Bool
  lines : BitVec 4
  deriving DecidableEq, Repr

/-- The commands: the rows of spec/opcode_table.json, in the table's order. -/
inductive Instr where
  /-- POWER_ON_RESET: the reset input, with the levels it samples (R168). -/
  | powerOnReset (pins : PowerOnPins)
  /-- TERMINAL_RESET: a kind-18 block, with the levels of the input lines that the reset samples (R172). -/
  | terminalReset (h : Header) (body : List Byte) (levels : InputLevels)
  /-- CADENCE: a kind-0 block with a good CRC (R142). -/
  | cadence (h : Header) (body : List Byte)
  /-- CHECK_ERROR: a block of any kind and the two CRC bytes received with it, which differ from the CRC (R140). -/
  | checkError (h : Header) (kind : Byte) (body : List Byte) (crc : BitVec 16)
  /-- LENGTH_ERROR: a lead and a header whose length byte is above 240 (R138). -/
  | lengthError (h : Header) (kind : Byte) (length : Byte)
  /-- LINE_SILENCE_TIMEOUT (R141). -/
  | lineSilenceTimeout
  /-- UNKNOWN_KIND: a block whose kind code is 32 or above (R127). -/
  | unknownKind (h : Header) (kind : Byte) (body : List Byte)
  /-- BLOCK_QUEUED_FOR_RENDER: a block of a render-path kind: 1..7, ERASE-ALL, or TABLE-LOAD 5..8 (R133). -/
  | blockQueuedForRender (h : Header) (kind : Byte) (body : List Byte)
  /-- ACCESSORY: a block of kind 10 or 20..31 (R134). -/
  | accessory (h : Header) (kind : Byte) (body : List Byte)
  /-- CHANNEL_LAPSE of one channel (R132). -/
  | channelLapse (channel : Fin 64)
  /-- IMAGE_OPEN: the render engine takes the item at the head of the render queue (R25). -/
  | imageOpen
  /-- IMAGE_STRIPE (R28). -/
  | imageStripe
  /-- READY_STRIPE (R22). -/
  | readyStripe
  /-- IMAGE_CLOSE (R35). -/
  | imageClose
  /-- IMAGE_ABORT (R38). -/
  | imageAbort
  /-- APPLY_HELD_CADENCE_NOTICE (R24). -/
  | applyHeldCadenceNotice
  /-- CLOSING_TIMEOUT of one context slot (R36). -/
  | closingTimeout (slot : Fin 4)
  /-- IDLE_TIMEOUT of one context slot (R37). -/
  | idleTimeout (slot : Fin 4)
  /-- TEXT (R59). -/
  | text
  /-- FILL (R66). -/
  | fill
  /-- WINDOW_SET (R5). -/
  | windowSet
  /-- ERASE_ALL (R15). -/
  | eraseAll
  /-- ECHO_REQUEST (R67). -/
  | echoRequest
  /-- TRANSFER_LOAD (R52). -/
  | transferLoad
  /-- THRESHOLD_LOAD (R44). -/
  | thresholdLoad
  /-- WEIGHTS_LOAD (R46). -/
  | weightsLoad
  /-- GLYPHS_LOAD (R57). -/
  | glyphsLoad
  /-- ADDRESS_LOAD: a TABLE-LOAD of id 0; `rest` is the body after the table id byte (R122). -/
  | addressLoad (h : Header) (rest : List Byte)
  /-- GROUPS_LOAD: a TABLE-LOAD of id 1 (R124). -/
  | groupsLoad (h : Header) (rest : List Byte)
  /-- CHANNELS_LOAD: a TABLE-LOAD of id 2 (R128). -/
  | channelsLoad (h : Header) (rest : List Byte)
  /-- KINDS_LOAD: a TABLE-LOAD of id 3 (R126). -/
  | kindsLoad (h : Header) (rest : List Byte)
  /-- WATCH_LOAD: a TABLE-LOAD of id 4 (R125). -/
  | watchLoad (h : Header) (rest : List Byte)
  /-- PANEL_LOAD: a TABLE-LOAD of id 9 (R75). -/
  | panelLoad (h : Header) (rest : List Byte)
  /-- TOUCH_LOAD: a TABLE-LOAD of id 10 (R108). -/
  | touchLoad (h : Header) (rest : List Byte)
  /-- EVENTS_LOAD: a TABLE-LOAD of id 11 (R147). -/
  | eventsLoad (h : Header) (rest : List Byte)
  /-- LINES_LOAD: a TABLE-LOAD of id 12 (R164). -/
  | linesLoad (h : Header) (rest : List Byte)
  /-- INVALID_TABLE_ID: a TABLE-LOAD whose id is 13 or above, or whose body is empty (R165, R127). -/
  | invalidTableId (h : Header) (body : List Byte)
  /-- BLANK: PANEL-CONTROL with action 1; `rest` is the body after the action byte (R98). -/
  | blank (h : Header) (rest : List Byte)
  /-- UNBLANK: PANEL-CONTROL with action 2 (R100). -/
  | unblank (h : Header) (rest : List Byte)
  /-- PANEL_CONTROL_UNDEFINED: PANEL-CONTROL with an undefined action code, or with no body (R134, R127). -/
  | panelControlUndefined (h : Header) (body : List Byte)
  /-- ZONE_SET: a kind-8 block whose first body byte is not 0xFF (R115). -/
  | zoneSet (h : Header) (body : List Byte)
  /-- DISARM_ALL: a kind-8 block whose first body byte is 0xFF; `rest` is what follows it (R115). -/
  | disarmAll (h : Header) (rest : List Byte)
  /-- STATUS_QUERY: a kind-12 block (R152). -/
  | statusQuery (h : Header) (body : List Byte)
  /-- EVENT_CLEAR: a kind-13 block (R149). -/
  | eventClear (h : Header) (body : List Byte)
  /-- EVENT_TEST: a kind-14 block (R150). -/
  | eventTest (h : Header) (body : List Byte)
  /-- LINE_SET: a kind-15 block (R163). -/
  | lineSet (h : Header) (body : List Byte)
  /-- STORE_COMMIT: a kind-16 block (R169). -/
  | storeCommit (h : Header) (body : List Byte)
  /-- PROGRAMMING_COMPLETE (R170). -/
  | programmingComplete
  /-- STORE_FACTORY: a kind-17 block (R171). -/
  | storeFactory (h : Header) (body : List Byte)
  /-- FACTORY_HALFTONE_NOTICE (R55). -/
  | factoryHalftoneNotice
  /-- FAULT_CLEAR: a kind-19 block (R87). -/
  | faultClear (h : Header) (body : List Byte)
  /-- ADDRESS_SLOT: a sustain cycle begins with its address slot (R76). -/
  | addressSlot
  /-- SENSE_COMPLETION: the panel returns the lit count S, 0..512, of the row that is due (R83). -/
  | senseCompletion (count : Fin 513)
  /-- DRAIN_COMPLETE (R99). -/
  | drainComplete
  /-- STARTING_SWEEP_COMPLETE (R95). -/
  | startingSweepComplete
  /-- BLANKING_SWEEP_COMPLETE (R99). -/
  | blankingSweepComplete
  /-- POWER_GOOD_RISE (R96). -/
  | powerGoodRise
  /-- POWER_GOOD_FALL (R97). -/
  | powerGoodFall
  /-- BLANK_TIMEOUT: the CADENCE whose notice finds the blank timer at the timeout (R103). -/
  | blankTimeout
  /-- SCAN: one expiry of the scan interval, with the samples taken at it (R109). -/
  | scan (sample : ScanSample)
  /-- GRANT_ASSERTED: the grant wire is sampled asserted (R154). -/
  | grantAsserted
  /-- FRAME_BEGIN: the grant is sampled asserted in QUALIFYING (R154). -/
  | frameBegin
  /-- FRAME_COMPLETE (R155). -/
  | frameComplete
  /-- GRANT_WITHDRAWN: the grant wire is sampled not asserted (R155). -/
  | grantWithdrawn
  /-- ACKNOWLEDGE: a pulse on the acknowledge line (R159). -/
  | acknowledge
  /-- BUSY_ASSERTED: the busy line goes from released to asserted (R159). -/
  | busyAsserted
  /-- BUSY_RELEASED: the busy line goes from asserted to released (R159). -/
  | busyReleased
  /-- ACK_TIMEOUT: the acknowledge timer reaches 100 ms (R160). -/
  | ackTimeout
  deriving DecidableEq, Repr

end Sys2Proof
end

