-- ==== Sys2Proof/Machine/Bits.lean ====
section
/-! DEFINITION. Bit fields, byte order, row masks and the CRC: the helpers every block uses. -/

namespace Sys2Proof.Machine

/-- A vector written out by its entries. -/
def tabulate {n : Nat} {α : Type} (f : Fin n → α) : Vector α n :=
  ⟨(List.ofFn f).toArray, by simp⟩

/-- Byte k of a body; a byte past its end reads 0, which no body that passed R127 lets an owner meet. -/
def byteAt (body : List Byte) (k : Nat) : Byte := body.getD k 0

/-- The two-byte field at offset k, high byte first (R173). -/
def wordAt (body : List Byte) (k : Nat) : BitVec 16 := byteAt body k ++ byteAt body (k + 1)

/-- The four-byte field at offset k, high byte first (R173). -/
def longAt (body : List Byte) (k : Nat) : BitVec 32 := wordAt body k ++ wordAt body (k + 2)

/-- The bytes of a two-byte field, high byte first (R173). -/
def wordBytes (w : BitVec 16) : List Byte := [w.extractLsb' 8 8, w.extractLsb' 0 8]

/-- The bytes of a four-byte field, high byte first (R173). -/
def longBytes (w : BitVec 32) : List Byte :=
  wordBytes (w.extractLsb' 16 16) ++ wordBytes (w.extractLsb' 0 16)

/-- A small number as a byte of a layout. -/
def byteOf (n : Nat) : Byte := BitVec.ofNat 8 n

/-- A flag as bit n of a byte. -/
def flagBit (b : Bool) (n : Nat) : Byte := if b then BitVec.twoPow 8 n else 0

/-- A coordinate clamped into 0..511 (R6, step 1). -/
def clampCell (n : Nat) : RowNo := ⟨min n 511, by omega⟩

/-- One bit into the CRC's running value: it is shifted up by one, and the generator 0x1021 is exclusive-ORed in
where the data bit and the old top bit differ (R139). -/
def crcBit (c : BitVec 16) (d : Bool) : BitVec 16 :=
  if c.msb != d then (c <<< 1) ^^^ 0x1021#16 else c <<< 1

/-- One byte into the CRC, most significant bit first (R139). -/
def crcByte (c : BitVec 16) (b : Byte) : BitVec 16 :=
  [7, 6, 5, 4, 3, 2, 1, 0].foldl (fun c k => crcBit c (b.getLsbD k)) c

/-- The CRC of a byte string, from the starting value 0xFFFF, with no final inversion (R139). -/
def crc16 (bytes : List Byte) : BitVec 16 := bytes.foldl crcByte 0xFFFF#16

/-- The lead byte of a block and of a frame (R137, R177). -/
def leadByte : Byte := 0xC3

/-- The header and body of a block as they travel (R174): the bytes the block's CRC is computed over (R139). -/
def blockData (h : Header) (kind : Byte) (body : List Byte) : List Byte :=
  [h.addr, h.chan, kind, h.seq, byteOf body.length] ++ body

/-- A whole block with given CRC bytes as it travels: lead, header, body, CRC high byte first (R137). -/
def blockBytes (h : Header) (kind : Byte) (body : List Byte) (crc : BitVec 16) : List Byte :=
  leadByte :: (blockData h kind body ++ wordBytes crc)

/-- A block sent intact: its CRC bytes carry its CRC (R139). -/
def goodBlockBytes (h : Header) (kind : Byte) (body : List Byte) : List Byte :=
  blockBytes h kind body (crc16 (blockData h kind body))

/-- The columns x0..x1 of a row, both included. -/
def columns (x0 x1 : Nat) : RowBits :=
  (BitVec.allOnes 512 <<< x0) &&& (BitVec.allOnes 512 >>> (511 - x1))

/-- A list of cells as a number, the first cell in bit 0. -/
def cellsToNat : List Bool → Nat
  | [] => 0
  | b :: bs => b.toNat + 2 * cellsToNat bs

/-- A list of cells laid into a row from column x0 rightward; cells beyond column 511 are dropped. -/
def cellsFrom (x0 : Nat) (cells : List Bool) : RowBits :=
  BitVec.ofNat 512 (cellsToNat cells) <<< x0

/-- The number of lit cells of a row (R82, E; R83, S). -/
def litCount (r : RowBits) : Nat := (List.range 512).countP (fun x => r.getLsbD x)

/-- The number of members of a stripe set (R17, the received count). -/
def stripeCard (r : StripeSet) : Nat := litCount r

/-- A set bit n (of a 32-bit event set, R173). -/
def eventBit (n : Nat) : BitVec 32 := BitVec.twoPow 32 n

/-- Bit n of an event set made v. -/
def withEventBit (set : BitVec 32) (n : Nat) (v : Bool) : BitVec 32 :=
  if v then set ||| eventBit n else set &&& ~~~(eventBit n)

end Sys2Proof.Machine
end

