-- ==== Sys2Proof/Machine/Tables.lean ====
section
/-! DEFINITION. The twelve stored-class tables: their fields, the decoding of their TABLE-LOAD entries with each
owner's entry rule, their factory defaults, and their bytes under the stored image's CRC. -/

namespace Sys2Proof.Machine

/-! ### The fields of the tables -/

/-- The four codes of the address byte's form field (R174). -/
inductive AddrForm where
  | individual
  | group
  | all
  /-- the fourth form code, which matches nothing (R123) -/
  | fourth
  deriving DecidableEq, Repr

/-- A subset of the address forms INDIVIDUAL, GROUP, ALL (R126, R128). -/
structure FormSet where
  individual : Bool
  group : Bool
  all : Bool
  deriving DecidableEq, Repr, Inhabited

/-- Whether a form is in the set; the fourth form never is. -/
def FormSet.has (f : FormSet) : AddrForm → Bool
  | .individual => f.individual
  | .group => f.group
  | .all => f.all
  | .fourth => false

/-- The set of all three forms. -/
def FormSet.every : FormSet := ⟨true, true, true⟩

/-- ADDRESS (R122). -/
structure AddressTable where
  /-- the override is valid -/
  valid : Bool
  number : Fin 32
  deriving DecidableEq, Repr, Inhabited

/-- The two classes of dirty mark (R13, R72). -/
inductive MarkClass where
  | urgent
  | bulk
  deriving DecidableEq, Repr, Inhabited

/-- One entry of CHANNELS (R128). -/
structure ChannelEntry where
  member : Bool
  forms : FormSet
  /-- bit w is set when window w may be drawn on -/
  windows : BitVec 8
  cls : MarkClass
  dedupe : Bool
  deriving DecidableEq, Repr, Inhabited

/-- What is to be done with a kind (R126, R133). -/
inductive Disposition where
  | act
  | hand
  | actAndHand
  | discard
  deriving DecidableEq, Repr, Inhabited

/-- The disposition includes ACT. -/
def Disposition.acts : Disposition → Bool
  | .act => true
  | .hand => false
  | .actAndHand => true
  | .discard => false

/-- The disposition includes HAND. -/
def Disposition.hands : Disposition → Bool
  | .act => false
  | .hand => true
  | .actAndHand => true
  | .discard => false

/-- One entry of KINDS (R126). -/
structure KindEntry where
  disposition : Disposition
  bypass : Bool
  forms : FormSet
  deriving DecidableEq, Repr, Inhabited

/-- One entry of WATCH (R125): `none` is an unused entry. -/
structure WatchEntry where
  kind : Option (Fin 32)
  unblank : Bool
  deriving DecidableEq, Repr, Inhabited

/-- WEIGHTS, in sixteenths (R46). -/
structure Weights where
  wR : Nat
  wBL : Nat
  wB : Nat
  wBR : Nat
  deriving DecidableEq, Repr, Inhabited

/-- PANEL: sustain period in µs, settle K, retries R, urgent run limit U, blank timeout in minutes (R75, R93). -/
structure PanelTable where
  period : Nat
  settle : Nat
  retries : Nat
  urgentLimit : Nat
  blankTimeout : Nat
  deriving DecidableEq, Repr, Inhabited

/-- TOUCH (R107). -/
structure TouchTable where
  /-- bit n is set when X beam n is fitted -/
  fitX : BitVec 16
  /-- bit n is set when Y beam n is fitted -/
  fitY : BitVec 16
  debounce : Nat
  strays : Bool
  deriving DecidableEq, Repr, Inhabited

/-- Which changes of a level event latch it (R145). -/
inductive EdgeSelect where
  | rise
  | both
  deriving DecidableEq, Repr, Inhabited

/-- EVENTS: the masks of events 0..31 (set is enabled) and the edge-selects of events 0..7 (R147). -/
structure EventTable where
  mask : BitVec 32
  edges : Vector EdgeSelect 8
  deriving DecidableEq, Repr, Inhabited

/-- A signal line's configuration (R161). -/
inductive LineConfig where
  | input
  | output
  | attention
  deriving DecidableEq, Repr, Inhabited

/-- One entry of LINES (R161). -/
structure LineEntry where
  config : LineConfig
  report : Bool
  latchDefault : Bool
  deriving DecidableEq, Repr, Inhabited

/-- The twelve stored-class tables (chapter 12.2). -/
structure StoredTables where
  address : AddressTable
  groups : List (Fin 64)
  channels : Vector ChannelEntry 64
  kinds : Vector KindEntry 32
  watch : Vector WatchEntry 8
  transfer : Vector Byte 64
  threshold : Vector Byte 64
  weights : Weights
  panel : PanelTable
  touch : TouchTable
  events : EventTable
  lines : Vector LineEntry 4
  deriving DecidableEq, Repr, Inhabited

/-! ### Entries as TABLE-LOAD carries them (R175), through their owners' entry rules -/

/-- The allowed-forms field, bits 6..4 of a CHANNELS or KINDS byte (R175). -/
def formsOfByte (b : Byte) : FormSet := ⟨b.getLsbD 4, b.getLsbD 5, b.getLsbD 6⟩

/-- An ADDRESS entry; a number above 31 is stored as 31 (R122). -/
def addressOfBytes (b : List Byte) : AddressTable where
  valid := (byteAt b 0).getLsbD 0
  number := ⟨min (byteAt b 1).toNat 31, by omega⟩

/-- A CHANNELS entry; an undefined class code is BULK (R128). -/
def channelOfBytes (b : List Byte) : ChannelEntry where
  member := (byteAt b 0).getLsbD 0
  forms := formsOfByte (byteAt b 0)
  windows := byteAt b 1
  cls := if (byteAt b 0).extractLsb' 2 2 = 1 then .urgent else .bulk
  dedupe := (byteAt b 0).getLsbD 1

/-- A KINDS entry; an undefined disposition code is DISCARD (R126). -/
def kindOfByte (b : Byte) : KindEntry where
  disposition :=
    if b.extractLsb' 0 3 = 0 then .act
    else if b.extractLsb' 0 3 = 1 then .hand
    else if b.extractLsb' 0 3 = 2 then .actAndHand
    else .discard
  bypass := b.getLsbD 3
  forms := formsOfByte b

/-- A WATCH entry; a kind code of 32..255 makes it unused (R125). -/
def watchOfBytes (b : List Byte) : WatchEntry where
  kind := if h : (byteAt b 0).toNat < 32 then some ⟨(byteAt b 0).toNat, h⟩ else none
  unblank := (byteAt b 1).getLsbD 0

/-- The stored value of a THRESHOLD entry: 255 is stored as 254 (R44). -/
def thresholdOfByte (b : Byte) : Byte := if b = 255 then 254 else b

/-- One PANEL entry written, clamped as R75 and R93 give. -/
def PanelTable.write (p : PanelTable) (index : Nat) (v : Nat) : PanelTable :=
  match index with
  | 0 => { p with period := max 20 (min v 80) }
  | 1 => { p with settle := max 1 (min v 8) }
  | 2 => { p with retries := min v 3 }
  | 3 => { p with urgentLimit := max 1 (min v 15) }
  | 4 => { p with blankTimeout := v }
  | _ => p

/-- One TOUCH entry written (R107): a mask is the 16-bit field; debounce and report strays are in byte 1. -/
def TouchTable.write (t : TouchTable) (index : Nat) (b : List Byte) : TouchTable :=
  match index with
  | 0 => { t with fitX := wordAt b 0 }
  | 1 => { t with fitY := wordAt b 0 }
  | 2 => { t with debounce := max 1 (min (byteAt b 1).toNat 15) }
  | 3 => { t with strays := (byteAt b 1).getLsbD 0 }
  | _ => t

/-- One EVENTS entry written: the mask of event `index`, or the edge-select of event `index` − 32; a code other than
RISE and BOTH is BOTH (R147). -/
def EventTable.write (t : EventTable) (index : Nat) (b : Byte) : EventTable :=
  if index < 32 then { t with mask := withEventBit t.mask index (b.getLsbD 0) }
  else { t with edges := t.edges.setIfInBounds (index - 32) (if b = 0 then .rise else .both) }

/-- A LINES entry of a line: code 1 is OUTPUT, code 2 is ATTENTION on line 3, and every other code is INPUT (R164). -/
def lineOfByte (line : Nat) (b : Byte) : LineEntry where
  config :=
    if b.extractLsb' 0 2 = 1 then .output
    else if b.extractLsb' 0 2 = 2 && line == 3 then .attention
    else .input
  report := b.getLsbD 2
  latchDefault := b.getLsbD 3

/-- The sum of the four weights. -/
def Weights.sum (w : Weights) : Nat := w.wR + w.wBL + w.wB + w.wBR

/-- Step 1 of R46: one entry stored, above 16 as 16. -/
def Weights.write (w : Weights) (index : Nat) (v : Nat) : Weights :=
  match index with
  | 0 => { w with wR := min v 16 }
  | 1 => { w with wBL := min v 16 }
  | 2 => { w with wB := min v 16 }
  | 3 => { w with wBR := min v 16 }
  | _ => w

/-- Step 2 of R46: the excess of the sum over 16 is taken from wR, then wB, then wBL, then wBR. -/
def Weights.reduce (w : Weights) : Weights :=
  let e0 := w.sum - 16
  let e1 := e0 - w.wR
  let e2 := e1 - w.wB
  let e3 := e2 - w.wBL
  { wR := w.wR - e0, wB := w.wB - e1, wBL := w.wBL - e2, wBR := w.wBR - e3 }

/-! ### Factory defaults -/

/-- The factory KINDS table (R126). -/
def factoryKinds : Vector KindEntry 32 :=
  tabulate fun k =>
    if k.val = 0 then ⟨.act, true, .every⟩
    else if k.val ≤ 9 then ⟨.act, false, .every⟩
    else if k.val = 10 then ⟨.hand, false, .every⟩
    else if k.val ≤ 19 then ⟨.act, true, .every⟩
    else ⟨.discard, false, .every⟩

/-- The factory CHANNELS table (R128). -/
def factoryChannels : Vector ChannelEntry 64 :=
  tabulate fun c => ⟨c.val == 0, .every, BitVec.allOnes 8, .bulk, true⟩

/-- The factory TRANSFER tables: 17 × L in each (R39). -/
def factoryTransfer : Vector Byte 64 := tabulate fun i => BitVec.ofNat 8 (17 * (i.val % 16))

/-- The factory threshold matrix, row by row (R45). -/
def factoryThreshold : Vector Byte 64 :=
  #v[  1, 129,  33, 161,   9, 137,  41, 169,
     193,  65, 225,  97, 201,  73, 233, 105,
      49, 177,  17, 145,  57, 185,  25, 153,
     241, 113, 209,  81, 249, 121, 217,  89,
      13, 141,  45, 173,   5, 133,  37, 165,
     205,  77, 237, 109, 197,  69, 229, 101,
      61, 189,  29, 157,  53, 181,  21, 149,
     253, 125, 221,  93, 245, 117, 213,  85]

/-- The factory diffusion weights (R39). -/
def factoryWeights : Weights := { wR := 8, wBL := 2, wB := 4, wBR := 2 }

/-- The factory PANEL table (R75, R93). -/
def factoryPanel : PanelTable :=
  { period := 40, settle := 2, retries := 2, urgentLimit := 4, blankTimeout := 0 }

/-- The factory TOUCH table (R107). -/
def factoryTouch : TouchTable :=
  { fitX := BitVec.allOnes 16, fitY := BitVec.allOnes 16, debounce := 3, strays := false }

/-- The factory EVENTS table: every mask enabled but that of FILTERED, event 11; every edge-select BOTH (R147). -/
def factoryEvents : EventTable :=
  { mask := ~~~(eventBit 11), edges := .replicate 8 .both }

/-- The factory defaults of the twelve stored-class tables. -/
def factoryTables : StoredTables where
  address := ⟨false, 0⟩
  groups := []
  channels := factoryChannels
  kinds := factoryKinds
  watch := .replicate 8 ⟨none, false⟩
  transfer := factoryTransfer
  threshold := factoryThreshold
  weights := factoryWeights
  panel := factoryPanel
  touch := factoryTouch
  events := factoryEvents
  lines := .replicate 4 ⟨.input, false, false⟩

/-! ### The bytes of the tables under the stored image's CRC

R167 forms the image's CRC "over the image's table values" and gives no layout of the image. DESIGN CHOICE (log 11):
the tables in TABLE-LOAD id order, each entry in the bytes R175 gives a load entry, the group list led by its length. -/

/-- The bits 6..4 of a forms field. -/
def FormSet.bits (f : FormSet) : Byte := flagBit f.individual 4 ||| flagBit f.group 5 ||| flagBit f.all 6

def AddressTable.bytes (a : AddressTable) : List Byte := [flagBit a.valid 0, byteOf a.number.val]

def ChannelEntry.bytes (c : ChannelEntry) : List Byte :=
  [flagBit c.member 0 ||| flagBit c.dedupe 1 ||| flagBit (c.cls == .urgent) 2 ||| c.forms.bits, c.windows]

/-- The disposition codes of R175. -/
def Disposition.code : Disposition → Byte
  | .act => 0
  | .hand => 1
  | .actAndHand => 2
  | .discard => 3

def KindEntry.byte (k : KindEntry) : Byte := k.disposition.code ||| flagBit k.bypass 3 ||| k.forms.bits

def WatchEntry.bytes (w : WatchEntry) : List Byte :=
  [match w.kind with
    | some k => byteOf k.val
    | none => 0xFF,
   flagBit w.unblank 0]

def Weights.bytes (w : Weights) : List Byte := [byteOf w.wR, byteOf w.wBL, byteOf w.wB, byteOf w.wBR]

def PanelTable.bytes (p : PanelTable) : List Byte :=
  [byteOf p.period, byteOf p.settle, byteOf p.retries, byteOf p.urgentLimit, byteOf p.blankTimeout]

def TouchTable.bytes (t : TouchTable) : List Byte :=
  wordBytes t.fitX ++ wordBytes t.fitY ++ [0, byteOf t.debounce, 0, flagBit t.strays 0]

def EventTable.bytes (t : EventTable) : List Byte :=
  (List.range 32).map (fun n => flagBit (t.mask.getLsbD n) 0) ++
    t.edges.toList.map (fun e => flagBit (e == .both) 0)

/-- The configuration codes of R175. -/
def LineConfig.code : LineConfig → Byte
  | .input => 0
  | .output => 1
  | .attention => 2

def LineEntry.byte (l : LineEntry) : Byte := l.config.code ||| flagBit l.report 2 ||| flagBit l.latchDefault 3

/-- The bytes the stored image's CRC is formed over (R167, log 11). -/
def StoredTables.bytes (t : StoredTables) : List Byte :=
  t.address.bytes ++ (byteOf t.groups.length :: t.groups.map (fun g => byteOf g.val)) ++
    t.channels.toList.flatMap ChannelEntry.bytes ++ t.kinds.toList.map KindEntry.byte ++
    t.watch.toList.flatMap WatchEntry.bytes ++ t.transfer.toList ++ t.threshold.toList ++ t.weights.bytes ++
    t.panel.bytes ++ t.touch.bytes ++ t.events.bytes ++ t.lines.toList.map LineEntry.byte

/-- The CRC that a good stored image of these tables carries (R167). -/
def StoredTables.crc (t : StoredTables) : BitVec 16 := crc16 t.bytes

end Sys2Proof.Machine
end

