-- ==== Sys2Proof/Config.lean ====
section
/-! DEFINITION. What the part fixes (capacities) and the free values the manual leaves open. -/

namespace Sys2Proof.Config

/-- The render queue holds up to 8 work items (R19). -/
abbrev renderQueueCap : Nat := 8

/-- The echo queue holds up to 4 requests (R21). -/
abbrev echoQueueCap : Nat := 4

/-- The stripe hold queue holds up to 4 stripes (R22). -/
abbrev holdQueueCap : Nat := 4

/-- The sense queue holds at most 4 row services (R82). -/
abbrev senseQueueCap : Nat := 4

/-- The fault row list holds at most 8 row numbers (R87). -/
abbrev faultListCap : Nat := 8

/-- The upstream queue holds up to 16 reports (R153). -/
abbrev upstreamCap : Nat := 16

/-- The accessory buffer's room in bytes (R158). -/
abbrev accessoryCap : Nat := 256

/-- The group list holds up to 8 group numbers (R124). -/
abbrev groupListCap : Nat := 8

/-- The commit count never exceeds 10,000 (R167). -/
abbrev commitLimit : Nat := 10000

/-- The longest body of a block (R137, R138). -/
abbrev maxBody : Nat := 240

/-- The value at which the blank timer stops counting: 255 × 600 (R103). -/
abbrev blankTimerMax : Nat := 153000

/-- CADENCE notices to a minute of blank timeout (R103). -/
abbrev noticesPerMinute : Nat := 600

/-- A channel's lapse count and a CLOSING slot's count run out at 8 (R132, R36). -/
abbrev lapseLimit : Nat := 8

/-- An OPEN slot's idle count runs out at 50 (R37). -/
abbrev idleLimit : Nat := 50

/-- FREE VALUE (log 12): the table values that a programming stopped part way by a power-on reset leaves in the
stored image (R170 says only that its CRC fails). The argument is the number of such interruptions so far. -/
opaque partialImage : Nat → Machine.StoredTables

/-- FREE VALUE (log 12): how far the CRC left by a stopped programming lies beyond the next one after the right CRC:
adding this and one to the right CRC gives a CRC that fails (R170). -/
opaque partialCrcSlip : Nat → Fin 65535

/-- FREE VALUE (log 28): whether, with no command waiting, the row engine makes the next start attempt of the address slot
before the render engine goes on with its piece of work; no rule orders the two (R14, R77). The argument is the number of
such choices so far. -/
opaque attemptFirst : Nat → Bool

end Sys2Proof.Config
end

