-- ==== Sys2Proof/Machine/State.lean ====
section
/-! DEFINITION. The state of the FP-512, block by block as the manual's block overview names them, the reasons a step
can stop, and the state right after reset. -/

namespace Sys2Proof.Machine

/-! ### Line receiver (chapter 9) -/

/-- The line receiver's four states (R137). -/
inductive RxState where
  | hunting
  | header
  | body
  | check
  deriving DecidableEq, Repr

/-- A timer measured in absolute time: it stands, or it runs from its last restart. How far it has run is not held:
the command of its expiry says when it has run out (log 7). -/
inductive Timer where
  | stands
  | running
  deriving DecidableEq, Repr

/-- The line receiver. -/
structure LineReceiver where
  /-- the line rate, as the rate strap was at power-on reset (R136) -/
  rate : LineRate
  state : RxState
  /-- the bytes of the block being assembled, after its lead, in the order they came (R137) -/
  held : List Byte
  /-- the line-silence timer (R141) -/
  silence : Timer
  linePresent : Bool
  /-- the last cadence count (R142) -/
  lastCount : BitVec 16
  deriving DecidableEq, Repr

/-! ### Block classifier (chapter 8) -/

/-- Where the effective terminal number comes from (R120). -/
inductive NumberSource where
  | straps
  | override
  | service
  deriving DecidableEq, Repr

/-- One record of the channel state table (R130). -/
structure ChannelState where
  lastSeq : Option Byte
  present : Bool
  /-- the lapse count, 0..8 -/
  lapse : Nat
  deriving DecidableEq, Repr

/-- The block classifier. -/
structure Classifier where
  /-- the 5 terminal straps as sampled at power-on reset (R120) -/
  strap : Fin 32
  /-- the effective terminal number and its source (R120) -/
  number : Fin 32
  source : NumberSource
  /-- the accepted level of the service line, and the last sample taken of it (R121) -/
  serviceAccepted : Bool
  serviceLast : Bool
  address : AddressTable
  groups : List (Fin 64)
  channels : Vector ChannelEntry 64
  kinds : Vector KindEntry 32
  watch : Vector WatchEntry 8
  chanState : Vector ChannelState 64
  deriving DecidableEq, Repr

/-! ### Render engine (chapters 1 to 4) -/

/-- The three planes (R1). -/
inductive PlaneId where
  | image
  | text
  | mark
  deriving DecidableEq, Repr

/-- A rectangle of the panel, edges included (R4). -/
structure Rect where
  x0 : RowNo
  y0 : RowNo
  x1 : RowNo
  y1 : RowNo
  deriving DecidableEq, Repr

/-- How a window combines IMAGE and TEXT (R4, R9). -/
inductive TextMode where
  | or
  | xor
  | mask
  deriving DecidableEq, Repr

/-- One record of the window table (R4). -/
structure Window where
  enabled : Bool
  rect : Rect
  showImage : Bool
  showText : Bool
  showMark : Bool
  mode : TextMode
  deriving DecidableEq, Repr

/-- The halftone methods (R17). -/
inductive Method where
  | threshold
  | diffusion
  deriving DecidableEq, Repr

/-- The parameters an IMAGE-OPEN gives a slot: those R26 compares, each after clamping. -/
structure ImageParams where
  channel : Fin 64
  window : Fin 8
  /-- source width, height, each 1..512 -/
  width : Nat
  height : Nat
  /-- scale, 1..4 -/
  scale : Nat
  /-- origin, each 0..511 -/
  x0 : Nat
  y0 : Nat
  method : Method
  /-- transfer select -/
  select : Fin 4
  /-- stripe rows n, 1..16 -/
  rows : Nat
  deriving DecidableEq, Repr

/-- The states of a context slot (R17). -/
inductive SlotState where
  | free
  | opened
  | closing
  deriving DecidableEq, Repr

/-- One slot of the image context table (R17). The stripe count is a function of the parameters
(`ImageParams.stripeCount`). -/
structure Slot where
  state : SlotState
  image : Byte
  params : ImageParams
  received : StripeSet
  /-- the next expected stripe e -/
  next : Nat
  /-- the diffusion error row -/
  err : Vector Int 512
  /-- the last-activity count -/
  activity : BitVec 16
  /-- cadences idle, 0..50 -/
  idle : Nat
  /-- cadences closing, 0..8 -/
  closing : Nat
  deriving DecidableEq, Repr

/-- What a render work item asks for (R19): the queued kinds, PANEL-CONTROL and TABLE-LOAD by what they carry. -/
inductive WorkKind where
  | imageOpen
  | imageStripe
  | imageClose
  | imageAbort
  | text
  | fill
  | windowSet
  | eraseAll
  | transferLoad
  | thresholdLoad
  | weightsLoad
  | glyphsLoad
  deriving DecidableEq, Repr

/-- A render work item (R19). -/
structure WorkItem where
  kind : WorkKind
  channel : Fin 64
  cls : MarkClass
  body : List Byte
  deriving DecidableEq, Repr

/-- An echo request (R21). -/
structure EchoRequest where
  set : Fin 4
  code : Fin 128
  x : RowNo
  y : RowNo
  deriving DecidableEq, Repr

/-- A held stripe (R22): decoded and fitted. -/
structure HeldStripe where
  image : Byte
  index : Nat
  /-- the grey levels 0..15, row by row -/
  levels : List (Fin 16)
  cls : MarkClass
  deriving DecidableEq, Repr

/-- A glyph (R56). -/
structure Glyph where
  loaded : Bool
  /-- 16 rows from the top, the leftmost cell in bit 7 -/
  rows : Vector Byte 16
  deriving DecidableEq, Repr

/-- A notice that the render engine holds until its piece of work ends (R24, R55). -/
inductive Notice where
  | cadence
  | factory
  deriving DecidableEq, Repr

/-- How a row write makes the new bits of its cells. -/
inductive CellOp where
  /-- the cells of `cells` take the bits of `bits` -/
  | put (cells bits : RowBits)
  /-- the cells become set -/
  | set (cells : RowBits)
  /-- the cells become clear -/
  | clear (cells : RowBits)
  /-- the cells are inverted -/
  | invert (cells : RowBits)
  deriving DecidableEq, Repr

/-- A row write: one row of one plane, taken whole (R3). -/
structure RowWrite where
  plane : PlaneId
  row : RowNo
  op : CellOp
  deriving DecidableEq, Repr

/-- The image context table with the stripes that belong to it: the slots, the hold queue and the ready stripe
(R17, R22). -/
structure Contexts where
  slots : Vector Slot 4
  held : List HeldStripe
  ready : Option HeldStripe
  deriving DecidableEq, Repr

/-- One thing that the piece of work in progress has still to do (R14, R24; log 5). -/
inductive Stage where
  /-- a row write, marked with the class of its writer (R3, R14) -/
  | write (c : MarkClass) (w : RowWrite)
  /-- a rendering has ended, and the contexts take what it leaves (R31 to R33) -/
  | contexts (c : Contexts)
  /-- the place is reached where a TEXT's codes are lost (R62) -/
  | textClipped
  deriving DecidableEq, Repr

/-- The render engine. -/
structure Render where
  image : Plane
  text : Plane
  mark : Plane
  windows : Vector Window 8
  slots : Vector Slot 4
  /-- the render queue, the head first (R19) -/
  queue : List WorkItem
  /-- the echo queue, the head first (R21) -/
  echoes : List EchoRequest
  /-- the stripe hold queue, in placing order (R22) -/
  held : List HeldStripe
  /-- the ready stripe (R22) -/
  ready : Option HeldStripe
  transfer : Vector Byte 64
  threshold : Vector Byte 64
  weights : Weights
  /-- the glyph store: glyph (set, code) is entry set × 128 + code (R56) -/
  glyphs : Vector Glyph 512
  /-- a piece of work that has been taken has not ended yet (R24, log 5) -/
  busy : Bool
  /-- what that piece has still to do, in order (R14, log 5) -/
  stages : List Stage
  /-- the notices held for the end of that piece, in arrival order (R24, R55) -/
  notices : List Notice
  deriving DecidableEq, Repr

/-! ### Row engine (chapter 5) -/

/-- The two address operations (R76). -/
inductive OpKind where
  | write
  | erase
  deriving DecidableEq, Repr

/-- An address operation on the listed columns of one row (R76). -/
structure AddressOp where
  kind : OpKind
  row : RowNo
  columns : RowBits
  deriving DecidableEq, Repr

/-- The phase of a row service (R82). -/
inductive Phase where
  /-- its remaining operation, a WRITE of these columns, is not issued yet (R81) -/
  | issuing (rest : RowBits)
  /-- `none` until the settle wait begins at the end of the running cycle, then the cycles left, the running one
  included (R83) -/
  | settling (left : Option Nat)
  /-- refresh operations of it are pending (R85) -/
  | refreshing
  deriving DecidableEq, Repr

/-- A row service in the sense queue (R82). -/
structure Service where
  row : RowNo
  target : RowBits
  /-- the expected count E -/
  expected : Nat
  /-- the retry count, 0..3 -/
  retries : Nat
  phase : Phase
  deriving DecidableEq, Repr

/-- The row engine (R70). -/
structure RowEngine where
  urgent : List RowNo
  bulk : List RowNo
  /-- the urgent-run count, 0..15 -/
  run : Nat
  /-- the sense queue, in order of start -/
  sense : List Service
  /-- the pending retry operations; an operation's row names its service (R82: one service of a row at a time) -/
  retry : List AddressOp
  /-- the panel mirror: `none` is unknown (R74) -/
  mirror : Vector (Option RowBits) 512
  /-- the fault row list -/
  faults : List RowNo
  /-- the operation issued in the running cycle's address slot (R70, R90: "an address operation being issued") -/
  slotOp : Option AddressOp
  /-- the operation issued in the address slot of the cycle before, when that slot had ended (R76, R77; log 28) -/
  prevOp : Option AddressOp
  /-- a sense was returned at the end of the running cycle (R83: one row per sustain cycle) -/
  sensed : Bool
  /-- the running cycle's address slot has had a start attempt with nothing to do, and none since that used or ended it
  (R77: a further start attempt is made in the same slot; log 28) -/
  attempting : Bool
  deriving DecidableEq, Repr

/-! ### Panel sequencer (chapter 6) -/

/-- The panel states (chapter 6.1). -/
inductive PanelState where
  | off
  | starting
  | running
  | blanking
  | blanked
  deriving DecidableEq, Repr

/-- The panel sequencer (R92), with the PANEL table, whose settle, retries and run limit the row engine reads. -/
structure Sequencer where
  state : PanelState
  /-- the power-good level last seen -/
  powerGood : Bool
  /-- the sweep position, 0..512 -/
  sweepPos : Nat
  /-- an erase sweep has begun and is not complete (R94, R99) -/
  sweeping : Bool
  /-- the blank timer, 0..153,000 -/
  blankTimer : Nat
  panel : PanelTable
  /-- the length in µs of the sustain cycle in progress, if there is one (R93) -/
  cycle : Option Nat
  deriving DecidableEq, Repr

/-! ### Touch unit (chapter 7) -/

/-- The debounce state of one beam (R106). -/
structure Beam where
  /-- accepted as broken -/
  broken : Bool
  /-- the change count, 0..15 -/
  count : Nat
  deriving DecidableEq, Repr

/-- A zone's echo part (R113). -/
structure EchoPart where
  set : Fin 4
  code : Fin 128
  x : RowNo
  y : RowNo
  deriving DecidableEq, Repr

/-- A response zone record (R113). -/
structure Zone where
  armed : Bool
  tx0 : Fin 16
  ty0 : Fin 16
  tx1 : Fin 16
  ty1 : Fin 16
  code : Byte
  oneShot : Bool
  echo : Option EchoPart
  deriving DecidableEq, Repr

/-- The touch unit (R106). -/
structure Touch where
  xBeams : Vector Beam 16
  yBeams : Vector Beam 16
  pressHeld : Bool
  table : TouchTable
  zones : Vector Zone 16
  deriving DecidableEq, Repr

/-! ### Event unit (chapter 10) -/

/-- The event unit (R144): bit n of a set is event n. -/
structure EventUnit where
  raw : BitVec 32
  latched : BitVec 32
  table : EventTable
  attention : Bool
  /-- the last watch hit (R125) -/
  lastWatch : Option (Fin 8)
  deriving DecidableEq, Repr

/-! ### Return line transmitter (chapter 10) -/

/-- One context's summary in a STATUS report (R152). -/
structure SlotSummary where
  state : SlotState
  image : Byte
  received : Nat
  deriving DecidableEq, Repr

/-- The commit state as STATUS reports it (R167). -/
inductive StoreState where
  | idle
  | programming
  deriving DecidableEq, Repr

/-- The fields of a STATUS report (R152). -/
structure StatusFields where
  number : Fin 32
  source : NumberSource
  panel : PanelState
  raw : BitVec 32
  latched : BitVec 32
  mask : BitVec 32
  lastWatch : Option (Fin 8)
  slots : Vector SlotSummary 4
  renderDepth : Nat
  upstreamDepth : Nat
  store : StoreState
  commits : Nat
  lineLevels : Vector Bool 4
  count : BitVec 16
  faults : List RowNo
  deriving DecidableEq, Repr

/-- A report of the upstream queue (R153). -/
inductive Report where
  /-- `none` is the zone of a stray (R116, R117) -/
  | touch (zone : Option (Fin 16)) (code : Byte) (tx ty : Fin 16) (count : BitVec 16)
  | line (number : Fin 4) (level : Bool) (count : BitVec 16)
  | status (fields : StatusFields)
  deriving DecidableEq, Repr

/-- The transmitter's states (R154). -/
inductive TxState where
  | waiting
  | qualifying
  | sending
  | spent
  deriving DecidableEq, Repr

/-- A frame in transmission: its bytes, fixed when it began, and whether it carries the head report (R154, R178). -/
structure Frame where
  bytes : List Byte
  carriesReport : Bool
  deriving DecidableEq, Repr

/-- The return line transmitter. -/
structure Transmitter where
  state : TxState
  queue : List Report
  frame : Option Frame
  deriving DecidableEq, Repr

/-! ### Accessory port and signal lines (chapter 11) -/

/-- The handshake states (R159). -/
inductive Handshake where
  | idle
  | holding
  | strobed
  | stalled
  deriving DecidableEq, Repr

/-- The accessory port (R157). The strobe and the data lines are functions of these (`AccessoryPort.strobe`,
`AccessoryPort.dataLines`). -/
structure AccessoryPort where
  /-- the accessory-fitted strap as sampled at power-on reset -/
  fitted : Bool
  /-- the buffer; the head is the byte offered next, or the byte on the data lines -/
  buffer : List Byte
  state : Handshake
  ackTimer : Timer
  stalled : Bool
  /-- the accepted level of the fault line, and the last sample taken of it (R160) -/
  faultAccepted : Bool
  faultLast : Bool
  /-- the level of the busy line, as its last change left it (R159) -/
  busy : Bool
  deriving DecidableEq, Repr

/-- One signal line (R161). -/
structure SignalLine where
  /-- its LINES entry: configuration, report flag, latch default -/
  entry : LineEntry
  latch : Bool
  /-- `none` is a cleared last sample (R164) -/
  lastSample : Option Bool
  accepted : Bool
  deriving DecidableEq, Repr

/-! ### Configuration store (chapter 12) -/

/-- The stored image (R167). -/
structure StoredImage where
  tables : StoredTables
  crc : BitVec 16
  deriving DecidableEq, Repr

/-- The commit state (R167): PROGRAMMING holds the commit snapshot and its timer runs. -/
inductive CommitState where
  | idle
  | programming (snapshot : StoredTables)
  deriving DecidableEq, Repr

/-- The configuration store. -/
structure Store where
  image : StoredImage
  commits : Nat
  commit : CommitState
  /-- THE MODEL'S OWN: how often a programming has been stopped part way; it picks the next free value (log 12) -/
  interruptions : Nat
  deriving DecidableEq, Repr

/-! ### The whole part -/

/-- The FP-512, with the levels last seen on the input lines that a terminal reset samples (log 20), and the queue of
the commands that wait, first in, first out. -/
structure State where
  rx : LineReceiver
  cls : Classifier
  ren : Render
  row : RowEngine
  seq : Sequencer
  touch : Touch
  ev : EventUnit
  tx : Transmitter
  acc : AccessoryPort
  lines : Vector SignalLine 4
  store : Store
  pins : InputLevels
  /-- THE MODEL'S OWN: how often a step on an empty queue has chosen between the row engine and the render engine; it
  picks the next free value (log 28) -/
  choices : Nat
  pending : List Instr
  deriving DecidableEq, Repr

/-- The faults of the part. There are none: the manual names no condition that stops the part, and every command has
an effect in every state (log 1). -/
inductive Fault where
  deriving DecidableEq, Repr

/-- The refusals of the model. -/
inductive Refusal where
  /-- raised by `exec` for a command that has no meaning in the model yet; safe: nothing is claimed of that command.
  No command is refused: every row of the table has its meaning. -/
  | notModelled (mnemonic : String)
  deriving DecidableEq, Repr

/-! ### Reset -/

/-- A window record that is not in use (R4). -/
def Window.unused : Window := ⟨false, ⟨0, 0, 0, 0⟩, false, false, false, .or⟩

/-- Window 0 after a reset (R4). -/
def Window.whole : Window := ⟨true, ⟨0, 0, 511, 511⟩, true, true, true, .or⟩

/-- The parameters of a slot that no IMAGE-OPEN has written (R18: not used; DESIGN CHOICE, log 13). -/
def ImageParams.unset : ImageParams := ⟨0, 0, 1, 1, 1, 0, 0, .threshold, 0, 1⟩

/-- A slot after a reset (R18). -/
def Slot.reset : Slot := ⟨.free, 0, .unset, 0, 0, .replicate 512 0, 0, 0, 0⟩

/-- A glyph after a reset (R56). -/
def Glyph.unloaded : Glyph := ⟨false, .replicate 16 0⟩

/-- A zone after a reset (R114). -/
def Zone.unset : Zone := ⟨false, 0, 0, 0, 0, 0, false, none⟩

/-- A channel state record after a reset (R130). -/
def ChannelState.reset : ChannelState := ⟨none, false, 0⟩

/-- A plane with every bit clear (R2). -/
def blankPlane : Plane := .replicate 512 0

/-- The planes, the windows, the contexts, the queues and the glyph store after a reset (R2, R4, R18, R19, R21, R22,
R56), with given halftone tables (R39). -/
def Render.reset (t : StoredTables) : Render where
  image := blankPlane
  text := blankPlane
  mark := blankPlane
  windows := (Vector.replicate 8 Window.unused).set 0 Window.whole
  slots := .replicate 4 .reset
  queue := []
  echoes := []
  held := []
  ready := none
  transfer := t.transfer
  threshold := t.threshold
  weights := t.weights
  glyphs := .replicate 512 .unloaded
  busy := false
  stages := []
  notices := []

/-- The row engine after a reset (R70). -/
def RowEngine.reset : RowEngine where
  urgent := []
  bulk := []
  run := 0
  sense := []
  retry := []
  mirror := .replicate 512 none
  faults := []
  slotOp := none
  prevOp := none
  sensed := false
  attempting := false

/-- The touch unit after a reset, with a given TOUCH table (R106, R114). -/
def Touch.reset (t : TouchTable) : Touch where
  xBeams := .replicate 16 ⟨false, 0⟩
  yBeams := .replicate 16 ⟨false, 0⟩
  pressHeld := false
  table := t
  zones := .replicate 16 .unset

/-- The state right after a power-on reset of a part whose every input is low or released (log 2) and whose stored
image is good and holds the factory values (log 3). -/
def State.reset : State where
  rx := { rate := .bps19200, state := .hunting, held := [], silence := .stands, linePresent := false, lastCount := 0 }
  cls :=
    { strap := 0, number := 0, source := .straps, serviceAccepted := false, serviceLast := false
      address := factoryTables.address, groups := [], channels := factoryChannels, kinds := factoryKinds
      watch := factoryTables.watch, chanState := .replicate 64 .reset }
  ren := .reset factoryTables
  row := .reset
  seq :=
    { state := .off, powerGood := false, sweepPos := 0, sweeping := false, blankTimer := 0, panel := factoryPanel
      cycle := none }
  touch := .reset factoryTouch
  ev := { raw := 0, latched := 0, table := factoryEvents, attention := false, lastWatch := none }
  tx := { state := .waiting, queue := [], frame := none }
  acc :=
    { fitted := false, buffer := [], state := .idle, ackTimer := .stands, stalled := false, faultAccepted := false
      faultLast := false, busy := false }
  lines := .replicate 4 ⟨⟨.input, false, false⟩, false, some false, false⟩
  store :=
    { image := ⟨factoryTables, factoryTables.crc⟩, commits := 0, commit := .idle, interruptions := 0 }
  pins := ⟨false, false, 0, false⟩
  choices := 0
  pending := []

end Sys2Proof.Machine
end

