-- ==== Sys2Proof/Machine/Flags.lean ====
section
/-! DEFINITION. The event unit's flags: raw values, latched statuses, masks and attention (chapter 10.1, 10.2). -/

namespace Sys2Proof.Machine

/-- The level events, 0..7 (R144). -/
inductive LevelEvent where
  | linePresent
  | panelPower
  | serviceLine
  | accessoryFault
  | lineIn (line : Fin 4)
  deriving DecidableEq, Repr

/-- A level event's number (R144). -/
def LevelEvent.num : LevelEvent → Nat
  | .linePresent => 0
  | .panelPower => 1
  | .serviceLine => 2
  | .accessoryFault => 3
  | .lineIn n => 4 + n.val

/-- The edge events, 8..31 (R144). -/
inductive EdgeEvent where
  | checkError
  | formatError
  | unknownKind
  | filtered
  | renderOverrun
  | stripeShort
  | stripeLong
  | stripeDiscarded
  | imageNew
  | imageEvicted
  | imageIncomplete
  | textClipped
  | tableClipped
  | rowFault
  | faultListFull
  | lessonLapse
  | watchHit
  | touchAmbiguous
  | reportOverflow
  | accessoryOverflow
  | storeRefused
  | storeCorrupt
  | storeDone
  | test
  deriving DecidableEq, Repr

/-- An edge event's number (R144). -/
def EdgeEvent.num : EdgeEvent → Nat
  | .checkError => 8
  | .formatError => 9
  | .unknownKind => 10
  | .filtered => 11
  | .renderOverrun => 12
  | .stripeShort => 13
  | .stripeLong => 14
  | .stripeDiscarded => 15
  | .imageNew => 16
  | .imageEvicted => 17
  | .imageIncomplete => 18
  | .textClipped => 19
  | .tableClipped => 20
  | .rowFault => 21
  | .faultListFull => 22
  | .lessonLapse => 23
  | .watchHit => 24
  | .touchAmbiguous => 25
  | .reportOverflow => 26
  | .accessoryOverflow => 27
  | .storeRefused => 28
  | .storeCorrupt => 29
  | .storeDone => 30
  | .test => 31

/-- The events whose raw value EVENT-CLEAR clears: the edge events, 8..31 (R149). -/
def edgeEventSet : BitVec 32 := 0xFFFFFF00#32

/-- The latched statuses written; attention is true exactly when one is set (R148). -/
def EventUnit.withLatched (u : EventUnit) (latched : BitVec 32) : EventUnit :=
  { u with latched := latched, attention := latched != 0 }

/-- An occurrence of an edge event: its raw value becomes true, and it becomes latched if its mask is enabled (R146). -/
def EventUnit.occur (e : EdgeEvent) (u : EventUnit) : EventUnit :=
  { u with raw := u.raw ||| eventBit e.num }.withLatched
    (if u.table.mask.getLsbD e.num then u.latched ||| eventBit e.num else u.latched)

/-- Whether a change of a level event to `v` is one that latches it: its mask is enabled and its edge-select covers
the change (R145). -/
def EventUnit.covers (u : EventUnit) (e : LevelEvent) (v : Bool) : Bool :=
  u.table.mask.getLsbD e.num && (v || u.table.edges.getD e.num .both == .both)

/-- A level event's condition is v: its raw value follows, and a covered change latches it (R145). -/
def EventUnit.setLevel (e : LevelEvent) (v : Bool) (u : EventUnit) : EventUnit :=
  if u.raw.getLsbD e.num = v then u
  else
    { u with raw := withEventBit u.raw e.num v }.withLatched
      (if u.covers e v then u.latched ||| eventBit e.num else u.latched)

/-- EVENT-CLEAR of a set of events (R149): their latched statuses, and the raw values of the edge events among them. -/
def EventUnit.clear (named : BitVec 32) (u : EventUnit) : EventUnit :=
  { u with raw := u.raw &&& ~~~(named &&& edgeEventSet) }.withLatched (u.latched &&& ~~~named)

/-- The event unit after a reset (R151): nothing latched, the edge raws false, the level raws at their conditions
with no latch, the EVENTS table as reloaded. -/
def EventUnit.reset (t : EventTable) (levels : LevelEvent → Bool) : EventUnit where
  raw :=
    [LevelEvent.linePresent, .panelPower, .serviceLine, .accessoryFault, .lineIn 0, .lineIn 1, .lineIn 2, .lineIn 3].foldl
      (fun raw e => withEventBit raw e.num (levels e)) 0
  latched := 0
  table := t
  attention := false
  lastWatch := none

end Sys2Proof.Machine
end

