-- ==== Sys2Proof/Machine/Ops.lean ====
section
/-! DEFINITION. The named operations that several blocks share: latching an event, the composite of a row, dirty
marks, row writes and the stages of a piece of work, reports, and what derived lines and counts read. -/

namespace Sys2Proof.Machine

/-! ### Events -/

/-- An edge event occurs ("is latched", R144, R146). -/
def State.latch (e : EdgeEvent) (s : State) : State := { s with ev := s.ev.occur e }

/-- An edge event occurs if a condition holds. -/
def State.latchIf (c : Bool) (e : EdgeEvent) (s : State) : State := if c then s.latch e else s

/-- A level event's condition is v (R145). -/
def State.setLevel (e : LevelEvent) (v : Bool) (s : State) : State := { s with ev := s.ev.setLevel e v }

/-! ### The composite (chapter 1.3) -/

/-- The cell lies in the rectangle, edges included (R4). -/
def Rect.contains (r : Rect) (x y : Nat) : Bool :=
  r.x0.val ≤ x && x ≤ r.x1.val && r.y0.val ≤ y && y ≤ r.y1.val

/-- Row y crosses the rectangle. -/
def Rect.spansRow (r : Rect) (y : Nat) : Bool := r.y0.val ≤ y && y ≤ r.y1.val

/-- What a window shows of a row where it governs, before clipping to its columns (R9): the base by its text mode,
exclusive-or MARK, each plane counting as clear where it is not shown. -/
def Window.shows (w : Window) (image text mark : RowBits) : RowBits :=
  let i := if w.showImage then image else 0
  let t := if w.showText then text else 0
  let m := if w.showMark then mark else 0
  let base := match w.mode with
    | .or => i ||| t
    | .xor => i ^^^ t
    | .mask => i &&& ~~~t
  base ^^^ m

/-- The columns of row y that an enabled window covers (R8). -/
def Window.covered (w : Window) (y : Nat) : RowBits :=
  if w.enabled && w.rect.spansRow y then columns w.rect.x0.val w.rect.x1.val else 0

/-- The composite of row y (R8 to R10): window by window from 0 to 7, each overlaying those below it in the columns it
covers, so that the highest-numbered window governs; cells that no enabled window covers are off. -/
def Render.composite (r : Render) (y : RowNo) : RowBits :=
  r.windows.toList.foldl
    (fun acc w =>
      (acc &&& ~~~(w.covered y.val)) ||| (w.shows r.image[y] r.text[y] r.mark[y] &&& w.covered y.val))
    0

/-- The window that governs a cell (R8): the highest-numbered enabled window whose rectangle contains it. -/
def Render.governing (r : Render) (x y : Nat) : Option Window :=
  r.windows.toList.reverse.find? (fun w => w.enabled && w.rect.contains x y)

/-- The composite of one cell, cell by cell as R8 and R9 give it. -/
def Render.compositeCell (r : Render) (x y : RowNo) : Bool :=
  match r.governing x.val y.val with
  | none => false
  | some w =>
    let i := w.showImage && r.image[y].getLsbD x.val
    let t := w.showText && r.text[y].getLsbD x.val
    let m := w.showMark && r.mark[y].getLsbD x.val
    let base := match w.mode with
      | .or => i || t
      | .xor => i != t
      | .mask => i && !t
    base != m

/-! ### Dirty marks (chapter 5.2) -/

/-- A dirty mark of a class for a row, placed under the move rules (R72). -/
def RowEngine.mark (c : MarkClass) (y : RowNo) (r : RowEngine) : RowEngine :=
  match c with
  | .urgent =>
    if y ∈ r.urgent then r else { r with urgent := r.urgent ++ [y], bulk := r.bulk.erase y }
  | .bulk =>
    if y ∈ r.urgent ∨ y ∈ r.bulk then r else { r with bulk := r.bulk ++ [y] }

/-- Marks of one class, in order. -/
def RowEngine.markAll (c : MarkClass) (ys : List RowNo) (r : RowEngine) : RowEngine :=
  ys.foldl (fun r y => r.mark c y) r

/-- The rows 0..511 in increasing order. -/
def allRows : List RowNo := List.finRange 512

/-! ### Row writes (R3) -/

/-- The row after the write: cells not named keep their bits. -/
def CellOp.apply : CellOp → RowBits → RowBits
  | .put cells bits, old => (old &&& ~~~cells) ||| (bits &&& cells)
  | .set cells, old => old ||| cells
  | .clear cells, old => old &&& ~~~cells
  | .invert cells, old => old ^^^ cells

/-- Row y of a plane. -/
def Render.planeRow (p : PlaneId) (y : RowNo) (r : Render) : RowBits :=
  match p with
  | .image => r.image[y]
  | .text => r.text[y]
  | .mark => r.mark[y]

/-- Row y of a plane takes new bits. -/
def Render.setPlaneRow (p : PlaneId) (y : RowNo) (bits : RowBits) (r : Render) : Render :=
  match p with
  | .image => { r with image := r.image.set y bits }
  | .text => { r with text := r.text.set y bits }
  | .mark => { r with mark := r.mark.set y bits }

/-- One row write: a changing write is marked at once with the writer's class, and a write that changes no bit gives
no mark (R3, R11, R14). -/
def State.rowWrite (c : MarkClass) (s : State) (w : RowWrite) : State :=
  let old := s.ren.planeRow w.plane w.row
  let new := w.op.apply old
  if new = old then s
  else { s with ren := s.ren.setPlaneRow w.plane w.row new, row := s.row.mark c w.row }

/-! ### Stages of a piece of work (R14, R24; log 5) -/

/-- What the piece of work in progress has still to do, more of it. -/
def State.stage (more : List Stage) (s : State) : State :=
  { s with ren := { s.ren with stages := s.ren.stages ++ more } }

/-- The row writes of one drawing, still to be made, in order. -/
def State.rowWrites (c : MarkClass) (ws : List RowWrite) (s : State) : State := s.stage (ws.map (Stage.write c))

/-- The contexts as they stand. -/
def Render.contexts (r : Render) : Contexts := ⟨r.slots, r.held, r.ready⟩

/-- The contexts replaced. -/
def Render.withContexts (c : Contexts) (r : Render) : Render :=
  { r with slots := c.slots, held := c.held, ready := c.ready }

/-- One stage done. -/
def State.performStage (s : State) : Stage → State
  | .write c w => s.rowWrite c w
  | .contexts c => { s with ren := s.ren.withContexts c }
  | .textClipped => s.latch .textClipped

/-- Everything that the piece of work in progress has still to do is done, in order. -/
def State.perform (s : State) : State :=
  s.ren.stages.foldl State.performStage { s with ren := { s.ren with stages := [] } }

/-! ### Reports (R153) -/

/-- A report offered to the upstream queue: it joins the tail, or is lost to REPORT-OVERFLOW (R153). -/
def State.offer (r : Report) (s : State) : State :=
  if s.tx.queue.length < Config.upstreamCap then { s with tx := { s.tx with queue := s.tx.queue ++ [r] } }
  else s.latch .reportOverflow

/-! ### The effective terminal number (R120) -/

/-- The effective number and its source formed anew. -/
def Classifier.formNumber (c : Classifier) : Classifier :=
  if c.serviceAccepted then { c with number := 0, source := .service }
  else if c.address.valid then { c with number := c.address.number, source := .override }
  else { c with number := c.strap, source := .straps }

/-- The kind table that step 2 of classification reads (R121, R127). -/
def Classifier.kindsInUse (c : Classifier) : Vector KindEntry 32 :=
  if c.serviceAccepted then factoryKinds else c.kinds

/-! ### The accessory port's lines and fault condition -/

/-- The strobe is high in STROBED and STALLED (R159). -/
def AccessoryPort.strobe (a : AccessoryPort) : Bool :=
  match a.state with
  | .idle => false
  | .holding => false
  | .strobed => true
  | .stalled => true

/-- The byte on the eight data lines while the strobe is high: the head byte (R159). -/
def AccessoryPort.dataLines (a : AccessoryPort) : Option Byte := if a.strobe then a.buffer.head? else none

/-- The raw condition of ACCESSORY-FAULT (R160); false with no accessory fitted (R157). -/
def AccessoryPort.faultCondition (a : AccessoryPort) : Bool := a.fitted && (a.faultAccepted || a.stalled)

/-! ### The signal lines' levels -/

/-- A line's level as STATUS reports it (R161): its latch, its accepted level, or attention. -/
def SignalLine.level (attention : Bool) (l : SignalLine) : Bool :=
  match l.entry.config with
  | .output => l.latch
  | .input => l.accepted
  | .attention => attention

/-- The level a line drives, if it drives (R161, R163, R164). -/
def SignalLine.drives (attention : Bool) (l : SignalLine) : Option Bool :=
  match l.entry.config with
  | .output => some l.latch
  | .input => none
  | .attention => some attention

/-- The level of each signal line (R152, R161). -/
def State.lineLevels (s : State) : Vector Bool 4 := s.lines.map (SignalLine.level s.ev.attention)

/-! ### The contexts -/

/-- The stripe count, ceil(H / n) (R17, R25). -/
def ImageParams.stripeCount (p : ImageParams) : Nat := (p.height + p.rows - 1) / p.rows

/-- Every index of the stripe count is in the received-stripe set. -/
def Slot.complete (c : Slot) : Bool :=
  (List.range c.params.stripeCount).all (fun i => c.received.getLsbD i)

/-- The non-FREE slot that holds an image number (R26, R28, R35, R38). -/
def Render.findImage (n : Byte) (r : Render) : Option (Fin 4) :=
  (List.finRange 4).find? (fun k => r.slots[k].state != .free && r.slots[k].image == n)

/-- The held stripes of an image, and the ready stripe if it is the image's, dropped. -/
def Render.dropHeld (n : Byte) (r : Render) : Render :=
  { r with
    held := r.held.filter (fun h => h.image != n)
    ready := r.ready.filter (fun h => h.image != n) }

/-- A slot written. -/
def Render.setSlot (k : Fin 4) (c : Slot) (r : Render) : Render := { r with slots := r.slots.set k c }

/-- A slot becomes FREE: its number, parameters and received set stay, its held stripes and a ready stripe of it are
dropped (R18, R22). -/
def Render.freeSlot (k : Fin 4) (r : Render) : Render :=
  (r.setSlot k { r.slots[k] with state := .free }).dropHeld r.slots[k].image

end Sys2Proof.Machine
end

