-- ==== Sys2Proof/Machine/Operands.lean ====
section
/-! DEFINITION. The operand forms: a block's header fields, the bodies of the kinds (R175, R176), the range of a
TABLE-LOAD (R166), run bytes (R29), and the bytes of the reports (R177). -/

namespace Sys2Proof.Machine

/-! ### The header (R174) -/

/-- A block as the receiver hands it on: its header bytes, less the length, and its body. -/
structure Block where
  addr : Byte
  chan : Byte
  kind : Byte
  seq : Byte
  body : List Byte
  deriving DecidableEq, Repr

/-- The block of a command's operands. -/
def blockOf (h : Header) (kind : Byte) (body : List Byte) : Block := ⟨h.addr, h.chan, kind, h.seq, body⟩

/-- The address form: bits 7..6 of the address byte (R174). -/
def Block.form (b : Block) : AddrForm :=
  match (b.addr >>> 6).toNat with
  | 0 => .individual
  | 1 => .group
  | 2 => .all
  | _ => .fourth

/-- The address number: bits 5..0 of the address byte (R174). -/
def Block.number (b : Block) : Fin 64 := ⟨b.addr.toNat % 64, Nat.mod_lt _ (by decide)⟩

/-- The channel: bits 5..0 of the channel byte; the reserved bits are ignored (R174). -/
def Block.channel (b : Block) : Fin 64 := ⟨b.chan.toNat % 64, Nat.mod_lt _ (by decide)⟩

/-- The fixed part of a kind's body (R175); kinds with no layout, and kinds 10 and 20 on, have none. -/
def fixedPart (kind : Nat) : Nat :=
  match kind with
  | 0 => 2
  | 1 => 14
  | 2 => 3
  | 3 => 1
  | 4 => 1
  | 5 => 6
  | 6 => 11
  | 7 => 11
  | 8 => 1
  | 9 => 1
  | 11 => 4
  | 13 => 4
  | 15 => 1
  | _ => 0

/-- The window number that a kind's body carries, for the kinds whose window the channel check reads (R129). -/
def windowNumber (kind : Nat) (body : List Byte) : Option Nat :=
  match kind with
  | 1 => some (byteAt body 1).toNat
  | 5 => some (byteAt body 0).toNat
  | 6 => some (byteAt body 0).toNat
  | 7 => some (byteAt body 0).toNat
  | _ => none

/-! ### Rectangles (R6, R65, R115) -/

/-- A rectangle from four coordinates: clamped to 511, then an inverted pair is swapped (R6). -/
def rectOf (x0 y0 x1 y1 : Nat) : Rect where
  x0 := min (clampCell x0) (clampCell x1)
  y0 := min (clampCell y0) (clampCell y1)
  x1 := max (clampCell x0) (clampCell x1)
  y1 := max (clampCell y0) (clampCell y1)

/-- The rectangle at offset 3 of a FILL or WINDOW-SET body (R175). -/
def bodyRect (body : List Byte) : Rect :=
  rectOf (wordAt body 3).toNat (wordAt body 5).toNat (wordAt body 7).toNat (wordAt body 9).toNat

/-! ### Drawing bodies -/

/-- The window number of a body's first byte, if it is 0..7. -/
def window8 (b : Byte) : Option (Fin 8) := if h : b.toNat < 8 then some ⟨b.toNat, h⟩ else none

/-- The record that a WINDOW-SET body gives (R5, R175). -/
def windowOfBody (body : List Byte) : Window where
  enabled := (byteAt body 1).getLsbD 0
  rect := bodyRect body
  showImage := (byteAt body 1).getLsbD 1
  showText := (byteAt body 1).getLsbD 2
  showMark := (byteAt body 1).getLsbD 3
  mode :=
    if byteAt body 2 = 1 then .xor
    else if byteAt body 2 = 2 then .mask
    else .or

/-- The parameters of an IMAGE-OPEN, checked and clamped (R25): none where the window is above 7 or W or H is 0. -/
def imageParamsOf (channel : Fin 64) (body : List Byte) : Option ImageParams :=
  match window8 (byteAt body 1) with
  | none => none
  | some window =>
    let w := (wordAt body 2).toNat
    let h := (wordAt body 4).toNat
    if w = 0 ∨ h = 0 then none
    else
      some
        { channel := channel
          window := window
          width := min w 512
          height := min h 512
          scale := max 1 (min (byteAt body 6).toNat 4)
          x0 := min (wordAt body 7).toNat 511
          y0 := min (wordAt body 9).toNat 511
          method := if byteAt body 11 = 1 then .diffusion else .threshold
          select := ⟨(byteAt body 12).toNat % 4, Nat.mod_lt _ (by decide)⟩
          rows := max 1 (min (byteAt body 13).toNat 16) }

/-- The TEXT modes (R63). -/
inductive TextWrite where
  | write
  | over
  | erase
  deriving DecidableEq, Repr

/-- A TEXT's fields, brought into range (R59), and its first 200 code bytes. -/
structure TextBody where
  row : Nat
  column : Nat
  size : Nat
  mode : TextWrite
  set : Fin 4
  codes : List Byte
  deriving DecidableEq, Repr

/-- The code bytes of a TEXT body (R175). -/
def textCodes (body : List Byte) : List Byte := body.drop 6

/-- The fields of a TEXT body (R59, R175). -/
def textOfBody (body : List Byte) : TextBody where
  row := (byteAt body 1).toNat
  column := (byteAt body 2).toNat
  size := max 1 (min (byteAt body 3).toNat 2)
  mode :=
    if byteAt body 4 = 1 then .over
    else if byteAt body 4 = 2 then .erase
    else .write
  set := ⟨(byteAt body 5).toNat % 4, Nat.mod_lt _ (by decide)⟩
  codes := (textCodes body).take 200

/-- The FILL operations (R66). -/
inductive FillOp where
  | set
  | clear
  | invert
  deriving DecidableEq, Repr

/-- The plane a FILL names; a code above 2 names none (R65, R175). -/
def planeOfCode (b : Byte) : Option PlaneId :=
  match b.toNat with
  | 0 => some .image
  | 1 => some .text
  | 2 => some .mark
  | _ => none

/-- The operation a FILL names; a code above 2 names none (R65, R175). -/
def fillOpOfCode (b : Byte) : Option FillOp :=
  match b.toNat with
  | 0 => some .set
  | 1 => some .clear
  | 2 => some .invert
  | _ => none

/-- The run bytes of an IMAGE-STRIPE decoded: the high four bits give the run's length less 1, the low four its
level (R29). -/
def decodeRuns (runs : List Byte) : List (Fin 16) :=
  runs.flatMap fun b => List.replicate (b.toNat / 16 + 1) ⟨b.toNat % 16, Nat.mod_lt _ (by decide)⟩

/-- Decoded pixels fitted to the number needed: padded with level 0, or cut (R30). -/
def fitPixels (needed : Nat) (pixels : List (Fin 16)) : List (Fin 16) :=
  pixels.take needed ++ List.replicate (needed - pixels.length) 0

/-! ### Zones (R115, R175, R176) -/

/-- A touch coordinate clamped into 0..15 (R115). -/
def clampTouch (b : Byte) : Fin 16 := ⟨min b.toNat 15, by omega⟩

/-- The zone record of a ZONE-SET body (R115): the rectangle is clamped, then swapped; the echo fields are reduced;
a clear flag bit 2 leaves no echo part. -/
def zoneOfBody (body : List Byte) : Zone where
  armed := (byteAt body 1).getLsbD 0
  tx0 := min (clampTouch (byteAt body 2)) (clampTouch (byteAt body 4))
  ty0 := min (clampTouch (byteAt body 3)) (clampTouch (byteAt body 5))
  tx1 := max (clampTouch (byteAt body 2)) (clampTouch (byteAt body 4))
  ty1 := max (clampTouch (byteAt body 3)) (clampTouch (byteAt body 5))
  code := byteAt body 6
  oneShot := (byteAt body 1).getLsbD 1
  echo :=
    if (byteAt body 1).getLsbD 2 then
      some
        { set := ⟨(byteAt body 7).toNat % 4, Nat.mod_lt _ (by decide)⟩
          code := ⟨(byteAt body 8).toNat % 128, Nat.mod_lt _ (by decide)⟩
          x := clampCell (wordAt body 9).toNat
          y := clampCell (wordAt body 11).toNat }
    else none

/-! ### TABLE-LOAD (R165, R166) -/

/-- The entries a load writes and whether it named entries beyond the table end (R166). -/
structure LoadRange where
  /-- step 1 found entries at or above the table end -/
  clipped : Bool
  /-- the entries below the table end, each with its index and its bytes; `none` where the body carries fewer -/
  entries : Option (List (Nat × List Byte))
  deriving DecidableEq, Repr

/-- The entry bytes of a load's body cut into entries of `size` bytes (R175: byte 4 onward). -/
def entriesFrom (size : Nat) : Nat → Nat → List Byte → List (Nat × List Byte)
  | 0, _, _ => []
  | n + 1, index, bytes => (index, bytes.take size) :: entriesFrom size n (index + 1) (bytes.drop size)

/-- The number of entries of a load's range that lie below the table end (R166, step 1). -/
def entriesWithin (tableEnd first count : Nat) : Nat := min (first + count) tableEnd - first

/-- A load's range judged against its body (R166), for a table of `tableEnd` entries of `size` bytes. -/
def judgeLoad (tableEnd size : Nat) (body : List Byte) : LoadRange :=
  let first := (wordAt body 1).toNat
  let count := (byteAt body 3).toNat
  let within := entriesWithin tableEnd first count
  let bytes := body.drop 4
  { clipped := within < count
    entries := if bytes.length < within * size then none else some (entriesFrom size within first bytes) }

/-! ### Report and frame bytes (R177) -/

/-- The source codes of a STATUS body. -/
def NumberSource.code : NumberSource → Byte
  | .straps => 0
  | .override => 1
  | .service => 2

/-- The panel state codes of a STATUS body. -/
def PanelState.code : PanelState → Byte
  | .off => 0
  | .starting => 1
  | .running => 2
  | .blanking => 3
  | .blanked => 4

/-- The slot state codes of a STATUS body. -/
def SlotState.code : SlotState → Byte
  | .free => 0
  | .opened => 1
  | .closing => 2

/-- The store state codes of a STATUS body. -/
def StoreState.code : StoreState → Byte
  | .idle => 0
  | .programming => 1

/-- One context summary's 4 bytes. -/
def SlotSummary.bytes (c : SlotSummary) : List Byte :=
  [c.state.code, c.image] ++ wordBytes (BitVec.ofNat 16 c.received)

/-- A number, or 0xFF for none. -/
def byteOrNone {n : Nat} : Option (Fin n) → Byte
  | some k => byteOf k.val
  | none => 0xFF

/-- A report's body (R177). -/
def Report.body : Report → List Byte
  | .touch zone code tx ty count => [byteOrNone zone, code, byteOf tx.val, byteOf ty.val] ++ wordBytes count
  | .line number level count => [byteOf number.val, if level then 1 else 0] ++ wordBytes count
  | .status f =>
    [byteOf f.number.val, f.source.code, f.panel.code] ++ longBytes f.raw ++ longBytes f.latched ++ longBytes f.mask ++
      [byteOrNone f.lastWatch] ++ f.slots.toList.flatMap SlotSummary.bytes ++
      [byteOf f.renderDepth, byteOf f.upstreamDepth, f.store.code] ++ wordBytes (BitVec.ofNat 16 f.commits) ++
      [flagBit f.lineLevels[0] 0 ||| flagBit f.lineLevels[1] 1 ||| flagBit f.lineLevels[2] 2 ||| flagBit f.lineLevels[3] 3] ++
      wordBytes f.count ++ [byteOf f.faults.length] ++ f.faults.flatMap (fun y => wordBytes (BitVec.ofNat 16 y.val))

/-- A report's kind byte (R177). -/
def Report.kind : Report → Byte
  | .touch _ _ _ _ _ => 1
  | .line _ _ _ => 2
  | .status _ => 3

/-- The bytes of a frame of a report, or of an IDLE frame (R177, R178): lead, terminal, kind, length, body, CRC. -/
def frameBytes (number : Fin 32) (attention : Bool) (report : Option Report) : List Byte :=
  let terminal := byteOf number.val ||| flagBit attention 7
  let kind := match report with
    | some r => r.kind
    | none => 0
  let body := match report with
    | some r => r.body
    | none => []
  let covered := [terminal, kind, byteOf body.length] ++ body
  leadByte :: (covered ++ wordBytes (crc16 covered))

end Sys2Proof.Machine
end

