-- ==== Sys2Proof/Machine/Halftone.lean ====
section
/-! DEFINITION. Halftone arithmetic (chapter 3): intensity, replication, the threshold and line-diffusion methods, and
the row writes and error row of one stripe. -/

namespace Sys2Proof.Machine

/-! ### Replication and clipping (R40 to R43) -/

/-- A level's intensity: the entry of the selected TRANSFER table (R40). -/
def intensity (transfer : Vector Byte 64) (select : Fin 4) (level : Fin 16) : Nat :=
  (transfer[select.val * 16 + level.val]'(by omega)).toNat

/-- The processed width: the smaller of W × s and 512 − X0 (R42). -/
def ImageParams.processedWidth (p : ImageParams) : Nat := min (p.width * p.scale) (512 - p.x0)

/-- The number of source rows of stripe i (R29): n, and what is left for the last. -/
def ImageParams.stripeRows (p : ImageParams) (i : Nat) : Nat :=
  if i + 1 = p.stripeCount then p.height - p.rows * (p.stripeCount - 1) else p.rows

/-- The number of pixels stripe i needs (R29). -/
def ImageParams.pixelsNeeded (p : ImageParams) (i : Nat) : Nat := p.width * p.stripeRows i

/-- The level of cell k of a cell row made from a source row: the pixel that covers it (R41). -/
def cellLevel (p : ImageParams) (sourceRow : List (Fin 16)) (k : Nat) : Fin 16 := sourceRow.getD (k / p.scale) 0

/-- The intensities of a cell row's processed cells (R40 to R42). -/
def cellIntensities (transfer : Vector Byte 64) (p : ImageParams) (sourceRow : List (Fin 16)) : List Nat :=
  (List.range p.processedWidth).map fun k => intensity transfer p.select (cellLevel p sourceRow k)

/-- The processed cell rows of a stripe, top to bottom: each with its panel row and its source row's levels; cell rows
below row 511 are passed over (R41, R42). -/
def stripeCellRows (p : ImageParams) (i : Nat) (levels : List (Fin 16)) : List (RowNo × List (Fin 16)) :=
  (List.range (p.stripeRows i * p.scale)).filterMap fun r =>
    let y := p.y0 + p.scale * (p.rows * i) + r
    if h : y < 512 then some (⟨y, h⟩, (levels.drop (p.width * (r / p.scale))).take p.width) else none

/-! ### The threshold method (R44) -/

/-- The threshold decision of the cell (x, y). -/
def thresholdCell (matrix : Vector Byte 64) (x y t : Nat) : Bool :=
  (matrix[(y % 8) * 8 + x % 8]'(by omega)).toNat < t

/-- The threshold decisions of a cell row. -/
def thresholdRow (matrix : Vector Byte 64) (x0 : Nat) (y : RowNo) (ts : List Nat) : List Bool :=
  ts.zipIdx.map fun (t, k) => thresholdCell matrix (x0 + k) y.val t

/-! ### The line-diffusion method (R47 to R49) -/

/-- A share: the error times the weight, divided by 16 and truncated toward zero (R48). -/
def share (err : Int) (weight : Nat) : Int := (err * weight).tdiv 16

/-- The decisions and errors of a cell row, left to right, from the right share `right` and each cell's intensity
and incoming entry (R47). -/
def diffuseCells (w : Weights) : Int → List (Nat × Int) → List (Bool × Int)
  | _, [] => []
  | right, (t, incoming) :: rest =>
    let v : Int := t + (right + incoming)
    let on := decide (128 ≤ v)
    let err := if on then v - 255 else v
    (on, err) :: diffuseCells w (share err w.wR) rest

/-- The outgoing entries from the errors of a cell row (R48): entry k is the below-right share of cell k − 1, the below
share of cell k and the below-left share of cell k + 1. `left` is the error of the cell before. -/
def outgoingEntries (w : Weights) : Int → List Int → List Int
  | _, [] => []
  | left, [e] => [share left w.wBR + share e w.wB]
  | left, e :: e' :: rest => (share left w.wBR + share e w.wB + share e' w.wBL) :: outgoingEntries w e (e' :: rest)

/-- One cell row under line diffusion: its decisions and its outgoing entries (R47, R48). -/
def diffuseRow (w : Weights) (ts : List Nat) (incoming : List Int) : List Bool × List Int :=
  let cells := diffuseCells w 0 (ts.zip incoming)
  (cells.map Prod.fst, outgoingEntries w 0 (cells.map Prod.snd))

/-! ### One stripe -/

/-- The columns of row y inside a window's rectangle and the processed width (R43). -/
def writtenColumns (p : ImageParams) (rect : Rect) (y : RowNo) : RowBits :=
  if rect.spansRow y.val then
    columns p.x0 (p.x0 + p.processedWidth - 1) &&& columns rect.x0.val rect.x1.val
  else 0

/-- The row write of a cell row's decisions: none where no processed cell lies inside the window (R43). -/
def decisionWrite (p : ImageParams) (rect : Rect) (y : RowNo) (cells : List Bool) : Option RowWrite :=
  let inside := writtenColumns p rect y
  if inside = 0 then none else some ⟨.image, y, .put inside (cellsFrom p.x0 cells)⟩

/-- The tables a stripe is drawn with (R39). -/
structure HalftoneTables where
  transfer : Vector Byte 64
  threshold : Vector Byte 64
  weights : Weights
  deriving DecidableEq, Repr

/-- A stripe under the threshold method: its row writes (R44). -/
def thresholdStripe (t : HalftoneTables) (p : ImageParams) (rect : Rect) (rows : List (RowNo × List (Fin 16))) :
    List RowWrite :=
  rows.filterMap fun (y, source) =>
    decisionWrite p rect y (thresholdRow t.threshold p.x0 y (cellIntensities t.transfer p source))

/-- A stripe under line diffusion from given incoming entries: its row writes and the entries left under its last
processed row (R47 to R50). -/
def diffuseStripe (t : HalftoneTables) (p : ImageParams) (rect : Rect) :
    List Int → List (RowNo × List (Fin 16)) → List RowWrite × List Int
  | incoming, [] => ([], incoming)
  | incoming, (y, source) :: rest =>
    let (cells, outgoing) := diffuseRow t.weights (cellIntensities t.transfer p source) incoming
    let (writes, last) := diffuseStripe t p rect outgoing rest
    ((decisionWrite p rect y cells).toList ++ writes, last)

/-- The incoming entries that an error row gives: its first entries, as many as the processed width (R50). -/
def incomingOf (p : ImageParams) (err : Vector Int 512) : List Int := err.toList.take p.processedWidth

/-- The error row that a row's outgoing entries make: entries beyond the processed width are 0 (R50). -/
def errorRowOf (entries : List Int) : Vector Int 512 := tabulate fun k => entries.getD k.val 0

end Sys2Proof.Machine
end

