-- ==== Sys2Proof/Machine/RowEngine.lean ====
section
/-! DEFINITION. The row engine (chapter 5): the arbiter, row services, address slots, sense completions, the drain,
and the commands ADDRESS_SLOT, SENSE_COMPLETION and the row engine's part of FAULT_CLEAR. -/

namespace Sys2Proof.Machine

/-! ### The mirror and services in flight -/

/-- Every row of the mirror is known (R74: no row service is started while any row is unknown). -/
def RowEngine.mirrorKnown (r : RowEngine) : Bool := r.mirror.toList.all Option.isSome

/-- What the mirror holds of row y; a start attempt reads it only where it is known. -/
def RowEngine.mirrorRow (r : RowEngine) (y : RowNo) : RowBits := r.mirror[y].getD 0

/-- A service of row y is in flight (R79). -/
def RowEngine.inFlight (r : RowEngine) (y : RowNo) : Bool := r.sense.any (fun v => v.row == y)

/-- A service ends: its entry leaves the sense queue (R84, R86, R89) and its row's mirror becomes its target. -/
def RowEngine.endService (v : Service) (r : RowEngine) : RowEngine :=
  { r with
    sense := r.sense.filter (fun w => w.row != v.row)
    mirror := r.mirror.set v.row (some v.target) }

/-- The service of row y rewritten where it stands in the sense queue. -/
def RowEngine.updateService (y : RowNo) (f : Service → Service) (r : RowEngine) : RowEngine :=
  { r with sense := r.sense.map (fun v => if v.row == y then f v else v) }

/-- An address operation issued in the slot (R76). -/
def RowEngine.issue (op : AddressOp) (r : RowEngine) : RowEngine := { r with slotOp := some op }

/-! ### The arbiter (R78, R79) -/

/-- The first row of a list, from the head, whose service is not in flight (R79). -/
def RowEngine.firstFree (r : RowEngine) (rows : List RowNo) : Option RowNo :=
  rows.find? (fun y => !r.inFlight y)

/-- The list chosen first (R78), for an urgent run limit U. -/
def RowEngine.choosesBulk (limit : Nat) (r : RowEngine) : Bool :=
  (limit ≤ r.run && !r.bulk.isEmpty) || r.urgent.isEmpty

/-- The row the arbiter takes and the list it is in: the chosen list first, then the other (R78, R79). -/
def RowEngine.pick (limit : Nat) (r : RowEngine) : Option (MarkClass × RowNo) :=
  let u := (r.firstFree r.urgent).map (fun y => (MarkClass.urgent, y))
  let b := (r.firstFree r.bulk).map (fun y => (MarkClass.bulk, y))
  if r.choosesBulk limit then b.or u else u.or b

/-- One run of the arbiter: the row taken leaves its list, and the urgent-run count changes as R79's table gives. -/
def RowEngine.arbitrate (limit : Nat) (r : RowEngine) : RowEngine × Option RowNo :=
  match r.pick limit with
  | some (.urgent, y) => ({ r with urgent := r.urgent.erase y, run := min (r.run + 1) 15 }, some y)
  | some (.bulk, y) => ({ r with bulk := r.bulk.erase y, run := 0 }, some y)
  | none => ({ r with run := if r.urgent.isEmpty then 0 else r.run }, none)

/-! ### Row services (R80 to R82) -/

/-- The columns to be lit: on in the target, off in the mirror (R80). -/
def onSet (target mirror : RowBits) : RowBits := target &&& ~~~mirror

/-- The columns to be darkened: on in the mirror, off in the target (R80). -/
def offSet (target mirror : RowBits) : RowBits := mirror &&& ~~~target

/-- A service with operations enters the sense queue and issues its first operation: the ERASE of a non-empty
off-set, leaving the WRITE of a non-empty on-set as the remaining operation, or else the WRITE (R81, R82). -/
def RowEngine.startService (y : RowNo) (target lit dark : RowBits) (r : RowEngine) : RowEngine :=
  let enter (p : Phase) : RowEngine := { r with sense := r.sense ++ [⟨y, target, litCount target, 0, p⟩] }
  if dark = 0 then (enter (.settling none)).issue ⟨.write, y, lit⟩
  else if lit = 0 then (enter (.settling none)).issue ⟨.erase, y, dark⟩
  else (enter (.issuing lit)).issue ⟨.erase, y, dark⟩

/-! ### Start attempts (R77) -/

/-- The first service whose remaining WRITE has not been issued (R76, source 2). -/
def RowEngine.issuing (r : RowEngine) : Option (RowNo × RowBits) :=
  r.sense.findSome? fun v =>
    match v.phase with
    | .issuing rest => some (v.row, rest)
    | .settling _ => none
    | .refreshing => none

/-- What R77 asks of the row engine for a start attempt: sources 1 and 2 of R76 have no work, the sense queue has room,
and the mirror is known (R74). -/
def RowEngine.mayStart (r : RowEngine) : Bool :=
  r.retry.isEmpty && r.issuing.isNone && r.sense.length < Config.senseQueueCap && r.mirrorKnown

/-- One start attempt in RUNNING (R77). A row taken that has nothing to do leaves the slot to a further attempt; a row that
has an operation uses the slot; where no attempt may be made, or the arbiter takes no row, none follows. -/
def RowEngine.attempt (limit : Nat) (composite : RowNo → RowBits) (r : RowEngine) : RowEngine :=
  if r.mayStart then
    match r.arbitrate limit with
    | (r', none) => { r' with attempting := false }
    | (r', some y) =>
      let target := composite y
      let lit := onSet target (r'.mirrorRow y)
      let dark := offSet target (r'.mirrorRow y)
      if lit = 0 ∧ dark = 0 then { r' with attempting := true }
      else { r'.startService y target lit dark with attempting := false }
  else { r with attempting := false }

/-- The start attempts that a slot still has, one after another (R77). Every attempt that a further one follows shortens the
lists, so that `fuel` above their joint length is enough. -/
def RowEngine.attempts (limit : Nat) (composite : RowNo → RowBits) : Nat → RowEngine → RowEngine
  | 0, r => r
  | fuel + 1, r => if r.attempting then RowEngine.attempts limit composite fuel (r.attempt limit composite) else r

/-- The next start attempt of the running cycle's address slot, if it has one: made in RUNNING, with the lists, planes,
windows and urgent run limit as they stand (R77, R75). -/
def State.nextAttempt (s : State) : State :=
  if s.row.attempting then
    { s with row :=
        if s.seq.state = .running then s.row.attempt s.seq.panel.urgentLimit s.ren.composite
        else { s.row with attempting := false } }
  else s

/-- The address slot of the running cycle ends: the start attempts that it still has are made (R77, log 28). -/
def State.endSlot (s : State) : State :=
  { s with row :=
      if s.seq.state = .running then
        s.row.attempts s.seq.panel.urgentLimit s.ren.composite (s.row.urgent.length + s.row.bulk.length + 1)
      else { s.row with attempting := false } }

/-! ### The address slot (R76) -/

/-- What the end of a sustain cycle does to a service: a settle wait begins with K cycles, or a cycle of it has
passed (R83). -/
def Service.endOfCycle (settle : Nat) (v : Service) : Service :=
  match v.phase with
  | .settling none => { v with phase := .settling (some settle) }
  | .settling (some n) => { v with phase := .settling (some (n - 1)) }
  | .issuing _ => v
  | .refreshing => v

/-- A sustain cycle ends and the next begins: the operation of its slot becomes that of the cycle before, the settle waits
are counted, no operation is issued yet and no sense has been returned (R76, R83). -/
def RowEngine.beginCycle (settle : Nat) (r : RowEngine) : RowEngine :=
  { r with sense := r.sense.map (Service.endOfCycle settle), prevOp := r.slotOp, slotOp := none, sensed := false }

/-- Source 1 of R76: the head of the pending retry operations is issued and leaves the list; after a service's last
refresh operation its settle wait follows (R85, R83). -/
def RowEngine.issueRetry (op : AddressOp) (rest : List AddressOp) (r : RowEngine) : RowEngine :=
  let r' := { r with retry := rest }.issue op
  if rest.any (fun o => o.row == op.row) then r'
  else r'.updateService op.row (fun v => { v with phase := .settling none })

/-- Source 2 of R76: the remaining WRITE is issued, and the settle wait follows. -/
def RowEngine.issueRest (y : RowNo) (rest : RowBits) (r : RowEngine) : RowEngine :=
  (r.updateService y (fun v => { v with phase := .settling none })).issue ⟨.write, y, rest⟩

/-- One address slot in RUNNING (`starts`), or in BLANKING before its sweep, given to the first source that has
work (R76). Of its start attempts the first is made; others may follow (R77). -/
def RowEngine.serveSlot (starts : Bool) (limit : Nat) (composite : RowNo → RowBits) (r : RowEngine) : RowEngine :=
  match r.retry with
  | op :: rest => r.issueRetry op rest
  | [] =>
    match r.issuing with
    | some (y, rest) => r.issueRest y rest
    | none =>
      if starts then r.attempt limit composite else r

/-- One slot of an erase sweep (R94): an ERASE of all 512 columns of the row at the sweep position, whose mirror
becomes all off. -/
def RowEngine.sweepRow (y : RowNo) (r : RowEngine) : RowEngine :=
  { r with mirror := r.mirror.set y (some 0) }.issue ⟨.erase, y, BitVec.allOnes 512⟩

/-- ADDRESS_SLOT: a sustain cycle begins with its address slot (R76, R93, R94), and the slot of the cycle before it has
ended; the operation that that slot carried, by its last start attempt too, stands in `prevOp`. In OFF there are no cycles; during a sweep the slot is the sweep's; in BLANKED it passes unused. -/
def execAddressSlot (s : State) : Host.Outcome State Fault Refusal :=
  .next <|
    match s.seq.state with
    | .off => s
    | .starting | .running | .blanking | .blanked =>
      let s := s.endSlot
      let r := s.row.beginCycle s.seq.panel.settle
      let q := { s.seq with cycle := some s.seq.panel.period }
      if s.seq.sweeping then
        if h : s.seq.sweepPos < 512 then
          { s with row := r.sweepRow ⟨s.seq.sweepPos, h⟩, seq := { q with sweepPos := s.seq.sweepPos + 1 } }
        else { s with row := r, seq := q }
      else
        match s.seq.state with
        | .running => { s with row := r.serveSlot true s.seq.panel.urgentLimit s.ren.composite, seq := q }
        | .blanking => { s with row := r.serveSlot false s.seq.panel.urgentLimit s.ren.composite, seq := q }
        | .off | .starting | .blanked => { s with row := r, seq := q }

/-! ### Sense completion (R83 to R86, R89) -/

/-- A service's sense is due at the end of the running cycle (R83). -/
def Service.due (v : Service) : Bool :=
  match v.phase with
  | .settling (some n) => n ≤ 1
  | .settling none => false
  | .issuing _ => false
  | .refreshing => false

/-- The service sensed at the end of the running cycle: of those due, the one nearest the head (R83). -/
def RowEngine.dueService (r : RowEngine) : Option Service := r.sense.find? Service.due

/-- The operations of a full-row refresh of a row to its target (R85). -/
def refreshOps (y : RowNo) (target : RowBits) : List AddressOp :=
  (if target = BitVec.allOnes 512 then [] else [⟨.erase, y, ~~~target⟩]) ++
    (if target = 0 then [] else [⟨.write, y, target⟩])

/-- A disagreeing sense with retries left: a full-row refresh (R85). -/
def RowEngine.refresh (v : Service) (r : RowEngine) : RowEngine :=
  let r' := r.updateService v.row (fun w => { w with retries := w.retries + 1, phase := .refreshing })
  { r' with retry := r'.retry ++ refreshOps v.row v.target }

/-- A faulted row offered to the fault row list (R86): whether the list was full and lacked it, and the list. -/
def RowEngine.offerFault (y : RowNo) (r : RowEngine) : RowEngine × Bool :=
  if y ∈ r.faults then (r, false)
  else if r.faults.length < Config.faultListCap then ({ r with faults := r.faults ++ [y] }, false)
  else (r, true)

/-- Retries exhausted (R86): the service ends, ROW-FAULT is latched, and the row is offered to the fault row list. -/
def State.rowFault (v : Service) (s : State) : State :=
  let (r, full) := (s.row.endService v).offerFault v.row
  ({ s with row := r }.latch .rowFault).latchIf full .faultListFull

/-- SENSE_COMPLETION: the panel returns the lit count of the row due at the end of the running cycle. One row is
sensed in a cycle (R83), after the cycle's address slot has ended. In RUNNING the count decides (R84 to R86); in BLANKING
the service ends whatever it is (R89). Where no service is due no sense is taken. -/
def execSenseCompletion (count : Fin 513) (s : State) : Host.Outcome State Fault Refusal :=
  .next <|
    if s.row.sensed then s
    else
      match s.row.dueService with
      | none => s
      | some v =>
        let s := s.endSlot
        let s := { s with row := { s.row with sensed := true } }
        match s.seq.state with
        | .running =>
          if count.val = v.expected then { s with row := s.row.endService v }
          else if v.retries < s.seq.panel.retries then { s with row := s.row.refresh v }
          else s.rowFault v
        | .off | .starting | .blanking | .blanked => { s with row := s.row.endService v }

/-! ### The drain, power loss and the fault row list -/

/-- Nothing is left to drain: the sense queue is empty and no operation is pending (R89). -/
def RowEngine.drained (r : RowEngine) : Bool := r.sense.isEmpty && r.retry.isEmpty

/-- What entering BLANKING drops (R89): the pending retry operations, and each REFRESHING service, whose row's mirror
becomes its target. -/
def RowEngine.beginDrain (r : RowEngine) : RowEngine :=
  let r' := (r.sense.filter (fun v => v.phase == .refreshing)).foldl (fun r v => r.endService v) r
  { r' with retry := [] }

/-- The row engine abandons all its work at a power-good fall (R90); the fault row list stays. -/
def RowEngine.abandon (r : RowEngine) : RowEngine :=
  { RowEngine.reset with faults := r.faults }

/-- FAULT-CLEAR at the row engine (R87). -/
def RowEngine.clearFaults (r : RowEngine) : RowEngine := { r with faults := [] }

end Sys2Proof.Machine
end

