-- ==== Sys2Proof/Machine/Images.lean ====
section
/-! DEFINITION. Image contexts and stripes (chapter 2): the engine's choice, notices between pieces of work, and the
commands IMAGE_OPEN, IMAGE_STRIPE, READY_STRIPE, IMAGE_CLOSE, IMAGE_ABORT, APPLY_HELD_CADENCE_NOTICE,
FACTORY_HALFTONE_NOTICE, CLOSING_TIMEOUT and IDLE_TIMEOUT. -/

namespace Sys2Proof.Machine

/-! ### Notices (R24, R36, R37, R54, R55) -/

/-- The activity of a slot is refreshed under a cadence count (R34). -/
def Slot.refresh (count : BitVec 16) (c : Slot) : Slot := { c with activity := count, idle := 0 }

/-- A CLOSING slot's count has run out: it becomes FREE and IMAGE-INCOMPLETE is latched (R36). -/
def State.closingTimeout (k : Fin 4) (s : State) : State :=
  { s with ren := s.ren.freeSlot k }.latch .imageIncomplete

/-- An OPEN slot's idle count has run out: it becomes FREE, its held stripes are dropped, and IMAGE-INCOMPLETE is
latched if a stripe is missing (R37). -/
def State.idleTimeout (k : Fin 4) (s : State) : State :=
  { s with ren := s.ren.freeSlot k }.latchIf (!s.ren.slots[k].complete) .imageIncomplete

/-- A CADENCE notice at one slot (R36, R37). -/
def State.cadenceAtSlot (s : State) (k : Fin 4) : State :=
  let c := s.ren.slots[k]
  match c.state with
  | .free => s
  | .closing =>
    let s := { s with ren := s.ren.setSlot k { c with closing := c.closing + 1 } }
    if Config.lapseLimit ≤ c.closing + 1 then s.closingTimeout k else s
  | .opened =>
    let s := { s with ren := s.ren.setSlot k { c with idle := c.idle + 1 } }
    if Config.idleLimit ≤ c.idle + 1 then s.idleTimeout k else s

/-- A CADENCE notice applied to the image context table, slot 0 first (R143). -/
def State.cadenceAtContexts (s : State) : State := (List.finRange 4).foldl State.cadenceAtSlot s

/-- A slot's error row made all zero, if it is a non-FREE DIFFUSION slot (R54). -/
def Slot.zeroError (c : Slot) : Slot :=
  if c.state != .free && c.params.method == .diffusion then { c with err := .replicate 512 0 } else c

/-- New weights: where one of the four has changed, the error row of every non-FREE DIFFUSION context is made all
zero (R54). -/
def Render.setWeights (w : Weights) (r : Render) : Render :=
  if w = r.weights then r else { r with weights := w, slots := r.slots.map Slot.zeroError }

/-- A STORE-FACTORY notice applied: the three halftone tables take their factory values (R55). -/
def Render.factoryHalftone (r : Render) : Render :=
  { r with transfer := factoryTransfer, threshold := factoryThreshold }.setWeights factoryWeights

/-- One notice applied. -/
def State.applyNotice (s : State) : Notice → State
  | .cadence => s.cadenceAtContexts
  | .factory => { s with ren := s.ren.factoryHalftone }

/-- A notice reaches the render engine: it is held while a piece of work executes, and applied at once otherwise
(R24, R55). -/
def State.notice (n : Notice) (s : State) : State :=
  if s.ren.busy then { s with ren := { s.ren with notices := s.ren.notices ++ [n] } } else s.applyNotice n

/-- The piece of work in progress, if there is one, ends: what it has still to do is done, and every notice held for
its end is applied, in arrival order (R24). -/
def State.endPiece (s : State) : State :=
  let t := s.perform
  t.ren.notices.foldl State.applyNotice { t with ren := { t.ren with busy := false, notices := [] } }

/-- The piece of work in progress, if there is one, goes on: it does the next of its stages, or ends where none is left
(R14, R24; log 5). -/
def State.continuePiece (s : State) : State :=
  match s.ren.stages with
  | [] => s.endPiece
  | next :: rest => { s with ren := { s.ren with stages := rest } }.performStage next

/-- What happens with no command waiting (log 4): the running cycle's address slot has its next start attempt (R77), or the
render engine goes on with its piece of work (R14, R24); where both can, a free value says which. Otherwise the part
idles. -/
def State.idle (s : State) : State :=
  if s.row.attempting then
    if s.ren.busy then
      let t := { s with choices := s.choices + 1 }
      if Config.attemptFirst s.choices then t.nextAttempt else t.continuePiece
    else s.nextAttempt
  else s.continuePiece

/-- The piece of work ends and the first of the held notices, if it is of this kind, is applied; the others stay
held until they are applied in their turn (R24, R55). -/
def State.applyHeld (n : Notice) (s : State) : State :=
  match s.ren.notices with
  | m :: rest =>
    if m = n then
      let t := s.perform
      { t with ren := { t.ren with notices := rest, busy := !rest.isEmpty } }.applyNotice n
    else s
  | [] => s

/-! ### The engine's choice (R23) -/

/-- The render engine takes the item at the head of the render queue, if that is its next piece of work and is of this
kind: no echo request and no ready stripe comes before it (R19, R23). The piece before it has then ended. -/
def State.takeItem (k : WorkKind) (s : State) : Option (WorkItem × State) :=
  let s := s.endPiece
  match s.ren.echoes, s.ren.ready, s.ren.queue with
  | [], none, item :: rest =>
    if item.kind = k then some (item, { s with ren := { s.ren with queue := rest, busy := true } }) else none
  | _, _, _ => none

/-- A piece of work of the render queue: taken (R24), with what it does at once done and what it draws still to do
(R14, log 5); or, where the head of the queue is not of this kind or another source comes first, nothing (log 1). -/
def State.runItem (k : WorkKind) (work : WorkItem → State → State) (s : State) : State :=
  match s.takeItem k with
  | some (item, t) => work item t
  | none => s

/-! ### Opens (R25 to R27) -/

/-- The age of a slot: the last cadence count minus its last-activity count, modulo 65,536 (R27). -/
def Slot.age (count : BitVec 16) (c : Slot) : Nat := (count - c.activity).toNat

/-- The slot of greatest age, and of equal ages the lowest-numbered (R27). -/
def Render.oldestSlot (count : BitVec 16) (r : Render) : Fin 4 :=
  (List.finRange 4).foldl (fun best k => if r.slots[best].age count < r.slots[k].age count then k else best) 0

/-- A slot newly opened (R26, R27): OPEN, nothing received, e = 0, error row zero, counts 0, activity refreshed. -/
def Slot.openedWith (n : Byte) (p : ImageParams) (count : BitVec 16) : Slot where
  state := .opened
  image := n
  params := p
  received := 0
  next := 0
  err := .replicate 512 0
  activity := count
  idle := 0
  closing := 0

/-- An IMAGE-OPEN with checked and clamped parameters (R26, R27). -/
def State.openImage (n : Byte) (p : ImageParams) (s : State) : State :=
  let count := s.rx.lastCount
  match s.ren.findImage n with
  | some k =>
    if s.ren.slots[k].params = p then { s with ren := s.ren.setSlot k (s.ren.slots[k].refresh count) }
    else
      { s with ren := (s.ren.dropHeld n).setSlot k (.openedWith n p count) }.latch .imageNew
  | none =>
    match (List.finRange 4).find? (fun k => s.ren.slots[k].state == .free) with
    | some k => { s with ren := s.ren.setSlot k (.openedWith n p count) }
    | none =>
      let k := s.ren.oldestSlot count
      { s with ren := (s.ren.dropHeld s.ren.slots[k].image).setSlot k (.openedWith n p count) }.latch .imageEvicted

/-- An IMAGE-OPEN item (R25). -/
def imageOpenWork (item : WorkItem) (s : State) : State :=
  match imageParamsOf item.channel item.body with
  | none => s.latch .formatError
  | some p => s.openImage (byteAt item.body 0) p

/-- IMAGE_OPEN (R25 to R27). -/
def execImageOpen (s : State) : Host.Outcome State Fault Refusal :=
  .next (s.runItem .imageOpen imageOpenWork)

/-! ### Rendering a stripe (R31 to R33, R50) -/

/-- The halftone tables as they stand (R53). -/
def Render.tables (r : Render) : HalftoneTables := ⟨r.transfer, r.threshold, r.weights⟩

/-- The rectangle of a context's window as it stands (R16). -/
def Render.windowRect (r : Render) (p : ImageParams) : Rect := r.windows[p.window].rect

/-- The lowest index above i that is not received, or the stripe count (R32). -/
def Slot.nextMissing (c : Slot) (i : Nat) : Nat :=
  ((List.range c.params.stripeCount).find? (fun j => i < j && !c.received.getLsbD j)).getD c.params.stripeCount

/-- A stripe index joins the received-stripe set (R31). -/
def Slot.receive (i : Nat) (c : Slot) : Slot := { c with received := c.received ||| BitVec.twoPow 512 i }

/-- The contexts as the plan so far leaves them become a stage of their own, behind the row writes planned so far: at the
end of a rendering that another follows in its piece of work, and where a gap is skipped (R32, R35; log 5). -/
def State.stageContexts (s : State) : State := s.stage [.contexts s.ren.contexts]

/-- Image work planned as `plan` gives: the contexts stay as they stand until the stages before them are done, and take
what the plan leaves at its end as the last stage, or at once where it has no stage. -/
def State.deferContexts (plan : State → State) (s : State) : State :=
  let t := plan s
  if t.ren.stages.isEmpty then t else { t.stageContexts with ren := t.stageContexts.ren.withContexts s.ren.contexts }

/-- A slot that is CLOSING and has every stripe becomes FREE, with no event (R36). -/
def State.freeIfDone (k : Fin 4) (s : State) : State :=
  if s.ren.slots[k].state = .closing ∧ s.ren.slots[k].complete then { s with ren := s.ren.freeSlot k } else s

/-- A stripe of a THRESHOLD context rendered (R31). -/
def State.renderThreshold (k : Fin 4) (h : HeldStripe) (s : State) : State :=
  let c := s.ren.slots[k]
  let writes := thresholdStripe s.ren.tables c.params (s.ren.windowRect c.params) (stripeCellRows c.params h.index h.levels)
  let s := s.rowWrites h.cls writes
  { s with ren := s.ren.setSlot k (c.receive h.index) }

/-- A stripe of a DIFFUSION context rendered late: from a zero error row, its outgoing entries discarded (R33). -/
def State.renderLate (k : Fin 4) (h : HeldStripe) (s : State) : State :=
  let c := s.ren.slots[k]
  let out := diffuseStripe s.ren.tables c.params (s.ren.windowRect c.params)
    (List.replicate c.params.processedWidth 0) (stripeCellRows c.params h.index h.levels)
  let s := s.rowWrites h.cls out.1
  { s with ren := s.ren.setSlot k (c.receive h.index) }

/-- A stripe of a DIFFUSION context rendered in order (R32): from the context's error row, which becomes the entries
left under its last processed row; e becomes the lowest unreceived index above it. -/
def State.renderInOrder (k : Fin 4) (h : HeldStripe) (s : State) : State :=
  let c := s.ren.slots[k]
  let rows := stripeCellRows c.params h.index h.levels
  let out := diffuseStripe s.ren.tables c.params (s.ren.windowRect c.params) (incomingOf c.params c.err) rows
  let s := s.rowWrites h.cls out.1
  let c := c.receive h.index
  let c := { c with
    err := if rows.isEmpty then c.err else errorRowOf out.2
    next := c.nextMissing h.index }
  { s with ren := s.ren.setSlot k c }

/-- A gap before stripe i skipped: the error row made all zero and e set to i, where i is above e (R32). -/
def Slot.skipTo (i : Nat) (c : Slot) : Slot :=
  if c.next < i then { c with err := .replicate 512 0, next := i } else c

/-- The gap before a stripe skipped, if there is one (R32, R35): a stage of its own, before the stripe's row writes. -/
def State.skipGap (k : Fin 4) (h : HeldStripe) (s : State) : State :=
  if s.ren.slots[k].next < h.index then
    { s with ren := s.ren.setSlot k (s.ren.slots[k].skipTo h.index) }.stageContexts
  else s

/-- A stripe rendered in order after the gap before it, if any, is skipped (R32, R35). -/
def State.renderAfterGap (k : Fin 4) (s : State) (h : HeldStripe) : State := (s.skipGap k h).renderInOrder k h

/-- A held stripe put among others by index. -/
def insertByIndex (h : HeldStripe) : List HeldStripe → List HeldStripe
  | [] => [h]
  | g :: rest => if h.index ≤ g.index then h :: g :: rest else g :: insertByIndex h rest

/-- Held stripes in index order. -/
def byIndex (hs : List HeldStripe) : List HeldStripe := hs.foldr insertByIndex []

/-- The held stripes of an image that satisfy `p` are rendered in index order, skipping gaps, and leave the hold
queue (R32, R35). What each of them leaves stands when its own rendering ends, whether or not it has a row write. -/
def State.renderHeld (k : Fin 4) (n : Byte) (p : HeldStripe → Bool) (s : State) : State :=
  let mine := s.ren.held.filter (fun h => h.image == n && p h)
  let s := { s with ren := { s.ren with held := s.ren.held.filter (fun h => !(h.image == n && p h)) } }
  (byIndex mine).foldl (fun s h => (s.renderAfterGap k h).stageContexts) s

/-- A held stripe of the slot whose index equals e becomes the ready stripe (R22). -/
def State.promote (k : Fin 4) (s : State) : State :=
  let c := s.ren.slots[k]
  let isNext (h : HeldStripe) : Bool := h.image == c.image && h.index == c.next
  match s.ren.held.find? isNext with
  | some h => { s with ren := { s.ren with ready := some h, held := s.ren.held.filter (fun g => !isNext g) } }
  | none => s

/-- A gap skip (R32): the held stripes below the arriving index first, then the stripe itself. -/
def State.gapSkip (k : Fin 4) (h : HeldStripe) (s : State) : State :=
  ((s.renderHeld k h.image (fun g => decide (g.index < h.index))).renderAfterGap k h).promote k

/-- An accepted, fitted stripe of a DIFFUSION context (R32, R33). -/
def State.diffusionStripe (k : Fin 4) (h : HeldStripe) (s : State) : State :=
  let c := s.ren.slots[k]
  if h.index < c.next then s.renderLate k h
  else if h.index = c.next then (s.renderInOrder k h).promote k
  else if c.state = .opened ∧ s.ren.held.length < Config.holdQueueCap then
    { s with ren := { s.ren with held := s.ren.held ++ [h] } }
  else s.gapSkip k h

/-- A stripe of the slot that holds its image (R28 to R33). -/
def State.takeStripe (k : Fin 4) (item : WorkItem) (s : State) : State :=
  let n := byteAt item.body 0
  let i := (wordAt item.body 1).toNat
  let c := s.ren.slots[k]
  let s := { s with ren := s.ren.setSlot k (c.refresh s.rx.lastCount) }
  if c.received.getLsbD i then s
  else if c.params.method = .diffusion ∧ s.ren.held.any (fun h => h.image == n && h.index == i) then s
  else
    let pixels := decodeRuns (item.body.drop 3)
    let needed := c.params.pixelsNeeded i
    let s := (s.latchIf (pixels.length < needed) .stripeShort).latchIf (needed < pixels.length) .stripeLong
    let h : HeldStripe := ⟨n, i, fitPixels needed pixels, item.cls⟩
    s.deferContexts fun s =>
      match c.params.method with
      | .threshold => (s.renderThreshold k h).freeIfDone k
      | .diffusion => (s.diffusionStripe k h).freeIfDone k

/-- An IMAGE-STRIPE item (R28): with no non-FREE slot of its image, or an index beyond the stripe count, it is
discarded and STRIPE-DISCARDED is latched. -/
def imageStripeWork (item : WorkItem) (s : State) : State :=
  match s.ren.findImage (byteAt item.body 0) with
  | none => s.latch .stripeDiscarded
  | some k =>
    if (wordAt item.body 1).toNat < s.ren.slots[k].params.stripeCount then s.takeStripe k item
    else s.latch .stripeDiscarded

/-- IMAGE_STRIPE (R28 to R34). -/
def execImageStripe (s : State) : Host.Outcome State Fault Refusal :=
  .next (s.runItem .imageStripe imageStripeWork)

/-- The ready stripe rendered in order (R22, R32, R53). -/
def State.renderReady (h : HeldStripe) (s : State) : State :=
  match s.ren.findImage h.image with
  | none => s
  | some k => s.deferContexts fun s => ((s.renderInOrder k h).promote k).freeIfDone k

/-- READY_STRIPE: the render engine takes the ready stripe, which comes behind the echo queue alone (R22, R23). -/
def execReadyStripe (s : State) : Host.Outcome State Fault Refusal :=
  .next <|
    let t := s.endPiece
    match t.ren.echoes, t.ren.ready with
    | [], some h => { t with ren := { t.ren with ready := none, busy := true } }.renderReady h
    | _, _ => s

/-! ### Closes and aborts (R35, R38) -/

/-- An OPEN slot closed (R35): its held stripes are rendered, and it becomes FREE or CLOSING. -/
def State.closeSlot (k : Fin 4) (s : State) : State :=
  let n := s.ren.slots[k].image
  let s := match s.ren.slots[k].params.method with
    | .diffusion => s.renderHeld k n (fun _ => true)
    | .threshold => s
  if s.ren.slots[k].complete then { s with ren := s.ren.freeSlot k }
  else { s with ren := s.ren.setSlot k { s.ren.slots[k] with state := .closing, closing := 0 } }

/-- An IMAGE-CLOSE item (R35). -/
def imageCloseWork (item : WorkItem) (s : State) : State :=
  match s.ren.findImage (byteAt item.body 0) with
  | none => s
  | some k => if s.ren.slots[k].state = .opened then s.deferContexts (State.closeSlot k) else s

/-- IMAGE_CLOSE (R35). -/
def execImageClose (s : State) : Host.Outcome State Fault Refusal :=
  .next (s.runItem .imageClose imageCloseWork)

/-- An IMAGE-ABORT item (R38). -/
def imageAbortWork (item : WorkItem) (s : State) : State :=
  match s.ren.findImage (byteAt item.body 0) with
  | none => s
  | some k => { s with ren := s.ren.freeSlot k }

/-- IMAGE_ABORT (R38). -/
def execImageAbort (s : State) : Host.Outcome State Fault Refusal :=
  .next (s.runItem .imageAbort imageAbortWork)

/-! ### Held notices and timeouts -/

/-- APPLY_HELD_CADENCE_NOTICE: the piece of work has ended and the CADENCE notice held first is applied (R24). -/
def execApplyHeldCadenceNotice (s : State) : Host.Outcome State Fault Refusal :=
  .next (s.applyHeld .cadence)

/-- FACTORY_HALFTONE_NOTICE: the piece of work has ended and the STORE-FACTORY notice held first is applied (R55). -/
def execFactoryHalftoneNotice (s : State) : Host.Outcome State Fault Refusal :=
  .next (s.applyHeld .factory)

/-- CLOSING_TIMEOUT: a CLOSING slot's count stands at 8 (R36) and no stripe is being drawn (R24). The notice that brings
it there has this effect itself (log 6). -/
def execClosingTimeout (k : Fin 4) (s : State) : Host.Outcome State Fault Refusal :=
  .next <|
    let t := s.perform
    if t.ren.slots[k].state = .closing ∧ Config.lapseLimit ≤ t.ren.slots[k].closing then t.closingTimeout k else s

/-- IDLE_TIMEOUT: an OPEN slot's idle count stands at 50 (R37) and no stripe is being drawn (R24). The notice that
brings it there has this effect itself (log 6). -/
def execIdleTimeout (k : Fin 4) (s : State) : Host.Outcome State Fault Refusal :=
  .next <|
    let t := s.perform
    if t.ren.slots[k].state = .opened ∧ Config.idleLimit ≤ t.ren.slots[k].idle then t.idleTimeout k else s

end Sys2Proof.Machine
end

