-- ==== Sys2Proof/Machine/Drawing.lean ====
section
/-! DEFINITION. Text, fills, echoes, window changes and ERASE-ALL (chapters 1.2, 1.6 and 4), and the render-path table
loads (chapters 3.5 and 4.1): the commands TEXT, FILL, WINDOW_SET, ERASE_ALL, ECHO_REQUEST, TRANSFER_LOAD,
THRESHOLD_LOAD, WEIGHTS_LOAD and GLYPHS_LOAD. -/

namespace Sys2Proof.Machine

/-! ### Glyphs (R58) -/

/-- Glyph (set, code) of the store (R56). -/
def Render.glyph (r : Render) (set : Fin 4) (code : Fin 128) : Glyph :=
  r.glyphs[set.val * 128 + code.val]'(by omega)

/-- An all-off box. -/
def emptyPattern : Vector Byte 16 := .replicate 16 0

/-- The pattern drawn for a code of a set (R58): the glyph where it is loaded, else the substitute, glyph (set, 127),
where that is loaded, else an all-off box. -/
def Render.pattern (r : Render) (set : Fin 4) (code : Byte) : Vector Byte 16 :=
  let substitute := if (r.glyph set 127).loaded then (r.glyph set 127).rows else emptyPattern
  if h : code.toNat < 128 then
    if (r.glyph set ⟨code.toNat, h⟩).loaded then (r.glyph set ⟨code.toNat, h⟩).rows else substitute
  else substitute

/-- Row b of a pattern drawn at a size, its leftmost cell in column x (R63): each pattern bit covers `size` cells. -/
def patternCells (p : Vector Byte 16) (size x b : Nat) : RowBits :=
  cellsFrom x ((List.range (8 * size)).map fun a => (p.getD (b / size) 0).getLsbD (7 - a / size))

/-! ### TEXT (R59 to R64) -/

/-- A character box to be drawn: its top-left cell and its code. -/
structure CharBox where
  x : Nat
  y : Nat
  code : Byte
  deriving DecidableEq, Repr

/-- Where the box of a character stands (R60), after a wrap if it would start beyond the right edge (R61): its
character row and column, or none if even the return column lies beyond the right edge. -/
def placeBox (rect : Rect) (size ret row column : Nat) : Option (Nat × Nat) :=
  if rect.x0.val + 8 * size * column ≤ rect.x1.val then some (row, column)
  else if rect.x0.val + 8 * size * ret ≤ rect.x1.val then some (row + 1, ret)
  else none

/-- The boxes of a TEXT's codes from a current position, and whether codes were lost (R60 to R62): 0x80 is a new
line; a box beyond the bottom edge, or a return column beyond the right edge, loses it and the rest. -/
def layText (rect : Rect) (size ret : Nat) : Nat → Nat → List Byte → List CharBox × Bool
  | _, _, [] => ([], false)
  | row, column, code :: rest =>
    if code = 0x80 then layText rect size ret (row + 1) ret rest
    else
      match placeBox rect size ret row column with
      | none => ([], true)
      | some (r, c) =>
        if rect.y1.val < rect.y0.val + 16 * size * r then ([], true)
        else
          let (boxes, clipped) := layText rect size ret r (c + 1) rest
          (⟨rect.x0.val + 8 * size * c, rect.y0.val + 16 * size * r, code⟩ :: boxes, clipped)

/-- What a mode writes into the cells of a box's row, from the pattern's cells (R63). -/
def textOp (mode : TextWrite) (cells pattern : RowBits) : CellOp :=
  match mode with
  | .write => .put cells pattern
  | .over => .set (pattern &&& cells)
  | .erase => .clear cells

/-- The row writes of one box, from its top cell row down, clipped to the window (R62 to R64). -/
def boxWrites (r : Render) (rect : Rect) (t : TextBody) (box : CharBox) : List RowWrite :=
  (List.range (16 * t.size)).filterMap fun b =>
    if h : box.y + b ≤ rect.y1.val then
      let cells := columns box.x (min (box.x + 8 * t.size - 1) rect.x1.val)
      some ⟨.text, ⟨box.y + b, by omega⟩, textOp t.mode cells (patternCells (r.pattern t.set box.code) t.size box.x b)⟩
    else none

/-- A TEXT drawn in a window's rectangle (R60 to R64). -/
def State.drawText (c : MarkClass) (rect : Rect) (t : TextBody) (s : State) : State :=
  let (boxes, clipped) := layText rect t.size t.column t.row t.column t.codes
  (s.rowWrites c (boxes.flatMap (boxWrites s.ren rect t))).stage (if clipped then [.textClipped] else [])

/-- A TEXT item (R59). -/
def textWork (item : WorkItem) (s : State) : State :=
  match window8 (byteAt item.body 0) with
  | none => s.latch .formatError
  | some w =>
    let codes := textCodes item.body
    if codes.isEmpty then s.latch .formatError
    else
      (s.latchIf (200 < codes.length) .formatError).drawText item.cls s.ren.windows[w].rect (textOfBody item.body)

/-- TEXT (R59 to R64). -/
def execText (s : State) : Host.Outcome State Fault Refusal :=
  .next (s.runItem .text textWork)

/-! ### FILL (R65, R66) -/

/-- What a FILL writes into the cells of a row (R66). -/
def FillOp.cellOp (op : FillOp) (cells : RowBits) : CellOp :=
  match op with
  | .set => .set cells
  | .clear => .clear cells
  | .invert => .invert cells

/-- The row writes of a FILL over the cells that lie in both rectangles, from the top row down (R65, R66). -/
def fillWrites (plane : PlaneId) (op : FillOp) (a b : Rect) : List RowWrite :=
  let x0 := max a.x0 b.x0
  let x1 := min a.x1 b.x1
  if x1 < x0 then []
  else
    (allRows.filter (fun y => max a.y0 b.y0 ≤ y && y ≤ min a.y1 b.y1)).map fun y =>
      ⟨plane, y, op.cellOp (columns x0.val x1.val)⟩

/-- A FILL item (R65). -/
def fillWork (item : WorkItem) (s : State) : State :=
  match window8 (byteAt item.body 0), planeOfCode (byteAt item.body 1), fillOpOfCode (byteAt item.body 2) with
  | some w, some plane, some op =>
    s.rowWrites item.cls (fillWrites plane op (bodyRect item.body) s.ren.windows[w].rect)
  | _, _, _ => s.latch .formatError

/-- FILL (R65, R66). -/
def execFill (s : State) : Host.Outcome State Fault Refusal :=
  .next (s.runItem .fill fillWork)

/-! ### WINDOW-SET (R5 to R7, R12) -/

/-- The rows that a changed record marks: those of the old and of the new rectangle, each once, in order (R12). -/
def windowRows (old new : Rect) : List RowNo :=
  allRows.filter (fun y => old.spansRow y.val || new.spansRow y.val)

/-- A decoded record at a window (R7): a changed record replaces the stored one and marks its rows BULK. -/
def State.setWindow (k : Fin 8) (w : Window) (s : State) : State :=
  if w = s.ren.windows[k] then s
  else
    { s with
      ren := { s.ren with windows := s.ren.windows.set k w }
      row := s.row.markAll .bulk (windowRows s.ren.windows[k].rect w.rect) }

/-- A WINDOW-SET item (R5). -/
def windowSetWork (item : WorkItem) (s : State) : State :=
  match window8 (byteAt item.body 0) with
  | none => s.latch .formatError
  | some k => s.setWindow k (windowOfBody item.body)

/-- WINDOW_SET (R5 to R7, R12). -/
def execWindowSet (s : State) : Host.Outcome State Fault Refusal :=
  .next (s.runItem .windowSet windowSetWork)

/-! ### ERASE-ALL (R15) -/

/-- A PANEL-CONTROL ERASE-ALL item (R15): the planes are cleared and all 512 rows marked BULK, from row 0 up. -/
def eraseAllWork (_item : WorkItem) (s : State) : State :=
  { s with
    ren := { s.ren with image := blankPlane, text := blankPlane, mark := blankPlane }
    row := s.row.markAll .bulk allRows }

/-- ERASE_ALL (R15). -/
def execEraseAll (s : State) : Host.Outcome State Fault Refusal :=
  .next (s.runItem .eraseAll eraseAllWork)

/-! ### Echoes (R67) -/

/-- The row writes of an echo: one to MARK for each of its box rows on the panel, from the top down (R67). -/
def echoWrites (r : Render) (e : EchoRequest) : List RowWrite :=
  (List.range 16).filterMap fun b =>
    if h : e.y.val + b < 512 then
      some ⟨.mark, ⟨e.y.val + b, h⟩, .invert (patternCells (r.pattern e.set (byteOf e.code.val)) 1 e.x.val b)⟩
    else none

/-- ECHO_REQUEST: the render engine takes the head of the echo queue, which comes before every other source (R23),
and draws it into MARK, marked URGENT (R67). -/
def execEchoRequest (s : State) : Host.Outcome State Fault Refusal :=
  .next <|
    let t := s.endPiece
    match t.ren.echoes with
    | e :: rest =>
      { t with ren := { t.ren with echoes := rest, busy := true } }.rowWrites .urgent (echoWrites t.ren e)
    | [] => s

/-! ### Render-path table loads (R52, R57, R166) -/

/-- A load judged by R166 and its entries, if it is not discarded, given to `write`. -/
def State.applyLoad (range : LoadRange) (write : List (Nat × List Byte) → State → State) (s : State) : State :=
  let s := s.latchIf range.clipped .tableClipped
  match range.entries with
  | some entries => write entries s
  | none => s.latch .formatError

/-- One-byte entries written into a table of bytes through an entry rule. -/
def writeBytes {n : Nat} (rule : Byte → Byte) (entries : List (Nat × List Byte)) (t : Vector Byte n) : Vector Byte n :=
  entries.foldl (fun t e => t.setIfInBounds e.1 (rule (byteAt e.2 0))) t

/-- A TRANSFER load item: entries stored as given (R52). -/
def transferWork (item : WorkItem) (s : State) : State :=
  s.applyLoad (judgeLoad 64 1 item.body) fun entries s =>
    { s with ren := { s.ren with transfer := writeBytes id entries s.ren.transfer } }

/-- TRANSFER_LOAD (R52). -/
def execTransferLoad (s : State) : Host.Outcome State Fault Refusal :=
  .next (s.runItem .transferLoad transferWork)

/-- A THRESHOLD load item: 255 stored as 254 (R44, R52). -/
def thresholdWork (item : WorkItem) (s : State) : State :=
  s.applyLoad (judgeLoad 64 1 item.body) fun entries s =>
    { s with ren := { s.ren with threshold := writeBytes thresholdOfByte entries s.ren.threshold } }

/-- THRESHOLD_LOAD (R44, R52). -/
def execThresholdLoad (s : State) : Host.Outcome State Fault Refusal :=
  .next (s.runItem .thresholdLoad thresholdWork)

/-- The weights after a load's entries: the two steps of R46. -/
def Weights.load (entries : List (Nat × List Byte)) (w : Weights) : Weights :=
  (entries.foldl (fun w e => w.write e.1 (byteAt e.2 0).toNat) w).reduce

/-- A WEIGHTS load item (R46, R52, R54). -/
def weightsWork (item : WorkItem) (s : State) : State :=
  s.applyLoad (judgeLoad 4 1 item.body) fun entries s =>
    { s with ren := s.ren.setWeights (s.ren.weights.load entries) }

/-- WEIGHTS_LOAD (R46, R52, R54). -/
def execWeightsLoad (s : State) : Host.Outcome State Fault Refusal :=
  .next (s.runItem .weightsLoad weightsWork)

/-- The glyph a load's entry writes: its 16 pattern bytes, loaded (R57). -/
def glyphOfBytes (b : List Byte) : Glyph := ⟨true, tabulate fun k => byteAt b k.val⟩

/-- A GLYPHS load item (R57). -/
def glyphsWork (item : WorkItem) (s : State) : State :=
  s.applyLoad (judgeLoad 512 16 item.body) fun entries s =>
    { s with
      ren := { s.ren with
        glyphs := entries.foldl (fun g e => g.setIfInBounds e.1 (glyphOfBytes e.2)) s.ren.glyphs } }

/-- GLYPHS_LOAD (R57). -/
def execGlyphsLoad (s : State) : Host.Outcome State Fault Refusal :=
  .next (s.runItem .glyphsLoad glyphsWork)

end Sys2Proof.Machine
end

