-- ==== Sys2Proof/Machine/Return.lean ====
section
/-! DEFINITION. The return line transmitter (chapter 10.5, 10.6) and the STATUS report: the commands GRANT_ASSERTED,
FRAME_BEGIN, FRAME_COMPLETE and GRANT_WITHDRAWN. -/

namespace Sys2Proof.Machine

/-- A context's summary (R152, R17). -/
def Slot.summary (c : Slot) : SlotSummary := ⟨c.state, c.image, stripeCard c.received⟩

/-- The store state as reported (R152, R167). -/
def CommitState.reported : CommitState → StoreState
  | .idle => .idle
  | .programming _ => .programming

/-- The STATUS report of the state as it stands (R152). -/
def State.statusReport (s : State) : StatusFields where
  number := s.cls.number
  source := s.cls.source
  panel := s.seq.state
  raw := s.ev.raw
  latched := s.ev.latched
  mask := s.ev.table.mask
  lastWatch := s.ev.lastWatch
  slots := s.ren.slots.map Slot.summary
  renderDepth := s.ren.queue.length
  upstreamDepth := s.tx.queue.length
  store := s.store.commit.reported
  commits := s.store.commits
  lineLevels := s.lineLevels
  count := s.rx.lastCount
  faults := s.row.faults

/-- A frame begins (R154, R178): it is built from the number, attention and head report as they stand, and its content
is fixed from then on. -/
def State.beginFrame (s : State) : State :=
  { s with
    tx := { s.tx with
      state := .sending
      frame := some ⟨frameBytes s.cls.number s.ev.attention s.tx.queue.head?, !s.tx.queue.isEmpty⟩ } }

/-- GRANT_ASSERTED: the grant is sampled asserted, taken in the state it finds (R154): WAITING goes to QUALIFYING, in
QUALIFYING a frame begins, SENDING goes on, SPENT stays. -/
def execGrantAsserted (s : State) : Host.Outcome State Fault Refusal :=
  .next <|
    let s := { s with pins := { s.pins with grant := true } }
    match s.tx.state with
    | .waiting => { s with tx := { s.tx with state := .qualifying } }
    | .qualifying => s.beginFrame
    | .sending | .spent => s

/-- FRAME_BEGIN: the grant is seen asserted on the second consecutive bit time, in QUALIFYING, and a frame
begins (R154). -/
def execFrameBegin (s : State) : Host.Outcome State Fault Refusal :=
  .next <|
    match s.tx.state with
    | .qualifying => { s with pins := { s.pins with grant := true } }.beginFrame
    | .waiting | .sending | .spent => s

/-- FRAME_COMPLETE: the last bit of the CRC is sent under grant; the frame's report leaves the head of the queue and
the transmitter is SPENT (R155). -/
def execFrameComplete (s : State) : Host.Outcome State Fault Refusal :=
  .next <|
    match s.tx.state with
    | .sending =>
      let carried := match s.tx.frame with
        | some f => f.carriesReport
        | none => false
      { s with tx := { state := .spent, frame := none, queue := if carried then s.tx.queue.tail else s.tx.queue } }
    | .waiting | .qualifying | .spent => s

/-- GRANT_WITHDRAWN: the grant is sampled not asserted; a frame in SENDING is aborted and its report kept, and the
transmitter is WAITING (R154, R155). -/
def execGrantWithdrawn (s : State) : Host.Outcome State Fault Refusal :=
  .next
    { s with
      pins := { s.pins with grant := false }
      tx := { s.tx with state := .waiting, frame := none } }

end Sys2Proof.Machine
end

