-- ==== Sys2Proof/Machine/Panel.lean ====
section
/-! DEFINITION. The panel sequencer (chapter 6): sweeps, power, blanking, unblanking, the blank timer, and the
commands DRAIN_COMPLETE, STARTING_SWEEP_COMPLETE, BLANKING_SWEEP_COMPLETE, POWER_GOOD_RISE and POWER_GOOD_FALL. -/

namespace Sys2Proof.Machine

/-- The rows whose composite has a lit cell, in row order (R95, R100, R101). -/
def Render.litRows (r : Render) : List RowNo := allRows.filter (fun y => r.composite y != 0)

/-- Each row with a lit composite is given a BULK mark, from row 0 to row 511 (R95, R100, R101). -/
def State.markLit (s : State) : State := { s with row := s.row.markAll .bulk s.ren.litRows }

/-- The panel state becomes RUNNING: no sweep goes on and the blank timer is 0 (R95, R100, R101, R104). -/
def Sequencer.enterRunning (q : Sequencer) : Sequencer :=
  { q with state := .running, sweeping := false, blankTimer := 0 }

/-- BLANK, or the blank timer running out, in RUNNING (R98, R103, R89): the panel state becomes BLANKING and the row
engine begins to drain. In every other state it is ignored. -/
def State.blank (s : State) : State :=
  match s.seq.state with
  | .running =>
    { s with
      seq := { s.seq with state := .blanking, sweeping := false, sweepPos := 0 }
      row := s.row.beginDrain }
  | .off | .starting | .blanking | .blanked => s

/-- An unblank (R100, R101): in BLANKED both dirty lists are emptied first; in BLANKING they are kept and a drain or a
sweep under way is given up. In OFF, STARTING and RUNNING it is ignored. -/
def State.unblank (s : State) : State :=
  match s.seq.state with
  | .blanked =>
    let s := { s with row := { s.row with urgent := [], bulk := [] } }.markLit
    { s with seq := s.seq.enterRunning }
  | .blanking =>
    let s := s.markLit
    { s with seq := s.seq.enterRunning }
  | .off | .starting | .running => s

/-- A touch press offered to the sequencer: in BLANKED it is an unblank and is used up; elsewhere it is not (R102). -/
def State.wakePress (s : State) : State × Bool :=
  match s.seq.state with
  | .blanked => (s.unblank, true)
  | .off | .starting | .running | .blanking => (s, false)

/-- The blank timer is set to 0 (R104). -/
def State.restartBlankTimer (s : State) : State := { s with seq := { s.seq with blankTimer := 0 } }

/-- The timer has reached the timeout (R103); a timeout of 0 never blanks. -/
def Sequencer.blankDue (q : Sequencer) : Bool :=
  q.panel.blankTimeout != 0 && q.panel.blankTimeout * Config.noticesPerMinute ≤ q.blankTimer

/-- The sequencer's CADENCE notice (R103): in RUNNING the timer counts, up to 153,000, and is compared. -/
def State.cadenceAtPanel (s : State) : State :=
  match s.seq.state with
  | .running =>
    let q := { s.seq with blankTimer := if s.seq.blankTimer = Config.blankTimerMax then s.seq.blankTimer else s.seq.blankTimer + 1 }
    let s := { s with seq := q }
    if q.blankDue then s.blank else s
  | .off | .starting | .blanking | .blanked => s

/-- DRAIN_COMPLETE: the row engine tells the sequencer that its work is drained, and in BLANKING the erase sweep
begins at row 0 (R99). -/
def execDrainComplete (s : State) : Host.Outcome State Fault Refusal :=
  .next <|
    match s.seq.state with
    | .blanking =>
      if s.row.drained && !s.seq.sweeping then { s with seq := { s.seq with sweeping := true, sweepPos := 0 } } else s
    | .off | .starting | .running | .blanked => s

/-- STARTING_SWEEP_COMPLETE: the sweep has reached row 512; the rows with a lit composite are marked BULK and the
panel enters RUNNING with the blank timer at 0 (R95). -/
def execStartingSweepComplete (s : State) : Host.Outcome State Fault Refusal :=
  .next <|
    match s.seq.state with
    | .starting =>
      if s.seq.sweepPos = 512 then
        let s := s.markLit
        { s with seq := s.seq.enterRunning }
      else s
    | .off | .running | .blanking | .blanked => s

/-- BLANKING_SWEEP_COMPLETE: the sweep has reached row 512 and the panel enters BLANKED (R99). -/
def execBlankingSweepComplete (s : State) : Host.Outcome State Fault Refusal :=
  .next <|
    match s.seq.state with
    | .blanking =>
      if s.seq.sweeping && s.seq.sweepPos = 512 then { s with seq := { s.seq with state := .blanked, sweeping := false } }
      else s
    | .off | .starting | .running | .blanked => s

/-- POWER_GOOD_RISE: power-good goes from low to high; in OFF the panel state becomes STARTING and the sweep begins at
row 0 (R96). PANEL-POWER follows (R92). -/
def execPowerGoodRise (s : State) : Host.Outcome State Fault Refusal :=
  .next <|
    if s.seq.powerGood then s
    else
      let s := { s with seq := { s.seq with powerGood := true } }.setLevel .panelPower true
      match s.seq.state with
      | .off => { s with seq := { s.seq with state := .starting, sweeping := true, sweepPos := 0 } }
      | .starting | .running | .blanking | .blanked => s

/-- POWER_GOOD_FALL: power-good goes from high to low; the panel state becomes OFF and the row engine abandons its
work (R97, R90). PANEL-POWER follows (R92). -/
def execPowerGoodFall (s : State) : Host.Outcome State Fault Refusal :=
  .next <|
    if s.seq.powerGood then
      { s with
        seq := { s.seq with powerGood := false, state := .off, sweeping := false, cycle := none }
        row := s.row.abandon }.setLevel .panelPower false
    else s

end Sys2Proof.Machine
end

