-- ==== Sys2Proof/Machine/Ports.lean ====
section
/-! DEFINITION. The accessory port and the signal lines (chapter 11): hand-off copies, the handshake, the sampled
lines, and the commands ACKNOWLEDGE, BUSY_ASSERTED, BUSY_RELEASED and ACK_TIMEOUT. -/

namespace Sys2Proof.Machine

/-! ### The accessory port (R157 to R160) -/

/-- The offer of the head byte: the strobe is raised, the timer starts from 0, the state is STROBED (R159). -/
def AccessoryPort.offerByte (a : AccessoryPort) : AccessoryPort :=
  { a with state := .strobed, ackTimer := .running, stalled := false }

/-- The next byte, if there is one, is offered, or held back while busy is asserted (R159). -/
def AccessoryPort.next (a : AccessoryPort) : AccessoryPort :=
  if a.buffer.isEmpty then { a with state := .idle, ackTimer := .stands, stalled := false }
  else if a.busy then { a with state := .holding, ackTimer := .stands, stalled := false }
  else a.offerByte

/-- The raw condition of ACCESSORY-FAULT follows the port (R160, R145). -/
def State.followAccessory (s : State) : State := s.setLevel .accessoryFault s.acc.faultCondition

/-- Bytes join the buffer (R158, R159): from IDLE the head byte is offered, or held back while busy is asserted. -/
def AccessoryPort.join (body : List Byte) (a : AccessoryPort) : AccessoryPort :=
  let a' := { a with buffer := a.buffer ++ body }
  match a.state with
  | .idle => a'.next
  | .holding | .strobed | .stalled => a'

/-- A hand-off copy offered to the port (R158): dropped with no accessory fitted, nothing for an empty body, appended
where it fits, and otherwise discarded whole with ACCESSORY-OVERFLOW. -/
def State.handOff (body : List Byte) (s : State) : State :=
  if !s.acc.fitted || body.isEmpty then s
  else if body.length ≤ Config.accessoryCap - s.acc.buffer.length then
    { s with acc := s.acc.join body }
  else s.latch .accessoryOverflow

/-- Delivery (R159): the strobe falls, the head byte leaves the buffer, and the next is offered, held back or there is
none. A stall ends (R160). -/
def AccessoryPort.deliver (a : AccessoryPort) : AccessoryPort :=
  { a with buffer := a.buffer.tail }.next

/-- ACKNOWLEDGE: a pulse delivers a strobed or stalled byte; in IDLE and HOLDING it is ignored (R159, R160). -/
def execAcknowledge (s : State) : Host.Outcome State Fault Refusal :=
  .next <|
    match s.acc.state with
    | .strobed | .stalled => { s with acc := s.acc.deliver }.followAccessory
    | .idle | .holding => s

/-- BUSY_ASSERTED: the busy line is asserted; it is read when a byte is to be offered (R159). -/
def execBusyAsserted (s : State) : Host.Outcome State Fault Refusal :=
  .next { s with acc := { s.acc with busy := true } }

/-- BUSY_RELEASED: in HOLDING the head byte is offered; in STALLED the byte is offered again and the stall ends
(R159, R160). A line that was not asserted does not change. -/
def execBusyReleased (s : State) : Host.Outcome State Fault Refusal :=
  .next <|
    if s.acc.busy then
      let s := { s with acc := { s.acc with busy := false } }
      match s.acc.state with
      | .holding | .stalled => { s with acc := s.acc.offerByte }.followAccessory
      | .idle | .strobed => s
    else s

/-- ACK_TIMEOUT: the timer reaches 100 ms in STROBED; the port is STALLED and the stalled flag set (R160). -/
def execAckTimeout (s : State) : Host.Outcome State Fault Refusal :=
  .next <|
    match s.acc.state with
    | .strobed =>
      { s with acc := { s.acc with state := .stalled, ackTimer := .stands, stalled := true } }.followAccessory
    | .idle | .holding | .stalled => s

/-! ### Two-sample acceptance (R121, R160, R162) -/

/-- The accepted level after a sample: a sample that equals the last one is accepted. -/
def acceptSample (accepted last sample : Bool) : Bool := if sample = last then sample else accepted

/-- The fault line sampled at a scan, while an accessory is fitted (R160). -/
def State.sampleFault (level : Bool) (s : State) : State :=
  if s.acc.fitted then
    { s with
      acc := { s.acc with
        faultAccepted := acceptSample s.acc.faultAccepted s.acc.faultLast level
        faultLast := level } }.followAccessory
  else s

/-! ### The signal lines (R161 to R164) -/

/-- A line written. -/
def State.setLine (n : Fin 4) (l : SignalLine) (s : State) : State := { s with lines := s.lines.set n l }

/-- One line sampled at a scan (R162). An INPUT line's sample that equals the last one and differs from the accepted
level is accepted: LINE-IN follows and, with the report flag set, a LINE report is offered. The first sample after the
line became INPUT is the accepted level at once, with no report (R164). -/
def State.sampleLine (levels : BitVec 4) (s : State) (n : Fin 4) : State :=
  let l := s.lines[n]
  let v := levels.getLsbD n.val
  match l.entry.config with
  | .output | .attention => s
  | .input =>
    match l.lastSample with
    | none => (s.setLine n { l with lastSample := some v, accepted := v }).setLevel (.lineIn n) v
    | some last =>
      if v = last ∧ v ≠ l.accepted then
        let s := (s.setLine n { l with lastSample := some v, accepted := v }).setLevel (.lineIn n) v
        if l.entry.report then s.offer (.line n v s.rx.lastCount) else s
      else s.setLine n { l with lastSample := some v }

/-- The four lines sampled, line 0 first (R162). -/
def State.sampleLines (levels : BitVec 4) (s : State) : State :=
  (List.finRange 4).foldl (State.sampleLine levels) s

/-- LINE-SET (R163): the latch of each named line takes its level. -/
def SignalLine.setLatch (body : List Byte) (n : Nat) (l : SignalLine) : SignalLine :=
  if (byteAt body 0).getLsbD n then { l with latch := (byteAt body 0).getLsbD (4 + n) } else l

/-- LINE-SET at the signal lines (R163). -/
def State.lineSet (body : List Byte) (s : State) : State :=
  { s with lines := tabulate fun n => s.lines[n].setLatch body n.val }

/-- A line's LINES entry changed (R164): from INPUT the accepted level becomes low and LINE-IN false; to INPUT the
accepted level becomes low and the last sample is cleared. The latch stays (R163). -/
def State.configureLine (n : Fin 4) (e : LineEntry) (s : State) : State :=
  let l := s.lines[n]
  if l.entry.config = e.config then s.setLine n { l with entry := e }
  else
    match l.entry.config with
    | .input => (s.setLine n { l with entry := e, accepted := false }).setLevel (.lineIn n) false
    | .output | .attention =>
      match e.config with
      | .input => s.setLine n { l with entry := e, accepted := false, lastSample := none }
      | .output | .attention => s.setLine n { l with entry := e }

/-- A line after a reset, with its LINES entry and one sample of its level (R161). -/
def SignalLine.reset (e : LineEntry) (sample : Bool) : SignalLine :=
  match e.config with
  | .input => ⟨e, e.latchDefault, some sample, sample⟩
  | .output | .attention => ⟨e, e.latchDefault, none, false⟩

end Sys2Proof.Machine
end

