-- ==== Sys2Proof/Machine/Touch.lean ====
section
/-! DEFINITION. The touch unit (chapter 7): debounce, runs and positions, presses, zones, and the command SCAN. -/

namespace Sys2Proof.Machine

/-! ### Debounce (R109) -/

/-- One beam sampled (R109). -/
def Beam.sample (debounce : Nat) (broken : Bool) (b : Beam) : Beam :=
  if broken = b.broken then { b with count := 0 }
  else if b.count + 1 < debounce then { b with count := b.count + 1 }
  else ⟨broken, 0⟩

/-- The beams of one axis sampled; a beam that is not fitted reads unbroken with count 0 (R109). -/
def scanAxis (debounce : Nat) (fitted broken : BitVec 16) (beams : Vector Beam 16) : Vector Beam 16 :=
  tabulate fun n =>
    if fitted.getLsbD n.val then beams[n].sample debounce (broken.getLsbD n.val) else ⟨false, 0⟩

/-- Beams taken out of a mask become unbroken with count 0 (R108). -/
def unfit (old new : BitVec 16) (beams : Vector Beam 16) : Vector Beam 16 :=
  tabulate fun n => if old.getLsbD n.val && !new.getLsbD n.val then ⟨false, 0⟩ else beams[n]

/-! ### Runs and positions (R110) -/

/-- The runs of broken beams, each by its first and last number, from beam k on; `start` is the first beam of a run
that is under way. -/
def runsFrom : Nat → Option Nat → List Bool → List (Nat × Nat)
  | _, none, [] => []
  | k, some a, [] => [(a, k - 1)]
  | k, none, true :: rest => runsFrom (k + 1) (some k) rest
  | k, some a, true :: rest => runsFrom (k + 1) (some a) rest
  | k, none, false :: rest => runsFrom (k + 1) none rest
  | k, some a, false :: rest => (a, k - 1) :: runsFrom (k + 1) none rest

/-- The runs of an axis of the debounced set (R110). -/
def axisRuns (beams : Vector Beam 16) : List (Nat × Nat) := runsFrom 0 none (beams.toList.map Beam.broken)

/-- An axis is broken when it holds at least one run (R110). -/
def axisBroken (beams : Vector Beam 16) : Bool := beams.toList.any Beam.broken

/-- The position on a single axis: the middle of its one run, rounded down (R110); none on a split axis, or on one
that is not broken. -/
def axisPosition (beams : Vector Beam 16) : Option (Fin 16) :=
  match axisRuns beams with
  | [(first, last)] => some ⟨min ((first + last) / 2) 15, by omega⟩
  | _ => none

/-! ### Answering a press (R112, R116 to R119) -/

/-- The zone takes part in matching and contains the position (R116). -/
def Zone.claims (z : Zone) (tx ty : Fin 16) : Bool :=
  z.armed && (z.tx0 ≤ tx && tx ≤ z.tx1) && (z.ty0 ≤ ty && ty ≤ z.ty1)

/-- The lowest-numbered armed zone that contains the position (R116). -/
def Touch.findZone (t : Touch) (tx ty : Fin 16) : Option (Fin 16) :=
  (List.finRange 16).find? (fun k => t.zones[k].claims tx ty)

/-- An echo request offered to the echo queue: dropped with no event where it holds 4 (R119). -/
def State.offerEcho (e : EchoPart) (s : State) : State :=
  if s.ren.echoes.length < Config.echoQueueCap then
    { s with ren := { s.ren with echoes := s.ren.echoes ++ [⟨e.set, e.code, e.x, e.y⟩] } }
  else s

/-- A zone record written. -/
def State.setZone (k : Fin 16) (z : Zone) (s : State) : State :=
  { s with touch := { s.touch with zones := s.touch.zones.set k z } }

/-- A hit on a zone (R116): a TOUCH report, an echo request if the zone has an echo part, and a one-shot zone
disarmed; each stands whatever becomes of the others. -/
def State.hitZone (k : Fin 16) (tx ty : Fin 16) (s : State) : State :=
  let z := s.touch.zones[k]
  let s := s.offer (.touch (some k) z.code tx ty s.rx.lastCount)
  let s := match z.echo with
    | some e => s.offerEcho e
    | none => s
  if z.oneShot then s.setZone k { z with armed := false } else s

/-- A stray (R117). -/
def State.stray (tx ty : Fin 16) (s : State) : State :=
  if s.touch.table.strays then s.offer (.touch none 0 tx ty s.rx.lastCount) else s

/-- A press after the wake has not used it up: ambiguous, or matched against the zones (R112, steps 3 and 4). -/
def State.answerPress (s : State) : State :=
  match axisPosition s.touch.xBeams, axisPosition s.touch.yBeams with
  | some tx, some ty =>
    match s.touch.findZone tx ty with
    | some k => s.hitZone k tx ty
    | none => s.stray tx ty
  | _, _ => s.latch .touchAmbiguous

/-- A recognised press: the blank timer, the wake, then its answer (R112). -/
def State.press (s : State) : State :=
  let (s, used) := s.restartBlankTimer.wakePress
  if used then s else s.answerPress

/-- The end of a scan (R111): the debounced set against the press-held flag. -/
def State.examineTouch (s : State) : State :=
  if s.touch.pressHeld then
    if axisBroken s.touch.xBeams || axisBroken s.touch.yBeams then s
    else { s with touch := { s.touch with pressHeld := false } }
  else if axisBroken s.touch.xBeams && axisBroken s.touch.yBeams then
    { s with touch := { s.touch with pressHeld := true } }.press
  else s

/-- The beams sampled (R109). -/
def Touch.scan (x : ScanSample) (t : Touch) : Touch :=
  { t with
    xBeams := scanAxis t.table.debounce t.table.fitX x.xBroken t.xBeams
    yBeams := scanAxis t.table.debounce t.table.fitY x.yBroken t.yBeams }

/-- The service line sampled (R121): an accepted change forms the effective number again (R120), and SERVICE-LINE
follows. -/
def State.sampleService (level : Bool) (s : State) : State :=
  let accepted := acceptSample s.cls.serviceAccepted s.cls.serviceLast level
  let c := { s.cls with serviceAccepted := accepted, serviceLast := level }
  { s with cls := if accepted = s.cls.serviceAccepted then c else c.formNumber }.setLevel .serviceLine accepted

/-- SCAN: one expiry of the scan interval (R109): the beams are debounced and examined, and the service line (R121),
the signal lines (R162) and the accessory's fault line (R160) are sampled, in this order (log 10). -/
def execScan (x : ScanSample) (s : State) : Host.Outcome State Fault Refusal :=
  .next <|
    let s := { s with
      touch := s.touch.scan x
      pins := { s.pins with service := x.service, fault := x.fault, lines := x.lines } }
    (((s.examineTouch).sampleService x.service).sampleLines x.lines).sampleFault x.fault

/-! ### ZONE-SET (R115, R176) -/

/-- ZONE-SET at the touch unit (R115, R176): 0xFF disarms every zone; a zone number above 15, or a record whose 13
bytes are not all there, latches FORMAT-ERROR; otherwise the record is replaced whole. -/
def State.zoneSet (body : List Byte) (s : State) : State :=
  if byteAt body 0 = 0xFF then
    { s with touch := { s.touch with zones := s.touch.zones.map (fun z => { z with armed := false }) } }
  else if h : (byteAt body 0).toNat < 16 then
    if body.length < 13 then s.latch .formatError
    else s.setZone ⟨(byteAt body 0).toNat, h⟩ (zoneOfBody body)
  else s.latch .formatError

end Sys2Proof.Machine
end

