-- ==== Sys2Proof/Machine/Store.lean ====
section
/-! DEFINITION. The configuration store and the two resets (chapter 12): the working tables gathered and handed out,
STORE-COMMIT, STORE-FACTORY, terminal reset, and the commands PROGRAMMING_COMPLETE and POWER_ON_RESET. -/

namespace Sys2Proof.Machine

/-! ### The working tables -/

/-- The working values of the twelve stored-class tables, as a commit captures them (R169): a STORE-FACTORY notice
that the render engine still holds counts as applied. -/
def State.workingTables (s : State) : StoredTables :=
  let pendingFactory := s.ren.notices.contains .factory
  { address := s.cls.address
    groups := s.cls.groups
    channels := s.cls.channels
    kinds := s.cls.kinds
    watch := s.cls.watch
    transfer := if pendingFactory then factoryTransfer else s.ren.transfer
    threshold := if pendingFactory then factoryThreshold else s.ren.threshold
    weights := if pendingFactory then factoryWeights else s.ren.weights
    panel := s.seq.panel
    touch := s.touch.table
    events := s.ev.table
    lines := s.lines.map SignalLine.entry }

/-- The stored image's CRC is good (R168). -/
def StoredImage.good (i : StoredImage) : Bool := i.crc == i.tables.crc

/-- The tables a reload from the stored image gives: the image's, or the factory defaults where its CRC fails (R168). -/
def StoredImage.reload (i : StoredImage) : StoredTables := if i.good then i.tables else factoryTables

/-! ### STORE-COMMIT and its completion (R169, R170) -/

/-- STORE-COMMIT at the store (R169). -/
def State.storeCommit (s : State) : State :=
  match s.store.commit with
  | .idle =>
    if s.store.commits < Config.commitLimit then
      { s with store := { s.store with commit := .programming s.workingTables } }
    else s.latch .storeRefused
  | .programming _ => s.latch .storeRefused

/-- PROGRAMMING_COMPLETE: the programming timer reaches 250 ms (R170). -/
def execProgrammingComplete (s : State) : Host.Outcome State Fault Refusal :=
  .next <|
    match s.store.commit with
    | .programming t =>
      { s with
        store := { s.store with image := ⟨t, t.crc⟩, commits := s.store.commits + 1, commit := .idle } }.latch .storeDone
    | .idle => s

/-! ### STORE-FACTORY (R171) -/

/-- The lines' LINES entries written one by one (R164). -/
def State.configureLines (t : Vector LineEntry 4) (s : State) : State :=
  (List.finRange 4).foldl (fun s n => s.configureLine n t[n]) s

/-- A TOUCH table taken by the touch unit, with its effect on the debounce state (R108). -/
def Touch.setTable (t : TouchTable) (u : Touch) : Touch :=
  { u with
    table := t
    xBeams := unfit u.table.fitX t.fitX u.xBeams
    yBeams := unfit u.table.fitY t.fitY u.yBeams }

/-- The masks and edge-selects written: no raw value changes and nothing is latched or cleared (R147). -/
def EventUnit.setTable (t : EventTable) (u : EventUnit) : EventUnit := { u with table := t }

/-- STORE-FACTORY (R171): the factory defaults become the working values at their owners; the render engine takes its
three tables as a notice (R55). -/
def State.storeFactory (s : State) : State :=
  let t := factoryTables
  let s := { s with
    cls := { s.cls with
      address := t.address, groups := t.groups, channels := t.channels, kinds := t.kinds
      watch := t.watch }.formNumber
    seq := { s.seq with panel := t.panel }
    touch := s.touch.setTable t.touch
    ev := s.ev.setTable t.events }
  (s.configureLines t.lines).notice .factory

/-! ### Resets -/

/-- The lines after a reset (R161). -/
def resetLines (t : Vector LineEntry 4) (levels : BitVec 4) : Vector SignalLine 4 :=
  tabulate fun n => SignalLine.reset t[n] (levels.getLsbD n.val)

/-- The classifier after a reset (R120, R121, R130). -/
def Classifier.reset (t : StoredTables) (strap : Fin 32) (service : Bool) : Classifier :=
  Classifier.formNumber
    { strap := strap, number := 0, source := .straps, serviceAccepted := service, serviceLast := service
      address := t.address, groups := t.groups, channels := t.channels, kinds := t.kinds, watch := t.watch
      chanState := .replicate 64 .reset }

/-- The accessory port after a reset (R157, R160): the fault line is sampled once while an accessory is fitted. With the
accessory-fitted flag clear no sample is taken and the manual gives the accepted fault level and the last sample no
value: both are held as not asserted (DESIGN CHOICE, log 27). -/
def AccessoryPort.reset (fitted fault busy : Bool) : AccessoryPort where
  fitted := fitted
  buffer := []
  state := .idle
  ackTimer := .stands
  stalled := false
  faultAccepted := fitted && fault
  faultLast := fitted && fault
  busy := busy

/-- The transmitter after a reset (R156): SPENT if the grant is asserted, otherwise WAITING. -/
def Transmitter.reset (grant : Bool) : Transmitter := ⟨if grant then .spent else .waiting, [], none⟩

/-- The sequencer after a power-on reset (R105, R92): OFF, and STARTING at once if power-good is high. -/
def Sequencer.powerOn (t : PanelTable) (powerGood : Bool) : Sequencer where
  state := if powerGood then .starting else .off
  powerGood := powerGood
  sweepPos := 0
  sweeping := powerGood
  blankTimer := 0
  panel := t
  cycle := none

/-- The sequencer after a terminal reset (R105): STARTING unless it is OFF; the sweep position and the blank timer 0. -/
def Sequencer.terminalReset (t : PanelTable) (q : Sequencer) : Sequencer :=
  match q.state with
  | .off => { q with sweepPos := 0, sweeping := false, blankTimer := 0, panel := t }
  | .starting | .running | .blanking | .blanked =>
    { q with state := .starting, sweepPos := 0, sweeping := true, blankTimer := 0, panel := t }

/-- The conditions of the level events as they stand after a reset (R151). -/
def levelsAfter (linePresent powerGood service : Bool) (acc : AccessoryPort) (lines : Vector SignalLine 4) :
    LevelEvent → Bool
  | .linePresent => linePresent
  | .panelPower => powerGood
  | .serviceLine => service
  | .accessoryFault => acc.faultCondition
  | .lineIn n => lines[n].accepted

/-- A programming stopped part way (R170): the image is left with a CRC that fails; its table values and how its CRC
differs are free values (log 12). -/
def Store.interrupted (st : Store) : Store :=
  let t := Config.partialImage st.interruptions
  { st with
    image := ⟨t, t.crc + 1 + BitVec.ofNat 16 (Config.partialCrcSlip st.interruptions).val⟩
    commit := .idle
    interruptions := st.interruptions + 1 }

/-- The store at a power-on reset (R167, R170): IDLE with no snapshot; a programming under way is stopped. -/
def Store.powerOn (st : Store) : Store :=
  match st.commit with
  | .idle => st
  | .programming _ => st.interrupted

/-- POWER_ON_RESET (R168): the straps are sampled, the working tables are loaded, and every block takes its power-on
reset values. STORE-CORRUPT is latched, under the factory masks, where the image's CRC fails. -/
def State.powerOn (p : PowerOnPins) (s : State) : State :=
  let store := s.store.powerOn
  let t := store.image.reload
  let acc := AccessoryPort.reset p.fitted p.levels.fault p.busy
  let lines := resetLines t.lines p.levels.lines
  let s' : State :=
    { rx :=
        { rate := p.rate, state := .hunting, held := [], silence := .stands, linePresent := false, lastCount := 0 }
      cls := Classifier.reset t p.terminal p.levels.service
      ren := Render.reset t
      row := RowEngine.reset
      seq := Sequencer.powerOn t.panel p.powerGood
      touch := Touch.reset t.touch
      ev := EventUnit.reset t.events (levelsAfter false p.powerGood p.levels.service acc lines)
      tx := Transmitter.reset p.levels.grant
      acc := acc
      lines := lines
      store := store
      pins := p.levels
      choices := s.choices
      pending := s.pending }
  s'.latchIf (!store.image.good) .storeCorrupt

/-- POWER_ON_RESET (R168). -/
def execPowerOnReset (p : PowerOnPins) (s : State) : Host.Outcome State Fault Refusal :=
  .next (s.powerOn p)

/-- The tables a terminal reset reloads, and whether they come from a stored image whose CRC fails (R172). -/
def Store.terminalTables (st : Store) : StoredTables × Bool :=
  match st.commit with
  | .idle => (st.image.reload, !st.image.good)
  | .programming t => (t, false)

/-- TERMINAL-RESET acted on (R172): the stored-class tables are reloaded and every block takes its terminal-reset
values; the line receiver and the store are unchanged and the straps are not sampled. The input lines are sampled as
they stand. -/
def State.terminalReset (s : State) : State :=
  let (t, corrupt) := s.store.terminalTables
  let acc := AccessoryPort.reset s.acc.fitted s.pins.fault s.acc.busy
  let lines := resetLines t.lines s.pins.lines
  let s' : State :=
    { rx := s.rx
      cls := Classifier.reset t s.cls.strap s.pins.service
      ren := Render.reset t
      row := RowEngine.reset
      seq := s.seq.terminalReset t.panel
      touch := Touch.reset t.touch
      ev := EventUnit.reset t.events (levelsAfter s.rx.linePresent s.seq.powerGood s.pins.service acc lines)
      tx := Transmitter.reset s.pins.grant
      acc := acc
      lines := lines
      store := s.store
      pins := s.pins
      choices := s.choices
      pending := s.pending }
  s'.latchIf corrupt .storeCorrupt

end Sys2Proof.Machine
end

