-- ==== Sys2Proof/Machine/Classifier.lean ====
section
/-! DEFINITION. The block classifier (chapter 8): table loads at arrival, the six steps of classification, dispatch to
the owners, and the command CHANNEL_LAPSE. -/

namespace Sys2Proof.Machine

/-! ### Table loads at arrival (R165, R166) -/

/-- An ADDRESS load (R122): the number is formed again. -/
def State.loadAddress (body : List Byte) (s : State) : State :=
  s.applyLoad (judgeLoad 1 2 body) fun entries s =>
    { s with
      cls := { s.cls with address := entries.foldl (fun _ (e : Nat × List Byte) => addressOfBytes e.2) s.cls.address }.formNumber }

/-- The new group list from a load's entries in order, and whether a ninth distinct number was dropped (R124). -/
def groupsOf (entries : List Byte) : List (Fin 64) × Bool :=
  entries.foldl
    (fun acc b =>
      if h : b.toNat < 64 then
        if (⟨b.toNat, h⟩ : Fin 64) ∈ acc.1 then acc
        else if acc.1.length < Config.groupListCap then (acc.1 ++ [⟨b.toNat, h⟩], acc.2)
        else (acc.1, true)
      else acc)
    ([], false)

/-- A GROUPS load (R124, R166): the whole list is replaced; a body that does not carry its count of entries discards
the load with FORMAT-ERROR. The first index is not used. -/
def State.loadGroups (body : List Byte) (s : State) : State :=
  let count := (byteAt body 3).toNat
  if (body.drop 4).length < count then s.latch .formatError
  else
    let (groups, dropped) := groupsOf ((body.drop 4).take count)
    { s with cls := { s.cls with groups := groups } }.latchIf dropped .tableClipped

/-- A CHANNELS load (R128). -/
def State.loadChannels (body : List Byte) (s : State) : State :=
  s.applyLoad (judgeLoad 64 2 body) fun entries s =>
    { s with
      cls := { s.cls with
        channels := entries.foldl (fun t e => t.setIfInBounds e.1 (channelOfBytes e.2)) s.cls.channels } }

/-- The entries of the kind table that refuse a load and latch TABLE-CLIPPED: TABLE-LOAD, STATUS-QUERY and
TERMINAL-RESET (R126). -/
def protectedKind (k : Nat) : Bool := k == 11 || k == 12 || k == 18

/-- One KINDS entry written (R126): kind 0 is ignored with no event, a protected kind is ignored. -/
def writeKind (t : Vector KindEntry 32) (e : Nat × List Byte) : Vector KindEntry 32 :=
  if e.1 = 0 ∨ protectedKind e.1 then t else t.setIfInBounds e.1 (kindOfByte (byteAt e.2 0))

/-- A KINDS load (R126). -/
def State.loadKinds (body : List Byte) (s : State) : State :=
  s.applyLoad (judgeLoad 32 1 body) fun entries s =>
    { s with cls := { s.cls with kinds := entries.foldl writeKind s.cls.kinds } }.latchIf
      (entries.any (fun e => protectedKind e.1)) .tableClipped

/-- A WATCH load (R125). -/
def State.loadWatch (body : List Byte) (s : State) : State :=
  s.applyLoad (judgeLoad 8 2 body) fun entries s =>
    { s with
      cls := { s.cls with watch := entries.foldl (fun t e => t.setIfInBounds e.1 (watchOfBytes e.2)) s.cls.watch } }

/-- A PANEL load (R75, R93). -/
def State.loadPanel (body : List Byte) (s : State) : State :=
  s.applyLoad (judgeLoad 5 1 body) fun entries s =>
    { s with
      seq := { s.seq with panel := entries.foldl (fun p e => p.write e.1 (byteAt e.2 0).toNat) s.seq.panel } }

/-- A TOUCH load (R107, R108). -/
def State.loadTouch (body : List Byte) (s : State) : State :=
  s.applyLoad (judgeLoad 4 2 body) fun entries s =>
    { s with touch := s.touch.setTable (entries.foldl (fun t e => t.write e.1 e.2) s.touch.table) }

/-- An EVENTS load (R147). -/
def State.loadEvents (body : List Byte) (s : State) : State :=
  s.applyLoad (judgeLoad 40 1 body) fun entries s =>
    { s with ev := s.ev.setTable (entries.foldl (fun t e => t.write e.1 (byteAt e.2 0)) s.ev.table) }

/-- One LINES entry written (R164). -/
def State.writeLine (s : State) (e : Nat × List Byte) : State :=
  if h : e.1 < 4 then s.configureLine ⟨e.1, h⟩ (lineOfByte e.1 (byteAt e.2 0)) else s

/-- A LINES load (R164). -/
def State.loadLines (body : List Byte) (s : State) : State :=
  s.applyLoad (judgeLoad 4 1 body) fun entries s => entries.foldl State.writeLine s

/-! ### Dispatch (R133, R134) -/

/-- A render work item queued, or lost to RENDER-OVERRUN (R19, R20). It carries its channel's class. -/
def State.queueItem (k : WorkKind) (b : Block) (s : State) : State :=
  if s.ren.queue.length < Config.renderQueueCap then
    { s with
      ren := { s.ren with
        queue := s.ren.queue ++ [⟨k, b.channel, s.cls.channels[b.channel].cls, b.body⟩] } }
  else s.latch .renderOverrun

/-- A TABLE-LOAD at dispatch: its id decides where it is applied (R165). -/
def State.tableLoad (b : Block) (s : State) : State :=
  match (byteAt b.body 0).toNat with
  | 0 => s.loadAddress b.body
  | 1 => s.loadGroups b.body
  | 2 => s.loadChannels b.body
  | 3 => s.loadKinds b.body
  | 4 => s.loadWatch b.body
  | 5 => s.queueItem .transferLoad b
  | 6 => s.queueItem .thresholdLoad b
  | 7 => s.queueItem .weightsLoad b
  | 8 => s.queueItem .glyphsLoad b
  | 9 => s.loadPanel b.body
  | 10 => s.loadTouch b.body
  | 11 => s.loadEvents b.body
  | 12 => s.loadLines b.body
  | _ => s.latch .formatError

/-- A PANEL-CONTROL at dispatch (R133, R134). -/
def State.panelControl (b : Block) (s : State) : State :=
  match (byteAt b.body 0).toNat with
  | 0 => s.queueItem .eraseAll b
  | 1 => s.blank
  | 2 => s.unblank
  | _ => s.latch .formatError

/-- The block sent to the owner of its kind (R133); kinds 10 and 20 on have none (R134). Image, text and fill blocks
restart the blank timer, overrun or not (R104). -/
def State.act (b : Block) (s : State) : State :=
  match b.kind.toNat with
  | 1 => (s.queueItem .imageOpen b).restartBlankTimer
  | 2 => (s.queueItem .imageStripe b).restartBlankTimer
  | 3 => (s.queueItem .imageClose b).restartBlankTimer
  | 4 => (s.queueItem .imageAbort b).restartBlankTimer
  | 5 => (s.queueItem .text b).restartBlankTimer
  | 6 => (s.queueItem .fill b).restartBlankTimer
  | 7 => s.queueItem .windowSet b
  | 8 => s.zoneSet b.body
  | 9 => s.panelControl b
  | 11 => s.tableLoad b
  | 12 => s.offer (.status s.statusReport)
  | 13 => { s with ev := s.ev.clear (longAt b.body 0) }
  | 14 => s.latch .test
  | 15 => s.lineSet b.body
  | 16 => s.storeCommit
  | 17 => s.storeFactory
  | 18 => s.terminalReset
  | 19 => { s with row := s.row.clearFaults }
  | _ => s

/-- Step 6: dispatch by disposition, the owner before the hand-off copy (R133). -/
def State.dispatch (d : Disposition) (b : Block) (s : State) : State :=
  let s := if d.acts then s.act b else s
  if d.hands then s.handOff b.body else s

/-! ### The six steps (R123 to R132) -/

/-- The block's address matches this terminal (R123). -/
def Classifier.matchesAddress (c : Classifier) (b : Block) : Bool :=
  match b.form with
  | .individual => b.number.val == c.number.val
  | .group => c.groups.contains b.number
  | .all => true
  | .fourth => false

/-- A watch entry matches a kind code (R125): entries hold kinds 0..31. -/
def WatchEntry.hits (kind : Byte) (w : WatchEntry) : Bool :=
  match w.kind with
  | some k => k.val == kind.toNat
  | none => false

/-- The watch entries that match, in increasing number (R125). -/
def Classifier.watchHits (c : Classifier) (kind : Byte) : List (Fin 8) :=
  (List.finRange 8).filter (fun k => c.watch[k].hits kind)

/-- Step 1: the watch list (R125, R102). -/
def State.watchStep (b : Block) (s : State) : State :=
  match (s.cls.watchHits b.kind).getLast? with
  | none => s
  | some k =>
    let wakes := (s.cls.watchHits b.kind).any (fun k => s.cls.watch[k].unblank)
    let s := s.latch .watchHit
    let s := { s with ev := { s.ev with lastWatch := some k } }
    if wakes then s.unblank else s

/-- A body too short for its owner (R127). -/
def tooShort (e : KindEntry) (b : Block) : Bool :=
  e.disposition.acts && (1 ≤ b.kind.toNat && b.kind.toNat ≤ 19) && b.body.length < fixedPart b.kind.toNat

/-- What step 2 makes of a block (R127): an event that discards it, or its kind entry. -/
def Classifier.kindStep (c : Classifier) (b : Block) : Except EdgeEvent KindEntry :=
  if h : b.kind.toNat < 32 then
    let e := c.kindsInUse[b.kind.toNat]
    if !e.forms.has b.form then .error .filtered
    else if tooShort e b then .error .formatError
    else .ok e
  else .error .unknownKind

/-- What the channel check makes of a block (R129). -/
inductive ChannelVerdict where
  | pass
  | silent
  | filtered
  deriving DecidableEq, Repr

/-- The block names a window that the channel may not draw on (R129). -/
def ChannelEntry.windowRefused (c : ChannelEntry) (d : Disposition) (b : Block) : Bool :=
  d.acts &&
    match windowNumber b.kind.toNat b.body with
    | some w => 7 < w || !c.windows.getLsbD w
    | none => false

/-- Step 3: the channel check, skipped by bypass kinds (R129). -/
def Classifier.channelStep (c : Classifier) (e : KindEntry) (b : Block) : ChannelVerdict :=
  let ch := c.channels[b.channel]
  if e.bypass then .pass
  else if !ch.member then .silent
  else if !ch.forms.has b.form then .filtered
  else if ch.windowRefused e.disposition b then .filtered
  else .pass

/-- Step 4: the block repeats the last one taken on a de-duplicating channel; an IMAGE-STRIPE never does (R131). -/
def Classifier.repeats (c : Classifier) (b : Block) : Bool :=
  b.kind.toNat != 2 && c.channels[b.channel].dedupe && c.chanState[b.channel].lastSeq == some b.seq

/-- Steps 4 and 5 of a block that is not a repeat: its sequence is recorded, unless it is an IMAGE-STRIPE (R131), and
its channel is present with lapse count 0 (R132). -/
def Classifier.record (c : Classifier) (b : Block) : Classifier :=
  let old := c.chanState[b.channel]
  { c with
    chanState := c.chanState.set b.channel
      { lastSeq := if b.kind.toNat = 2 then old.lastSeq else some b.seq, present := true, lapse := 0 } }

/-- A block that has passed steps 1 to 3, through steps 4 to 6. -/
def State.recordAndDispatch (e : KindEntry) (b : Block) (s : State) : State :=
  if s.cls.repeats b then s else { s with cls := s.cls.record b }.dispatch e.disposition b

/-- A good block other than a CADENCE, through address matching and the six steps (R123, R125 to R135). -/
def State.classify (b : Block) (s : State) : State :=
  if !s.cls.matchesAddress b then s
  else
    let s := s.watchStep b
    match s.cls.kindStep b with
    | .error e => s.latch e
    | .ok e =>
      match s.cls.channelStep e b with
      | .silent => s
      | .filtered => s.latch .filtered
      | .pass => s.recordAndDispatch e b

/-! ### Lapses (R132) -/

/-- A channel's lapse count has run out: it becomes absent and LESSON-LAPSE is latched (R132). -/
def State.lapse (ch : Fin 64) (s : State) : State :=
  { s with
    cls := { s.cls with
      chanState := s.cls.chanState.set ch { s.cls.chanState[ch] with present := false } } }.latch .lessonLapse

/-- A CADENCE notice at one channel (R132). -/
def State.cadenceAtChannel (s : State) (ch : Fin 64) : State :=
  let c := s.cls.chanState[ch]
  if c.present then
    let s := { s with
      cls := { s.cls with chanState := s.cls.chanState.set ch { c with lapse := c.lapse + 1 } } }
    if Config.lapseLimit ≤ c.lapse + 1 then s.lapse ch else s
  else s

/-- A CADENCE notice at the classifier (R132, R143). -/
def State.cadenceAtChannels (s : State) : State := (List.finRange 64).foldl State.cadenceAtChannel s

/-- CHANNEL_LAPSE: a present channel's lapse count stands at 8 (R132). The notice that brings it there has this effect
itself (log 6). -/
def execChannelLapse (ch : Fin 64) (s : State) : Host.Outcome State Fault Refusal :=
  .next <|
    if s.cls.chanState[ch].present ∧ Config.lapseLimit ≤ s.cls.chanState[ch].lapse then s.lapse ch else s

end Sys2Proof.Machine
end

