-- ==== Sys2Proof/Machine/Lesson.lean ====
section
/-! DEFINITION. The lesson line (chapter 9): the line receiver byte by byte, CADENCE, the line-silence timer, and the
commands that are arrivals of blocks. Each of these delivers the bytes of its block to the receiver (log 8). -/

namespace Sys2Proof.Machine

/-! ### The line receiver (R137 to R140) -/

/-- What the taking of a byte comes to. -/
inductive RxResult where
  /-- the block is not finished -/
  | none
  /-- a length byte above 240 (R138) -/
  | lengthError
  /-- the CRC received differs (R140) -/
  | checkError
  /-- a good block (R140) -/
  | good (b : Block)
  deriving DecidableEq, Repr

/-- The length byte of the block being assembled. -/
def LineReceiver.length (held : List Byte) : Nat := (byteAt held 4).toNat

/-- A finished block judged by its CRC (R139, R140): `held` is its header, its body and two CRC bytes. -/
def judgeBlock (held : List Byte) : RxResult :=
  let n := 5 + LineReceiver.length held
  if crc16 (held.take n) = wordAt held n then
    .good ⟨byteAt held 0, byteAt held 1, byteAt held 2, byteAt held 3, (held.take n).drop 5⟩
  else .checkError

/-- One byte taken by the receiver in the state it finds (R137). -/
def LineReceiver.takeByte (b : Byte) (r : LineReceiver) : LineReceiver × RxResult :=
  match r.state with
  | .hunting => (if b = leadByte then { r with state := .header, held := [] } else r, .none)
  | .header =>
    let held := r.held ++ [b]
    if held.length < 5 then ({ r with held := held }, .none)
    else if Config.maxBody < LineReceiver.length held then ({ r with state := .hunting, held := [] }, .lengthError)
    else if LineReceiver.length held = 0 then ({ r with state := .check, held := held }, .none)
    else ({ r with state := .body, held := held }, .none)
  | .body =>
    let held := r.held ++ [b]
    if held.length < 5 + LineReceiver.length held then ({ r with held := held }, .none)
    else ({ r with state := .check, held := held }, .none)
  | .check =>
    let held := r.held ++ [b]
    if held.length < 5 + LineReceiver.length held + 2 then ({ r with held := held }, .none)
    else ({ r with state := .hunting, held := [] }, judgeBlock held)

/-! ### Good blocks (R140 to R143) -/

/-- A good block restarts the line-silence timer and makes LINE-PRESENT true (R141). -/
def State.linePresent (s : State) : State :=
  { s with rx := { s.rx with silence := .running, linePresent := true } }.setLevel .linePresent true

/-- A CADENCE notice to its three owners (R143). -/
def State.cadenceNotice (s : State) : State := ((s.cadenceAtChannels).notice .cadence).cadenceAtPanel

/-- A good block of kind 0 (R142). -/
def State.takeCadence (b : Block) (s : State) : State :=
  match b.form with
  | .all =>
    if b.body.length < 2 then s.latch .formatError
    else { s with rx := { s.rx with lastCount := wordAt b.body 0 } }.cadenceNotice
  | .individual | .group | .fourth => s

/-- A good block (R140). -/
def State.takeGood (b : Block) (s : State) : State :=
  let s := s.linePresent
  if b.kind = 0 then s.takeCadence b else s.classify b

/-- What the receiver's finding does. -/
def State.rxResult (r : RxResult) (s : State) : State :=
  match r with
  | .none => s
  | .lengthError => s.latch .formatError
  | .checkError => s.latch .checkError
  | .good b => s.takeGood b

/-- One byte delivered by the line interface (R136, R137). -/
def State.takeByte (s : State) (b : Byte) : State :=
  let (rx, result) := s.rx.takeByte b
  { s with rx := rx }.rxResult result

/-- Bytes delivered one after another. -/
def State.deliver (bytes : List Byte) (s : State) : State := bytes.foldl State.takeByte s

/-- A block sent intact delivered. -/
def State.receive (h : Header) (kind : Byte) (body : List Byte) (s : State) : State :=
  s.deliver (goodBlockBytes h kind body)

/-! ### The commands of the line receiver -/

/-- CADENCE: a block of kind 0 (R142). -/
def execCadence (h : Header) (body : List Byte) (s : State) : Host.Outcome State Fault Refusal :=
  .next (s.receive h 0 body)

/-- The CADENCE that follows the last one taken: to ALL, with the count one above the last cadence count (R142; the
channel and sequence bytes are not used). -/
def State.nextCadence (s : State) : Header × List Byte := (⟨0x80, 0, 0⟩, wordBytes (s.rx.lastCount + 1))

/-- BLANK_TIMEOUT: the CADENCE at whose notice the blank timer reaches the timeout in RUNNING. The timer is compared at
notices alone (R103), so the command is the arrival of the next CADENCE; whether the panel enters BLANKING is for its
notice to find (DESIGN CHOICE, log 6). -/
def execBlankTimeout (s : State) : Host.Outcome State Fault Refusal :=
  .next (s.receive s.nextCadence.1 0 s.nextCadence.2)

/-- CHECK_ERROR: a block with the CRC bytes received, which differ from its CRC (R140). -/
def execCheckError (h : Header) (kind : Byte) (body : List Byte) (crc : BitVec 16) (s : State) :
    Host.Outcome State Fault Refusal :=
  .next (s.deliver (blockBytes h kind body crc))

/-- LENGTH_ERROR: a lead and a header whose length byte is above 240 (R138). -/
def execLengthError (h : Header) (kind length : Byte) (s : State) : Host.Outcome State Fault Refusal :=
  .next (s.deliver [leadByte, h.addr, h.chan, kind, h.seq, length])

/-- LINE_SILENCE_TIMEOUT: 500 ms pass with no restart; LINE-PRESENT becomes false and the timer stands (R141). -/
def execLineSilenceTimeout (s : State) : Host.Outcome State Fault Refusal :=
  .next <|
    match s.rx.silence with
    | .running => { s with rx := { s.rx with silence := .stands, linePresent := false } }.setLevel .linePresent false
    | .stands => s

/-! ### The commands that are arrivals of blocks, by their kinds -/

/-- UNKNOWN_KIND (R127). -/
def execUnknownKind (h : Header) (kind : Byte) (body : List Byte) (s : State) : Host.Outcome State Fault Refusal :=
  .next (s.receive h kind body)

/-- BLOCK_QUEUED_FOR_RENDER (R133, R19, R20). -/
def execBlockQueuedForRender (h : Header) (kind : Byte) (body : List Byte) (s : State) :
    Host.Outcome State Fault Refusal :=
  .next (s.receive h kind body)

/-- ACCESSORY (R134, R158). -/
def execAccessory (h : Header) (kind : Byte) (body : List Byte) (s : State) : Host.Outcome State Fault Refusal :=
  .next (s.receive h kind body)

/-- ADDRESS_LOAD: TABLE-LOAD of id 0 (R122). -/
def execAddressLoad (h : Header) (rest : List Byte) (s : State) : Host.Outcome State Fault Refusal :=
  .next (s.receive h 11 (0 :: rest))

/-- GROUPS_LOAD: TABLE-LOAD of id 1 (R124). -/
def execGroupsLoad (h : Header) (rest : List Byte) (s : State) : Host.Outcome State Fault Refusal :=
  .next (s.receive h 11 (1 :: rest))

/-- CHANNELS_LOAD: TABLE-LOAD of id 2 (R128). -/
def execChannelsLoad (h : Header) (rest : List Byte) (s : State) : Host.Outcome State Fault Refusal :=
  .next (s.receive h 11 (2 :: rest))

/-- KINDS_LOAD: TABLE-LOAD of id 3 (R126). -/
def execKindsLoad (h : Header) (rest : List Byte) (s : State) : Host.Outcome State Fault Refusal :=
  .next (s.receive h 11 (3 :: rest))

/-- WATCH_LOAD: TABLE-LOAD of id 4 (R125). -/
def execWatchLoad (h : Header) (rest : List Byte) (s : State) : Host.Outcome State Fault Refusal :=
  .next (s.receive h 11 (4 :: rest))

/-- PANEL_LOAD: TABLE-LOAD of id 9 (R75). -/
def execPanelLoad (h : Header) (rest : List Byte) (s : State) : Host.Outcome State Fault Refusal :=
  .next (s.receive h 11 (9 :: rest))

/-- TOUCH_LOAD: TABLE-LOAD of id 10 (R108). -/
def execTouchLoad (h : Header) (rest : List Byte) (s : State) : Host.Outcome State Fault Refusal :=
  .next (s.receive h 11 (10 :: rest))

/-- EVENTS_LOAD: TABLE-LOAD of id 11 (R147). -/
def execEventsLoad (h : Header) (rest : List Byte) (s : State) : Host.Outcome State Fault Refusal :=
  .next (s.receive h 11 (11 :: rest))

/-- LINES_LOAD: TABLE-LOAD of id 12 (R164). -/
def execLinesLoad (h : Header) (rest : List Byte) (s : State) : Host.Outcome State Fault Refusal :=
  .next (s.receive h 11 (12 :: rest))

/-- INVALID_TABLE_ID: TABLE-LOAD of id 13 or above (R165). -/
def execInvalidTableId (h : Header) (body : List Byte) (s : State) : Host.Outcome State Fault Refusal :=
  .next (s.receive h 11 body)

/-- BLANK: PANEL-CONTROL action 1 (R98). -/
def execBlank (h : Header) (rest : List Byte) (s : State) : Host.Outcome State Fault Refusal :=
  .next (s.receive h 9 (1 :: rest))

/-- UNBLANK: PANEL-CONTROL action 2 (R100, R101). -/
def execUnblank (h : Header) (rest : List Byte) (s : State) : Host.Outcome State Fault Refusal :=
  .next (s.receive h 9 (2 :: rest))

/-- PANEL_CONTROL_UNDEFINED: PANEL-CONTROL with another action code (R134). -/
def execPanelControlUndefined (h : Header) (body : List Byte) (s : State) : Host.Outcome State Fault Refusal :=
  .next (s.receive h 9 body)

/-- ZONE_SET (R115). -/
def execZoneSet (h : Header) (body : List Byte) (s : State) : Host.Outcome State Fault Refusal :=
  .next (s.receive h 8 body)

/-- DISARM_ALL: ZONE-SET with zone number 0xFF (R115). -/
def execDisarmAll (h : Header) (rest : List Byte) (s : State) : Host.Outcome State Fault Refusal :=
  .next (s.receive h 8 (0xFF :: rest))

/-- STATUS_QUERY (R152). -/
def execStatusQuery (h : Header) (body : List Byte) (s : State) : Host.Outcome State Fault Refusal :=
  .next (s.receive h 12 body)

/-- EVENT_CLEAR (R149). -/
def execEventClear (h : Header) (body : List Byte) (s : State) : Host.Outcome State Fault Refusal :=
  .next (s.receive h 13 body)

/-- EVENT_TEST (R150). -/
def execEventTest (h : Header) (body : List Byte) (s : State) : Host.Outcome State Fault Refusal :=
  .next (s.receive h 14 body)

/-- LINE_SET (R163). -/
def execLineSet (h : Header) (body : List Byte) (s : State) : Host.Outcome State Fault Refusal :=
  .next (s.receive h 15 body)

/-- STORE_COMMIT (R169). -/
def execStoreCommit (h : Header) (body : List Byte) (s : State) : Host.Outcome State Fault Refusal :=
  .next (s.receive h 16 body)

/-- STORE_FACTORY (R171). -/
def execStoreFactory (h : Header) (body : List Byte) (s : State) : Host.Outcome State Fault Refusal :=
  .next (s.receive h 17 body)

/-- TERMINAL_RESET: a kind-18 block; the input lines stand at the given levels when it is acted on (R172). -/
def execTerminalReset (h : Header) (body : List Byte) (levels : InputLevels) (s : State) :
    Host.Outcome State Fault Refusal :=
  .next ({ s with pins := levels }.receive h 18 body)

/-- FAULT_CLEAR (R87). -/
def execFaultClear (h : Header) (body : List Byte) (s : State) : Host.Outcome State Fault Refusal :=
  .next (s.receive h 19 body)

end Sys2Proof.Machine
end

