-- ==== Sys2Proof/Machine/Dispatch.lean ====
section
/-! DEFINITION. The dispatch of the commands: one arm per row of spec/opcode_table.json. -/

namespace Sys2Proof.Machine

def exec (i : Instr) (s : State) : Host.Outcome State Fault Refusal :=
  match i with
  | .powerOnReset pins => Sys2Proof.Machine.execPowerOnReset pins s
  | .terminalReset h body levels => Sys2Proof.Machine.execTerminalReset h body levels s
  | .cadence h body => Sys2Proof.Machine.execCadence h body s
  | .checkError h kind body crc => Sys2Proof.Machine.execCheckError h kind body crc s
  | .lengthError h kind length => Sys2Proof.Machine.execLengthError h kind length s
  | .lineSilenceTimeout => Sys2Proof.Machine.execLineSilenceTimeout s
  | .unknownKind h kind body => Sys2Proof.Machine.execUnknownKind h kind body s
  | .blockQueuedForRender h kind body => Sys2Proof.Machine.execBlockQueuedForRender h kind body s
  | .accessory h kind body => Sys2Proof.Machine.execAccessory h kind body s
  | .channelLapse channel => Sys2Proof.Machine.execChannelLapse channel s
  | .imageOpen => Sys2Proof.Machine.execImageOpen s
  | .imageStripe => Sys2Proof.Machine.execImageStripe s
  | .readyStripe => Sys2Proof.Machine.execReadyStripe s
  | .imageClose => Sys2Proof.Machine.execImageClose s
  | .imageAbort => Sys2Proof.Machine.execImageAbort s
  | .applyHeldCadenceNotice => Sys2Proof.Machine.execApplyHeldCadenceNotice s
  | .closingTimeout slot => Sys2Proof.Machine.execClosingTimeout slot s
  | .idleTimeout slot => Sys2Proof.Machine.execIdleTimeout slot s
  | .text => Sys2Proof.Machine.execText s
  | .fill => Sys2Proof.Machine.execFill s
  | .windowSet => Sys2Proof.Machine.execWindowSet s
  | .eraseAll => Sys2Proof.Machine.execEraseAll s
  | .echoRequest => Sys2Proof.Machine.execEchoRequest s
  | .transferLoad => Sys2Proof.Machine.execTransferLoad s
  | .thresholdLoad => Sys2Proof.Machine.execThresholdLoad s
  | .weightsLoad => Sys2Proof.Machine.execWeightsLoad s
  | .glyphsLoad => Sys2Proof.Machine.execGlyphsLoad s
  | .addressLoad h rest => Sys2Proof.Machine.execAddressLoad h rest s
  | .groupsLoad h rest => Sys2Proof.Machine.execGroupsLoad h rest s
  | .channelsLoad h rest => Sys2Proof.Machine.execChannelsLoad h rest s
  | .kindsLoad h rest => Sys2Proof.Machine.execKindsLoad h rest s
  | .watchLoad h rest => Sys2Proof.Machine.execWatchLoad h rest s
  | .panelLoad h rest => Sys2Proof.Machine.execPanelLoad h rest s
  | .touchLoad h rest => Sys2Proof.Machine.execTouchLoad h rest s
  | .eventsLoad h rest => Sys2Proof.Machine.execEventsLoad h rest s
  | .linesLoad h rest => Sys2Proof.Machine.execLinesLoad h rest s
  | .invalidTableId h body => Sys2Proof.Machine.execInvalidTableId h body s
  | .blank h rest => Sys2Proof.Machine.execBlank h rest s
  | .unblank h rest => Sys2Proof.Machine.execUnblank h rest s
  | .panelControlUndefined h body => Sys2Proof.Machine.execPanelControlUndefined h body s
  | .zoneSet h body => Sys2Proof.Machine.execZoneSet h body s
  | .disarmAll h rest => Sys2Proof.Machine.execDisarmAll h rest s
  | .statusQuery h body => Sys2Proof.Machine.execStatusQuery h body s
  | .eventClear h body => Sys2Proof.Machine.execEventClear h body s
  | .eventTest h body => Sys2Proof.Machine.execEventTest h body s
  | .lineSet h body => Sys2Proof.Machine.execLineSet h body s
  | .storeCommit h body => Sys2Proof.Machine.execStoreCommit h body s
  | .programmingComplete => Sys2Proof.Machine.execProgrammingComplete s
  | .storeFactory h body => Sys2Proof.Machine.execStoreFactory h body s
  | .factoryHalftoneNotice => Sys2Proof.Machine.execFactoryHalftoneNotice s
  | .faultClear h body => Sys2Proof.Machine.execFaultClear h body s
  | .addressSlot => Sys2Proof.Machine.execAddressSlot s
  | .senseCompletion count => Sys2Proof.Machine.execSenseCompletion count s
  | .drainComplete => Sys2Proof.Machine.execDrainComplete s
  | .startingSweepComplete => Sys2Proof.Machine.execStartingSweepComplete s
  | .blankingSweepComplete => Sys2Proof.Machine.execBlankingSweepComplete s
  | .powerGoodRise => Sys2Proof.Machine.execPowerGoodRise s
  | .powerGoodFall => Sys2Proof.Machine.execPowerGoodFall s
  | .blankTimeout => Sys2Proof.Machine.execBlankTimeout s
  | .scan sample => Sys2Proof.Machine.execScan sample s
  | .grantAsserted => Sys2Proof.Machine.execGrantAsserted s
  | .frameBegin => Sys2Proof.Machine.execFrameBegin s
  | .frameComplete => Sys2Proof.Machine.execFrameComplete s
  | .grantWithdrawn => Sys2Proof.Machine.execGrantWithdrawn s
  | .acknowledge => Sys2Proof.Machine.execAcknowledge s
  | .busyAsserted => Sys2Proof.Machine.execBusyAsserted s
  | .busyReleased => Sys2Proof.Machine.execBusyReleased s
  | .ackTimeout => Sys2Proof.Machine.execAckTimeout s

end Sys2Proof.Machine
end

