-- ==== Sys2Proof/WellFormed.lean ====
section
/-! DEFINITION. The commands that can be sent: a block's body is no longer than its length byte allows, and its kind
and selecting byte are those of its row. -/

namespace Sys2Proof

/-- A body a block can carry: 0..240 bytes (R174, R138). -/
def wfBody (body : List Byte) : Bool := body.length ≤ 240

/-- A body after a selecting byte that the row fixes. -/
def wfRest (rest : List Byte) : Bool := rest.length ≤ 239

/-- The kinds and bodies of the render path (R133): kinds 1..7, PANEL-CONTROL ERASE-ALL and TABLE-LOAD of ids 5..8. -/
def renderPathBlock (kind : Byte) (body : List Byte) : Bool :=
  (1 ≤ kind.toNat && kind.toNat ≤ 7)
    || (kind == 9 && body.head? == some 0)
    || (kind == 11 && match body with
        | [] => false
        | id :: _ => 5 ≤ id.toNat && id.toNat ≤ 8)

/-- The kinds with no owner (R134): 10 and 20..31. -/
def ownerlessKind (kind : Byte) : Bool := kind == 10 || (20 ≤ kind.toNat && kind.toNat ≤ 31)

/-- The command is one that its row of the table describes. -/
def Instr.wf : Instr → Bool
  | .powerOnReset _ => true
  | .terminalReset _ body _ => wfBody body
  | .cadence _ body => wfBody body
  | .checkError h kind body crc => wfBody body && crc != Machine.crc16 (Machine.blockData h kind body)
  | .lengthError _ _ length => 240 < length.toNat
  | .lineSilenceTimeout => true
  | .unknownKind _ kind body => wfBody body && 32 ≤ kind.toNat
  | .blockQueuedForRender _ kind body => wfBody body && renderPathBlock kind body
  | .accessory _ kind body => wfBody body && ownerlessKind kind
  | .channelLapse _ => true
  | .imageOpen => true
  | .imageStripe => true
  | .readyStripe => true
  | .imageClose => true
  | .imageAbort => true
  | .applyHeldCadenceNotice => true
  | .closingTimeout _ => true
  | .idleTimeout _ => true
  | .text => true
  | .fill => true
  | .windowSet => true
  | .eraseAll => true
  | .echoRequest => true
  | .transferLoad => true
  | .thresholdLoad => true
  | .weightsLoad => true
  | .glyphsLoad => true
  | .addressLoad _ rest => wfRest rest
  | .groupsLoad _ rest => wfRest rest
  | .channelsLoad _ rest => wfRest rest
  | .kindsLoad _ rest => wfRest rest
  | .watchLoad _ rest => wfRest rest
  | .panelLoad _ rest => wfRest rest
  | .touchLoad _ rest => wfRest rest
  | .eventsLoad _ rest => wfRest rest
  | .linesLoad _ rest => wfRest rest
  | .invalidTableId _ body =>
    wfBody body && match body with
      | [] => true
      | id :: _ => 13 ≤ id.toNat
  | .blank _ rest => wfRest rest
  | .unblank _ rest => wfRest rest
  | .panelControlUndefined _ body =>
    wfBody body && match body with
      | [] => true
      | action :: _ => 3 ≤ action.toNat
  | .zoneSet _ body => wfBody body && body.head? != some 0xFF
  | .disarmAll _ rest => wfRest rest
  | .statusQuery _ body => wfBody body
  | .eventClear _ body => wfBody body
  | .eventTest _ body => wfBody body
  | .lineSet _ body => wfBody body
  | .storeCommit _ body => wfBody body
  | .programmingComplete => true
  | .storeFactory _ body => wfBody body
  | .factoryHalftoneNotice => true
  | .faultClear _ body => wfBody body
  | .addressSlot => true
  | .senseCompletion _ => true
  | .drainComplete => true
  | .startingSweepComplete => true
  | .blankingSweepComplete => true
  | .powerGoodRise => true
  | .powerGoodFall => true
  | .blankTimeout => true
  | .scan _ => true
  | .grantAsserted => true
  | .frameBegin => true
  | .frameComplete => true
  | .grantWithdrawn => true
  | .acknowledge => true
  | .busyAsserted => true
  | .busyReleased => true
  | .ackTimeout => true

end Sys2Proof
end

