-- ==== Sys2Proof/Safety.lean ====
section
/-! DEFINITION. What claims about the FP-512 speak of: the block that a command sends, the blocks that pass
classification, and the properties that every step keeps. -/

namespace Sys2Proof

open Machine

/-- The block of kind 1..255 that a command sends whole and with a good CRC, if it sends one. TERMINAL_RESET is left
out: it also says how the input lines stand. -/
def Instr.sentBlock : Instr → Option Block
  | .powerOnReset _ => none
  | .terminalReset _ _ _ => none
  | .cadence _ _ => none
  | .checkError _ _ _ _ => none
  | .lengthError _ _ _ => none
  | .lineSilenceTimeout => none
  | .unknownKind h kind body => some (blockOf h kind body)
  | .blockQueuedForRender h kind body => some (blockOf h kind body)
  | .accessory h kind body => some (blockOf h kind body)
  | .channelLapse _ => none
  | .imageOpen => none
  | .imageStripe => none
  | .readyStripe => none
  | .imageClose => none
  | .imageAbort => none
  | .applyHeldCadenceNotice => none
  | .closingTimeout _ => none
  | .idleTimeout _ => none
  | .text => none
  | .fill => none
  | .windowSet => none
  | .eraseAll => none
  | .echoRequest => none
  | .transferLoad => none
  | .thresholdLoad => none
  | .weightsLoad => none
  | .glyphsLoad => none
  | .addressLoad h rest => some (blockOf h 11 (0 :: rest))
  | .groupsLoad h rest => some (blockOf h 11 (1 :: rest))
  | .channelsLoad h rest => some (blockOf h 11 (2 :: rest))
  | .kindsLoad h rest => some (blockOf h 11 (3 :: rest))
  | .watchLoad h rest => some (blockOf h 11 (4 :: rest))
  | .panelLoad h rest => some (blockOf h 11 (9 :: rest))
  | .touchLoad h rest => some (blockOf h 11 (10 :: rest))
  | .eventsLoad h rest => some (blockOf h 11 (11 :: rest))
  | .linesLoad h rest => some (blockOf h 11 (12 :: rest))
  | .invalidTableId h body => some (blockOf h 11 body)
  | .blank h rest => some (blockOf h 9 (1 :: rest))
  | .unblank h rest => some (blockOf h 9 (2 :: rest))
  | .panelControlUndefined h body => some (blockOf h 9 body)
  | .zoneSet h body => some (blockOf h 8 body)
  | .disarmAll h rest => some (blockOf h 8 (0xFF :: rest))
  | .statusQuery h body => some (blockOf h 12 body)
  | .eventClear h body => some (blockOf h 13 body)
  | .eventTest h body => some (blockOf h 14 body)
  | .lineSet h body => some (blockOf h 15 body)
  | .storeCommit h body => some (blockOf h 16 body)
  | .programmingComplete => none
  | .storeFactory h body => some (blockOf h 17 body)
  | .factoryHalftoneNotice => none
  | .faultClear h body => some (blockOf h 19 body)
  | .addressSlot => none
  | .senseCompletion _ => none
  | .drainComplete => none
  | .startingSweepComplete => none
  | .blankingSweepComplete => none
  | .powerGoodRise => none
  | .powerGoodFall => none
  | .blankTimeout => none
  | .scan _ => none
  | .grantAsserted => none
  | .frameBegin => none
  | .frameComplete => none
  | .grantWithdrawn => none
  | .acknowledge => none
  | .busyAsserted => none
  | .busyReleased => none
  | .ackTimeout => none

end Sys2Proof

namespace Sys2Proof.Machine

/-! ### Blocks that pass -/

/-- The state after the receiver has judged a good block: HUNTING, the line-silence timer restarted, LINE-PRESENT true
(R140, R141). -/
def State.heard (s : State) : State :=
  { s with rx := { s.rx with state := .hunting, held := [] } }.linePresent

/-- The state after a block has been recorded on its channel: steps 4 and 5 of classification (R131, R132). -/
def State.taken (b : Block) (s : State) : State :=
  let t := s.heard
  { t with cls := t.cls.record b }

/-- The command sends the block, and `u` is `s` with what the command says of the input lines: nothing, or for TERMINAL_RESET
the levels at which they stand (log 20). -/
def State.Sends (s : State) (i : Instr) (b : Block) (u : State) : Prop :=
  (i.sentBlock = some b ∧ u = s) ∨
    ∃ h body levels, i = .terminalReset h body levels ∧ b = blockOf h 18 body ∧ u = { s with pins := levels }

/-- No watch entry matches the block's kind (R125). -/
def State.Unwatched (s : State) (b : Block) : Prop := s.cls.watchHits b.kind = []

/-- The kind entry that step 2 reads for the block is `e` (R126, R127). -/
def State.KindIs (s : State) (b : Block) (e : KindEntry) : Prop :=
  s.cls.kindsInUse.toList[b.kind.toNat]? = some e

/-- The block passes steps 2 to 4 with the kind entry `e` (R127, R129, R131). -/
def State.Passes (s : State) (e : KindEntry) (b : Block) : Prop :=
  s.KindIs b e ∧ e.forms.has b.form = true ∧ tooShort e b = false ∧ s.cls.channelStep e b = .pass ∧
    s.cls.repeats b = false

/-- The block can be sent (R138), is addressed to this terminal (R123), meets a receiver that hunts (R137) and no watch
entry, and passes steps 2 to 4 with the kind entry `e`. -/
def State.Admits (s : State) (e : KindEntry) (b : Block) : Prop :=
  s.rx.state = .hunting ∧ b.body.length ≤ Config.maxBody ∧ b.kind ≠ 0 ∧ s.cls.matchesAddress b = true ∧
    s.Unwatched b ∧ s.Passes e b

/-- The block is admitted with disposition ACT. -/
def State.Acts (s : State) (b : Block) : Prop := ∃ e, s.Admits e b ∧ e.disposition = .act

/-- The body of a TABLE-LOAD after its table id: first index, entry count, entry bytes (R175). -/
def loadRest (first : BitVec 16) (count : Byte) (bytes : List Byte) : List Byte := wordBytes first ++ count :: bytes

/-- The tables that a load at arrival writes entry by entry: table end and bytes per entry (R165). -/
def arrivalTable (id : Byte) : Option (Nat × Nat) :=
  match id.toNat with
  | 0 => some (1, 2)
  | 2 => some (64, 2)
  | 3 => some (32, 1)
  | 4 => some (8, 2)
  | 9 => some (5, 1)
  | 10 => some (4, 2)
  | 11 => some (40, 1)
  | 12 => some (4, 1)
  | _ => none

/-- The bytes of entry `n` of a load of entries of `size` bytes whose first index is `first`. -/
def entryBytes (size first n : Nat) (bytes : List Byte) : List Byte := (bytes.drop (size * (n - first))).take size

/-- Entry `n` is one that a load writes. -/
def Loaded (first : BitVec 16) (count : Byte) (n : Nat) : Prop := first.toNat ≤ n ∧ n < first.toNat + count.toNat

/-- The render work item that a block of the render path becomes (R19, R133). -/
def workKindOf (kind : Byte) (body : List Byte) : Option WorkKind :=
  match kind.toNat, body with
  | 1, _ => some .imageOpen
  | 2, _ => some .imageStripe
  | 3, _ => some .imageClose
  | 4, _ => some .imageAbort
  | 5, _ => some .text
  | 6, _ => some .fill
  | 7, _ => some .windowSet
  | 9, action :: _ => if action = 0 then some .eraseAll else none
  | 11, id :: _ =>
    if id = 5 then some .transferLoad
    else if id = 6 then some .thresholdLoad
    else if id = 7 then some .weightsLoad
    else if id = 8 then some .glyphsLoad
    else none
  | _, _ => none

/-! ### What a reset leaves -/

/-- What both resets leave, with the tables `t` reloaded: planes clear (R2), window 0 whole and the others unused (R4),
every context FREE (R18), the render, echo and hold queues empty and no ready stripe (R19, R21, R22), every glyph
unloaded (R56), the row engine at its reset values (R70), beams unbroken, press-held clear and zones disarmed (R106,
R114), channel states cleared (R130), no report queued and no frame (R156), the accessory port empty and IDLE (R157). -/
def State.Fresh (t : StoredTables) (s : State) : Prop :=
  (s.ren.image = blankPlane ∧ s.ren.text = blankPlane ∧ s.ren.mark = blankPlane) ∧
    s.ren.windows = (Vector.replicate 8 Window.unused).set 0 Window.whole ∧
    (∀ k : Fin 4, s.ren.slots[k].state = .free ∧ s.ren.slots[k].image = 0 ∧ s.ren.slots[k].received = 0 ∧
      s.ren.slots[k].next = 0 ∧ s.ren.slots[k].err = Vector.replicate 512 0 ∧ s.ren.slots[k].activity = 0 ∧
      s.ren.slots[k].idle = 0 ∧ s.ren.slots[k].closing = 0) ∧
    (s.ren.queue = [] ∧ s.ren.echoes = [] ∧ s.ren.held = [] ∧ s.ren.ready = none) ∧
    (s.ren.busy = false ∧ s.ren.stages = [] ∧ s.ren.notices = []) ∧ (∀ g ∈ s.ren.glyphs.toList, g = Glyph.unloaded) ∧
    s.row = RowEngine.reset ∧
    ((∀ b ∈ s.touch.xBeams.toList, b = ⟨false, 0⟩) ∧ (∀ b ∈ s.touch.yBeams.toList, b = ⟨false, 0⟩) ∧
      s.touch.pressHeld = false ∧ ∀ z ∈ s.touch.zones.toList, z = Zone.unset) ∧
    (∀ c ∈ s.cls.chanState.toList, c = ⟨none, false, 0⟩) ∧
    (s.tx.queue = [] ∧ s.tx.frame = none) ∧
    (s.acc.buffer = [] ∧ s.acc.state = .idle ∧ s.acc.ackTimer = .stands ∧ s.acc.stalled = false) ∧
    s.workingTables = t

/-- The level raws follow their conditions, every edge raw but STORE-CORRUPT's is false, and nothing is latched; where
the reload found a CRC that fails, STORE-CORRUPT has occurred (R151, R168). -/
def State.EventsFresh (corrupt linePresent : Bool) (s : State) : Prop :=
  s.ev.lastWatch = none ∧ s.ev.attention = corrupt ∧
    ∀ n, n < 32 →
      s.ev.latched.getLsbD n = (corrupt && n == 29) ∧
        s.ev.raw.getLsbD n =
          if n = 0 then linePresent
          else if n = 1 then s.seq.powerGood
          else if n = 2 then s.cls.serviceAccepted
          else if n = 3 then s.acc.fitted && s.acc.faultAccepted
          else if n = 4 then s.lines[0].accepted
          else if n = 5 then s.lines[1].accepted
          else if n = 6 then s.lines[2].accepted
          else if n = 7 then s.lines[3].accepted
          else corrupt && n == 29

/-! ### Events -/

/-- An event unit after a level event's condition has become v (R145): its raw value is v; it is latched now if it was,
or if the raw value changed, its mask is enabled and its edge-select covers the change; every other event, the tables
and the last watch hit are as before; attention follows (R148). -/
def EventUnit.LevelBecame (e : LevelEvent) (v : Bool) (u u' : EventUnit) : Prop :=
  (∀ n, n < 32 → u'.raw.getLsbD n = if n = e.num then v else u.raw.getLsbD n) ∧
    (∀ n, n < 32 → u'.latched.getLsbD n =
      (u.latched.getLsbD n ||
        (n == e.num && u.raw.getLsbD n != v && u.table.mask.getLsbD n &&
          (v || u.table.edges.getD e.num .both == .both)))) ∧
    u'.table = u.table ∧ u'.lastWatch = u.lastWatch ∧ (u'.attention = true ↔ u'.latched ≠ 0)

/-- An event unit after an edge event has occurred (R146, R148). -/
def EventUnit.Occurred (e : EdgeEvent) (u u' : EventUnit) : Prop :=
  (∀ n, n < 32 → u'.raw.getLsbD n = (n == e.num || u.raw.getLsbD n)) ∧
    (∀ n, n < 32 → u'.latched.getLsbD n = (u.latched.getLsbD n || (n == e.num && u.table.mask.getLsbD n))) ∧
    u'.table = u.table ∧ u'.lastWatch = u.lastWatch ∧ (u'.attention = true ↔ u'.latched ≠ 0)

/-! ### The render engine between pieces of work -/

/-- No piece of work is in progress, nothing of one is left to do, and no notice is held (R24). -/
def Render.AtRest (r : Render) : Prop := r.busy = false ∧ r.stages = [] ∧ r.notices = []

/-- The engine is at rest and `item` is its next piece of work, with `rest` behind it (R19, R23). -/
def Render.Offers (r : Render) (item : WorkItem) (rest : List WorkItem) : Prop :=
  r.AtRest ∧ r.echoes = [] ∧ r.ready = none ∧ r.queue = item :: rest

/-- The state in which a taken item executes (R19, R24). -/
def State.took (rest : List WorkItem) (s : State) : State :=
  { s with ren := { s.ren with queue := rest, busy := true } }

/-- `t` is `u` with a drawing planned: everything is as in `u` but what the piece of work has still to do (R14, log 5). -/
def State.Plans (u t : State) : Prop := t = { u with ren := { u.ren with stages := t.ren.stages } }

/-- No plane has been written and no row marked from `s` to `t`. -/
def State.NothingDrawn (s t : State) : Prop :=
  t.ren.image = s.ren.image ∧ t.ren.text = s.ren.text ∧ t.ren.mark = s.ren.mark ∧ t.row = s.row

/-- A CADENCE notice frees slot k: it is CLOSING and its count reaches 8 (R36), or OPEN and its count reaches 50
(R37). -/
def Render.CadenceFrees (r : Render) (k : Fin 4) : Prop :=
  (r.slots[k].state = .closing ∧ 8 ≤ r.slots[k].closing + 1) ∨ (r.slots[k].state = .opened ∧ 50 ≤ r.slots[k].idle + 1)

/-- A CADENCE notice frees a slot with IMAGE-INCOMPLETE: a CLOSING one (R36), or an OPEN one that misses a stripe
(R37). -/
def Render.CadenceLosesImage (r : Render) : Prop :=
  ∃ k : Fin 4, r.CadenceFrees k ∧ (r.slots[k].state = .opened → r.slots[k].complete = false)

/-- `r'` is `r` after a CADENCE notice (R36, R37): a CLOSING slot's and an OPEN slot's count has gone up by one; a slot
whose count has reached its end is FREE, and its held stripes and a ready stripe of it are dropped (R22); the rest is as
it was. -/
def Render.CadenceApplied (r r' : Render) : Prop :=
  r' = { r with slots := r'.slots, held := r'.held, ready := r'.ready } ∧
    (∀ k : Fin 4, r'.slots[k] =
      match r.slots[k].state with
      | .free => r.slots[k]
      | .closing =>
        { r.slots[k] with
          closing := r.slots[k].closing + 1, state := if 8 ≤ r.slots[k].closing + 1 then .free else .closing }
      | .opened =>
        { r.slots[k] with
          idle := r.slots[k].idle + 1, state := if 50 ≤ r.slots[k].idle + 1 then .free else .opened }) ∧
    (∀ keep : HeldStripe → Bool,
      (∀ h, keep h = true ↔ ∀ k : Fin 4, r.CadenceFrees k → h.image ≠ r.slots[k].image) →
        r'.held = r.held.filter keep ∧ r'.ready = r.ready.filter keep)

/-- `u'` is `u`, with an occurrence of `e` where `p` holds. -/
def EventUnit.OccurredIf (p : Prop) (e : EdgeEvent) (u u' : EventUnit) : Prop :=
  (p → u' = u.occur e) ∧ (¬ p → u' = u)

/-! ### Drawing and opening -/

/-- The rows whose bits in plane `p` have changed from `s` to `t` are marked with class `c`, from the top row down, under
the move rules (R11, R14, R72), and no other row's place has changed. -/
def MarksChanges (c : MarkClass) (p : PlaneId) (s t : State) : Prop :=
  let changed (y : RowNo) : Bool := decide (s.ren.planeRow p y ≠ t.ren.planeRow p y)
  let rows := (List.finRange 512).filter changed
  match c with
  | .bulk =>
    t.row.urgent = s.row.urgent ∧
      t.row.bulk = s.row.bulk ++ rows.filter (fun y => decide (y ∉ s.row.urgent ∧ y ∉ s.row.bulk))
  | .urgent =>
    t.row.urgent = s.row.urgent ++ rows.filter (fun y => decide (y ∉ s.row.urgent)) ∧
      (s.row.bulk.Nodup →
        t.row.bulk = s.row.bulk.filter (fun y => !(changed y && decide (y ∉ s.row.urgent))))

/-- The state after drawing into plane `p` alone: everything else is as it was in `u`, but for the marks of the rows
that changed, of class `c`. -/
def DrawnInto (c : MarkClass) (p : PlaneId) (u t : State) : Prop :=
  t = { u with
      ren := { u.ren with image := t.ren.image, text := t.ren.text, mark := t.ren.mark }
      row := { u.row with urgent := t.row.urgent, bulk := t.row.bulk } } ∧
    (∀ q y, q ≠ p → t.ren.planeRow q y = u.ren.planeRow q y) ∧ MarksChanges c p u t

/-- What a TEXT leaves in the cell (x, y) that held `old` when it draws one box (R60, R62 to R64): inside the box and the
window's right and bottom edges, the pattern's dot by the mode; elsewhere what was there. -/
def textCell (pattern : Vector Byte 16) (rect : Rect) (size : Nat) (mode : TextWrite) (box : CharBox) (x y : RowNo)
    (old : Bool) : Bool :=
  let dot := (pattern.getD ((y.val - box.y) / size) 0).getLsbD (7 - (x.val - box.x) / size)
  if box.x ≤ x.val ∧ x.val < box.x + 8 * size ∧ x ≤ rect.x1 ∧
      box.y ≤ y.val ∧ y.val < box.y + 16 * size ∧ y ≤ rect.y1 then
    match mode with
    | .write => dot
    | .over => old || dot
    | .erase => false
  else old

/-- `v` is `u` with the boxes of a TEXT drawn one after another, each into the TEXT plane alone, with the rows that it
changed marked before the next is drawn (R14, R62 to R64). -/
def BoxesDrawn (c : MarkClass) (r : Render) (rect : Rect) (t : TextBody) : List CharBox → State → State → Prop
  | [], u, v => v = u
  | box :: rest, u, v =>
    ∃ w, DrawnInto c .text u w ∧
      (∀ x y : RowNo, (w.ren.planeRow .text y).getLsbD x.val =
        textCell (r.pattern t.set box.code) rect t.size t.mode box x y ((u.ren.planeRow .text y).getLsbD x.val)) ∧
      BoxesDrawn c r rect t rest w v

/-- The line-diffusion arithmetic of one cell row (R47 to R49): from intensities `ts` and incoming entries `inc`, the
decisions `cells` and the outgoing entries `out`. The cells go left to right. A cell's value is its intensity, its incoming
entry and the right share of the cell before it; it is lit where that is 128 or more; its error is the value, less 255
where it is lit. A share is the error times a weight, divided by 16 and truncated toward zero. The entry below cell k is
the below-right share of cell k − 1, the below share of cell k and the below-left share of cell k + 1; shares that fall
beside the row are dropped. -/
def RowDiffused (w : Weights) (ts : List Nat) (inc : List Int) (cells : List Bool) (out : List Int) : Prop :=
  cells.length = ts.length ∧ out.length = ts.length ∧
    ∃ err : List Int, err.length = ts.length ∧
      ∀ k, k < ts.length →
        let shareOf (j weight : Nat) : Int := (err.getD j 0 * weight).tdiv 16
        let value : Int := ts.getD k 0 + inc.getD k 0 + (if k = 0 then 0 else shareOf (k - 1) w.wR)
        cells.getD k false = decide (128 ≤ value) ∧
          err.getD k 0 = (if 128 ≤ value then value - 255 else value) ∧
          out.getD k 0 =
            (if k = 0 then 0 else shareOf (k - 1) w.wBR) + shareOf k w.wB +
              (if k + 1 < ts.length then shareOf (k + 1) w.wBL else 0)

/-- `v` is `u` with cell rows drawn by line diffusion one after another, from the entries `inc`; `out` is what is left
under the last of them (R43, R47 to R50). Each cell row has its panel row and its source row's levels; a cell has the
intensity of the pixel that covers it (R40, R41). The processed cells inside the rectangle take their decisions, every
other bit of IMAGE keeps its value, and a row that changed is marked before the next is drawn (R14). -/
def StripeDiffused (t : HalftoneTables) (p : ImageParams) (rect : Rect) (c : MarkClass) :
    List (RowNo × List (Fin 16)) → List Int → State → State → List Int → Prop
  | [], inc, u, v, out => v = u ∧ out = inc
  | (y, source) :: rest, inc, u, v, out =>
    ∃ cells mid w,
      RowDiffused t.weights
        ((List.range (min (p.width * p.scale) (512 - p.x0))).map fun k =>
          (t.transfer.getD (p.select.val * 16 + (source.getD (k / p.scale) 0).val) 0).toNat) inc cells mid ∧
      DrawnInto c .image u w ∧
      (∀ x z : RowNo, (w.ren.image[z]).getLsbD x.val =
        if z = y ∧ p.x0 ≤ x.val ∧ x.val < p.x0 + p.width * p.scale ∧ rect.contains x.val y.val = true then
          cells.getD (x.val - p.x0) false
        else (u.ren.image[z]).getLsbD x.val) ∧
      StripeDiffused t p rect c rest mid w v out

/-- The lowest index above i that a slot has not received, or the stripe count (R32). -/
def Slot.MissingAbove (c : Slot) (i n : Nat) : Prop :=
  (∀ j, i < j → j < n → j < c.params.stripeCount → c.received.getLsbD j = true) ∧ n ≤ c.params.stripeCount ∧
    (n < c.params.stripeCount → i < n ∧ c.received.getLsbD n = false)

/-- `w` is `u` with a stripe of slot k rendered in order (R32): from the slot's error row, or from a zero one where the
stripe lies above e, which is a gap skipped. Its index is received, e is the lowest missing index above it, and the error
row holds the entries left under its last processed row. -/
def RenderedInOrder (k : Fin 4) (u : State) (h : HeldStripe) (w : State) : Prop :=
  let c := u.ren.slots[k]
  let p := c.params
  let start : Vector Int 512 := if c.next < h.index then Vector.replicate 512 0 else c.err
  let rows := stripeCellRows p h.index h.levels
  ∃ v out err e,
    StripeDiffused u.ren.tables p u.ren.windows[p.window].rect h.cls rows (start.toList.take p.processedWidth) u v out ∧
    (rows = [] → err = start) ∧ (rows ≠ [] → ∀ n : Fin 512, err[n] = out.getD n.val 0) ∧ c.MissingAbove h.index e ∧
    w = { v with
      ren := v.ren.setSlot k { c with received := c.received ||| BitVec.twoPow 512 h.index, next := e, err := err } }

/-- `v` is `u` with stripes of slot k rendered in order one after another (R32, R35). -/
def RenderedAll (k : Fin 4) : List HeldStripe → State → State → Prop
  | [], u, v => v = u
  | h :: rest, u, v => ∃ w, RenderedInOrder k u h w ∧ RenderedAll k rest w v

/-- Each of the stripes of slot k that `t` has still to render, from the state `u`, ends by itself (R32, R35): among what `t`
has to do there is a point at which just this stripe and those before it have been rendered, whether or not they have a row
write. -/
def EndsEach (k : Fin 4) (mine : List HeldStripe) (u t : State) : Prop :=
  ∀ j, 0 < j → j ≤ mine.length →
    ∃ done left v, t.ren.stages = done ++ left ∧ RenderedAll k (mine.take j) u v ∧
      done.foldl State.performStage { t with ren := { t.ren with stages := [] } } = v

/-- `mine` holds the stripes of a list that satisfy `p`, in index order. -/
def InIndexOrder (p : HeldStripe → Bool) (held mine : List HeldStripe) : Prop :=
  mine.Perm (held.filter p) ∧ mine.Pairwise (fun a b => a.index ≤ b.index)

/-- `w` is `v` after a rendering in slot k: a held stripe of its image at its e has become the ready stripe (R22), and
the slot is FREE where it is CLOSING and has every stripe (R36). -/
def AfterRendering (k : Fin 4) (v w : State) : Prop :=
  let c := v.ren.slots[k]
  let done : Prop := c.state = .closing ∧ c.complete = true
  ∃ x : State,
    (∀ g ∈ v.ren.held, g.image = c.image → g.index = c.next →
      x = { v with ren := { v.ren with
        ready := some g, held := v.ren.held.filter (fun f => decide (f.image ≠ g.image ∨ f.index ≠ g.index)) } }) ∧
    ((∀ g ∈ v.ren.held, g.image = c.image → g.index ≠ c.next) → x = v) ∧
    (¬ done → w = x) ∧
    (done → w = { x with ren := { x.ren.setSlot k { c with state := .free } with
      held := x.ren.held.filter (fun f => decide (f.image ≠ c.image))
      ready := x.ren.ready.filter (fun f => decide (f.image ≠ c.image)) } })

/-- A slot newly opened with an image and its parameters under a cadence count (R26, R27). -/
def OpenedSlot (n : Byte) (p : ImageParams) (count : BitVec 16) : Slot :=
  { state := .opened, image := n, params := p, received := 0, next := 0, err := Vector.replicate 512 0
    activity := count, idle := 0, closing := 0 }

/-! ### The row engine's choice and the drain -/

/-- `y` is the first row of a list, from the head, whose service is not in flight (R79). -/
def RowEngine.FirstFree (r : RowEngine) (rows : List RowNo) (y : RowNo) : Prop :=
  ∃ before behind, rows = before ++ y :: behind ∧ (∀ z ∈ before, ∃ v ∈ r.sense, v.row = z) ∧
    ∀ v ∈ r.sense, v.row ≠ y

/-- Every row of a list has its service in flight. -/
def RowEngine.AllInFlight (r : RowEngine) (rows : List RowNo) : Prop := ∀ z ∈ rows, ∃ v ∈ r.sense, v.row = z

/-- BULK is chosen first, for an urgent run limit (R78). -/
def RowEngine.BulkFirst (r : RowEngine) (limit : Nat) : Prop := (limit ≤ r.run ∧ r.bulk ≠ []) ∨ r.urgent = []

/-- The row that the arbiter takes, and the list it takes it from: the list chosen first, or the other where every row
of that one is in flight (R78, R79). -/
def RowEngine.Takes (r : RowEngine) (limit : Nat) : MarkClass → RowNo → Prop
  | .urgent, y => (¬ r.BulkFirst limit ∨ r.AllInFlight r.bulk) ∧ r.FirstFree r.urgent y
  | .bulk, y => (r.BulkFirst limit ∨ r.AllInFlight r.urgent) ∧ r.FirstFree r.bulk y

/-- `r'` is `r` after the drain has begun (R89): the pending retry operations are dropped, each REFRESHING service has
ended with its row's mirror at its target, the other services and the lists stay. -/
def RowEngine.BeginsDrain (r r' : RowEngine) : Prop :=
  r' = { r with
      sense := r.sense.filter (fun v => decide (v.phase ≠ .refreshing)), retry := [], mirror := r'.mirror } ∧
    (∀ v ∈ r.sense, v.phase = .refreshing → r'.mirror[v.row] = some v.target) ∧
    ∀ y : RowNo, (∀ v ∈ r.sense, v.phase = .refreshing → v.row ≠ y) → r'.mirror[y] = r.mirror[y]

/-- `t` is `u` after RUNNING is left for BLANKING (R98, R89). -/
def State.EntersBlanking (u t : State) : Prop :=
  t = { u with
      seq := { u.seq with state := .blanking, sweeping := false, sweepPos := t.seq.sweepPos }
      row := t.row } ∧
    u.row.BeginsDrain t.row

/-! ### Properties that every step keeps -/

/-- The queues and lists stay within their room, and the lists of distinct numbers hold no number twice (R19, R21, R22,
R82, R87, R124, R153, R158); the hold queue also in the contexts that a rendering is to leave. -/
def State.QueuesBounded (s : State) : Prop :=
  (∀ c, Stage.contexts c ∈ s.ren.stages → c.held.length ≤ Config.holdQueueCap) ∧
    s.ren.queue.length ≤ Config.renderQueueCap ∧ s.ren.echoes.length ≤ Config.echoQueueCap ∧
    s.ren.held.length ≤ Config.holdQueueCap ∧ s.row.sense.length ≤ Config.senseQueueCap ∧
    s.row.faults.length ≤ Config.faultListCap ∧ s.row.faults.Nodup ∧
    s.tx.queue.length ≤ Config.upstreamCap ∧ s.acc.buffer.length ≤ Config.accessoryCap

/-- A row waits at most once in the two lists together (R71), and no two services in flight are of one row (R82). -/
def State.RowsOnce (s : State) : Prop :=
  (s.row.urgent ++ s.row.bulk).Nodup ∧ (s.row.sense.map Service.row).Nodup

/-- Attention is true exactly when an event is latched (R148). -/
def State.AttentionExact (s : State) : Prop := s.ev.attention = true ↔ s.ev.latched ≠ 0

/-- Every window's rectangle is in order (R4), and so is every zone's (R113). -/
def State.RectanglesOrdered (s : State) : Prop :=
  (∀ w ∈ s.ren.windows.toList, w.rect.x0 ≤ w.rect.x1 ∧ w.rect.y0 ≤ w.rect.y1) ∧
    ∀ z ∈ s.touch.zones.toList, z.tx0 ≤ z.tx1 ∧ z.ty0 ≤ z.ty1

/-- A slot's counts (R17): the idle count is at most 50, and below it while the slot is OPEN (R37); the closing count is
at most 8, and below it while the slot is CLOSING (R36). -/
def Slot.CountsInRange (c : Slot) : Prop :=
  c.idle ≤ 50 ∧ (c.state = .opened → c.idle < 50) ∧ c.closing ≤ 8 ∧ (c.state = .closing → c.closing < 8)

/-- The counts and positions with a stated range stay in it: the lapse count, below 8 while its channel is present (R130,
R132); a slot's counts (R17), also in the contexts that a rendering is to leave; the retry count (R82) and the urgent-run
count (R79); a beam's change count (R106); sweep position and blank timer (R92); commit count (R167), and a commit in
progress was accepted below the limit (R169). -/
def State.CountsInRange (s : State) : Prop :=
  (∀ c ∈ s.cls.chanState.toList, c.lapse ≤ 8 ∧ (c.present = true → c.lapse < 8)) ∧
    (∀ c ∈ s.ren.slots.toList, c.CountsInRange) ∧
    (∀ x, Stage.contexts x ∈ s.ren.stages → ∀ c ∈ x.slots.toList, c.CountsInRange) ∧
    (∀ v ∈ s.row.sense, v.retries ≤ 3) ∧ s.row.run ≤ 15 ∧
    (∀ b ∈ s.touch.xBeams.toList, b.count ≤ 15) ∧ (∀ b ∈ s.touch.yBeams.toList, b.count ≤ 15) ∧
    s.seq.sweepPos ≤ 512 ∧ s.seq.blankTimer ≤ Config.blankTimerMax ∧
    s.store.commits ≤ Config.commitLimit ∧ (s.store.commit ≠ .idle → s.store.commits < Config.commitLimit)

/-- The values of stored-class tables within the ranges that their owners keep: the weights (R46), PANEL (R75, R93),
the debounce (R107), the threshold entries (R44), the group list (R124) and the kind entries that no load changes
(R126). -/
def StoredTables.InRange (t : StoredTables) : Prop :=
  t.weights.sum ≤ 16 ∧
    (20 ≤ t.panel.period ∧ t.panel.period ≤ 80) ∧ (1 ≤ t.panel.settle ∧ t.panel.settle ≤ 8) ∧
    t.panel.retries ≤ 3 ∧ (1 ≤ t.panel.urgentLimit ∧ t.panel.urgentLimit ≤ 15) ∧ t.panel.blankTimeout ≤ 255 ∧
    (1 ≤ t.touch.debounce ∧ t.touch.debounce ≤ 15) ∧ (∀ v ∈ t.threshold.toList, v.toNat ≤ 254) ∧
    (t.groups.length ≤ Config.groupListCap ∧ t.groups.Nodup) ∧
    t.kinds[0] = factoryKinds[0] ∧ t.kinds[11] = factoryKinds[11] ∧ t.kinds[12] = factoryKinds[12] ∧
    t.kinds[18] = factoryKinds[18]

/-- The working tables are in range, and so are the tables that a reset can load: those of a stored image whose CRC is
good, and a snapshot (R168, R172). -/
def State.TablesInRange (s : State) : Prop :=
  s.workingTables.InRange ∧ ({ s.workingTables with
      transfer := s.ren.transfer, threshold := s.ren.threshold, weights := s.ren.weights } : StoredTables).InRange ∧
    (s.store.image.good = true → s.store.image.tables.InRange) ∧
    ∀ t, s.store.commit = .programming t → t.InRange

/-- The image context table and the hold queue agree (R17, R22): no two non-FREE slots hold one image number; the
parameters of each are in the ranges of R25; each received index is below the stripe count and e is not above it; a THRESHOLD slot keeps e at 0; every held stripe is of
an OPEN DIFFUSION slot, above its e, below its stripe count, not received and held once; a ready stripe is of a non-FREE
DIFFUSION slot, at its e, not received. -/
def Contexts.Sound (x : Contexts) : Prop :=
  (∀ j k : Fin 4, x.slots[j].state ≠ .free → x.slots[k].state ≠ .free → x.slots[j].image = x.slots[k].image → j = k) ∧
    (∀ k : Fin 4, x.slots[k].state ≠ .free →
      (1 ≤ x.slots[k].params.width ∧ x.slots[k].params.width ≤ 512 ∧ 1 ≤ x.slots[k].params.height ∧
        x.slots[k].params.height ≤ 512 ∧ 1 ≤ x.slots[k].params.scale ∧ x.slots[k].params.scale ≤ 4 ∧
        x.slots[k].params.x0 ≤ 511 ∧ x.slots[k].params.y0 ≤ 511 ∧ 1 ≤ x.slots[k].params.rows ∧
        x.slots[k].params.rows ≤ 16) ∧
      x.slots[k].params.stripeCount ≤ 512 ∧ x.slots[k].next ≤ x.slots[k].params.stripeCount ∧
      (∀ i, x.slots[k].received.getLsbD i = true → i < x.slots[k].params.stripeCount) ∧
      (x.slots[k].params.method = .threshold → x.slots[k].next = 0)) ∧
    (∀ h ∈ x.held, ∃ k : Fin 4, x.slots[k].state = .opened ∧ x.slots[k].image = h.image ∧
      x.slots[k].params.method = .diffusion ∧ x.slots[k].next < h.index ∧
      h.index < x.slots[k].params.stripeCount ∧ x.slots[k].received.getLsbD h.index = false) ∧
    (x.held.map (fun h => (h.image, h.index))).Nodup ∧
    ∀ h, x.ready = some h → ∃ k : Fin 4, x.slots[k].state ≠ .free ∧ x.slots[k].image = h.image ∧
      x.slots[k].params.method = .diffusion ∧ x.slots[k].next = h.index ∧
      h.index < x.slots[k].params.stripeCount ∧ x.slots[k].received.getLsbD h.index = false

/-- The contexts are sound, and so are those that a rendering in progress is to leave; something is left to do only while
a piece of work is in progress (R24). -/
def State.ContextsSound (s : State) : Prop :=
  s.ren.contexts.Sound ∧ (∀ c, Stage.contexts c ∈ s.ren.stages → c.Sound) ∧ (s.ren.stages ≠ [] → s.ren.busy = true)

/-- The weights that pass error downward. -/
def Weights.down (w : Weights) : Nat := w.wBL + w.wB + w.wBR

/-- Every entry of every error row is a signed 8-bit value (R51), and the entries of a non-FREE DIFFUSION slot are no
more than the weights can pass down (R54). -/
def SlotsBounded (w : Weights) (slots : Vector Slot 4) : Prop :=
  (∀ k : Fin 4, ∀ e ∈ slots[k].err.toList, -128 ≤ e ∧ e ≤ 127) ∧
    ∀ k : Fin 4, slots[k].state ≠ .free → slots[k].params.method = .diffusion →
      ∀ e ∈ slots[k].err.toList, -(128 * (w.down : Int)) ≤ 16 * e ∧ 16 * e ≤ 127 * (w.down : Int)

/-- Every weight set in use or to be loaded sums to at most 16 (R46), and the error rows are bounded under the present
weights, also in the contexts that a rendering in progress is to leave (R51, R54). -/
def State.ErrorsBounded (s : State) : Prop :=
  s.ren.weights.sum ≤ 16 ∧ (s.store.image.good = true → s.store.image.tables.weights.sum ≤ 16) ∧
    (∀ t, s.store.commit = .programming t → t.weights.sum ≤ 16) ∧ SlotsBounded s.ren.weights s.ren.slots ∧
    ∀ c, Stage.contexts c ∈ s.ren.stages → SlotsBounded s.ren.weights c.slots

/-- Row y waits in a list, or a service of it in flight has its composite as target, or no service of it is in flight
and its mirror is its composite (R74, R88). -/
def State.RowAccounted (s : State) (y : RowNo) : Prop :=
  y ∈ s.row.urgent ∨ y ∈ s.row.bulk ∨ (∃ v ∈ s.row.sense, v.row = y ∧ v.target = s.ren.composite y) ∨
    ((∀ v ∈ s.row.sense, v.row ≠ y) ∧ s.row.mirror[y] = some (s.ren.composite y))

/-- No service is in flight and no retry operation is pending. -/
def RowEngine.Empty (r : RowEngine) : Prop := r.sense = [] ∧ r.retry = []

/-- What the mirror is worth in each panel state (R74, R94, R99): in RUNNING, and in BLANKING before its sweep, every
row is known and accounted for; during a sweep the row engine is empty and the rows swept are all off, and in BLANKING
the rows not yet swept are still accounted for; in BLANKED every row is all off; a sweep goes on in STARTING and in
BLANKING alone. -/
def State.MirrorSound (s : State) : Prop :=
  match s.seq.state with
  | .off => s.row.Empty ∧ s.seq.sweeping = false
  | .starting => s.row.Empty ∧ s.seq.sweeping = true ∧ ∀ y : RowNo, y.val < s.seq.sweepPos → s.row.mirror[y] = some 0
  | .running => s.seq.sweeping = false ∧ s.row.mirrorKnown = true ∧ ∀ y, s.RowAccounted y
  | .blanking =>
    s.row.mirrorKnown = true ∧
      (s.seq.sweeping = false → ∀ y, s.RowAccounted y) ∧
      (s.seq.sweeping = true → s.row.Empty ∧
        ∀ y : RowNo, if y.val < s.seq.sweepPos then s.row.mirror[y] = some 0 else s.RowAccounted y)
  | .blanked => s.row.Empty ∧ s.seq.sweeping = false ∧ ∀ y : RowNo, s.row.mirror[y] = some 0

/-- Nothing waits and nothing is in flight or pending in the row engine (R74). -/
def RowEngine.Quiet (r : RowEngine) : Prop := r.urgent = [] ∧ r.bulk = [] ∧ r.Empty

end Sys2Proof.Machine
end

