-- ==== Sys2Proof/Certificates/Slice0/Obligations.lean ====
section
/-! DEFINITION. The statements for the provers. Each docstring names the rules of the manual that the statement
formalises; where a clause rests on a choice of the model's, it names the log entry. -/

open Sys2Proof Sys2Proof.Machine

/-! ### Steps -/

/-- A step takes the command at the front of the queue and executes it on the state with the queue's rest. With no
command waiting, a render engine at rest has nothing to end, and a row engine whose address slot has no start attempt left has
none to make: the part idles (the model's choice, log 4). -/
def Obligations.StepTakesFrontCommand : Prop :=
  (∀ (s : State) (c : Instr) (rest : List Instr),
      step { s with pending := c :: rest } = exec c { s with pending := rest }) ∧
    ∀ s : State, s.pending = [] → s.ren.AtRest → s.row.attempting = false → step s = .next s

/-! ### Events (chapter 10.1, 10.2) -/

/-- R145, R146: a level event's raw value follows its condition and a covered, unmasked change latches it; an edge event's
occurrence sets its raw value and latches it if its mask is enabled; attention follows the latched set (R148). -/
def Obligations.EventsLatchAsTheTablesSay : Prop :=
  (∀ (e : LevelEvent) (v : Bool) (u : EventUnit), (u.attention = true ↔ u.latched ≠ 0) →
      EventUnit.LevelBecame e v u (u.setLevel e v)) ∧
    ∀ (e : EdgeEvent) (u : EventUnit), EventUnit.Occurred e u (u.occur e)

/-- R148: attention is true exactly when an event is latched, in the state after every step from a state where it is;
and, with a receiver that hunts, no command but EVENT-CLEAR and the two resets clears a latched status, and an EVENT-CLEAR
clears none that its body does not name. -/
def Obligations.LatchedClearedOnlyByClearOrReset : Prop :=
  (∀ s t : State, s.AttentionExact → step s = .next t → t.AttentionExact) ∧
    (∀ (i : Instr) (s t : State), i.wf = true → s.rx.state = .hunting →
      (∀ p, i ≠ .powerOnReset p) → (∀ h body levels, i ≠ .terminalReset h body levels) →
      (∀ h body, i ≠ .eventClear h body) → exec i s = .next t →
      ∀ n, s.ev.latched.getLsbD n = true → t.ev.latched.getLsbD n = true) ∧
    ∀ (h : Header) (body : List Byte) (s t : State), body.length ≤ 240 → s.rx.state = .hunting →
      exec (.eventClear h body) s = .next t →
      ∀ n, s.ev.latched.getLsbD n = true → (longAt body 0).getLsbD n = false → t.ev.latched.getLsbD n = true

/-! ### The line receiver (chapter 9) -/

/-- A receiver that hunts takes a block whose CRC bytes are wrong: discarded, CHECK-ERROR, hunting, the timer not
restarted (R140); a length byte above 240: discarded, FORMAT-ERROR (R138). A good CADENCE of a form other than ALL is
discarded silently, and one to ALL with fewer than 2 body bytes is discarded with FORMAT-ERROR (R142); both were good
blocks. -/
def Obligations.DiscardedLineTraffic : Prop :=
  ∀ (s : State) (h : Header) (body : List Byte), s.rx.state = .hunting →
    (∀ (kind : Byte) (crc : BitVec 16), body.length ≤ 240 → crc ≠ crc16 (blockData h kind body) →
      exec (.checkError h kind body crc) s =
        .next (({ s with rx := { s.rx with state := .hunting, held := [] } } : State).latch .checkError)) ∧
    (∀ kind length : Byte, 240 < length.toNat →
      exec (.lengthError h kind length) s =
        .next (({ s with rx := { s.rx with state := .hunting, held := [] } } : State).latch .formatError)) ∧
    (body.length ≤ 240 → (blockOf h 0 body).form ≠ .all → exec (.cadence h body) s = .next s.heard) ∧
    (body.length < 2 → (blockOf h 0 body).form = .all →
      exec (.cadence h body) s = .next (s.heard.latch .formatError))

/-- R142, R143 with R24, R132, R36, R37 and R103: a CADENCE to ALL records its count; every present channel's lapse count
goes up by one, and at 8 the channel is absent and LESSON-LAPSE occurs. An engine between pieces of work applies the notice
at once: every CLOSING slot's closing count goes up by one, and at 8 the slot is FREE with IMAGE-INCOMPLETE; every OPEN
slot's idle count goes up by one, and at 50 the slot is FREE, with IMAGE-INCOMPLETE if a stripe is missing; a freed slot's
held stripes and ready stripe are dropped. An engine that executes a piece of work holds the notice behind those it holds.
In RUNNING the blank timer goes up by one, up to 153,000, and at a timeout that is not 0 the panel enters BLANKING and the
drain begins. -/
def Obligations.CadenceAdvancesItsOwners : Prop :=
  ∀ (s : State) (h : Header) (b0 b1 : Byte) (more : List Byte), s.rx.state = .hunting → more.length ≤ 238 →
    (blockOf h 0 (b0 :: b1 :: more)).form = .all →
    ∃ t u, exec (.cadence h (b0 :: b1 :: more)) s = .next t ∧
      t.rx = { s.rx with state := .hunting, held := [], silence := .running, linePresent := true, lastCount := b0 ++ b1 } ∧
      t.cls = { s.cls with chanState := t.cls.chanState } ∧
      (∀ c : Fin 64, t.cls.chanState[c] =
        if s.cls.chanState[c].present then
          { s.cls.chanState[c] with
            lapse := s.cls.chanState[c].lapse + 1, present := decide (s.cls.chanState[c].lapse + 1 < 8) }
        else s.cls.chanState[c]) ∧
      EventUnit.OccurredIf (∃ c : Fin 64, s.cls.chanState[c].present = true ∧ 8 ≤ s.cls.chanState[c].lapse + 1)
        .lessonLapse s.heard.ev u ∧
      (s.ren.busy = true → t.ren = { s.ren with notices := s.ren.notices ++ [.cadence] } ∧ t.ev = u) ∧
      (s.ren.busy = false →
        s.ren.CadenceApplied t.ren ∧ EventUnit.OccurredIf s.ren.CadenceLosesImage .imageIncomplete u t.ev) ∧
      (s.seq.state ≠ .running → t.seq = s.seq ∧ t.row = s.row) ∧
      (s.seq.state = .running →
        let timer := if s.seq.blankTimer = 153000 then 153000 else s.seq.blankTimer + 1
        (s.seq.panel.blankTimeout = 0 ∨ timer < s.seq.panel.blankTimeout * 600 →
          t.seq = { s.seq with blankTimer := timer } ∧ t.row = s.row) ∧
        (s.seq.panel.blankTimeout ≠ 0 → s.seq.panel.blankTimeout * 600 ≤ timer →
          t.seq = { s.seq with
            state := .blanking, sweeping := false, sweepPos := t.seq.sweepPos, blankTimer := timer } ∧
          (s.RowsOnce → s.row.BeginsDrain t.row))) ∧
      t.touch = s.touch ∧ t.tx = s.tx ∧ t.acc = s.acc ∧ t.lines = s.lines ∧ t.store = s.store ∧ t.pins = s.pins ∧
      t.pending = s.pending

/-- R141: at the expiry of a running line-silence timer LINE-PRESENT becomes false and the timer stands. A timer that stands
does not expire: that LINE_SILENCE_TIMEOUT then changes nothing is the model's choice (log 1). -/
def Obligations.LineSilenceEndsPresence : Prop :=
  ∀ s : State,
    (s.rx.silence = .stands → exec .lineSilenceTimeout s = .next s) ∧
    (s.rx.silence = .running → s.AttentionExact →
      ∃ t, exec .lineSilenceTimeout s = .next t ∧
        t = { s with rx := { s.rx with silence := .stands, linePresent := false }, ev := t.ev } ∧
        EventUnit.LevelBecame .linePresent false s.ev t.ev)

/-! ### Classification (chapter 8) -/

/-- R123: a good block whose address does not match this terminal is ignored: it has counted as a good block, and nothing
else changes but that the command TERMINAL_RESET, whose block is ignored like any other, has also told the model how the
input lines stand (the model's bookkeeping, log 20). -/
def Obligations.UnaddressedBlockIgnored : Prop :=
  ∀ (s : State) (b : Block), s.rx.state = .hunting → b.body.length ≤ 240 →
    ((b.form = .individual ∧ b.number.val ≠ s.cls.number.val) ∨ (b.form = .group ∧ b.number ∉ s.cls.groups) ∨
      b.form = .fourth) →
    (∀ i : Instr, i.sentBlock = some b → b.kind ≠ 0 → exec i s = .next s.heard) ∧
    ∀ (h : Header) (levels : InputLevels), blockOf h 18 b.body = b →
      exec (.terminalReset h b.body levels) s = .next { s.heard with pins := levels }

/-- R127, R129, R131: an addressed block that meets no watch entry is discarded at step 2 for a kind of 32 or above
(UNKNOWN-KIND, which is all that the command UNKNOWN_KIND does), a form its kind entry does not allow (FILTERED) or a
body shorter than its fixed part (FORMAT-ERROR); at step 3, unless its kind bypasses it, silently where this terminal is no member of its channel, and with FILTERED where
the channel does not allow its form or the window it names; and at step 4 silently where it repeats the channel's last
sequence. Its channel's state is unchanged. The block of TERMINAL_RESET is refused like any other; its command has also told the
model how the input lines stand (log 20). -/
def Obligations.RefusedBlockLeavesItsEvent : Prop :=
  ∀ (s u : State) (i : Instr) (b : Block) (e : KindEntry), s.Sends i b u → s.rx.state = .hunting →
    b.body.length ≤ 240 → b.kind ≠ 0 → s.cls.matchesAddress b = true → s.Unwatched b →
    (32 ≤ b.kind.toNat → exec i s = .next (u.heard.latch .unknownKind)) ∧
    (s.KindIs b e → e.forms.has b.form = false → exec i s = .next (u.heard.latch .filtered)) ∧
    (s.KindIs b e → e.forms.has b.form = true → e.disposition.acts = true → b.kind.toNat ≤ 19 →
      b.body.length < fixedPart b.kind.toNat → exec i s = .next (u.heard.latch .formatError)) ∧
    (s.KindIs b e → e.forms.has b.form = true → tooShort e b = false → e.bypass = false →
      (s.cls.channels[b.channel].member = false → exec i s = .next u.heard) ∧
      (s.cls.channels[b.channel].member = true → s.cls.channels[b.channel].forms.has b.form = false →
        exec i s = .next (u.heard.latch .filtered)) ∧
      (s.cls.channels[b.channel].member = true → s.cls.channels[b.channel].forms.has b.form = true →
        e.disposition.acts = true →
        (∃ w, windowNumber b.kind.toNat b.body = some w ∧
          (7 < w ∨ s.cls.channels[b.channel].windows.getLsbD w = false)) →
        exec i s = .next (u.heard.latch .filtered))) ∧
    (s.KindIs b e → e.forms.has b.form = true → tooShort e b = false → s.cls.channelStep e b = .pass →
      b.kind.toNat ≠ 2 → s.cls.channels[b.channel].dedupe = true → s.cls.chanState[b.channel].lastSeq = some b.seq →
      exec i s = .next u.heard)

/-- R125, R102: an addressed block whose kind the watch list holds: WATCH-HIT occurs, the last watch hit is the
highest-numbered matching entry, and where a matching entry has its unblank flag set a panel in BLANKED or BLANKING is
unblanked as R100 and R101 give. The block then goes on through steps 2 to 6 from the state so left, as a block that meets
no watch entry goes on from the state after it was heard: it is discarded with FILTERED or FORMAT-ERROR, silently, or as a
repeat, or it is recorded on its channel and dispatched. So does the block of TERMINAL_RESET, whose command has also told the
model how the input lines stand (log 20). -/
def Obligations.WatchHitIsRecordedAndWakes : Prop :=
  ∀ (s u : State) (i : Instr) (b : Block) (e : KindEntry), s.Sends i b u →
    (s.Admits e b → exec i s = .next ((u.taken b).dispatch e.disposition b)) ∧
    ∀ k : Fin 8, s.rx.state = .hunting → b.body.length ≤ 240 → b.kind ≠ 0 → s.cls.matchesAddress b = true →
      s.cls.watch[k].hits b.kind = true → (∀ j : Fin 8, s.cls.watch[j].hits b.kind = true → j ≤ k) →
      s.KindIs b e →
      ∃ v : State,
        v = { u.heard with
          ev := { u.heard.ev.occur .watchHit with lastWatch := some k }, seq := v.seq, row := v.row } ∧
        (let wakes : Prop := ∃ j : Fin 8, s.cls.watch[j].hits b.kind = true ∧ s.cls.watch[j].unblank = true
         (¬ wakes ∨ (s.seq.state ≠ .blanked ∧ s.seq.state ≠ .blanking) → v.seq = s.seq ∧ v.row = s.row) ∧
         (wakes → s.seq.state = .blanked →
           v.seq = { s.seq with state := .running, sweeping := false, blankTimer := 0 } ∧
           v.row = { s.row with urgent := [], bulk := s.ren.litRows }) ∧
         (wakes → s.seq.state = .blanking →
           v.seq = { s.seq with state := .running, sweeping := false, blankTimer := 0 } ∧
           v.row = { s.row with
             bulk := s.row.bulk ++ s.ren.litRows.filter (fun y => decide (y ∉ s.row.urgent ∧ y ∉ s.row.bulk)) })) ∧
        (e.forms.has b.form = false → exec i s = .next (v.latch .filtered)) ∧
        (e.forms.has b.form = true → tooShort e b = true → exec i s = .next (v.latch .formatError)) ∧
        (e.forms.has b.form = true → tooShort e b = false →
          (s.cls.channelStep e b = .silent → exec i s = .next v) ∧
          (s.cls.channelStep e b = .filtered → exec i s = .next (v.latch .filtered)) ∧
          (s.cls.channelStep e b = .pass → b.kind.toNat ≠ 2 → s.cls.channels[b.channel].dedupe = true →
            s.cls.chanState[b.channel].lastSeq = some b.seq → exec i s = .next v) ∧
          (s.cls.channelStep e b = .pass → s.cls.repeats b = false →
            exec i s = .next (({ v with cls := s.cls.record b } : State).dispatch e.disposition b)))

/-- R133, R134, R158, R159: an admitted block of disposition DISCARD, or of a kind with no owner under ACT, has only been
recorded on its channel. Under HAND, or under ACT-AND-HAND for a kind with no owner, its body is offered to the accessory
port: dropped with no accessory fitted or where it is empty; discarded whole with ACCESSORY-OVERFLOW where it is longer
than the free room; otherwise appended to the buffer, and from IDLE the head byte is offered, or held back while busy is
asserted. Under ACT its owner acts on it; under ACT-AND-HAND its owner acts on it first, with the effect it has under ACT,
and its body is then offered to the port as under HAND. -/
def Obligations.HandedBlockJoinsAccessoryBuffer : Prop :=
  ∀ (s : State) (i : Instr) (b : Block) (e : KindEntry), i.sentBlock = some b → s.Admits e b →
    let joined (a : AccessoryPort) : AccessoryPort :=
      if a.state = .idle then
        { a with
          buffer := a.buffer ++ b.body
          state := if a.busy then .holding else .strobed
          ackTimer := if a.busy then .stands else .running
          stalled := false }
      else { a with buffer := a.buffer ++ b.body }
    (e.disposition = .discard → exec i s = .next (s.taken b)) ∧
    (e.disposition = .act → ownerlessKind b.kind = true → exec i s = .next (s.taken b)) ∧
    (e.disposition = .hand ∨ (e.disposition = .actAndHand ∧ ownerlessKind b.kind = true) →
      (s.acc.fitted = false ∨ b.body = [] → exec i s = .next (s.taken b)) ∧
      (s.acc.fitted = true → b.body ≠ [] → 256 < s.acc.buffer.length + b.body.length →
        exec i s = .next ((s.taken b).latch .accessoryOverflow)) ∧
      (s.acc.fitted = true → b.body ≠ [] → s.acc.buffer.length + b.body.length ≤ 256 →
        exec i s = .next { s.taken b with acc := joined s.acc })) ∧
    (e.disposition = .act → exec i s = .next ((s.taken b).act b)) ∧
    (e.disposition = .actAndHand →
      let u := (s.taken b).act b
      (u.acc.fitted = false ∨ b.body = [] → exec i s = .next u) ∧
      (u.acc.fitted = true → b.body ≠ [] → 256 < u.acc.buffer.length + b.body.length →
        exec i s = .next (u.latch .accessoryOverflow)) ∧
      (u.acc.fitted = true → b.body ≠ [] → u.acc.buffer.length + b.body.length ≤ 256 →
        exec i s = .next { u with acc := joined u.acc }) ∧
      (b.kind ≠ 18 → u.acc = s.acc))

/-- R19, R20, R104, R133: an admitted block of the render path joins the tail of the render queue as a work item of its
kind, with its channel, its body and the class its channel has at that moment, or is lost to RENDER-OVERRUN where the
queue holds 8; either way IMAGE-OPEN to FILL restart the blank timer. -/
def Obligations.RenderBlockQueuedWithItsClass : Prop :=
  ∀ (s : State) (h : Header) (kind : Byte) (body : List Byte) (k : WorkKind), workKindOf kind body = some k →
    s.Acts (blockOf h kind body) →
    exec (.blockQueuedForRender h kind body) s =
      .next
        (let b := blockOf h kind body
         let t := s.taken b
         let q := if 1 ≤ kind.toNat ∧ kind.toNat ≤ 6 then { s.seq with blankTimer := 0 } else s.seq
         if s.ren.queue.length < 8 then
           { t with
             ren := { s.ren with queue := s.ren.queue ++ [⟨k, b.channel, s.cls.channels[b.channel].cls, body⟩] }
             seq := q }
         else { t.latch .renderOverrun with seq := q })

/-! ### Tables (chapters 8 and 12) -/

/-- R122, R120: an ADDRESS load of entry 0 stores the override, a number above 31 as 31, and the effective number is
formed again: 0 under the service line, else the override where it is valid, else the straps. R124, R166: a GROUPS load
replaces the list by its distinct numbers of 0..63 in order, at most 8 of them, a ninth dropped with TABLE-CLIPPED; a body
that does not carry its count of entries is discarded with FORMAT-ERROR. -/
def Obligations.AddressAndGroupsLoads : Prop :=
  ∀ (s : State) (h : Header),
    (∀ (flag number : Byte) (more : List Byte), s.Acts (blockOf h 11 (0 :: loadRest 0 1 (flag :: number :: more))) →
      ∃ t, exec (.addressLoad h (loadRest 0 1 (flag :: number :: more))) s = .next t ∧
        t.cls.address.valid = flag.getLsbD 0 ∧ t.cls.address.number.val = min number.toNat 31 ∧
        (s.cls.serviceAccepted = true → t.cls.number = 0 ∧ t.cls.source = .service) ∧
        (s.cls.serviceAccepted = false → flag.getLsbD 0 = true →
          t.cls.number.val = min number.toNat 31 ∧ t.cls.source = .override) ∧
        (s.cls.serviceAccepted = false → flag.getLsbD 0 = false →
          t.cls.number = s.cls.strap ∧ t.cls.source = .straps) ∧
        ∃ u, u = s.taken (blockOf h 11 (0 :: loadRest 0 1 (flag :: number :: more))) ∧
          t = { u with cls := { u.cls with
            address := t.cls.address, number := t.cls.number, source := t.cls.source } }) ∧
    ∀ (first : BitVec 16) (count : Byte) (bytes : List Byte), s.Acts (blockOf h 11 (1 :: loadRest first count bytes)) →
      exec (.groupsLoad h (loadRest first count bytes)) s =
        .next
          (let u := s.taken (blockOf h 11 (1 :: loadRest first count bytes))
           let ns := ((bytes.take count.toNat).filterMap fun b =>
             if hb : b.toNat < 64 then some (⟨b.toNat, hb⟩ : Fin 64) else none).eraseDups
           if bytes.length < count.toNat then u.latch .formatError
           else ({ u with cls := { u.cls with groups := ns.take 8 } } : State).latchIf (8 < ns.length) .tableClipped)

/-- R125, R126, R128, R164, R166, R175: a CHANNELS, KINDS or WATCH load whose range lies in the table and is carried by its
body writes each entry of its range from its own bytes, field by field, and no other; an undefined class is BULK, an
undefined disposition DISCARD, a watched kind of 32 or above leaves the entry unused; a KINDS entry for kind 0 is ignored,
and one for TABLE-LOAD, STATUS-QUERY or TERMINAL-RESET is ignored and latches TABLE-CLIPPED. -/
def Obligations.ChannelsKindsWatchLoads : Prop :=
  ∀ (s : State) (h : Header) (first : BitVec 16) (count : Byte) (bytes : List Byte),
    let guarded (n : Nat) : Prop := n = 11 ∨ n = 12 ∨ n = 18
    let forms (f : Byte) : FormSet := ⟨f.getLsbD 4, f.getLsbD 5, f.getLsbD 6⟩
    (s.Acts (blockOf h 11 (2 :: loadRest first count bytes)) → first.toNat + count.toNat ≤ 64 →
      2 * count.toNat ≤ bytes.length →
      ∃ t u, exec (.channelsLoad h (loadRest first count bytes)) s = .next t ∧
        u = s.taken (blockOf h 11 (2 :: loadRest first count bytes)) ∧
        t = { u with cls := { u.cls with channels := t.cls.channels } } ∧
        ∀ n : Fin 64,
          (Loaded first count n.val →
            let f := byteAt (entryBytes 2 first.toNat n.val bytes) 0
            t.cls.channels[n] =
              { member := f.getLsbD 0, dedupe := f.getLsbD 1, forms := forms f
                cls := if f.getLsbD 2 && !f.getLsbD 3 then .urgent else .bulk
                windows := byteAt (entryBytes 2 first.toNat n.val bytes) 1 }) ∧
          (¬ Loaded first count n.val → t.cls.channels[n] = s.cls.channels[n])) ∧
    (s.Acts (blockOf h 11 (3 :: loadRest first count bytes)) → first.toNat + count.toNat ≤ 32 →
      count.toNat ≤ bytes.length →
      ∃ t u, exec (.kindsLoad h (loadRest first count bytes)) s = .next t ∧
        u = s.taken (blockOf h 11 (3 :: loadRest first count bytes)) ∧
        t = { u with cls := { u.cls with kinds := t.cls.kinds }, ev := t.ev } ∧
        (∀ n : Fin 32,
          (Loaded first count n.val ∧ n.val ≠ 0 ∧ ¬ guarded n.val →
            let f := byteAt (entryBytes 1 first.toNat n.val bytes) 0
            t.cls.kinds[n] =
              { disposition :=
                  if f.toNat % 8 = 0 then .act else if f.toNat % 8 = 1 then .hand
                  else if f.toNat % 8 = 2 then .actAndHand else .discard
                bypass := f.getLsbD 3, forms := forms f }) ∧
          (¬ Loaded first count n.val ∨ n.val = 0 ∨ guarded n.val → t.cls.kinds[n] = s.cls.kinds[n])) ∧
        ((∃ n, Loaded first count n ∧ guarded n) → t.ev = u.ev.occur .tableClipped) ∧
        ((∀ n, Loaded first count n → ¬ guarded n) → t.ev = u.ev)) ∧
    (s.Acts (blockOf h 11 (4 :: loadRest first count bytes)) → first.toNat + count.toNat ≤ 8 →
      2 * count.toNat ≤ bytes.length →
      ∃ t u, exec (.watchLoad h (loadRest first count bytes)) s = .next t ∧
        u = s.taken (blockOf h 11 (4 :: loadRest first count bytes)) ∧
        t = { u with cls := { u.cls with watch := t.cls.watch } } ∧
        ∀ n : Fin 8,
          (Loaded first count n.val →
            let code := (byteAt (entryBytes 2 first.toNat n.val bytes) 0).toNat
            t.cls.watch[n].kind.map Fin.val = (if code < 32 then some code else none) ∧
              t.cls.watch[n].unblank = (byteAt (entryBytes 2 first.toNat n.val bytes) 1).getLsbD 0) ∧
          (¬ Loaded first count n.val → t.cls.watch[n] = s.cls.watch[n]))

/-- R75, R93, R165: a PANEL load in range writes the period clamped to 20..80, the settle to 1..8, the retries to 0..3, the
urgent run limit to 1..15 and the blank timeout as it comes, each if it is in the load's range. R107, R108: a TOUCH load
in range writes the masks as they come, the debounce clamped to 1..15 and the stray flag; a beam taken out of a mask
becomes unbroken with count 0 and every other beam is as it was. -/
def Obligations.PanelAndTouchLoads : Prop :=
  ∀ (s : State) (h : Header) (first : BitVec 16) (count : Byte) (bytes : List Byte),
    (s.Acts (blockOf h 11 (9 :: loadRest first count bytes)) → first.toNat + count.toNat ≤ 5 →
      count.toNat ≤ bytes.length →
      ∃ t u, exec (.panelLoad h (loadRest first count bytes)) s = .next t ∧
        u = s.taken (blockOf h 11 (9 :: loadRest first count bytes)) ∧
        t = { u with seq := { s.seq with panel := t.seq.panel } } ∧
        (∀ n, Loaded first count n →
          let v := (byteAt (entryBytes 1 first.toNat n bytes) 0).toNat
          (n = 0 → t.seq.panel.period = max 20 (min v 80)) ∧ (n = 1 → t.seq.panel.settle = max 1 (min v 8)) ∧
            (n = 2 → t.seq.panel.retries = min v 3) ∧ (n = 3 → t.seq.panel.urgentLimit = max 1 (min v 15)) ∧
            (n = 4 → t.seq.panel.blankTimeout = v)) ∧
        (¬ Loaded first count 0 → t.seq.panel.period = s.seq.panel.period) ∧
        (¬ Loaded first count 1 → t.seq.panel.settle = s.seq.panel.settle) ∧
        (¬ Loaded first count 2 → t.seq.panel.retries = s.seq.panel.retries) ∧
        (¬ Loaded first count 3 → t.seq.panel.urgentLimit = s.seq.panel.urgentLimit) ∧
        (¬ Loaded first count 4 → t.seq.panel.blankTimeout = s.seq.panel.blankTimeout)) ∧
    (s.Acts (blockOf h 11 (10 :: loadRest first count bytes)) → first.toNat + count.toNat ≤ 4 →
      2 * count.toNat ≤ bytes.length →
      ∃ t u, exec (.touchLoad h (loadRest first count bytes)) s = .next t ∧
        u = s.taken (blockOf h 11 (10 :: loadRest first count bytes)) ∧
        t = { u with touch := { s.touch with
          table := t.touch.table, xBeams := t.touch.xBeams, yBeams := t.touch.yBeams } } ∧
        (∀ n, Loaded first count n →
          let e := entryBytes 2 first.toNat n bytes
          (n = 0 → t.touch.table.fitX = byteAt e 0 ++ byteAt e 1) ∧
            (n = 1 → t.touch.table.fitY = byteAt e 0 ++ byteAt e 1) ∧
            (n = 2 → t.touch.table.debounce = max 1 (min (byteAt e 1).toNat 15)) ∧
            (n = 3 → t.touch.table.strays = (byteAt e 1).getLsbD 0)) ∧
        (¬ Loaded first count 0 → t.touch.table.fitX = s.touch.table.fitX) ∧
        (¬ Loaded first count 1 → t.touch.table.fitY = s.touch.table.fitY) ∧
        (¬ Loaded first count 2 → t.touch.table.debounce = s.touch.table.debounce) ∧
        (¬ Loaded first count 3 → t.touch.table.strays = s.touch.table.strays) ∧
        ∀ n : Fin 16,
          t.touch.xBeams[n] =
              (if s.touch.table.fitX.getLsbD n.val = true ∧ t.touch.table.fitX.getLsbD n.val = false then ⟨false, 0⟩
               else s.touch.xBeams[n]) ∧
            t.touch.yBeams[n] =
              if s.touch.table.fitY.getLsbD n.val = true ∧ t.touch.table.fitY.getLsbD n.val = false then ⟨false, 0⟩
              else s.touch.yBeams[n])

/-- R147: an EVENTS load in range writes the masks and edge-selects of its range (a code other than RISE and BOTH as
BOTH), changes no raw value, and latches and clears nothing. R164, R175: a LINES load in range writes each entry of its
range: configuration code 1 is OUTPUT, code 2 ATTENTION on line 3, every other code INPUT; the report flag and the latch
default are bits 2 and 3. A line that leaves INPUT has its accepted level low and its LINE-IN raw value false, latched as
its edge-select gives; one that becomes INPUT has its accepted level low and no last sample; the latches stay, and so does
every other raw value and latched status. -/
def Obligations.EventsAndLinesLoads : Prop :=
  ∀ (s : State) (h : Header) (first : BitVec 16) (count : Byte) (bytes : List Byte),
    (s.Acts (blockOf h 11 (11 :: loadRest first count bytes)) → first.toNat + count.toNat ≤ 40 →
      count.toNat ≤ bytes.length →
      ∃ t u, exec (.eventsLoad h (loadRest first count bytes)) s = .next t ∧
        u = s.taken (blockOf h 11 (11 :: loadRest first count bytes)) ∧
        t = { u with ev := { u.ev with table := t.ev.table } } ∧
        (∀ n, n < 32 →
          (Loaded first count n →
            t.ev.table.mask.getLsbD n = (byteAt (entryBytes 1 first.toNat n bytes) 0).getLsbD 0) ∧
          (¬ Loaded first count n → t.ev.table.mask.getLsbD n = s.ev.table.mask.getLsbD n)) ∧
        ∀ n : Fin 8,
          (Loaded first count (32 + n.val) →
            t.ev.table.edges[n] =
              if byteAt (entryBytes 1 first.toNat (32 + n.val) bytes) 0 = 0 then EdgeSelect.rise else .both) ∧
          (¬ Loaded first count (32 + n.val) → t.ev.table.edges[n] = s.ev.table.edges[n])) ∧
    (s.Acts (blockOf h 11 (12 :: loadRest first count bytes)) → first.toNat + count.toNat ≤ 4 →
      count.toNat ≤ bytes.length →
      ∃ t u, exec (.linesLoad h (loadRest first count bytes)) s = .next t ∧
        u = s.taken (blockOf h 11 (12 :: loadRest first count bytes)) ∧
        t = { u with lines := t.lines, ev := t.ev } ∧
        let code (n : Nat) := (byteAt (entryBytes 1 first.toNat n bytes) 0)
        let entry (n : Nat) : LineEntry :=
          { config :=
              if (code n).toNat % 4 = 1 then .output else if (code n).toNat % 4 = 2 ∧ n = 3 then .attention else .input
            report := (code n).getLsbD 2, latchDefault := (code n).getLsbD 3 }
        (∀ n : Fin 4,
          let l := s.lines[n]
          let e := entry n.val
          (¬ Loaded first count n.val → t.lines[n] = l) ∧
          (Loaded first count n.val → e.config = l.entry.config → t.lines[n] = { l with entry := e }) ∧
          (Loaded first count n.val → e.config ≠ l.entry.config → l.entry.config = .input →
            t.lines[n] = { l with entry := e, accepted := false }) ∧
          (Loaded first count n.val → e.config ≠ l.entry.config → e.config = .input →
            t.lines[n] = { l with entry := e, accepted := false, lastSample := none }) ∧
          (Loaded first count n.val → e.config ≠ l.entry.config → l.entry.config ≠ .input → e.config ≠ .input →
            t.lines[n] = { l with entry := e })) ∧
        let leaves (m : Nat) : Prop :=
          ∃ n : Fin 4, m = 4 + n.val ∧ Loaded first count n.val ∧ s.lines[n].entry.config = .input ∧
            (entry n.val).config ≠ .input
        (∀ m, m < 32 →
          (leaves m → t.ev.raw.getLsbD m = false ∧
            t.ev.latched.getLsbD m =
              (u.ev.latched.getLsbD m || (u.ev.raw.getLsbD m && u.ev.table.mask.getLsbD m &&
                u.ev.table.edges.getD m .both == .both))) ∧
          (¬ leaves m → t.ev.raw.getLsbD m = u.ev.raw.getLsbD m ∧
            t.ev.latched.getLsbD m = u.ev.latched.getLsbD m)) ∧
        t.ev.table = u.ev.table ∧ t.ev.lastWatch = u.ev.lastWatch ∧
        (s.AttentionExact → (t.ev.attention = true ↔ t.ev.latched ≠ 0)))

/-- R166, for the tables that a load at arrival writes entry by entry: a body that does not carry the entries of the range
below the table end leaves the table as it was, with FORMAT-ERROR, and with TABLE-CLIPPED before it where the range goes
beyond the end; a range with no entry below the end writes nothing; and a range that goes beyond the end, of a body that
carries the entries below it, latches TABLE-CLIPPED and has the effect of the load of those entries. -/
def Obligations.LoadRangeIsJudged : Prop :=
  ∀ (s : State) (i : Instr) (b : Block) (id count : Byte) (first : BitVec 16) (bytes : List Byte) (stop size : Nat),
    i.sentBlock = some b → b.kind = 11 → b.body = id :: loadRest first count bytes →
    arrivalTable id = some (stop, size) → s.Acts b →
    (bytes.length < (min (first.toNat + count.toNat) stop - first.toNat) * size →
      exec i s =
        .next (((s.taken b).latchIf (stop < first.toNat + count.toNat) .tableClipped).latch .formatError)) ∧
    (id ≠ 0 → count = 0 ∨ stop ≤ first.toNat →
      exec i s = .next ((s.taken b).latchIf (count ≠ 0) .tableClipped)) ∧
    ∀ (j : Instr) (below : Byte), first.toNat + below.toNat = stop → below.toNat < count.toNat → 0 < below.toNat →
      below.toNat * size ≤ bytes.length → j.sentBlock = some { b with body := id :: loadRest first below bytes } →
      exec i s = exec j (s.latch .tableClipped)

/-- R165, R134, R176: a TABLE-LOAD of id 13 or above, and a PANEL-CONTROL of an action above 2, latch FORMAT-ERROR and do
nothing else once they are admitted. -/
def Obligations.UndefinedIdOrActionIsFormatError : Prop :=
  ∀ (s : State) (h : Header) (b : Byte) (rest : List Byte),
    (13 ≤ b.toNat → s.Acts (blockOf h 11 (b :: rest)) →
      exec (.invalidTableId h (b :: rest)) s = .next ((s.taken (blockOf h 11 (b :: rest))).latch .formatError)) ∧
    (3 ≤ b.toNat → s.Acts (blockOf h 9 (b :: rest)) →
      exec (.panelControlUndefined h (b :: rest)) s = .next ((s.taken (blockOf h 9 (b :: rest))).latch .formatError))

/-! ### Management blocks (chapters 6, 7, 10 to 12) -/

/-- R98, R89: BLANK in RUNNING enters BLANKING; the pending retries are dropped and each REFRESHING service ends with its
row's mirror at its target; the lists and the other services stay. In every other state it is ignored. R100, R101: UNBLANK
in BLANKED empties the lists and marks the rows with a lit composite BULK in row order; in BLANKING it keeps the lists and
appends the lit rows that do not wait; either way the panel is RUNNING with the blank timer 0. In OFF, STARTING and RUNNING
it is ignored. -/
def Obligations.BlankAndUnblank : Prop :=
  ∀ (s : State) (h : Header) (rest : List Byte), s.RowsOnce →
    (s.Acts (blockOf h 9 (1 :: rest)) →
      (s.seq.state ≠ .running → exec (.blank h rest) s = .next (s.taken (blockOf h 9 (1 :: rest)))) ∧
      (s.seq.state = .running →
        ∃ t, exec (.blank h rest) s = .next t ∧ (s.taken (blockOf h 9 (1 :: rest))).EntersBlanking t)) ∧
    (s.Acts (blockOf h 9 (2 :: rest)) →
      (s.seq.state = .blanked →
        exec (.unblank h rest) s =
          .next { s.taken (blockOf h 9 (2 :: rest)) with
            row := { s.row with urgent := [], bulk := s.ren.litRows }
            seq := { s.seq with state := .running, sweeping := false, blankTimer := 0 } }) ∧
      (s.seq.state = .blanking →
        exec (.unblank h rest) s =
          .next { s.taken (blockOf h 9 (2 :: rest)) with
            row := { s.row with
              bulk := s.row.bulk ++ s.ren.litRows.filter (fun y => decide (y ∉ s.row.urgent ∧ y ∉ s.row.bulk)) }
            seq := { s.seq with state := .running, sweeping := false, blankTimer := 0 } }) ∧
      (s.seq.state ≠ .blanked → s.seq.state ≠ .blanking →
        exec (.unblank h rest) s = .next (s.taken (blockOf h 9 (2 :: rest)))))

/-- R115, R176: ZONE-SET of a zone 0..15 with all 13 bytes replaces that record whole (coordinates clamped to 15, then
ordered; echo set modulo 4, code modulo 128, position clamped to 511; no echo part where flag bit 2 is clear) and no other;
with fewer bytes, or a zone number of 16..254, it is discarded with FORMAT-ERROR; 0xFF disarms every zone and keeps the
other fields. -/
def Obligations.ZoneSetReplacesItsRecord : Prop :=
  ∀ (s : State) (h : Header),
    (∀ (z fl a b c d code set echo xh xl yh yl : Byte) (more : List Byte) (body : List Byte) (hz : z.toNat < 16),
      body = z :: fl :: a :: b :: c :: d :: code :: set :: echo :: xh :: xl :: yh :: yl :: more →
      s.Acts (blockOf h 8 body) →
      ∃ t, exec (.zoneSet h body) s = .next t ∧
        (∃ u, u = s.taken (blockOf h 8 body) ∧ t = { u with touch := { s.touch with zones := t.touch.zones } }) ∧
        (∀ n : Fin 16, n.val ≠ z.toNat → t.touch.zones[n] = s.touch.zones[n]) ∧
        let r := t.touch.zones[z.toNat]
        r.armed = fl.getLsbD 0 ∧ r.oneShot = fl.getLsbD 1 ∧ r.code = code ∧
          r.tx0.val = min (min a.toNat 15) (min c.toNat 15) ∧ r.tx1.val = max (min a.toNat 15) (min c.toNat 15) ∧
          r.ty0.val = min (min b.toNat 15) (min d.toNat 15) ∧ r.ty1.val = max (min b.toNat 15) (min d.toNat 15) ∧
          (fl.getLsbD 2 = false → r.echo = none) ∧
          (fl.getLsbD 2 = true → ∃ e, r.echo = some e ∧ e.set.val = set.toNat % 4 ∧ e.code.val = echo.toNat % 128 ∧
            e.x.val = min (256 * xh.toNat + xl.toNat) 511 ∧ e.y.val = min (256 * yh.toNat + yl.toNat) 511)) ∧
    (∀ (z : Byte) (rest : List Byte), s.Acts (blockOf h 8 (z :: rest)) →
      (16 ≤ z.toNat ∧ z.toNat ≤ 254) ∨ (z.toNat < 16 ∧ rest.length < 12) →
      exec (.zoneSet h (z :: rest)) s = .next ((s.taken (blockOf h 8 (z :: rest))).latch .formatError)) ∧
    ∀ rest : List Byte, s.Acts (blockOf h 8 (0xFF :: rest)) →
      exec (.disarmAll h rest) s =
        .next { s.taken (blockOf h 8 (0xFF :: rest)) with
          touch := { s.touch with zones := s.touch.zones.map (fun z => { z with armed := false }) } }

/-- R152, R153: STATUS-QUERY forms a report of the state as it stands, and it joins the upstream queue's tail, or is lost
to REPORT-OVERFLOW where the queue holds 16. -/
def Obligations.StatusQueryReportsTheState : Prop :=
  ∀ (s : State) (h : Header) (body : List Byte), s.Acts (blockOf h 12 body) →
    exec (.statusQuery h body) s =
      .next
        (let t := s.taken (blockOf h 12 body)
         let report : StatusFields :=
          { number := s.cls.number, source := s.cls.source, panel := s.seq.state
            raw := t.ev.raw, latched := t.ev.latched, mask := s.ev.table.mask, lastWatch := s.ev.lastWatch
            slots := s.ren.slots.map (fun c =>
              ⟨c.state, c.image, (List.range 512).countP (fun i => c.received.getLsbD i)⟩)
            renderDepth := s.ren.queue.length, upstreamDepth := s.tx.queue.length
            store := if s.store.commit = .idle then .idle else .programming
            commits := s.store.commits
            lineLevels := s.lines.map (fun l =>
              match l.entry.config with
              | .output => l.latch
              | .input => l.accepted
              | .attention => t.ev.attention)
            count := s.rx.lastCount, faults := s.row.faults }
         if s.tx.queue.length < 16 then { t with tx := { s.tx with queue := s.tx.queue ++ [.status report] } }
         else t.latch .reportOverflow)

/-- R149: EVENT-CLEAR clears the latched status of each event its set names, and the raw value of each edge event named;
the raw values of level events, the events not named, the masks, the edge-selects and the last watch hit stay; attention
is true exactly when an event stays latched. -/
def Obligations.EventClearClearsTheNamed : Prop :=
  ∀ (s : State) (h : Header) (b3 b2 b1 b0 : Byte) (more : List Byte),
    s.Acts (blockOf h 13 (b3 :: b2 :: b1 :: b0 :: more)) →
    ∃ t u, exec (.eventClear h (b3 :: b2 :: b1 :: b0 :: more)) s = .next t ∧
      u = s.taken (blockOf h 13 (b3 :: b2 :: b1 :: b0 :: more)) ∧ t = { u with ev := t.ev } ∧
      t.ev.table = u.ev.table ∧ t.ev.lastWatch = u.ev.lastWatch ∧ (t.ev.attention = true ↔ t.ev.latched ≠ 0) ∧
      ∀ n, n < 32 →
        let named := (b3 ++ b2 ++ b1 ++ b0 : BitVec 32).getLsbD n
        t.ev.latched.getLsbD n = (u.ev.latched.getLsbD n && !named) ∧
          t.ev.raw.getLsbD n = if n < 8 then u.ev.raw.getLsbD n else u.ev.raw.getLsbD n && !named

/-- R150: EVENT-TEST, whatever its body holds, makes TEST occur, with the effect R146 gives, and has no other effect. -/
def Obligations.EventTestMakesTestOccur : Prop :=
  ∀ (s : State) (h : Header) (body : List Byte), s.Acts (blockOf h 14 body) →
    ∃ t u, exec (.eventTest h body) s = .next t ∧ u = s.taken (blockOf h 14 body) ∧ t = { u with ev := t.ev } ∧
      EventUnit.Occurred .test u.ev t.ev

/-- R163: LINE-SET gives the latch of each named line its level; an OUTPUT line drives it at once; lines not named keep
their latches; nothing else changes. -/
def Obligations.LineSetWritesTheNamedLatches : Prop :=
  ∀ (s : State) (h : Header) (b : Byte) (more : List Byte), s.Acts (blockOf h 15 (b :: more)) →
    ∃ t u, exec (.lineSet h (b :: more)) s = .next t ∧ u = s.taken (blockOf h 15 (b :: more)) ∧
      t = { u with lines := t.lines } ∧
      ∀ n : Fin 4,
        t.lines[n] = { s.lines[n] with
          latch := if b.getLsbD n.val then b.getLsbD (4 + n.val) else s.lines[n].latch } ∧
        (s.lines[n].entry.config = .output → t.lines[n].drives t.ev.attention = some t.lines[n].latch)

/-- R169, R170: STORE-COMMIT, with the store IDLE and fewer than 10,000 commits, captures the working tables and enters
PROGRAMMING; otherwise STORE-REFUSED is latched and the store is unchanged. At the end of the programming the snapshot is
the stored image with its CRC, the count is one more, the store is IDLE and STORE-DONE is latched. Two clauses are the
model's choices: that PROGRAMMING_COMPLETE at an IDLE store changes nothing (log 1), and the layout of the image's bytes
under its CRC, `crc16 t.bytes` (log 11, unsafe). -/
def Obligations.CommitAndItsCompletion : Prop :=
  (∀ (s : State) (h : Header) (body : List Byte), s.Acts (blockOf h 16 body) →
    (s.store.commit = .idle → s.store.commits < 10000 →
      exec (.storeCommit h body) s =
        .next { s.taken (blockOf h 16 body) with
          store := { s.store with commit := .programming s.workingTables } }) ∧
    (s.store.commit ≠ .idle ∨ 10000 ≤ s.store.commits →
      exec (.storeCommit h body) s = .next ((s.taken (blockOf h 16 body)).latch .storeRefused))) ∧
    ∀ s : State,
      (∀ t, s.store.commit = .programming t →
        exec .programmingComplete s =
          .next (({ s with store := { s.store with
            image := ⟨t, crc16 t.bytes⟩, commits := s.store.commits + 1, commit := .idle } } : State).latch .storeDone)) ∧
      (s.store.commit = .idle → exec .programmingComplete s = .next s)

/-- R171, R55, R54, R108, R147, R164: STORE-FACTORY gives every owner its factory values, the render engine's by a notice
that is applied at once between pieces of work and held during one; the effective number is formed with no valid override;
a line that was no input becomes one, with its accepted level low and no last sample. All the rest is as it was: the rest
of the sequencer, the row engine, the beams, press-held and the zones, the event sets, the line latches, the store, the
receiver, the transmitter, the accessory port, the planes, windows, glyphs, queues and contexts, but for the error rows
that a change of weights clears. -/
def Obligations.StoreFactoryRestoresDefaults : Prop :=
  ∀ (s : State) (h : Header) (body : List Byte), s.Acts (blockOf h 17 body) → (s.ren.busy = false → s.ren.notices = []) →
    ∃ t u, exec (.storeFactory h body) s = .next t ∧ u = s.taken (blockOf h 17 body) ∧
      t.workingTables = factoryTables ∧
      (s.ren.busy = false →
        t.ren = { s.ren with
          transfer := factoryTransfer, threshold := factoryThreshold, weights := factoryWeights, slots := t.ren.slots } ∧
        ∀ k : Fin 4, t.ren.slots[k] =
          if s.ren.weights ≠ factoryWeights ∧ s.ren.slots[k].state ≠ .free ∧
              s.ren.slots[k].params.method = .diffusion then
            { s.ren.slots[k] with err := Vector.replicate 512 0 }
          else s.ren.slots[k]) ∧
      (s.ren.busy = true → t.ren = { s.ren with notices := s.ren.notices ++ [.factory] }) ∧
      (t.cls.number, t.cls.source) =
        (if s.cls.serviceAccepted then (0, NumberSource.service) else (s.cls.strap, NumberSource.straps)) ∧
      t.cls = { u.cls with
        address := factoryTables.address, groups := [], channels := factoryChannels, kinds := factoryKinds
        watch := factoryTables.watch, number := t.cls.number, source := t.cls.source } ∧
      (∀ n : Fin 4, t.lines[n] =
        if s.lines[n].entry.config = .input then { s.lines[n] with entry := ⟨.input, false, false⟩ }
        else { s.lines[n] with entry := ⟨.input, false, false⟩, accepted := false, lastSample := none }) ∧
      t = { u with
        ren := t.ren, cls := t.cls, lines := t.lines, seq := { s.seq with panel := factoryPanel }
        touch := { s.touch with table := factoryTouch }, ev := { u.ev with table := factoryEvents } }

/-! ### Resets (chapter 12) -/

/-- R168, R170, R105, R120, R136, R151, R156, R157, R161, R121: POWER_ON_RESET samples the straps and loads the working
tables: those of the stored image where its CRC is good and no programming was in progress, else the factory defaults with
STORE-CORRUPT; every block takes its power-on reset values. -/
def Obligations.PowerOnResetLeavesResetValues : Prop :=
  ∀ (s : State) (p : PowerOnPins),
    ∃ t tables corrupt, exec (.powerOnReset p) s = .next t ∧
      (s.store.commit = .idle → s.store.image.good = true →
        tables = s.store.image.tables ∧ corrupt = false ∧ t.store = s.store) ∧
      (s.store.commit = .idle → s.store.image.good = false →
        tables = factoryTables ∧ corrupt = true ∧ t.store = s.store) ∧
      (s.store.commit ≠ .idle →
        tables = factoryTables ∧ corrupt = true ∧ t.store.commit = .idle ∧ t.store.commits = s.store.commits ∧
          t.store.image.good = false) ∧
      t.Fresh tables ∧ t.EventsFresh corrupt false ∧
      t.rx = { rate := p.rate, state := .hunting, held := [], silence := .stands, linePresent := false, lastCount := 0 } ∧
      t.cls.strap = p.terminal ∧ t.cls.serviceAccepted = p.levels.service ∧ t.cls.serviceLast = p.levels.service ∧
      (t.cls.number, t.cls.source) =
        (if p.levels.service then (0, NumberSource.service)
         else if tables.address.valid then (tables.address.number, NumberSource.override)
         else (p.terminal, NumberSource.straps)) ∧
      t.seq.powerGood = p.powerGood ∧ t.seq.state = (if p.powerGood then PanelState.starting else .off) ∧
      t.seq.sweepPos = 0 ∧ t.seq.sweeping = p.powerGood ∧ t.seq.blankTimer = 0 ∧
      t.tx.state = (if p.levels.grant then TxState.spent else .waiting) ∧
      t.acc.fitted = p.fitted ∧
      (p.fitted = true → t.acc.faultAccepted = p.levels.fault ∧ t.acc.faultLast = p.levels.fault) ∧
      ∀ n : Fin 4, t.lines[n].latch = tables.lines[n].latchDefault ∧
        (tables.lines[n].config = .input →
          t.lines[n].accepted = p.levels.lines.getLsbD n.val ∧
            t.lines[n].lastSample = some (p.levels.lines.getLsbD n.val)) ∧
        (tables.lines[n].config ≠ .input → t.lines[n].accepted = false)

/-- R172 with R105, R120, R121, R135, R151, R156, R157 and R161: TERMINAL-RESET reloads the working tables from a commit
in progress or from the stored image, under the check of its CRC; every block takes its terminal-reset values, with the
input lines sampled as they stand; the line receiver, the store, the straps' values and power-good are unchanged. -/
def Obligations.TerminalResetLeavesResetValues : Prop :=
  ∀ (s : State) (h : Header) (body : List Byte) (levels : InputLevels), s.Acts (blockOf h 18 body) →
    ∃ t tables corrupt, exec (.terminalReset h body levels) s = .next t ∧
      (∀ snapshot, s.store.commit = .programming snapshot → tables = snapshot ∧ corrupt = false) ∧
      (s.store.commit = .idle → s.store.image.good = true → tables = s.store.image.tables ∧ corrupt = false) ∧
      (s.store.commit = .idle → s.store.image.good = false → tables = factoryTables ∧ corrupt = true) ∧
      t.Fresh tables ∧ t.EventsFresh corrupt true ∧ t.rx = s.heard.rx ∧ t.store = s.store ∧
      t.cls.strap = s.cls.strap ∧ t.cls.serviceAccepted = levels.service ∧ t.cls.serviceLast = levels.service ∧
      (t.cls.number, t.cls.source) =
        (if levels.service then (0, NumberSource.service)
         else if tables.address.valid then (tables.address.number, NumberSource.override)
         else (s.cls.strap, NumberSource.straps)) ∧
      t.seq.powerGood = s.seq.powerGood ∧
      t.seq.state = (if s.seq.state = .off then PanelState.off else .starting) ∧ t.seq.sweepPos = 0 ∧
      t.seq.sweeping = decide (s.seq.state ≠ .off) ∧ t.seq.blankTimer = 0 ∧
      t.tx.state = (if levels.grant then TxState.spent else .waiting) ∧
      t.acc.fitted = s.acc.fitted ∧
      (s.acc.fitted = true → t.acc.faultAccepted = levels.fault ∧ t.acc.faultLast = levels.fault) ∧
      ∀ n : Fin 4, t.lines[n].latch = tables.lines[n].latchDefault ∧
        (tables.lines[n].config = .input →
          t.lines[n].accepted = levels.lines.getLsbD n.val ∧
            t.lines[n].lastSample = some (levels.lines.getLsbD n.val)) ∧
        (tables.lines[n].config ≠ .input → t.lines[n].accepted = false)

/-! ### The composite, windows and planes (chapter 1) -/

/-- R8, R9, R10: the composite of a row, cell by cell: the highest-numbered enabled window whose rectangle contains the
cell governs; its base is formed from the IMAGE and TEXT bits it shows by its text mode, exclusive-or the MARK bit if it
shows MARK; a cell that no enabled window contains is off. -/
def Obligations.CompositeOfRowIsCellByCell : Prop :=
  ∀ (r : Render) (x y : RowNo),
    (∀ k : Fin 8, r.windows[k].enabled = true → r.windows[k].rect.contains x.val y.val = true →
      (∀ j : Fin 8, k < j → r.windows[j].enabled = true → r.windows[j].rect.contains x.val y.val = false) →
      (r.composite y).getLsbD x.val =
        let i := r.windows[k].showImage && r.image[y].getLsbD x.val
        let t := r.windows[k].showText && r.text[y].getLsbD x.val
        let m := r.windows[k].showMark && r.mark[y].getLsbD x.val
        (match r.windows[k].mode with
          | .or => i || t
          | .xor => i != t
          | .mask => i && !t) != m) ∧
    ((∀ k : Fin 8, r.windows[k].enabled = true → r.windows[k].rect.contains x.val y.val = false) →
      (r.composite y).getLsbD x.val = false)

/-- R1: with a receiver that hunts, no command but those of the writers the rule lists (stripes, IMAGE-CLOSE, TEXT, FILL,
echoes, ERASE-ALL) and the two resets changes a plane or gives the render engine anything to write. ERASE-ALL and the
resets write at once. What the other writers write is left to do when they are taken (log 5): every command but ERASE-ALL
and the resets leaves the planes as they were, or as they are when all that was left to do has been done. -/
def Obligations.PlanesWrittenOnlyByTheirWriters : Prop :=
  ∀ (i : Instr) (s t : State), i.wf = true → s.rx.state = .hunting → exec i s = .next t →
    (∀ p, i ≠ .powerOnReset p) → (∀ h body levels, i ≠ .terminalReset h body levels) →
    (i ≠ .eraseAll →
      (t.ren.image = s.ren.image ∧ t.ren.text = s.ren.text ∧ t.ren.mark = s.ren.mark) ∨
        (t.ren.image = s.perform.ren.image ∧ t.ren.text = s.perform.ren.text ∧ t.ren.mark = s.perform.ren.mark)) ∧
    (i ∉ [Instr.imageStripe, .readyStripe, .imageClose, .text, .fill, .echoRequest, .eraseAll] →
      (s.ren.stages = [] → t.ren.image = s.ren.image ∧ t.ren.text = s.ren.text ∧ t.ren.mark = s.ren.mark) ∧
        (t.ren.stages = s.ren.stages ∨ t.ren.stages = []))

/-- R5, R6, R7, R12: WINDOW_SET with a window above 7 is discarded with FORMAT-ERROR. Otherwise the record it gives has its
coordinates clamped to 511 and then put in order, its planes from the flags and its mode from the code (another code OR);
a record equal to the stored one changes nothing, and another replaces it and marks every row of the old and of the new
span once, in order, BULK. -/
def Obligations.WindowSetReplacesAndMarks : Prop :=
  (∀ (s : State) (item : WorkItem) (rest : List WorkItem), s.ren.Offers item rest → item.kind = .windowSet →
    (8 ≤ (byteAt item.body 0).toNat → exec .windowSet s = .next ((s.took rest).latch .formatError)) ∧
    ∀ k : Fin 8, (byteAt item.body 0).toNat = k.val →
      (windowOfBody item.body = s.ren.windows[k] → exec .windowSet s = .next (s.took rest)) ∧
      (windowOfBody item.body ≠ s.ren.windows[k] →
        exec .windowSet s =
          .next
            (let w := windowOfBody item.body
             let old := s.ren.windows[k].rect
             let rows := (List.finRange 512).filter fun y =>
               (decide (old.y0 ≤ y) && decide (y ≤ old.y1)) || (decide (w.rect.y0 ≤ y) && decide (y ≤ w.rect.y1))
             { s.took rest with
               ren := { (s.took rest).ren with windows := s.ren.windows.set k w }
               row := { s.row with
                 bulk := s.row.bulk ++ rows.filter (fun y => decide (y ∉ s.row.urgent ∧ y ∉ s.row.bulk)) } }))) ∧
  ∀ body : List Byte,
    let w := windowOfBody body
    let f := byteAt body 1
    let x (k : Nat) := min (wordAt body k).toNat 511
    w.enabled = f.getLsbD 0 ∧ w.showImage = f.getLsbD 1 ∧ w.showText = f.getLsbD 2 ∧ w.showMark = f.getLsbD 3 ∧
      w.mode = (if byteAt body 2 = 1 then TextMode.xor else if byteAt body 2 = 2 then .mask else .or) ∧
      w.rect.x0.val = min (x 3) (x 7) ∧ w.rect.x1.val = max (x 3) (x 7) ∧ w.rect.y0.val = min (x 5) (x 9) ∧
      w.rect.y1.val = max (x 5) (x 9)

/-- R15: ERASE_ALL clears every bit of the three planes and marks all 512 rows BULK in increasing row number, whether or not
any bit was set: a row that waits keeps its place, and every other row is appended to BULK in row order. It changes nothing
else, and the composite of every row is then off. -/
def Obligations.EraseAllClearsPlanesAndMarksRows : Prop :=
  ∀ (s : State) (item : WorkItem) (rest : List WorkItem), s.ren.Offers item rest → item.kind = .eraseAll →
    ∃ t, exec .eraseAll s = .next t ∧
      t = { s.took rest with
        ren := { (s.took rest).ren with
          image := Vector.replicate 512 0, text := Vector.replicate 512 0, mark := Vector.replicate 512 0 }
        row := { s.row with
          bulk := s.row.bulk ++
            (List.finRange 512).filter (fun y => decide (y ∉ s.row.urgent ∧ y ∉ s.row.bulk)) } } ∧
      ∀ y : RowNo, t.ren.composite y = 0

/-- R65, R66, R16: FILL with a window above 7 or an undefined plane or operation code is discarded with FORMAT-ERROR;
otherwise each cell of the named plane that lies in both rectangles is set, cleared or inverted, every other bit keeps its
value, and the rows that changed are marked with the item's class. The command takes the FILL; its row writes are left to
do, and `perform` does them (log 5). -/
def Obligations.FillWritesTheCommonCells : Prop :=
  ∀ (s : State) (item : WorkItem) (rest : List WorkItem), s.ren.Offers item rest → item.kind = .fill →
    (8 ≤ (byteAt item.body 0).toNat ∨ 3 ≤ (byteAt item.body 1).toNat ∨ 3 ≤ (byteAt item.body 2).toNat →
      exec .fill s = .next ((s.took rest).latch .formatError)) ∧
    ∀ (w : Fin 8) (plane : PlaneId) (op : FillOp), (byteAt item.body 0).toNat = w.val →
      planeOfCode (byteAt item.body 1) = some plane → fillOpOfCode (byteAt item.body 2) = some op →
      ∃ t, exec .fill s = .next t ∧ (s.took rest).Plans t ∧ DrawnInto item.cls plane (s.took rest) t.perform ∧
        ∀ x y : RowNo, (t.perform.ren.planeRow plane y).getLsbD x.val =
          let old := (s.ren.planeRow plane y).getLsbD x.val
          if (bodyRect item.body).contains x.val y.val && s.ren.windows[w].rect.contains x.val y.val then
            match op with
            | .set => true
            | .clear => false
            | .invert => !old
          else old

/-- R67, R58: ECHO_REQUEST takes the head of the echo queue and inverts, in MARK alone, each cell of its 8 by 16 box on the
panel where the chosen pattern is on: the glyph where it is loaded, else the substitute where that is loaded, else an
all-off box; the rows that changed are marked URGENT. R68: the same request drawn twice leaves MARK as it was. The command
takes the request; its row writes are left to do, and `perform` does them (log 5). -/
def Obligations.EchoInvertsAndTwoCancel : Prop :=
  ∀ (s : State) (e : EchoRequest) (rest : List EchoRequest), s.ren.AtRest → s.ren.echoes = e :: rest →
    let glyph (n : Nat) : Glyph := s.ren.glyphs.getD (e.set.val * 128 + n) Glyph.unloaded
    let pattern : Vector Byte 16 :=
      if (glyph e.code.val).loaded then (glyph e.code.val).rows
      else if (glyph 127).loaded then (glyph 127).rows
      else Vector.replicate 16 0
    let u : State := { s with ren := { s.ren with echoes := rest, busy := true } }
    ∃ t, exec .echoRequest s = .next t ∧ u.Plans t ∧ DrawnInto .urgent .mark u t.perform ∧
      (∀ x y : RowNo, (t.perform.ren.planeRow .mark y).getLsbD x.val =
        ((s.ren.planeRow .mark y).getLsbD x.val !=
          (decide (e.x.val ≤ x.val ∧ x.val < e.x.val + 8 ∧ e.y.val ≤ y.val ∧ y.val < e.y.val + 16) &&
            (pattern.getD (y.val - e.y.val) 0).getLsbD (7 - (x.val - e.x.val))))) ∧
      ∀ rest', rest = e :: rest' → ∃ v, exec .echoRequest t = .next v ∧ v.perform.ren.mark = s.ren.mark

/-- R58 to R64: TEXT with a window above 7 or no code byte is discarded with FORMAT-ERROR. Otherwise its first 200 codes
are laid out from its row and column (where they go: TextCodesAreLaidOut) and their boxes drawn one after another, each in
the block's mode, clipped to the window, into the TEXT plane alone, with the rows that changed marked; more than 200 codes
latch FORMAT-ERROR as well, and codes lost latch TEXT-CLIPPED after the last box. The pattern of a code is its glyph where
the code is below 128 and the glyph loaded, else the substitute, glyph (set, 127), where that is loaded, else an all-off
box. The case of one code is said in full: a box that starts inside the window is drawn, and one that starts below its
bottom edge draws nothing and latches TEXT-CLIPPED. The command takes the TEXT; its row writes, and TEXT-CLIPPED, are left
to do, and `perform` does them (log 5). -/
def Obligations.TextDrawsItsBox : Prop :=
  (∀ (r : Render) (set : Fin 4) (code : Byte),
    let glyph (n : Nat) : Glyph := r.glyphs.getD (set.val * 128 + n) Glyph.unloaded
    r.pattern set code =
      if code.toNat < 128 ∧ (glyph code.toNat).loaded = true then (glyph code.toNat).rows
      else if (glyph 127).loaded then (glyph 127).rows
      else Vector.replicate 16 0) ∧
  ∀ (s : State) (item : WorkItem) (rest : List WorkItem), s.ren.Offers item rest → item.kind = .text →
    (8 ≤ (byteAt item.body 0).toNat ∨ item.body.length ≤ 6 →
      exec .text s = .next ((s.took rest).latch .formatError)) ∧
    (∀ w : Fin 8, (byteAt item.body 0).toNat = w.val → 6 < item.body.length →
      let r := s.ren.windows[w].rect
      let text : TextBody :=
        { row := (byteAt item.body 1).toNat, column := (byteAt item.body 2).toNat
          size := max 1 (min (byteAt item.body 3).toNat 2)
          mode := if byteAt item.body 4 = 1 then .over else if byteAt item.body 4 = 2 then .erase else .write
          set := ⟨(byteAt item.body 5).toNat % 4, Nat.mod_lt _ (by decide)⟩
          codes := (item.body.drop 6).take 200 }
      let laid := layText r text.size text.column text.row text.column text.codes
      let u := (s.took rest).latchIf (206 < item.body.length) .formatError
      ∃ t v, exec .text s = .next t ∧ u.Plans t ∧ BoxesDrawn item.cls s.ren r text laid.1 u v ∧
        t.perform = v.latchIf laid.2 .textClipped) ∧
    ∀ (w : Fin 8) (code : Byte), (byteAt item.body 0).toNat = w.val → item.body.drop 6 = [code] → code ≠ 0x80 →
      let r := s.ren.windows[w].rect
      let size := max 1 (min (byteAt item.body 3).toNat 2)
      let bx := r.x0.val + 8 * size * (byteAt item.body 2).toNat
      let by' := r.y0.val + 16 * size * (byteAt item.body 1).toNat
      let set : Fin 4 := ⟨(byteAt item.body 5).toNat % 4, Nat.mod_lt _ (by decide)⟩
      (bx ≤ r.x1.val → by' ≤ r.y1.val →
        ∃ t, exec .text s = .next t ∧ DrawnInto item.cls .text (s.took rest) t.perform ∧
          ∀ x y : RowNo, (t.perform.ren.planeRow .text y).getLsbD x.val =
            let old := (s.ren.planeRow .text y).getLsbD x.val
            let dot := ((s.ren.pattern set code).getD ((y.val - by') / size) 0).getLsbD (7 - (x.val - bx) / size)
            if bx ≤ x.val ∧ x.val < bx + 8 * size ∧ x ≤ r.x1 ∧ by' ≤ y.val ∧ y.val < by' + 16 * size ∧ y ≤ r.y1 then
              if byteAt item.body 4 = 1 then old || dot else if byteAt item.body 4 = 2 then false else dot
            else old) ∧
      (bx ≤ r.x1.val → r.y1.val < by' →
        ∃ t, exec .text s = .next t ∧ (s.took rest).Plans t ∧ t.perform = (s.took rest).latch .textClipped)

/-- R60 to R62: where the codes of a TEXT go. A code 0x80 goes to the return column of the next row; another code is placed
at the current position, or, where it would start beyond the right edge, at the return column of the next row; a box that
would still start beyond the right edge, or starts below the bottom edge, is lost with every code after it. -/
def Obligations.TextCodesAreLaidOut : Prop :=
  ∀ (r : Rect) (size ret row column : Nat) (code : Byte) (rest : List Byte),
    layText r size ret row column [] = ([], false) ∧
    (code = 0x80 → layText r size ret row column (code :: rest) = layText r size ret (row + 1) ret rest) ∧
    (code ≠ 0x80 →
      let x (c : Nat) := r.x0.val + 8 * size * c
      let y (c : Nat) := r.y0.val + 16 * size * c
      (x column ≤ r.x1.val → y row ≤ r.y1.val →
        layText r size ret row column (code :: rest) =
          (⟨x column, y row, code⟩ :: (layText r size ret row (column + 1) rest).1,
            (layText r size ret row (column + 1) rest).2)) ∧
      (r.x1.val < x column → x ret ≤ r.x1.val → y (row + 1) ≤ r.y1.val →
        layText r size ret row column (code :: rest) =
          (⟨x ret, y (row + 1), code⟩ :: (layText r size ret (row + 1) (ret + 1) rest).1,
            (layText r size ret (row + 1) (ret + 1) rest).2)) ∧
      ((r.x1.val < x column ∧ (r.x1.val < x ret ∨ r.y1.val < y (row + 1))) ∨
          (x column ≤ r.x1.val ∧ r.y1.val < y row) →
        layText r size ret row column (code :: rest) = ([], true)))

/-- R52, R44, R46, R54, R57, R166: TRANSFER_LOAD, THRESHOLD_LOAD, WEIGHTS_LOAD and GLYPHS_LOAD whose range lies in the table and
is carried write each entry of the range and no other: as given for TRANSFER, 255 as 254 for THRESHOLD, and the glyph's 16
rows with its loaded flag set for GLYPHS. A load of WEIGHTS stores each entry of its range, above 16 as 16, and then takes
what the sum of all four is above 16 from wR, then wB, then wBL, then wBR; a change of weights makes the error row of every
non-FREE DIFFUSION context zero. A body that does not carry the entries below the table end leaves the table, with
FORMAT-ERROR, and with TABLE-CLIPPED before it where the range goes beyond the end; a range with no entry below the end
writes nothing; and a range that goes beyond the end, of a body that carries the entries below it, latches TABLE-CLIPPED and
has the effect of the load of those entries. No plane is written and no row marked. -/
def Obligations.RenderPathLoadsWriteTheirTables : Prop :=
  ∀ (s : State) (item : WorkItem) (rest : List WorkItem) (id : Byte) (first : BitVec 16) (count : Byte)
    (bytes : List Byte), s.ren.Offers item rest → item.body = id :: loadRest first count bytes →
    (item.kind = .transferLoad → first.toNat + count.toNat ≤ 64 → count.toNat ≤ bytes.length →
      ∃ t, exec .transferLoad s = .next t ∧
        t = { s.took rest with ren := { (s.took rest).ren with transfer := t.ren.transfer } } ∧
        ∀ n : Fin 64,
          (Loaded first count n.val → t.ren.transfer[n] = byteAt bytes (n.val - first.toNat)) ∧
          (¬ Loaded first count n.val → t.ren.transfer[n] = s.ren.transfer[n])) ∧
    (item.kind = .thresholdLoad → first.toNat + count.toNat ≤ 64 → count.toNat ≤ bytes.length →
      ∃ t, exec .thresholdLoad s = .next t ∧
        t = { s.took rest with ren := { (s.took rest).ren with threshold := t.ren.threshold } } ∧
        ∀ n : Fin 64,
          (Loaded first count n.val →
            t.ren.threshold[n].toNat = min (byteAt bytes (n.val - first.toNat)).toNat 254) ∧
          (¬ Loaded first count n.val → t.ren.threshold[n] = s.ren.threshold[n])) ∧
    (item.kind = .glyphsLoad → first.toNat + count.toNat ≤ 512 → 16 * count.toNat ≤ bytes.length →
      ∃ t, exec .glyphsLoad s = .next t ∧
        t = { s.took rest with ren := { (s.took rest).ren with glyphs := t.ren.glyphs } } ∧
        ∀ n : Fin 512,
          (Loaded first count n.val → t.ren.glyphs[n].loaded = true ∧
            ∀ k : Fin 16, t.ren.glyphs[n].rows[k] = byteAt bytes (16 * (n.val - first.toNat) + k.val)) ∧
          (¬ Loaded first count n.val → t.ren.glyphs[n] = s.ren.glyphs[n])) ∧
    (item.kind = .weightsLoad → first.toNat + count.toNat ≤ 4 → count.toNat ≤ bytes.length →
      ∃ t, exec .weightsLoad s = .next t ∧
        t = { s.took rest with ren := { (s.took rest).ren with weights := t.ren.weights, slots := t.ren.slots } } ∧
        (let stored (n was : Nat) : Nat :=
          if first.toNat ≤ n ∧ n < first.toNat + count.toNat then min (byteAt bytes (n - first.toNat)).toNat 16 else was
         let r := stored 0 s.ren.weights.wR
         let bl := stored 1 s.ren.weights.wBL
         let b := stored 2 s.ren.weights.wB
         let br := stored 3 s.ren.weights.wBR
         let excess := r + bl + b + br - 16
         t.ren.weights =
          { wR := r - excess, wB := b - (excess - r), wBL := bl - (excess - r - b), wBR := br - (excess - r - b - bl) }) ∧
        t.ren.weights.sum ≤ 16 ∧
        ∀ k : Fin 4, t.ren.slots[k] =
          if t.ren.weights ≠ s.ren.weights ∧ s.ren.slots[k].state ≠ .free ∧
              s.ren.slots[k].params.method = .diffusion then
            { s.ren.slots[k] with err := Vector.replicate 512 0 }
          else s.ren.slots[k]) ∧
    ∀ (load : Instr) (stop size : Nat),
      (load, item.kind, stop, size) ∈
        [(Instr.transferLoad, WorkKind.transferLoad, 64, 1), (.thresholdLoad, .thresholdLoad, 64, 1),
          (.weightsLoad, .weightsLoad, 4, 1), (.glyphsLoad, .glyphsLoad, 512, 16)] →
      (bytes.length < (min (first.toNat + count.toNat) stop - first.toNat) * size →
        exec load s =
          .next (((s.took rest).latchIf (stop < first.toNat + count.toNat) .tableClipped).latch .formatError)) ∧
      ((item.kind = .weightsLoad → s.ren.weights.sum ≤ 16) → count = 0 ∨ stop ≤ first.toNat →
        exec load s = .next ((s.took rest).latchIf (count ≠ 0) .tableClipped)) ∧
      ∀ below : Byte, first.toNat + below.toNat = stop → below.toNat < count.toNat → 0 < below.toNat →
        below.toNat * size ≤ bytes.length →
        exec load s =
          exec load { s.latch .tableClipped with
            ren := { s.ren with queue := { item with body := id :: loadRest first below bytes } :: rest } }

/-! ### Image contexts (chapters 2 and 3) -/

/-- R25, R26, R27, R34: IMAGE_OPEN with a window above 7, or W or H 0, is discarded with FORMAT-ERROR. Otherwise, with its
clamped parameters: a rebroadcast refreshes the slot that holds the image; different parameters reset that slot, drop its
held stripes and latch IMAGE-NEW; an image no slot holds takes the lowest FREE slot, or else the slot of greatest age, of
equal ages the lowest-numbered, whose held stripes are dropped, with IMAGE-EVICTED. -/
def Obligations.ImageOpenTakesItsSlot : Prop :=
  ∀ (s : State) (item : WorkItem) (rest : List WorkItem), s.ren.Offers item rest → item.kind = .imageOpen →
    let n := byteAt item.body 0
    let count := s.rx.lastCount
    let u := s.took rest
    (imageParamsOf item.channel item.body = none ↔
      8 ≤ (byteAt item.body 1).toNat ∨ (wordAt item.body 2).toNat = 0 ∨ (wordAt item.body 4).toNat = 0) ∧
    (imageParamsOf item.channel item.body = none → exec .imageOpen s = .next (u.latch .formatError)) ∧
    ∀ p, imageParamsOf item.channel item.body = some p →
      (p.channel = item.channel ∧ p.window.val = (byteAt item.body 1).toNat ∧
        p.width = min (wordAt item.body 2).toNat 512 ∧ p.height = min (wordAt item.body 4).toNat 512 ∧
        p.scale = max 1 (min (byteAt item.body 6).toNat 4) ∧ p.x0 = min (wordAt item.body 7).toNat 511 ∧
        p.y0 = min (wordAt item.body 9).toNat 511 ∧
        p.method = (if byteAt item.body 11 = 1 then Method.diffusion else .threshold) ∧
        p.select.val = (byteAt item.body 12).toNat % 4 ∧ p.rows = max 1 (min (byteAt item.body 13).toNat 16)) ∧
      (∀ k : Fin 4, s.ren.slots[k].state ≠ .free → s.ren.slots[k].image = n →
        (∀ j : Fin 4, s.ren.slots[j].state ≠ .free → s.ren.slots[j].image = n → j = k) →
        (s.ren.slots[k].params = p →
          exec .imageOpen s =
            .next { u with ren := u.ren.setSlot k { s.ren.slots[k] with activity := count, idle := 0 } }) ∧
        (s.ren.slots[k].params ≠ p →
          exec .imageOpen s =
            .next (({ u with ren := { u.ren.setSlot k (OpenedSlot n p count) with
              held := s.ren.held.filter (fun g => decide (g.image ≠ n)) } } : State).latch .imageNew))) ∧
      ((∀ j : Fin 4, s.ren.slots[j].state ≠ .free → s.ren.slots[j].image ≠ n) →
        ∀ k : Fin 4,
          (s.ren.slots[k].state = .free → (∀ j : Fin 4, j < k → s.ren.slots[j].state ≠ .free) →
            exec .imageOpen s = .next { u with ren := u.ren.setSlot k (OpenedSlot n p count) }) ∧
          ((∀ j : Fin 4, s.ren.slots[j].state ≠ .free) →
            (∀ j : Fin 4,
              (count - s.ren.slots[j].activity).toNat ≤ (count - s.ren.slots[k].activity).toNat ∧
                ((count - s.ren.slots[j].activity).toNat = (count - s.ren.slots[k].activity).toNat → k ≤ j)) →
            exec .imageOpen s =
              .next (({ u with ren := { u.ren.setSlot k (OpenedSlot n p count) with
                held := s.ren.held.filter (fun g => decide (g.image ≠ s.ren.slots[k].image)) } } : State).latch
                  .imageEvicted)))

/-- R28, R34: IMAGE_STRIPE of an image that no non-FREE slot holds, or of an index not below the stripe count, is discarded
with STRIPE-DISCARDED; one whose index was received, or is held for a DIFFUSION slot, is discarded with no event, and has
refreshed its slot. R32: a stripe of an OPEN DIFFUSION slot above e joins the tail of a hold queue with room, with
STRIPE-SHORT or STRIPE-LONG where its pixels did not fit (R30), and draws nothing. -/
def Obligations.StripeDiscardedOrHeld : Prop :=
  ∀ (s : State) (item : WorkItem) (rest : List WorkItem), s.ren.Offers item rest → item.kind = .imageStripe →
    let n := byteAt item.body 0
    let i := (wordAt item.body 1).toNat
    let u := s.took rest
    ((∀ j : Fin 4, s.ren.slots[j].state ≠ .free → s.ren.slots[j].image ≠ n) →
      exec .imageStripe s = .next (u.latch .stripeDiscarded)) ∧
    ∀ k : Fin 4, s.ren.slots[k].state ≠ .free → s.ren.slots[k].image = n →
      (∀ j : Fin 4, s.ren.slots[j].state ≠ .free → s.ren.slots[j].image = n → j = k) →
      let c := s.ren.slots[k]
      let fresh := { c with activity := s.rx.lastCount, idle := 0 }
      let px := decodeRuns (item.body.drop 3)
      let need := c.params.pixelsNeeded i
      (c.params.stripeCount ≤ i → exec .imageStripe s = .next (u.latch .stripeDiscarded)) ∧
      (i < c.params.stripeCount →
        (c.received.getLsbD i = true ∨
          (c.params.method = .diffusion ∧ ∃ g ∈ s.ren.held, g.image = n ∧ g.index = i)) →
        exec .imageStripe s = .next { u with ren := u.ren.setSlot k fresh }) ∧
      (i < c.params.stripeCount → c.received.getLsbD i = false → (∀ g ∈ s.ren.held, g.image = n → g.index ≠ i) →
        c.params.method = .diffusion → c.state = .opened → c.next < i → s.ren.held.length < 4 →
        exec .imageStripe s =
          .next
            (let v := (({ u with ren := u.ren.setSlot k fresh } : State).latchIf (px.length < need) .stripeShort).latchIf
              (need < px.length) .stripeLong
             { v with ren := { v.ren with
                held := s.ren.held ++
                  [⟨n, i, px.take need ++ List.replicate (need - px.length) 0, item.cls⟩] } }))

/-- R29 to R31, R36, R40 to R44, R16, R34: IMAGE_STRIPE of an OPEN or CLOSING THRESHOLD slot, not yet received, refreshes the
slot and adds its index to the received set; each panel cell that the stripe processes and that lies in the slot's window
takes the decision of its level's intensity against the threshold entry at its row and column modulo 8; every other bit of
IMAGE, and both other planes, keep their values; the rows that changed are marked with the item's class; and a CLOSING slot
that then has every stripe is FREE, with no event. The command takes the stripe, refreshes the slot and latches what the
fitting latches; what follows is left to do where there is a row write, and `perform` does it (log 5). -/
def Obligations.ThresholdStripeDrawnCellByCell : Prop :=
  ∀ (s : State) (item : WorkItem) (rest : List WorkItem) (k : Fin 4), s.ren.Offers item rest →
    item.kind = .imageStripe →
    let n := byteAt item.body 0
    let i := (wordAt item.body 1).toNat
    let c := s.ren.slots[k]
    let p := c.params
    c.state ≠ .free → c.image = n → (∀ j : Fin 4, s.ren.slots[j].state ≠ .free → s.ren.slots[j].image = n → j = k) →
    p.method = .threshold → 1 ≤ p.scale → 1 ≤ p.rows → 1 ≤ p.width → p.x0 ≤ 511 → i < p.stripeCount →
    c.received.getLsbD i = false →
    let px := decodeRuns (item.body.drop 3)
    let need := p.pixelsNeeded i
    let levels := px.take need ++ List.replicate (need - px.length) 0
    let fitted (c : Slot) (held : List HeldStripe) : State :=
      (({ s.took rest with ren := { (s.took rest).ren.setSlot k c with held := held } } : State).latchIf
        (px.length < need) .stripeShort).latchIf (need < px.length) .stripeLong
    let fresh : Slot := { c with activity := s.rx.lastCount, idle := 0 }
    let got : Slot := { fresh with received := c.received ||| BitVec.twoPow 512 i }
    ∃ t u, exec .imageStripe s = .next t ∧ s.NothingDrawn t ∧
      (t.ren.stages ≠ [] → (fitted fresh s.ren.held).Plans t) ∧
      (c.state = .opened ∨ got.complete = false → u = fitted got s.ren.held) ∧
      (c.state = .closing → got.complete = true →
        u = fitted { got with state := .free } (s.ren.held.filter (fun g => decide (g.image ≠ n)))) ∧
      DrawnInto item.cls .image u t.perform ∧
      ∀ x y : RowNo, (t.perform.ren.image[y]).getLsbD x.val =
        let top := p.y0 + p.scale * (p.rows * i)
        if p.x0 ≤ x.val ∧ x.val < p.x0 + p.width * p.scale ∧ top ≤ y.val ∧ y.val < top + p.scale * p.stripeRows i ∧
            s.ren.windows[p.window].rect.contains x.val y.val = true then
          let level := levels.getD (p.width * ((y.val - top) / p.scale) + (x.val - p.x0) / p.scale) 0
          decide ((s.ren.threshold.getD ((y.val % 8) * 8 + x.val % 8) 0).toNat <
            (s.ren.transfer.getD (p.select.val * 16 + level.val) 0).toNat)
        else (s.ren.image[y]).getLsbD x.val

/-- R32, R33, R36, R22, R40 to R43, R47 to R50: a stripe of a DIFFUSION slot, OPEN or CLOSING, is drawn cell row by cell row
with the line-diffusion arithmetic (`RowDiffused`). One at e, taken with no ready stripe by IMAGE_STRIPE, or taken as the
ready stripe by READY_STRIPE, is rendered in order from the slot's error row: its index is received, e becomes the lowest
missing index above it or the stripe count, and the error row becomes the entries left under its last processed row. One
below e and not received is rendered late, from a zero error row: its index is received, and e and the error row stay. One
above e that is not to be held, of a CLOSING slot or with 4 stripes held, is a gap skip: the slot's held stripes below it
are rendered in index order and then the stripe, each from a zero error row where it lies above e, and what each held one
leaves stands when its own rendering ends, whether or not it has a row write. After any of them a held
stripe at the new e becomes the ready stripe, and a CLOSING slot with every stripe is FREE. The command takes the stripe,
refreshes the slot and latches what the fitting latches; what follows is left to do where there is a row write, and
`perform` does it (log 5). -/
def Obligations.DiffusionStripeInOrderOrLate : Prop :=
  (∀ (p : ImageParams) (i : Nat) (levels : List (Fin 16)),
    let top := p.y0 + p.scale * (p.rows * i)
    (stripeCellRows p i levels).length = min (p.stripeRows i * p.scale) (512 - top) ∧
      ∀ (r : Nat) (y : RowNo), y.val = top + r → r < p.stripeRows i * p.scale →
        (stripeCellRows p i levels)[r]? = some (y, (levels.drop (p.width * (r / p.scale))).take p.width)) ∧
  ∀ (s : State) (k : Fin 4), s.ContextsSound → s.ren.AtRest → s.ren.echoes = [] → s.ren.slots[k].state ≠ .free →
    s.ren.slots[k].params.method = .diffusion →
    let c := s.ren.slots[k]
    let p := c.params
    (∀ h, s.ren.ready = some h → h.image = c.image →
      let u : State := { s with ren := { s.ren with ready := none, busy := true } }
      ∃ t v, exec .readyStripe s = .next t ∧ s.NothingDrawn t ∧ (t.ren.stages ≠ [] → u.Plans t) ∧
        RenderedInOrder k u h v ∧ AfterRendering k v t.perform) ∧
    ∀ item rest, s.ren.ready = none → s.ren.queue = item :: rest → item.kind = .imageStripe →
      byteAt item.body 0 = c.image →
      let i := (wordAt item.body 1).toNat
      let px := decodeRuns (item.body.drop 3)
      let need := p.pixelsNeeded i
      let h : HeldStripe := ⟨c.image, i, px.take need ++ List.replicate (need - px.length) 0, item.cls⟩
      let fresh : Slot := { c with activity := s.rx.lastCount, idle := 0 }
      let u := (({ s.took rest with ren := (s.took rest).ren.setSlot k fresh } : State).latchIf
        (px.length < need) .stripeShort).latchIf (need < px.length) .stripeLong
      i < p.stripeCount → c.received.getLsbD i = false →
      (i = c.next →
        ∃ t v, exec .imageStripe s = .next t ∧ s.NothingDrawn t ∧ (t.ren.stages ≠ [] → u.Plans t) ∧
          RenderedInOrder k u h v ∧ AfterRendering k v t.perform) ∧
      (i < c.next →
        ∃ t v w out, exec .imageStripe s = .next t ∧ s.NothingDrawn t ∧ (t.ren.stages ≠ [] → u.Plans t) ∧
          StripeDiffused s.ren.tables p s.ren.windows[p.window].rect item.cls (stripeCellRows p i h.levels)
            (List.replicate p.processedWidth 0) u v out ∧
          w = { v with ren := v.ren.setSlot k { fresh with received := c.received ||| BitVec.twoPow 512 i } } ∧
          AfterRendering k w t.perform) ∧
      (c.next < i → c.state = .closing ∨ 4 ≤ s.ren.held.length →
        (∀ g ∈ s.ren.held, g.image = c.image → g.index ≠ i) →
        let below (g : HeldStripe) : Bool := decide (g.image = c.image ∧ g.index < i)
        ∃ t v mine, exec .imageStripe s = .next t ∧ s.NothingDrawn t ∧ (t.ren.stages ≠ [] → u.Plans t) ∧
          InIndexOrder below s.ren.held mine ∧
          (let start : State := { u with ren := { u.ren with held := s.ren.held.filter (fun g => !below g) } }
           RenderedAll k (mine ++ [h]) start v ∧ EndsEach k mine start t) ∧
          AfterRendering k v t.perform)

/-- R35: IMAGE_CLOSE of an image that no non-FREE slot holds, or of one that is CLOSING, changes nothing; of an OPEN slot
with no held stripes, it makes the slot FREE where every stripe is received and CLOSING with count 0 where one is missing;
of an OPEN DIFFUSION slot, its held stripes are first rendered in index order, each from a zero error row where it lies
above e, what each leaves standing when its own rendering ends, whether or not it has a row write, and no stripe of its image
is held after it. R38: IMAGE_ABORT makes the slot FREE and drops its held stripes and
ready stripe, with no event, or changes nothing where no non-FREE slot holds the image. The row writes of the held stripes,
and what follows them, are left to do, and `perform` does them (log 5). -/
def Obligations.CloseAndAbortEndTheImage : Prop :=
  ∀ (s : State) (item : WorkItem) (rest : List WorkItem), s.ren.Offers item rest →
    let n := byteAt item.body 0
    let u := s.took rest
    let ended (c : Slot) : Slot :=
      if c.complete = true then { c with state := .free } else { c with state := .closing, closing := 0 }
    ((∀ j : Fin 4, s.ren.slots[j].state ≠ .free → s.ren.slots[j].image ≠ n) →
      (item.kind = .imageClose → exec .imageClose s = .next u) ∧
        (item.kind = .imageAbort → exec .imageAbort s = .next u)) ∧
    ∀ k : Fin 4, s.ren.slots[k].state ≠ .free → s.ren.slots[k].image = n →
      (∀ j : Fin 4, s.ren.slots[j].state ≠ .free → s.ren.slots[j].image = n → j = k) →
      (item.kind = .imageAbort →
        exec .imageAbort s =
          .next { u with ren := { u.ren.setSlot k { s.ren.slots[k] with state := .free } with
            held := s.ren.held.filter (fun g => decide (g.image ≠ n)) } }) ∧
      (item.kind = .imageClose → s.ren.slots[k].state = .closing → exec .imageClose s = .next u) ∧
      (item.kind = .imageClose → s.ren.slots[k].state = .opened → (∀ g ∈ s.ren.held, g.image ≠ n) →
        exec .imageClose s = .next { u with ren := u.ren.setSlot k (ended s.ren.slots[k]) }) ∧
      (item.kind = .imageClose → s.ren.slots[k].state = .opened → s.ren.slots[k].params.method = .diffusion →
        ∃ t, exec .imageClose s = .next t ∧ s.NothingDrawn t ∧ (t.ren.stages ≠ [] → u.Plans t) ∧
          t.perform.ren.slots[k].state ≠ .opened ∧
          t.perform.ren.held = s.ren.held.filter (fun g => decide (g.image ≠ n)) ∧
          (∀ g ∈ s.ren.held, g.image = n → g.index < 512 → t.perform.ren.slots[k].received.getLsbD g.index = true) ∧
          (s.ContextsSound →
            ∃ v mine, InIndexOrder (fun g => decide (g.image = n)) s.ren.held mine ∧
              (let start : State :=
                { u with ren := { u.ren with held := s.ren.held.filter (fun g => decide (g.image ≠ n)) } }
               RenderedAll k mine start v ∧ EndsEach k mine start t) ∧
              t.perform = { v with ren := v.ren.setSlot k (ended v.ren.slots[k]) }))

/-- R24, R55, R14, R3: how a piece of work goes on and ends. A command that takes a piece of work takes it from the state in
which the piece before it has ended, at rest, and does nothing where it takes none. A step with no command waiting, and no
start attempt to make, lets the piece in progress go on with the next thing that it has to do: a row write, which marks its
row at once where it changes a bit; the contexts that a rendering leaves; or TEXT-CLIPPED. Where nothing is left to do the
piece ends with its notices, in turn (the model's choice of these steps: logs 4 and 5). The notice held first is applied when the piece of work ends, and the
engine then holds the others: a CADENCE notice (APPLY_HELD_CADENCE_NOTICE) counts every CLOSING and OPEN slot, frees those
whose count ends with their held and ready stripes dropped, and latches IMAGE-INCOMPLETE, as R36 and R37 give; a
STORE-FACTORY notice (FACTORY_HALFTONE_NOTICE) gives the three halftone tables their factory values. A command whose notice
is not the one held first does nothing (the model's choice, logs 1 and 18). -/
def Obligations.HeldNoticesAppliedInTurn : Prop :=
  (∀ (s : State) (i : Instr),
    i ∈ [Instr.imageOpen, .imageStripe, .readyStripe, .imageClose, .imageAbort, .text, .fill, .windowSet, .eraseAll,
      .echoRequest, .transferLoad, .thresholdLoad, .weightsLoad, .glyphsLoad] →
    s.endPiece.ren.AtRest ∧
      (exec i s.endPiece ≠ .next s.endPiece → exec i s = exec i s.endPiece) ∧
      (exec i s.endPiece = .next s.endPiece → exec i s = .next s)) ∧
  (∀ s : State,
    let left (rest : List Stage) : State := { s with ren := { s.ren with stages := rest } }
    (s.pending = [] → s.row.attempting = false → step s = .next s.continuePiece) ∧
    (∀ c w rest, s.ren.stages = .write c w :: rest →
      let old := s.ren.planeRow w.plane w.row
      (w.op.apply old = old → s.continuePiece = left rest) ∧
      (w.op.apply old ≠ old →
        s.continuePiece = { left rest with
          ren := (left rest).ren.setPlaneRow w.plane w.row (w.op.apply old), row := s.row.mark c w.row })) ∧
    (∀ x rest, s.ren.stages = .contexts x :: rest →
      s.continuePiece = { s with ren := { s.ren with
        stages := rest, slots := x.slots, held := x.held, ready := x.ready } }) ∧
    (∀ rest, s.ren.stages = .textClipped :: rest → s.continuePiece = (left rest).latch .textClipped) ∧
    (s.ren.stages ≠ [] → s.continuePiece.perform = s.perform ∧ s.continuePiece.endPiece = s.endPiece) ∧
    (s.ren.stages = [] → s.continuePiece = s.endPiece) ∧
    (s.ren.stages = [] → s.ren.notices = [] → s.endPiece = { s with ren := { s.ren with busy := false } }) ∧
    (∀ t rest, s.ren.stages = [] → s.ren.notices = .cadence :: rest → exec .applyHeldCadenceNotice s = .next t →
      s.endPiece = t.endPiece) ∧
    (∀ t rest, s.ren.stages = [] → s.ren.notices = .factory :: rest → exec .factoryHalftoneNotice s = .next t →
      s.endPiece = t.endPiece)) ∧
  ∀ s : State,
    (s.ren.notices.head? ≠ some .cadence → exec .applyHeldCadenceNotice s = .next s) ∧
    (s.ren.notices.head? ≠ some .factory → exec .factoryHalftoneNotice s = .next s) ∧
    ∀ rest,
      let u := s.perform
      (s.ren.notices = .cadence :: rest →
        ∃ t r, exec .applyHeldCadenceNotice s = .next t ∧ u.ren.CadenceApplied r ∧
          t = { u with ren := { r with notices := rest, busy := !rest.isEmpty }, ev := t.ev } ∧
          EventUnit.OccurredIf u.ren.CadenceLosesImage .imageIncomplete u.ev t.ev) ∧
      (s.ren.notices = .factory :: rest →
        ∃ t, exec .factoryHalftoneNotice s = .next t ∧
          t = { u with ren := { u.ren with
            transfer := factoryTransfer, threshold := factoryThreshold, weights := factoryWeights
            slots := t.ren.slots, notices := rest, busy := !rest.isEmpty } } ∧
          ∀ k : Fin 4, t.ren.slots[k] =
            if u.ren.weights ≠ factoryWeights ∧ u.ren.slots[k].state ≠ .free ∧
                u.ren.slots[k].params.method = .diffusion then
              { u.ren.slots[k] with err := Vector.replicate 512 0 }
            else u.ren.slots[k])

/-- R36, R37, R132 at the count that ends the wait: CLOSING_TIMEOUT frees a CLOSING slot whose count stands at 8, with
IMAGE-INCOMPLETE; IDLE_TIMEOUT frees an OPEN slot whose count stands at 50, drops its held stripes, with IMAGE-INCOMPLETE if
a stripe is missing; CHANNEL_LAPSE makes a present channel whose count stands at 8 absent, with LESSON-LAPSE. Below its
count each does nothing. A slot is freed after what a piece of work in progress has still to do (R24). In the model the
notice that brings a count to its end already has this effect (log 6). -/
def Obligations.ExpiredCountsFreeAndLapse : Prop :=
  ∀ s : State,
    (∀ k : Fin 4,
      let u := s.perform
      let c := u.ren.slots[k]
      let freed := { u.ren.setSlot k { c with state := .free } with
        held := u.ren.held.filter (fun g => decide (g.image ≠ c.image))
        ready := u.ren.ready.filter (fun g => decide (g.image ≠ c.image)) }
      (c.state = .closing → 8 ≤ c.closing →
        exec (.closingTimeout k) s = .next (({ u with ren := freed } : State).latch .imageIncomplete)) ∧
      (c.state ≠ .closing ∨ c.closing < 8 → exec (.closingTimeout k) s = .next s) ∧
      (c.state = .opened → 50 ≤ c.idle →
        exec (.idleTimeout k) s =
          .next (if c.complete = true then { u with ren := freed }
            else ({ u with ren := freed } : State).latch .imageIncomplete)) ∧
      (c.state ≠ .opened ∨ c.idle < 50 → exec (.idleTimeout k) s = .next s)) ∧
    ∀ ch : Fin 64,
      (s.cls.chanState[ch].present = true → 8 ≤ s.cls.chanState[ch].lapse →
        exec (.channelLapse ch) s =
          .next (({ s with cls := { s.cls with
            chanState := s.cls.chanState.set ch { s.cls.chanState[ch] with present := false } } } : State).latch
              .lessonLapse)) ∧
      (s.cls.chanState[ch].present = false ∨ s.cls.chanState[ch].lapse < 8 → exec (.channelLapse ch) s = .next s)


/-! ### Address slots and senses (chapters 5 and 6) -/

/-- R76, R94, R93: where an address slot goes. Two things are the model's: that the settle waits are counted at each
ADDRESS_SLOT, which is where a cycle ends and the next begins (log 9, DEDUCED, unsafe), and that a slot after the sweep's
last row passes unused (log 21, DESIGN CHOICE). In OFF there is none. In every other state the start attempts that the
slot before it still has are made first and the operation which that slot carried stands as that of the cycle before (log
28), a sustain cycle of the present period begins, the settle waits are counted (a wait that begins takes K), and the slot goes to the sweep's row,
which becomes all off in the mirror; or, with no sweep, in RUNNING and BLANKING, to the head of the pending retry
operations, after whose last one for a service its wait follows; or else to the remaining WRITE of a service; or else, in
RUNNING, to a new start. It passes unused in BLANKED, after the sweep's last row, in BLANKING with nothing to issue, with 4
services in flight, and where the arbiter takes no row, which sets the urgent-run count to 0 if URGENT is empty. -/
def Obligations.AddressSlotGoesToItsSource : Prop :=
  ∀ s : State,
    let waited (v : Service) : Service :=
      match v.phase with
      | .settling none => { v with phase := .settling (some s.seq.panel.settle) }
      | .settling (some n) => { v with phase := .settling (some (n - 1)) }
      | .issuing _ => v
      | .refreshing => v
    let begun := s.row.sense.map waited
    let waits (y : RowNo) (v : Service) : Service := if v.row = y then { v with phase := .settling none } else v
    let q := { s.seq with cycle := some s.seq.panel.period }
    let unused : State := { s with row := { s.row with sense := begun, prevOp := s.row.slotOp, slotOp := none, sensed := false }, seq := q }
    (s.seq.state = .off → exec .addressSlot s = .next s) ∧
    (s.seq.state ≠ .off → exec .addressSlot s = exec .addressSlot s.endSlot ∧ s.endSlot.row.attempting = false) ∧
    (∀ t, s.seq.state ≠ .off → exec .addressSlot s = .next t → t.row.prevOp = s.endSlot.row.slotOp) ∧
    (s.row.attempting = false →
    (s.seq.state ≠ .off → s.seq.sweeping = true →
      (∀ y : RowNo, s.seq.sweepPos = y.val →
        exec .addressSlot s =
          .next { s with
            row := { s.row with
              sense := begun, sensed := false, prevOp := s.row.slotOp, slotOp := some ⟨.erase, y, BitVec.allOnes 512⟩
              mirror := s.row.mirror.set y (some 0) }
            seq := { q with sweepPos := y.val + 1 } }) ∧
      (512 ≤ s.seq.sweepPos → exec .addressSlot s = .next unused)) ∧
    (s.seq.state = .blanked → s.seq.sweeping = false → exec .addressSlot s = .next unused) ∧
    (s.seq.state = .running ∨ s.seq.state = .blanking → s.seq.sweeping = false →
      (∀ op rest, s.row.retry = op :: rest →
        exec .addressSlot s =
          .next { s with
            row := { s.row with
              sense := if ∃ o ∈ rest, o.row = op.row then begun else begun.map (waits op.row)
              retry := rest, prevOp := s.row.slotOp, slotOp := some op, sensed := false }
            seq := q }) ∧
      (∀ before v behind lit, s.row.retry = [] → s.row.sense = before ++ v :: behind → v.phase = .issuing lit →
        (∀ w ∈ before, ∀ l, w.phase ≠ .issuing l) →
        exec .addressSlot s =
          .next { s with
            row := { s.row with
              sense := begun.map (waits v.row), prevOp := s.row.slotOp, slotOp := some ⟨.write, v.row, lit⟩
              sensed := false }
            seq := q }) ∧
      (s.row.retry = [] → (∀ v ∈ s.row.sense, ∀ l, v.phase ≠ .issuing l) →
        (s.seq.state = .blanking ∨ 4 ≤ s.row.sense.length → exec .addressSlot s = .next unused) ∧
        (s.seq.state = .running → s.row.sense.length < 4 → s.row.mirrorKnown = true →
          s.row.AllInFlight s.row.urgent → s.row.AllInFlight s.row.bulk →
          exec .addressSlot s =
            .next { unused with row := { unused.row with
              run := if s.row.urgent = [] then 0 else s.row.run } }))))

/-- R77 to R82: start attempts. ADDRESS_SLOT in RUNNING, with no earlier source of the slot, makes the slot's first one, with
the settle waits counted at the slot and the note of the last cycle's sense cleared, as the model counts cycles (log 9,
DEDUCED, unsafe). An attempt with room in the sense queue takes the row that the arbiter gives: the row leaves its list and
the urgent-run count changes. Where its composite equals its mirror nothing else changes and a further attempt of the slot
follows; otherwise a service of it joins the sense queue with the composite as target and the number of its lit cells as
expected count, the slot carries the ERASE of the off-set where there is one, with the WRITE of an on-set left for a later
slot, or else the WRITE of the on-set, and no attempt follows; nor does one where the arbiter takes no row, or where the panel
has left RUNNING or the sense queue is full. A further attempt is a step of its own, on the state as it then stands, so that
commands and row writes of a piece of work may mark rows before it; which goes first where both are possible is a free value,
and what the slot still has is done at its end (the model's choice of these steps, logs 4 and 28). -/
def Obligations.RowStartServesTheArbitersRow : Prop :=
  (∀ s : State, s.seq.state = .running → s.seq.sweeping = false → s.row.retry = [] →
    (∀ v ∈ s.row.sense, ∀ l, v.phase ≠ .issuing l) → s.row.attempting = false →
    let waited (v : Service) : Service :=
      match v.phase with
      | .settling none => { v with phase := .settling (some s.seq.panel.settle) }
      | .settling (some n) => { v with phase := .settling (some (n - 1)) }
      | .issuing _ => v
      | .refreshing => v
    let begun : State := { s with
      row := { s.row with
        sense := s.row.sense.map waited, prevOp := s.row.slotOp, slotOp := none, sensed := false, attempting := true }
      seq := { s.seq with cycle := some s.seq.panel.period } }
    exec .addressSlot s = .next begun.nextAttempt) ∧
  (∀ s : State, s.row.attempting = true →
    (s.pending = [] → s.ren.busy = false → step s = .next s.nextAttempt) ∧
    (s.pending = [] → s.ren.busy = true →
      let u : State := { s with choices := s.choices + 1 }
      step s = .next u.nextAttempt ∨ step s = .next u.continuePiece) ∧
    s.endSlot = s.nextAttempt.endSlot ∧
    (s.seq.state ≠ .running ∨ 4 ≤ s.row.sense.length →
      s.nextAttempt = { s with row := { s.row with attempting := false } }) ∧
    (s.seq.state = .running → s.row.retry = [] → (∀ v ∈ s.row.sense, ∀ l, v.phase ≠ .issuing l) →
      s.row.sense.length < 4 → s.row.mirrorKnown = true →
      (s.row.AllInFlight s.row.urgent → s.row.AllInFlight s.row.bulk →
        s.nextAttempt = { s with row := { s.row with
          attempting := false, run := if s.row.urgent = [] then 0 else s.row.run } }) ∧
      ∀ (list : MarkClass) (y : RowNo) (mirror : RowBits), s.row.Takes s.seq.panel.urgentLimit list y →
        s.row.mirror[y] = some mirror →
        let target := s.ren.composite y
        let lit := target &&& ~~~mirror
        let dark := mirror &&& ~~~target
        let taken : RowEngine :=
          match list with
          | .urgent => { s.row with urgent := s.row.urgent.erase y, run := min (s.row.run + 1) 15 }
          | .bulk => { s.row with bulk := s.row.bulk.erase y, run := 0 }
        (target = mirror → s.nextAttempt = { s with row := taken }) ∧
        (target ≠ mirror →
          s.nextAttempt = { s with
            row := { taken with
              sense := s.row.sense ++
                [⟨y, target, (List.range 512).countP (fun x => target.getLsbD x), 0,
                  if dark = 0 ∨ lit = 0 then .settling none else .issuing lit⟩]
              slotOp := some (if dark = 0 then ⟨.write, y, lit⟩ else ⟨.erase, y, dark⟩)
              attempting := false } }))) ∧
  ∀ s : State, s.row.attempting = false → s.nextAttempt = s ∧ s.endSlot = s

/-- R83 to R86, R89: a sense completion of the first service whose wait ends with the running cycle. In RUNNING an agreeing
count ends the service with the mirror at its target; a disagreeing one, with retries left, adds a retry and appends the
full-row refresh, and otherwise ends the service with ROW-FAULT and offers its row to the fault row list, with
FAULT-LIST-FULL where that is full and lacks the row. In BLANKING the service ends whatever the count. With no service due,
or a second time in one cycle, nothing is sensed (the model's choice, log 9). The sense comes after the start attempts that
the cycle's address slot still has (the model's choice, log 28). -/
def Obligations.SenseCompletionDecidesTheService : Prop :=
  ∀ (s : State) (count : Fin 513),
    let due (v : Service) : Prop := ∃ n, v.phase = .settling (some n) ∧ n ≤ 1
    (s.row.sensed = true ∨ (∀ v ∈ s.row.sense, ¬ due v) → exec (.senseCompletion count) s = .next s) ∧
    (s.row.sensed = false → (∃ v ∈ s.row.sense, due v) →
      exec (.senseCompletion count) s = exec (.senseCompletion count) s.endSlot) ∧
    ∀ before v behind, s.row.sense = before ++ v :: behind → (∀ w ∈ before, ¬ due w) → due v →
      s.row.sensed = false → s.row.attempting = false → s.RowsOnce →
      let ended : RowEngine :=
        { s.row with
          sense := before ++ behind, mirror := s.row.mirror.set v.row (some v.target), sensed := true }
      (s.seq.state ≠ .running ∨ count.val = v.expected →
        exec (.senseCompletion count) s = .next { s with row := ended }) ∧
      (s.seq.state = .running → count.val ≠ v.expected → v.retries < s.seq.panel.retries →
        exec (.senseCompletion count) s =
          .next { s with row := { s.row with
            sensed := true
            sense := before ++ { v with retries := v.retries + 1, phase := .refreshing } :: behind
            retry := s.row.retry ++
              ((if v.target = BitVec.allOnes 512 then [] else [⟨.erase, v.row, ~~~v.target⟩]) ++
                (if v.target = 0 then [] else [⟨.write, v.row, v.target⟩])) } }) ∧
      (s.seq.state = .running → count.val ≠ v.expected → s.seq.panel.retries ≤ v.retries →
        (v.row ∈ s.row.faults →
          exec (.senseCompletion count) s = .next (({ s with row := ended } : State).latch .rowFault)) ∧
        (v.row ∉ s.row.faults → s.row.faults.length < 8 →
          exec (.senseCompletion count) s =
            .next (({ s with row := { ended with faults := s.row.faults ++ [v.row] } } : State).latch .rowFault)) ∧
        (v.row ∉ s.row.faults → 8 ≤ s.row.faults.length →
          exec (.senseCompletion count) s =
            .next ((({ s with row := ended } : State).latch .rowFault).latch .faultListFull)))

/-- R87: FAULT-CLEAR, whatever its body holds and in any panel state, empties the fault row list and changes nothing else;
with a receiver that hunts, no other command but the two resets takes a row from it: every other command keeps the rows it
holds, in their order, at its head. -/
def Obligations.FaultListEmptiedOnlyByFaultClear : Prop :=
  (∀ (s : State) (h : Header) (body : List Byte), s.Acts (blockOf h 19 body) →
    exec (.faultClear h body) s =
      .next { s.taken (blockOf h 19 body) with row := { s.row with faults := [] } }) ∧
    ∀ (i : Instr) (s t : State), i.wf = true → s.rx.state = .hunting →
      (∀ p, i ≠ .powerOnReset p) → (∀ h body levels, i ≠ .terminalReset h body levels) →
      (∀ h body, i ≠ .faultClear h body) → exec i s = .next t → s.row.faults <+: t.row.faults

/-- R95 to R99, R90, R103, R92: the panel's transitions. POWER_GOOD_RISE in OFF enters STARTING with a sweep from row 0;
POWER_GOOD_FALL enters OFF, and the row engine keeps nothing but its fault row list; each makes PANEL-POWER follow. The
STARTING sweep at row 512 marks the rows with a lit composite BULK and enters RUNNING with the blank timer 0. In BLANKING a
drained row engine begins the sweep at row 0, and the sweep at row 512 enters BLANKED with the lists kept. Where its condition does not hold, each of these
commands changes nothing (the model's choice, log 1). The timer is compared at CADENCE notices alone: BLANK_TIMEOUT is the
arrival of the next CADENCE to ALL, with the count one above the last, and has that CADENCE's effect; where its notice, which
counts the timer up by one, brings it to a timeout that is not 0 in RUNNING, the panel enters BLANKING (the model's choice of
the command's form, log 6). -/
def Obligations.PanelFollowsPowerSweepsAndTimer : Prop :=
  ∀ s : State,
    (s.seq.powerGood = true → exec .powerGoodRise s = .next s) ∧
    (s.seq.powerGood = false → s.seq.state = .off → s.AttentionExact →
      ∃ t, exec .powerGoodRise s = .next t ∧ EventUnit.LevelBecame .panelPower true s.ev t.ev ∧
        t = { s with
          ev := t.ev
          seq := { s.seq with powerGood := true, state := .starting, sweeping := true, sweepPos := 0 } }) ∧
    (s.seq.powerGood = false → exec .powerGoodFall s = .next s) ∧
    (s.seq.powerGood = true → s.AttentionExact →
      ∃ t, exec .powerGoodFall s = .next t ∧ EventUnit.LevelBecame .panelPower false s.ev t.ev ∧
        t = { s with
          ev := t.ev
          seq := { s.seq with powerGood := false, state := .off, sweeping := false, cycle := none }
          row :=
            { urgent := [], bulk := [], run := 0, sense := [], retry := [], mirror := Vector.replicate 512 none
              faults := s.row.faults, slotOp := none, prevOp := none, sensed := false
              attempting := false } }) ∧
    (s.seq.state = .starting → s.seq.sweepPos = 512 →
      exec .startingSweepComplete s =
        .next { s with
          row := { s.row with
            bulk := s.row.bulk ++ s.ren.litRows.filter (fun y => decide (y ∉ s.row.urgent ∧ y ∉ s.row.bulk)) }
          seq := { s.seq with state := .running, sweeping := false, blankTimer := 0 } }) ∧
    (s.seq.state ≠ .starting ∨ s.seq.sweepPos ≠ 512 → exec .startingSweepComplete s = .next s) ∧
    (s.seq.state = .blanking → s.seq.sweeping = false → s.row.Empty →
      exec .drainComplete s = .next { s with seq := { s.seq with sweeping := true, sweepPos := 0 } }) ∧
    (s.seq.state ≠ .blanking ∨ s.seq.sweeping = true ∨ ¬ s.row.Empty → exec .drainComplete s = .next s) ∧
    (s.seq.state = .blanking → s.seq.sweeping = true → s.seq.sweepPos = 512 →
      exec .blankingSweepComplete s = .next { s with seq := { s.seq with state := .blanked, sweeping := false } }) ∧
    (s.seq.state ≠ .blanking ∨ s.seq.sweeping = false ∨ s.seq.sweepPos ≠ 512 →
      exec .blankingSweepComplete s = .next s) ∧
    exec .blankTimeout s =
      exec (.cadence ⟨0x80, 0, 0⟩
        [(s.rx.lastCount + 1).extractLsb' 8 8, (s.rx.lastCount + 1).extractLsb' 0 8]) s ∧
    (s.rx.state = .hunting → s.seq.state = .running → s.seq.panel.blankTimeout ≠ 0 →
      s.seq.panel.blankTimeout * 600 ≤ min (s.seq.blankTimer + 1) 153000 → s.seq.blankTimer ≤ 153000 → s.RowsOnce →
      ∃ t, exec .blankTimeout s = .next t ∧
        t.rx.lastCount = s.rx.lastCount + 1 ∧
        t.seq = { s.seq with
          state := .blanking, sweeping := false, sweepPos := t.seq.sweepPos
          blankTimer := min (s.seq.blankTimer + 1) 153000 } ∧
        s.row.BeginsDrain t.row)

/-! ### The touch frame and the sampled lines (chapters 7, 8 and 11) -/

/-- R109, R111: a scan debounces each fitted beam of both axes by the rule's table and holds an unfitted one unbroken with
count 0; with the press-held flag clear, two broken axes set it, and with it set, 32 unbroken beams clear it. A scan that
recognises no press leaves the sequencer, the row engine, the zones and the render engine as they were; none changes the
planes, the store, the line receiver, the contexts or the render queue. -/
def Obligations.ScanDebouncesAndHoldsThePress : Prop :=
  ∀ (s : State) (x : ScanSample),
    let sampled (fitted : Bool) (sample : Bool) (b : Beam) : Beam :=
      if fitted = false then ⟨false, 0⟩
      else if sample = b.broken then ⟨b.broken, 0⟩
      else if b.count + 1 < s.touch.table.debounce then ⟨b.broken, b.count + 1⟩
      else ⟨sample, 0⟩
    ∃ t, exec (.scan x) s = .next t ∧
      (∀ n : Fin 16,
        t.touch.xBeams[n] = sampled (s.touch.table.fitX.getLsbD n.val) (x.xBroken.getLsbD n.val) s.touch.xBeams[n] ∧
        t.touch.yBeams[n] = sampled (s.touch.table.fitY.getLsbD n.val) (x.yBroken.getLsbD n.val) s.touch.yBeams[n]) ∧
      (s.touch.pressHeld = false →
        (t.touch.pressHeld = true ↔
          (∃ n : Fin 16, t.touch.xBeams[n].broken = true) ∧ ∃ n : Fin 16, t.touch.yBeams[n].broken = true)) ∧
      (s.touch.pressHeld = true →
        (t.touch.pressHeld = false ↔
          ∀ n : Fin 16, t.touch.xBeams[n].broken = false ∧ t.touch.yBeams[n].broken = false)) ∧
      (s.touch.pressHeld = true ∨ t.touch.pressHeld = false →
        t.touch.zones = s.touch.zones ∧ t.ren = s.ren ∧ t.row = s.row ∧ t.seq = s.seq) ∧
      t.touch.table = s.touch.table ∧ t.ren = { s.ren with echoes := t.ren.echoes } ∧ t.store = s.store ∧ t.rx = s.rx

/-- R112, R100, R110, R116 to R119: a press recognised at a scan of a part whose lines report nothing. It restarts the
blank timer. In BLANKED it wakes the panel and is used up. Otherwise, with an axis in two runs, TOUCH-AMBIGUOUS is latched
and nothing is answered; with one run on each axis, its position is the floor of each run's middle, the lowest-numbered
armed zone that contains it is hit (its TOUCH report, its echo request, its disarming where it is one-shot, each standing
whatever becomes of the others), and where none does it is a stray, reported only with report strays set. A TOUCH report
that finds the upstream queue holding 16 is lost to REPORT-OVERFLOW. -/
def Obligations.ScanAnswersThePress : Prop :=
  ∀ (s : State) (x : ScanSample), s.touch.pressHeld = false → (∀ n : Fin 4, s.lines[n].entry.report = false) →
    ∃ t, exec (.scan x) s = .next t ∧
      (t.touch.pressHeld = true →
        t.seq.blankTimer = 0 ∧
        (s.seq.state = .blanked →
          t.seq = { s.seq with state := .running, sweeping := false, blankTimer := 0 } ∧
          t.row = { s.row with urgent := [], bulk := s.ren.litRows } ∧
          t.tx = s.tx ∧ t.ren = s.ren ∧ t.touch.zones = s.touch.zones ∧
          t.ev.raw.getLsbD 25 = s.ev.raw.getLsbD 25) ∧
        (s.seq.state ≠ .blanked →
          t.seq = { s.seq with blankTimer := 0 } ∧ t.row = s.row ∧
          (∀ i j k : Fin 16, i < j → j < k →
            (t.touch.xBeams[i].broken = true ∧ t.touch.xBeams[j].broken = false ∧ t.touch.xBeams[k].broken = true) ∨
              (t.touch.yBeams[i].broken = true ∧ t.touch.yBeams[j].broken = false ∧
                t.touch.yBeams[k].broken = true) →
            t.ev.raw.getLsbD 25 = true ∧ (s.ev.table.mask.getLsbD 25 = true → t.ev.latched.getLsbD 25 = true) ∧
              t.tx = s.tx ∧ t.ren = s.ren ∧ t.touch.zones = s.touch.zones) ∧
          ∀ a b c d : Fin 16, a ≤ b → c ≤ d →
            (∀ n : Fin 16, t.touch.xBeams[n].broken = true ↔ a ≤ n ∧ n ≤ b) →
            (∀ n : Fin 16, t.touch.yBeams[n].broken = true ↔ c ≤ n ∧ n ≤ d) →
            ∀ tx ty : Fin 16, tx.val = (a.val + b.val) / 2 → ty.val = (c.val + d.val) / 2 →
              let inside (z : Zone) : Prop := z.armed = true ∧ z.tx0 ≤ tx ∧ tx ≤ z.tx1 ∧ z.ty0 ≤ ty ∧ ty ≤ z.ty1
              t.ev.raw.getLsbD 25 = s.ev.raw.getLsbD 25 ∧
              (∀ k : Fin 16, inside s.touch.zones[k] → (∀ j : Fin 16, j < k → ¬ inside s.touch.zones[j]) →
                let z := s.touch.zones[k]
                (s.tx.queue.length < 16 →
                  t.tx = { s.tx with queue := s.tx.queue ++ [.touch (some k) z.code tx ty s.rx.lastCount] }) ∧
                (16 ≤ s.tx.queue.length →
                  t.tx = s.tx ∧ t.ev.raw.getLsbD 26 = true ∧
                    (s.ev.table.mask.getLsbD 26 = true → t.ev.latched.getLsbD 26 = true)) ∧
                (∀ e, z.echo = some e → s.ren.echoes.length < 4 →
                  t.ren = { s.ren with echoes := s.ren.echoes ++ [⟨e.set, e.code, e.x, e.y⟩] }) ∧
                (z.echo = none ∨ 4 ≤ s.ren.echoes.length → t.ren = s.ren) ∧
                t.touch.zones = if z.oneShot then s.touch.zones.set k { z with armed := false } else s.touch.zones) ∧
              ((∀ k : Fin 16, ¬ inside s.touch.zones[k]) →
                (s.touch.table.strays = false → t.tx = s.tx) ∧
                (s.touch.table.strays = true → s.tx.queue.length < 16 →
                  t.tx = { s.tx with queue := s.tx.queue ++ [.touch none 0 tx ty s.rx.lastCount] }) ∧
                (s.touch.table.strays = true → 16 ≤ s.tx.queue.length →
                  t.tx = s.tx ∧ t.ev.raw.getLsbD 26 = true ∧
                    (s.ev.table.mask.getLsbD 26 = true → t.ev.latched.getLsbD 26 = true)) ∧
                t.ren = s.ren ∧ t.touch.zones = s.touch.zones)))

/-- R121, R120, R160, R162, R164: what every scan samples beside the beams. The service line and, with an accessory fitted,
the fault line are accepted at a second equal sample, and SERVICE-LINE and ACCESSORY-FAULT follow; an accepted change of the
service line forms the effective number again. An INPUT line's sample that equals its last one is accepted, and a change of
it makes LINE-IN follow and, with its report flag set, offers a LINE report; the first sample after the line became INPUT is
accepted at once with no report. Lines that are no inputs are not sampled. The reports of one scan are offered in this order:
the TOUCH report of a press that the scan recognises, then the lines in line order, as the model takes them (log 10, DEDUCED,
unsafe), so that a full queue loses the last of them; a scan that recognises no press offers LINE reports alone. -/
def Obligations.ScanSamplesTheInputLines : Prop :=
  ∀ (s : State) (x : ScanSample),
    ∃ t press, exec (.scan x) s = .next t ∧
      (let accepted := if x.service = s.cls.serviceLast then x.service else s.cls.serviceAccepted
       t.cls = { s.cls with
          serviceLast := x.service, serviceAccepted := accepted, number := t.cls.number, source := t.cls.source } ∧
        t.ev.raw.getLsbD 2 = accepted ∧
        (t.cls.number, t.cls.source) =
          if accepted = s.cls.serviceAccepted then (s.cls.number, s.cls.source)
          else if accepted = true then (0, NumberSource.service)
          else if s.cls.address.valid = true then (s.cls.address.number, NumberSource.override)
          else (s.cls.strap, NumberSource.straps)) ∧
      (s.acc.fitted = false → t.acc = s.acc ∧ t.ev.raw.getLsbD 3 = s.ev.raw.getLsbD 3) ∧
      (s.acc.fitted = true →
        let accepted := if x.fault = s.acc.faultLast then x.fault else s.acc.faultAccepted
        t.acc = { s.acc with faultLast := x.fault, faultAccepted := accepted } ∧
          t.ev.raw.getLsbD 3 = (accepted || s.acc.stalled)) ∧
      (∀ n : Fin 4,
        let l := s.lines[n]
        let v := x.lines.getLsbD n.val
        (l.entry.config ≠ .input →
          t.lines[n] = l ∧ t.ev.raw.getLsbD (4 + n.val) = s.ev.raw.getLsbD (4 + n.val)) ∧
        (l.entry.config = .input → l.lastSample = none →
          t.lines[n] = { l with lastSample := some v, accepted := v } ∧ t.ev.raw.getLsbD (4 + n.val) = v) ∧
        (l.entry.config = .input → l.lastSample = some v →
          t.lines[n] = { l with accepted := v } ∧
            t.ev.raw.getLsbD (4 + n.val) =
              if v = l.accepted then s.ev.raw.getLsbD (4 + n.val) else v) ∧
        (l.entry.config = .input → l.lastSample = some (!v) →
          t.lines[n] = { l with lastSample := some v } ∧
            t.ev.raw.getLsbD (4 + n.val) = s.ev.raw.getLsbD (4 + n.val))) ∧
      (let reports := ((List.finRange 4).filter fun n =>
          decide (s.lines[n].entry.config = .input) && s.lines[n].entry.report &&
            decide (s.lines[n].lastSample = some (x.lines.getLsbD n.val)) &&
            decide (x.lines.getLsbD n.val ≠ s.lines[n].accepted)).map fun n =>
          Report.line n (x.lines.getLsbD n.val) s.rx.lastCount
       t.tx = { s.tx with queue := s.tx.queue ++ (press ++ reports).take (16 - s.tx.queue.length) }) ∧
      (s.touch.pressHeld = true ∨ t.touch.pressHeld = false → press = []) ∧
      (press = [] ∨ ∃ zone code tx ty, press = [Report.touch zone code tx ty s.rx.lastCount])

/-! ### The return line and the accessory port (chapters 10 and 11) -/

/-- R154, R155, R177, R178: the grant. Sampled asserted, it takes WAITING to QUALIFYING, and in QUALIFYING a frame begins,
fixed from then on: lead, number with attention in bit 7, kind, length, body and CRC of the head report, each body byte by
byte, or an IDLE frame where none waits. A completed frame's report leaves the queue and the transmitter is SPENT. Sampled not asserted, it aborts a
frame, the report kept, and the transmitter is WAITING. Three things are the model's: FRAME_BEGIN and FRAME_COMPLETE do
nothing outside the state they belong to (log 1, DESIGN CHOICE); the GRANT_ASSERTED of the second bit time and FRAME_BEGIN
are one step (log 16, DEDUCED, unsafe); and the grant is kept in `pins` as last seen (log 20, DESIGN CHOICE). -/
def Obligations.FramesFollowTheGrant : Prop :=
  ∀ s : State,
    let up : State := { s with pins := { s.pins with grant := true } }
    let frame (kind : Byte) (body : List Byte) : List Byte :=
      let covered := [byteOf s.cls.number.val ||| (if s.ev.attention then 0x80 else 0), kind, byteOf body.length] ++ body
      0xC3 :: (covered ++ wordBytes (crc16 covered))
    let summary (c : SlotSummary) : List Byte :=
      [(match c.state with | .free => (0 : Byte) | .opened => 1 | .closing => 2), c.image] ++
        wordBytes (BitVec.ofNat 16 c.received)
    let bytes :=
      match s.tx.queue with
      | [] => frame 0 []
      | .touch zone code tx ty count :: _ =>
        frame 1 ([(match zone with | some z => byteOf z.val | none => 0xFF), code, byteOf tx.val, byteOf ty.val] ++
          wordBytes count)
      | .line n level count :: _ => frame 2 ([byteOf n.val, if level then 1 else 0] ++ wordBytes count)
      | .status f :: _ =>
        frame 3
          ([byteOf f.number.val, (match f.source with | .straps => (0 : Byte) | .override => 1 | .service => 2),
              (match f.panel with | .off => (0 : Byte) | .starting => 1 | .running => 2 | .blanking => 3 | .blanked => 4)] ++
            longBytes f.raw ++ longBytes f.latched ++ longBytes f.mask ++
            [(match f.lastWatch with | some k => byteOf k.val | none => 0xFF)] ++
            summary f.slots[0] ++ summary f.slots[1] ++ summary f.slots[2] ++ summary f.slots[3] ++
            [byteOf f.renderDepth, byteOf f.upstreamDepth, (match f.store with | .idle => (0 : Byte) | .programming => 1)] ++
            wordBytes (BitVec.ofNat 16 f.commits) ++
            [(if f.lineLevels[0] then (1 : Byte) else 0) + (if f.lineLevels[1] then 2 else 0) +
              (if f.lineLevels[2] then 4 else 0) + (if f.lineLevels[3] then 8 else 0)] ++
            wordBytes f.count ++ [byteOf f.faults.length] ++
            f.faults.flatMap (fun y => wordBytes (BitVec.ofNat 16 y.val)))
    let begun : State :=
      { up with tx := { s.tx with state := .sending, frame := some ⟨bytes, !s.tx.queue.isEmpty⟩ } }
    (s.tx.state = .waiting → exec .grantAsserted s = .next { up with tx := { s.tx with state := .qualifying } }) ∧
    (s.tx.state = .qualifying → exec .grantAsserted s = .next begun ∧ exec .frameBegin s = .next begun) ∧
    (s.tx.state = .sending ∨ s.tx.state = .spent → exec .grantAsserted s = .next up) ∧
    (s.tx.state ≠ .qualifying → exec .frameBegin s = .next s) ∧
    (∀ f, s.tx.state = .sending → s.tx.frame = some f →
      exec .frameComplete s =
        .next { s with tx :=
          { state := .spent, frame := none
            queue := if f.carriesReport then s.tx.queue.drop 1 else s.tx.queue } }) ∧
    (s.tx.state ≠ .sending → exec .frameComplete s = .next s) ∧
    exec .grantWithdrawn s =
      .next { s with
        pins := { s.pins with grant := false }
        tx := { state := .waiting, frame := none, queue := s.tx.queue } }

/-- R159, R160: the accessory's handshake. An acknowledge delivers the head byte of STROBED or STALLED, and the next byte, if
there is one, is offered or held back while busy is asserted; it is ignored in IDLE and HOLDING. Busy released offers the
byte of HOLDING, and that of STALLED again; busy asserted is only noted. The timeout of STROBED stalls the port.
ACCESSORY-FAULT follows the accepted fault level and the stall. Two things are the model's: the acknowledge timer stands in
STALLED (log 14, DEDUCED), and an ACK_TIMEOUT outside STROBED, or a BUSY_RELEASED with busy not asserted, changes nothing
(log 1, DESIGN CHOICE). -/
def Obligations.AccessoryHandshakeFollowsItsTable : Prop :=
  ∀ s : State, s.AttentionExact →
    (s.acc.state = .idle ∨ s.acc.state = .holding → exec .acknowledge s = .next s) ∧
    (∀ byte rest, s.acc.buffer = byte :: rest → s.acc.state = .strobed ∨ s.acc.state = .stalled →
      ∃ t, exec .acknowledge s = .next t ∧
        t = { s with
          ev := t.ev
          acc := { s.acc with
            buffer := rest, stalled := false
            state := if rest = [] then .idle else if s.acc.busy then .holding else .strobed
            ackTimer := if rest = [] then .stands else if s.acc.busy then .stands else .running } } ∧
        EventUnit.LevelBecame .accessoryFault (s.acc.fitted && s.acc.faultAccepted) s.ev t.ev) ∧
    exec .busyAsserted s = .next { s with acc := { s.acc with busy := true } } ∧
    (s.acc.busy = false → exec .busyReleased s = .next s) ∧
    (s.acc.busy = true → s.acc.state = .idle ∨ s.acc.state = .strobed →
      exec .busyReleased s = .next { s with acc := { s.acc with busy := false } }) ∧
    (s.acc.busy = true → s.acc.state = .holding ∨ s.acc.state = .stalled →
      ∃ t, exec .busyReleased s = .next t ∧
        t = { s with
          ev := t.ev
          acc := { s.acc with busy := false, state := .strobed, ackTimer := .running, stalled := false } } ∧
        EventUnit.LevelBecame .accessoryFault (s.acc.fitted && s.acc.faultAccepted) s.ev t.ev) ∧
    (s.acc.state = .strobed →
      ∃ t, exec .ackTimeout s = .next t ∧
        t = { s with ev := t.ev, acc := { s.acc with state := .stalled, ackTimer := .stands, stalled := true } } ∧
        EventUnit.LevelBecame .accessoryFault s.acc.fitted s.ev t.ev) ∧
    (s.acc.state ≠ .strobed → exec .ackTimeout s = .next s)

/-! ### What every step keeps -/

/-- R71, R82, R79: a row waits at most once across the two dirty lists together, and no two services in flight are of one
row; every step keeps this, and it holds right after reset. -/
def Obligations.RowsWaitOnceAlways : Prop :=
  (∀ s t : State, s.RowsOnce → step s = .next t → t.RowsOnce) ∧ State.reset.RowsOnce

/-- Every step keeps the queues and lists within their room (R19, R21, R22, R82, R87, R153, R158), every rectangle of a window
and of a zone in order (R4, R113), and, with the stored-class tables in range, the counts and positions in their ranges
(R17, R79, R82, R92, R106, R130, R167). Every command that can be sent leaves a receiver that hunts hunting (R137 to
R140): a block comes whole in its command (the model's choice, log 8). -/
def Obligations.StepKeepsQueuesRectanglesCounts : Prop :=
  (∀ (i : Instr) (s t : State), i.wf = true → s.rx.state = .hunting → exec i s = .next t → t.rx.state = .hunting) ∧
  ∀ s t : State, step s = .next t →
    (s.QueuesBounded → t.QueuesBounded) ∧ (s.RectanglesOrdered → t.RectanglesOrdered) ∧
      (s.TablesInRange → s.CountsInRange → t.CountsInRange)

/-- Every step keeps the values of the stored-class tables in the ranges of their owners, wherever they stand (R44, R46, R75,
R93, R107, R124, R126). -/
def Obligations.StepKeepsTablesInRange : Prop :=
  ∀ s t : State, s.TablesInRange → step s = .next t → t.TablesInRange

/-- Every step keeps the image contexts, the hold queue and the ready stripe in agreement (R17, R22, R26, R32). -/
def Obligations.StepKeepsContextsSound : Prop :=
  ∀ s t : State, s.ContextsSound → step s = .next t → t.ContextsSound

/-- R51 with R46 and R54: every step keeps the weights' sum at most 16 and every entry of every error row a signed 8-bit
value, in states whose contexts are sound (itself kept by every step: StepKeepsContextsSound). -/
def Obligations.StepKeepsErrorsBounded : Prop :=
  ∀ s t : State, s.ContextsSound → s.ErrorsBounded → step s = .next t → t.ErrorsBounded

/-- R74, R88, R94, R99: every step keeps what the mirror is worth in each panel state, where rows wait once; and in RUNNING,
with both lists and the sense queue empty and no operation pending, every row of the mirror equals its composite. -/
def Obligations.MirrorEqualsCompositeWhenQuiet : Prop :=
  (∀ s t : State, s.RowsOnce → s.MirrorSound → step s = .next t → t.MirrorSound) ∧
    ∀ s : State, s.MirrorSound → s.seq.state = .running → s.row.Quiet →
      ∀ y : RowNo, s.row.mirror[y] = some (s.ren.composite y)

/-- The state right after reset satisfies every property that the steps keep. That state is a power-on reset (R168) with
the inputs and the stored image that the model chooses (logs 2 and 3). -/
def Obligations.ResetMeetsEveryInvariant : Prop :=
  State.reset.QueuesBounded ∧ State.reset.AttentionExact ∧ State.reset.RectanglesOrdered ∧
    State.reset.CountsInRange ∧ State.reset.TablesInRange ∧ State.reset.ContextsSound ∧ State.reset.ErrorsBounded ∧
    State.reset.MirrorSound ∧ State.reset.RowsOnce ∧ State.reset.rx.state = .hunting
end

