-- ==== Sys2Proof/Laws/State.lean ====
section
/-! SUPPORT. What each named update of the state leaves as it was, field by field, for the simplifier: no later proof
needs to unfold an update to read a field it does not write. -/

namespace Sys2Proof.Machine

/-! ### Events -/

@[simp] theorem State.latch_rx (e : EdgeEvent) (s : State) : (s.latch e).rx = s.rx := rfl
@[simp] theorem State.latch_cls (e : EdgeEvent) (s : State) : (s.latch e).cls = s.cls := rfl
@[simp] theorem State.latch_ren (e : EdgeEvent) (s : State) : (s.latch e).ren = s.ren := rfl
@[simp] theorem State.latch_row (e : EdgeEvent) (s : State) : (s.latch e).row = s.row := rfl
@[simp] theorem State.latch_seq (e : EdgeEvent) (s : State) : (s.latch e).seq = s.seq := rfl
@[simp] theorem State.latch_touch (e : EdgeEvent) (s : State) : (s.latch e).touch = s.touch := rfl
@[simp] theorem State.latch_tx (e : EdgeEvent) (s : State) : (s.latch e).tx = s.tx := rfl
@[simp] theorem State.latch_acc (e : EdgeEvent) (s : State) : (s.latch e).acc = s.acc := rfl
@[simp] theorem State.latch_lines (e : EdgeEvent) (s : State) : (s.latch e).lines = s.lines := rfl
@[simp] theorem State.latch_store (e : EdgeEvent) (s : State) : (s.latch e).store = s.store := rfl
@[simp] theorem State.latch_pins (e : EdgeEvent) (s : State) : (s.latch e).pins = s.pins := rfl
@[simp] theorem State.latch_choices (e : EdgeEvent) (s : State) : (s.latch e).choices = s.choices := rfl
@[simp] theorem State.latch_pending (e : EdgeEvent) (s : State) : (s.latch e).pending = s.pending := rfl

@[simp] theorem State.latch_ev (e : EdgeEvent) (s : State) : (s.latch e).ev = s.ev.occur e := rfl

@[simp] theorem State.setLevel_rx (e : LevelEvent) (v : Bool) (s : State) : (s.setLevel e v).rx = s.rx := rfl
@[simp] theorem State.setLevel_cls (e : LevelEvent) (v : Bool) (s : State) : (s.setLevel e v).cls = s.cls := rfl
@[simp] theorem State.setLevel_ren (e : LevelEvent) (v : Bool) (s : State) : (s.setLevel e v).ren = s.ren := rfl
@[simp] theorem State.setLevel_row (e : LevelEvent) (v : Bool) (s : State) : (s.setLevel e v).row = s.row := rfl
@[simp] theorem State.setLevel_seq (e : LevelEvent) (v : Bool) (s : State) : (s.setLevel e v).seq = s.seq := rfl
@[simp] theorem State.setLevel_touch (e : LevelEvent) (v : Bool) (s : State) : (s.setLevel e v).touch = s.touch := rfl
@[simp] theorem State.setLevel_tx (e : LevelEvent) (v : Bool) (s : State) : (s.setLevel e v).tx = s.tx := rfl
@[simp] theorem State.setLevel_acc (e : LevelEvent) (v : Bool) (s : State) : (s.setLevel e v).acc = s.acc := rfl
@[simp] theorem State.setLevel_lines (e : LevelEvent) (v : Bool) (s : State) : (s.setLevel e v).lines = s.lines := rfl
@[simp] theorem State.setLevel_store (e : LevelEvent) (v : Bool) (s : State) : (s.setLevel e v).store = s.store := rfl
@[simp] theorem State.setLevel_pins (e : LevelEvent) (v : Bool) (s : State) : (s.setLevel e v).pins = s.pins := rfl
@[simp] theorem State.setLevel_choices (e : LevelEvent) (v : Bool) (s : State) : (s.setLevel e v).choices = s.choices := rfl
@[simp] theorem State.setLevel_pending (e : LevelEvent) (v : Bool) (s : State) : (s.setLevel e v).pending = s.pending := rfl

@[simp] theorem State.setLevel_ev (e : LevelEvent) (v : Bool) (s : State) : (s.setLevel e v).ev = s.ev.setLevel e v := rfl

@[simp] theorem State.latchIf_rx (c : Bool) (e : EdgeEvent) (s : State) : (s.latchIf c e).rx = s.rx := by cases c <;> rfl
@[simp] theorem State.latchIf_cls (c : Bool) (e : EdgeEvent) (s : State) : (s.latchIf c e).cls = s.cls := by cases c <;> rfl
@[simp] theorem State.latchIf_ren (c : Bool) (e : EdgeEvent) (s : State) : (s.latchIf c e).ren = s.ren := by cases c <;> rfl
@[simp] theorem State.latchIf_row (c : Bool) (e : EdgeEvent) (s : State) : (s.latchIf c e).row = s.row := by cases c <;> rfl
@[simp] theorem State.latchIf_seq (c : Bool) (e : EdgeEvent) (s : State) : (s.latchIf c e).seq = s.seq := by cases c <;> rfl
@[simp] theorem State.latchIf_touch (c : Bool) (e : EdgeEvent) (s : State) : (s.latchIf c e).touch = s.touch := by cases c <;> rfl
@[simp] theorem State.latchIf_tx (c : Bool) (e : EdgeEvent) (s : State) : (s.latchIf c e).tx = s.tx := by cases c <;> rfl
@[simp] theorem State.latchIf_acc (c : Bool) (e : EdgeEvent) (s : State) : (s.latchIf c e).acc = s.acc := by cases c <;> rfl
@[simp] theorem State.latchIf_lines (c : Bool) (e : EdgeEvent) (s : State) : (s.latchIf c e).lines = s.lines := by cases c <;> rfl
@[simp] theorem State.latchIf_store (c : Bool) (e : EdgeEvent) (s : State) : (s.latchIf c e).store = s.store := by cases c <;> rfl
@[simp] theorem State.latchIf_pins (c : Bool) (e : EdgeEvent) (s : State) : (s.latchIf c e).pins = s.pins := by cases c <;> rfl
@[simp] theorem State.latchIf_choices (c : Bool) (e : EdgeEvent) (s : State) : (s.latchIf c e).choices = s.choices := by cases c <;> rfl
@[simp] theorem State.latchIf_pending (c : Bool) (e : EdgeEvent) (s : State) : (s.latchIf c e).pending = s.pending := by cases c <;> rfl

@[simp] theorem State.latchIf_ev (c : Bool) (e : EdgeEvent) (s : State) :
    (s.latchIf c e).ev = if c then s.ev.occur e else s.ev := by cases c <;> rfl

@[simp] theorem State.latchIf_false (e : EdgeEvent) (s : State) : s.latchIf false e = s := rfl

@[simp] theorem State.latchIf_true (e : EdgeEvent) (s : State) : s.latchIf true e = s.latch e := rfl

@[simp] theorem EventUnit.withLatched_raw (l : BitVec 32) (u : EventUnit) : (u.withLatched l).raw = u.raw := rfl
@[simp] theorem EventUnit.withLatched_table (l : BitVec 32) (u : EventUnit) : (u.withLatched l).table = u.table := rfl
@[simp] theorem EventUnit.withLatched_lastWatch (l : BitVec 32) (u : EventUnit) : (u.withLatched l).lastWatch = u.lastWatch := rfl
@[simp] theorem EventUnit.withLatched_latched (l : BitVec 32) (u : EventUnit) : (u.withLatched l).latched = l := rfl
@[simp] theorem EventUnit.withLatched_attention (l : BitVec 32) (u : EventUnit) :
    (u.withLatched l).attention = (l != 0) := rfl

@[simp] theorem EventUnit.occur_table (e : EdgeEvent) (u : EventUnit) : (u.occur e).table = u.table := rfl
@[simp] theorem EventUnit.occur_lastWatch (e : EdgeEvent) (u : EventUnit) : (u.occur e).lastWatch = u.lastWatch := rfl
@[simp] theorem EventUnit.occur_raw (e : EdgeEvent) (u : EventUnit) : (u.occur e).raw = u.raw ||| eventBit e.num := rfl
@[simp] theorem EventUnit.occur_latched (e : EdgeEvent) (u : EventUnit) :
    (u.occur e).latched = if u.table.mask.getLsbD e.num then u.latched ||| eventBit e.num else u.latched := rfl
@[simp] theorem EventUnit.setLevel_table (e : LevelEvent) (v : Bool) (u : EventUnit) :
    (u.setLevel e v).table = u.table := by unfold EventUnit.setLevel; split <;> rfl
@[simp] theorem EventUnit.setLevel_lastWatch (e : LevelEvent) (v : Bool) (u : EventUnit) :
    (u.setLevel e v).lastWatch = u.lastWatch := by unfold EventUnit.setLevel; split <;> rfl
@[simp] theorem EventUnit.clear_table (n : BitVec 32) (u : EventUnit) : (u.clear n).table = u.table := rfl
@[simp] theorem EventUnit.clear_lastWatch (n : BitVec 32) (u : EventUnit) : (u.clear n).lastWatch = u.lastWatch := rfl

/-! ### The receiver and the classifier -/

@[simp] theorem State.linePresent_cls (s : State) : (s.linePresent).cls = s.cls := rfl
@[simp] theorem State.linePresent_ren (s : State) : (s.linePresent).ren = s.ren := rfl
@[simp] theorem State.linePresent_row (s : State) : (s.linePresent).row = s.row := rfl
@[simp] theorem State.linePresent_seq (s : State) : (s.linePresent).seq = s.seq := rfl
@[simp] theorem State.linePresent_touch (s : State) : (s.linePresent).touch = s.touch := rfl
@[simp] theorem State.linePresent_tx (s : State) : (s.linePresent).tx = s.tx := rfl
@[simp] theorem State.linePresent_acc (s : State) : (s.linePresent).acc = s.acc := rfl
@[simp] theorem State.linePresent_lines (s : State) : (s.linePresent).lines = s.lines := rfl
@[simp] theorem State.linePresent_store (s : State) : (s.linePresent).store = s.store := rfl
@[simp] theorem State.linePresent_pins (s : State) : (s.linePresent).pins = s.pins := rfl
@[simp] theorem State.linePresent_choices (s : State) : (s.linePresent).choices = s.choices := rfl
@[simp] theorem State.linePresent_pending (s : State) : (s.linePresent).pending = s.pending := rfl

@[simp] theorem State.heard_cls (s : State) : (s.heard).cls = s.cls := rfl
@[simp] theorem State.heard_ren (s : State) : (s.heard).ren = s.ren := rfl
@[simp] theorem State.heard_row (s : State) : (s.heard).row = s.row := rfl
@[simp] theorem State.heard_seq (s : State) : (s.heard).seq = s.seq := rfl
@[simp] theorem State.heard_touch (s : State) : (s.heard).touch = s.touch := rfl
@[simp] theorem State.heard_tx (s : State) : (s.heard).tx = s.tx := rfl
@[simp] theorem State.heard_acc (s : State) : (s.heard).acc = s.acc := rfl
@[simp] theorem State.heard_lines (s : State) : (s.heard).lines = s.lines := rfl
@[simp] theorem State.heard_store (s : State) : (s.heard).store = s.store := rfl
@[simp] theorem State.heard_pins (s : State) : (s.heard).pins = s.pins := rfl
@[simp] theorem State.heard_choices (s : State) : (s.heard).choices = s.choices := rfl
@[simp] theorem State.heard_pending (s : State) : (s.heard).pending = s.pending := rfl

@[simp] theorem State.heard_rx (s : State) :
    s.heard.rx = { s.rx with state := .hunting, held := [], silence := .running, linePresent := true } := rfl

@[simp] theorem State.heard_ev (s : State) : s.heard.ev = s.ev.setLevel .linePresent true := rfl

@[simp] theorem State.taken_ren (b : Block) (s : State) : (s.taken b).ren = s.ren := rfl
@[simp] theorem State.taken_row (b : Block) (s : State) : (s.taken b).row = s.row := rfl
@[simp] theorem State.taken_seq (b : Block) (s : State) : (s.taken b).seq = s.seq := rfl
@[simp] theorem State.taken_touch (b : Block) (s : State) : (s.taken b).touch = s.touch := rfl
@[simp] theorem State.taken_tx (b : Block) (s : State) : (s.taken b).tx = s.tx := rfl
@[simp] theorem State.taken_acc (b : Block) (s : State) : (s.taken b).acc = s.acc := rfl
@[simp] theorem State.taken_lines (b : Block) (s : State) : (s.taken b).lines = s.lines := rfl
@[simp] theorem State.taken_store (b : Block) (s : State) : (s.taken b).store = s.store := rfl
@[simp] theorem State.taken_pins (b : Block) (s : State) : (s.taken b).pins = s.pins := rfl
@[simp] theorem State.taken_choices (b : Block) (s : State) : (s.taken b).choices = s.choices := rfl
@[simp] theorem State.taken_pending (b : Block) (s : State) : (s.taken b).pending = s.pending := rfl

@[simp] theorem State.taken_rx (b : Block) (s : State) : (s.taken b).rx = s.heard.rx := rfl

@[simp] theorem State.taken_ev (b : Block) (s : State) : (s.taken b).ev = s.ev.setLevel .linePresent true := rfl

@[simp] theorem State.taken_cls (b : Block) (s : State) : (s.taken b).cls = s.cls.record b := rfl

@[simp] theorem Classifier.record_strap (b : Block) (c : Classifier) : (c.record b).strap = c.strap := rfl
@[simp] theorem Classifier.record_number (b : Block) (c : Classifier) : (c.record b).number = c.number := rfl
@[simp] theorem Classifier.record_source (b : Block) (c : Classifier) : (c.record b).source = c.source := rfl
@[simp] theorem Classifier.record_serviceAccepted (b : Block) (c : Classifier) : (c.record b).serviceAccepted = c.serviceAccepted := rfl
@[simp] theorem Classifier.record_serviceLast (b : Block) (c : Classifier) : (c.record b).serviceLast = c.serviceLast := rfl
@[simp] theorem Classifier.record_address (b : Block) (c : Classifier) : (c.record b).address = c.address := rfl
@[simp] theorem Classifier.record_groups (b : Block) (c : Classifier) : (c.record b).groups = c.groups := rfl
@[simp] theorem Classifier.record_channels (b : Block) (c : Classifier) : (c.record b).channels = c.channels := rfl
@[simp] theorem Classifier.record_kinds (b : Block) (c : Classifier) : (c.record b).kinds = c.kinds := rfl
@[simp] theorem Classifier.record_watch (b : Block) (c : Classifier) : (c.record b).watch = c.watch := rfl

@[simp] theorem Classifier.formNumber_strap (c : Classifier) : (c.formNumber).strap = c.strap := by unfold Classifier.formNumber; split <;> [rfl; split <;> rfl]
@[simp] theorem Classifier.formNumber_serviceAccepted (c : Classifier) : (c.formNumber).serviceAccepted = c.serviceAccepted := by unfold Classifier.formNumber; split <;> [rfl; split <;> rfl]
@[simp] theorem Classifier.formNumber_serviceLast (c : Classifier) : (c.formNumber).serviceLast = c.serviceLast := by unfold Classifier.formNumber; split <;> [rfl; split <;> rfl]
@[simp] theorem Classifier.formNumber_address (c : Classifier) : (c.formNumber).address = c.address := by unfold Classifier.formNumber; split <;> [rfl; split <;> rfl]
@[simp] theorem Classifier.formNumber_groups (c : Classifier) : (c.formNumber).groups = c.groups := by unfold Classifier.formNumber; split <;> [rfl; split <;> rfl]
@[simp] theorem Classifier.formNumber_channels (c : Classifier) : (c.formNumber).channels = c.channels := by unfold Classifier.formNumber; split <;> [rfl; split <;> rfl]
@[simp] theorem Classifier.formNumber_kinds (c : Classifier) : (c.formNumber).kinds = c.kinds := by unfold Classifier.formNumber; split <;> [rfl; split <;> rfl]
@[simp] theorem Classifier.formNumber_watch (c : Classifier) : (c.formNumber).watch = c.watch := by unfold Classifier.formNumber; split <;> [rfl; split <;> rfl]
@[simp] theorem Classifier.formNumber_chanState (c : Classifier) : (c.formNumber).chanState = c.chanState := by unfold Classifier.formNumber; split <;> [rfl; split <;> rfl]

/-! ### Reports -/

@[simp] theorem State.offer_rx (r : Report) (s : State) : (s.offer r).rx = s.rx := by unfold State.offer; split <;> rfl
@[simp] theorem State.offer_cls (r : Report) (s : State) : (s.offer r).cls = s.cls := by unfold State.offer; split <;> rfl
@[simp] theorem State.offer_ren (r : Report) (s : State) : (s.offer r).ren = s.ren := by unfold State.offer; split <;> rfl
@[simp] theorem State.offer_row (r : Report) (s : State) : (s.offer r).row = s.row := by unfold State.offer; split <;> rfl
@[simp] theorem State.offer_seq (r : Report) (s : State) : (s.offer r).seq = s.seq := by unfold State.offer; split <;> rfl
@[simp] theorem State.offer_touch (r : Report) (s : State) : (s.offer r).touch = s.touch := by unfold State.offer; split <;> rfl
@[simp] theorem State.offer_acc (r : Report) (s : State) : (s.offer r).acc = s.acc := by unfold State.offer; split <;> rfl
@[simp] theorem State.offer_lines (r : Report) (s : State) : (s.offer r).lines = s.lines := by unfold State.offer; split <;> rfl
@[simp] theorem State.offer_store (r : Report) (s : State) : (s.offer r).store = s.store := by unfold State.offer; split <;> rfl
@[simp] theorem State.offer_pins (r : Report) (s : State) : (s.offer r).pins = s.pins := by unfold State.offer; split <;> rfl
@[simp] theorem State.offer_choices (r : Report) (s : State) : (s.offer r).choices = s.choices := by unfold State.offer; split <;> rfl
@[simp] theorem State.offer_pending (r : Report) (s : State) : (s.offer r).pending = s.pending := by unfold State.offer; split <;> rfl

/-! ### The panel -/

@[simp] theorem State.restartBlankTimer_rx (s : State) : (s.restartBlankTimer).rx = s.rx := rfl
@[simp] theorem State.restartBlankTimer_cls (s : State) : (s.restartBlankTimer).cls = s.cls := rfl
@[simp] theorem State.restartBlankTimer_ren (s : State) : (s.restartBlankTimer).ren = s.ren := rfl
@[simp] theorem State.restartBlankTimer_row (s : State) : (s.restartBlankTimer).row = s.row := rfl
@[simp] theorem State.restartBlankTimer_touch (s : State) : (s.restartBlankTimer).touch = s.touch := rfl
@[simp] theorem State.restartBlankTimer_ev (s : State) : (s.restartBlankTimer).ev = s.ev := rfl
@[simp] theorem State.restartBlankTimer_tx (s : State) : (s.restartBlankTimer).tx = s.tx := rfl
@[simp] theorem State.restartBlankTimer_acc (s : State) : (s.restartBlankTimer).acc = s.acc := rfl
@[simp] theorem State.restartBlankTimer_lines (s : State) : (s.restartBlankTimer).lines = s.lines := rfl
@[simp] theorem State.restartBlankTimer_store (s : State) : (s.restartBlankTimer).store = s.store := rfl
@[simp] theorem State.restartBlankTimer_pins (s : State) : (s.restartBlankTimer).pins = s.pins := rfl
@[simp] theorem State.restartBlankTimer_choices (s : State) : (s.restartBlankTimer).choices = s.choices := rfl
@[simp] theorem State.restartBlankTimer_pending (s : State) : (s.restartBlankTimer).pending = s.pending := rfl

@[simp] theorem State.markLit_rx (s : State) : (s.markLit).rx = s.rx := by simp only [State.markLit]
@[simp] theorem State.markLit_cls (s : State) : (s.markLit).cls = s.cls := by simp only [State.markLit]
@[simp] theorem State.markLit_ren (s : State) : (s.markLit).ren = s.ren := by simp only [State.markLit]
@[simp] theorem State.markLit_seq (s : State) : (s.markLit).seq = s.seq := by simp only [State.markLit]
@[simp] theorem State.markLit_touch (s : State) : (s.markLit).touch = s.touch := by simp only [State.markLit]
@[simp] theorem State.markLit_ev (s : State) : (s.markLit).ev = s.ev := by simp only [State.markLit]
@[simp] theorem State.markLit_tx (s : State) : (s.markLit).tx = s.tx := by simp only [State.markLit]
@[simp] theorem State.markLit_acc (s : State) : (s.markLit).acc = s.acc := by simp only [State.markLit]
@[simp] theorem State.markLit_lines (s : State) : (s.markLit).lines = s.lines := by simp only [State.markLit]
@[simp] theorem State.markLit_store (s : State) : (s.markLit).store = s.store := by simp only [State.markLit]
@[simp] theorem State.markLit_pins (s : State) : (s.markLit).pins = s.pins := by simp only [State.markLit]
@[simp] theorem State.markLit_choices (s : State) : (s.markLit).choices = s.choices := by simp only [State.markLit]
@[simp] theorem State.markLit_pending (s : State) : (s.markLit).pending = s.pending := by simp only [State.markLit]

@[simp] theorem RowEngine.mark_run (c : MarkClass) (y : RowNo) (r : RowEngine) : (r.mark c y).run = r.run := by
  unfold RowEngine.mark; cases c <;> dsimp only <;> split <;> rfl
@[simp] theorem RowEngine.mark_sense (c : MarkClass) (y : RowNo) (r : RowEngine) : (r.mark c y).sense = r.sense := by
  unfold RowEngine.mark; cases c <;> dsimp only <;> split <;> rfl
@[simp] theorem RowEngine.mark_retry (c : MarkClass) (y : RowNo) (r : RowEngine) : (r.mark c y).retry = r.retry := by
  unfold RowEngine.mark; cases c <;> dsimp only <;> split <;> rfl
@[simp] theorem RowEngine.mark_mirror (c : MarkClass) (y : RowNo) (r : RowEngine) : (r.mark c y).mirror = r.mirror := by
  unfold RowEngine.mark; cases c <;> dsimp only <;> split <;> rfl
@[simp] theorem RowEngine.mark_faults (c : MarkClass) (y : RowNo) (r : RowEngine) : (r.mark c y).faults = r.faults := by
  unfold RowEngine.mark; cases c <;> dsimp only <;> split <;> rfl
@[simp] theorem RowEngine.mark_slotOp (c : MarkClass) (y : RowNo) (r : RowEngine) : (r.mark c y).slotOp = r.slotOp := by
  unfold RowEngine.mark; cases c <;> dsimp only <;> split <;> rfl
@[simp] theorem RowEngine.mark_prevOp (c : MarkClass) (y : RowNo) (r : RowEngine) : (r.mark c y).prevOp = r.prevOp := by
  unfold RowEngine.mark; cases c <;> dsimp only <;> split <;> rfl
@[simp] theorem RowEngine.mark_sensed (c : MarkClass) (y : RowNo) (r : RowEngine) : (r.mark c y).sensed = r.sensed := by
  unfold RowEngine.mark; cases c <;> dsimp only <;> split <;> rfl
@[simp] theorem RowEngine.mark_attempting (c : MarkClass) (y : RowNo) (r : RowEngine) : (r.mark c y).attempting = r.attempting := by
  unfold RowEngine.mark; cases c <;> dsimp only <;> split <;> rfl

@[simp] theorem RowEngine.beginCycle_urgent (settle : Nat) (r : RowEngine) : (r.beginCycle settle).urgent = r.urgent := rfl
@[simp] theorem RowEngine.beginCycle_bulk (settle : Nat) (r : RowEngine) : (r.beginCycle settle).bulk = r.bulk := rfl
@[simp] theorem RowEngine.beginCycle_run (settle : Nat) (r : RowEngine) : (r.beginCycle settle).run = r.run := rfl
@[simp] theorem RowEngine.beginCycle_retry (settle : Nat) (r : RowEngine) : (r.beginCycle settle).retry = r.retry := rfl
@[simp] theorem RowEngine.beginCycle_mirror (settle : Nat) (r : RowEngine) : (r.beginCycle settle).mirror = r.mirror := rfl
@[simp] theorem RowEngine.beginCycle_faults (settle : Nat) (r : RowEngine) : (r.beginCycle settle).faults = r.faults := rfl
@[simp] theorem RowEngine.beginCycle_attempting (settle : Nat) (r : RowEngine) : (r.beginCycle settle).attempting = r.attempting := rfl

@[simp] theorem RowEngine.beginCycle_prevOp (settle : Nat) (r : RowEngine) :
    (r.beginCycle settle).prevOp = r.slotOp := rfl
@[simp] theorem RowEngine.beginCycle_slotOp (settle : Nat) (r : RowEngine) :
    (r.beginCycle settle).slotOp = none := rfl

@[simp] theorem State.nextAttempt_rx (s : State) : (s.nextAttempt).rx = s.rx := by
  unfold State.nextAttempt; split <;> rfl
@[simp] theorem State.nextAttempt_cls (s : State) : (s.nextAttempt).cls = s.cls := by
  unfold State.nextAttempt; split <;> rfl
@[simp] theorem State.nextAttempt_ren (s : State) : (s.nextAttempt).ren = s.ren := by
  unfold State.nextAttempt; split <;> rfl
@[simp] theorem State.nextAttempt_seq (s : State) : (s.nextAttempt).seq = s.seq := by
  unfold State.nextAttempt; split <;> rfl
@[simp] theorem State.nextAttempt_touch (s : State) : (s.nextAttempt).touch = s.touch := by
  unfold State.nextAttempt; split <;> rfl
@[simp] theorem State.nextAttempt_ev (s : State) : (s.nextAttempt).ev = s.ev := by
  unfold State.nextAttempt; split <;> rfl
@[simp] theorem State.nextAttempt_tx (s : State) : (s.nextAttempt).tx = s.tx := by
  unfold State.nextAttempt; split <;> rfl
@[simp] theorem State.nextAttempt_acc (s : State) : (s.nextAttempt).acc = s.acc := by
  unfold State.nextAttempt; split <;> rfl
@[simp] theorem State.nextAttempt_lines (s : State) : (s.nextAttempt).lines = s.lines := by
  unfold State.nextAttempt; split <;> rfl
@[simp] theorem State.nextAttempt_store (s : State) : (s.nextAttempt).store = s.store := by
  unfold State.nextAttempt; split <;> rfl
@[simp] theorem State.nextAttempt_pins (s : State) : (s.nextAttempt).pins = s.pins := by
  unfold State.nextAttempt; split <;> rfl
@[simp] theorem State.nextAttempt_choices (s : State) : (s.nextAttempt).choices = s.choices := by
  unfold State.nextAttempt; split <;> rfl
@[simp] theorem State.nextAttempt_pending (s : State) : (s.nextAttempt).pending = s.pending := by
  unfold State.nextAttempt; split <;> rfl

@[simp] theorem State.endSlot_rx (s : State) : (s.endSlot).rx = s.rx := rfl
@[simp] theorem State.endSlot_cls (s : State) : (s.endSlot).cls = s.cls := rfl
@[simp] theorem State.endSlot_ren (s : State) : (s.endSlot).ren = s.ren := rfl
@[simp] theorem State.endSlot_seq (s : State) : (s.endSlot).seq = s.seq := rfl
@[simp] theorem State.endSlot_touch (s : State) : (s.endSlot).touch = s.touch := rfl
@[simp] theorem State.endSlot_ev (s : State) : (s.endSlot).ev = s.ev := rfl
@[simp] theorem State.endSlot_tx (s : State) : (s.endSlot).tx = s.tx := rfl
@[simp] theorem State.endSlot_acc (s : State) : (s.endSlot).acc = s.acc := rfl
@[simp] theorem State.endSlot_lines (s : State) : (s.endSlot).lines = s.lines := rfl
@[simp] theorem State.endSlot_store (s : State) : (s.endSlot).store = s.store := rfl
@[simp] theorem State.endSlot_pins (s : State) : (s.endSlot).pins = s.pins := rfl
@[simp] theorem State.endSlot_choices (s : State) : (s.endSlot).choices = s.choices := rfl
@[simp] theorem State.endSlot_pending (s : State) : (s.endSlot).pending = s.pending := rfl

/-! ### The render engine -/

@[simp] theorem State.took_rx (rest : List WorkItem) (s : State) : (s.took rest).rx = s.rx := rfl
@[simp] theorem State.took_cls (rest : List WorkItem) (s : State) : (s.took rest).cls = s.cls := rfl
@[simp] theorem State.took_row (rest : List WorkItem) (s : State) : (s.took rest).row = s.row := rfl
@[simp] theorem State.took_seq (rest : List WorkItem) (s : State) : (s.took rest).seq = s.seq := rfl
@[simp] theorem State.took_touch (rest : List WorkItem) (s : State) : (s.took rest).touch = s.touch := rfl
@[simp] theorem State.took_ev (rest : List WorkItem) (s : State) : (s.took rest).ev = s.ev := rfl
@[simp] theorem State.took_tx (rest : List WorkItem) (s : State) : (s.took rest).tx = s.tx := rfl
@[simp] theorem State.took_acc (rest : List WorkItem) (s : State) : (s.took rest).acc = s.acc := rfl
@[simp] theorem State.took_lines (rest : List WorkItem) (s : State) : (s.took rest).lines = s.lines := rfl
@[simp] theorem State.took_store (rest : List WorkItem) (s : State) : (s.took rest).store = s.store := rfl
@[simp] theorem State.took_pins (rest : List WorkItem) (s : State) : (s.took rest).pins = s.pins := rfl
@[simp] theorem State.took_choices (rest : List WorkItem) (s : State) : (s.took rest).choices = s.choices := rfl
@[simp] theorem State.took_pending (rest : List WorkItem) (s : State) : (s.took rest).pending = s.pending := rfl

/-- A row write that changes no bit changes nothing (R3). -/
theorem State.rowWrite_same {c : MarkClass} {s : State} {w : RowWrite}
    (h : w.op.apply (s.ren.planeRow w.plane w.row) = s.ren.planeRow w.plane w.row) : s.rowWrite c w = s :=
  if_pos h

/-- A changing row write writes its row and marks it (R3, R11). -/
theorem State.rowWrite_change {c : MarkClass} {s : State} {w : RowWrite}
    (h : w.op.apply (s.ren.planeRow w.plane w.row) ≠ s.ren.planeRow w.plane w.row) :
    s.rowWrite c w =
      { s with
        ren := s.ren.setPlaneRow w.plane w.row (w.op.apply (s.ren.planeRow w.plane w.row))
        row := s.row.mark c w.row } :=
  if_neg h

@[simp] theorem State.rowWrite_rx (c : MarkClass) (w : RowWrite) (s : State) : (s.rowWrite c w).rx = s.rx := by
  by_cases h : w.op.apply (s.ren.planeRow w.plane w.row) = s.ren.planeRow w.plane w.row
  · rw [State.rowWrite_same h]
  · rw [State.rowWrite_change h]
@[simp] theorem State.rowWrite_cls (c : MarkClass) (w : RowWrite) (s : State) : (s.rowWrite c w).cls = s.cls := by
  by_cases h : w.op.apply (s.ren.planeRow w.plane w.row) = s.ren.planeRow w.plane w.row
  · rw [State.rowWrite_same h]
  · rw [State.rowWrite_change h]
@[simp] theorem State.rowWrite_seq (c : MarkClass) (w : RowWrite) (s : State) : (s.rowWrite c w).seq = s.seq := by
  by_cases h : w.op.apply (s.ren.planeRow w.plane w.row) = s.ren.planeRow w.plane w.row
  · rw [State.rowWrite_same h]
  · rw [State.rowWrite_change h]
@[simp] theorem State.rowWrite_touch (c : MarkClass) (w : RowWrite) (s : State) : (s.rowWrite c w).touch = s.touch := by
  by_cases h : w.op.apply (s.ren.planeRow w.plane w.row) = s.ren.planeRow w.plane w.row
  · rw [State.rowWrite_same h]
  · rw [State.rowWrite_change h]
@[simp] theorem State.rowWrite_ev (c : MarkClass) (w : RowWrite) (s : State) : (s.rowWrite c w).ev = s.ev := by
  by_cases h : w.op.apply (s.ren.planeRow w.plane w.row) = s.ren.planeRow w.plane w.row
  · rw [State.rowWrite_same h]
  · rw [State.rowWrite_change h]
@[simp] theorem State.rowWrite_tx (c : MarkClass) (w : RowWrite) (s : State) : (s.rowWrite c w).tx = s.tx := by
  by_cases h : w.op.apply (s.ren.planeRow w.plane w.row) = s.ren.planeRow w.plane w.row
  · rw [State.rowWrite_same h]
  · rw [State.rowWrite_change h]
@[simp] theorem State.rowWrite_acc (c : MarkClass) (w : RowWrite) (s : State) : (s.rowWrite c w).acc = s.acc := by
  by_cases h : w.op.apply (s.ren.planeRow w.plane w.row) = s.ren.planeRow w.plane w.row
  · rw [State.rowWrite_same h]
  · rw [State.rowWrite_change h]
@[simp] theorem State.rowWrite_lines (c : MarkClass) (w : RowWrite) (s : State) : (s.rowWrite c w).lines = s.lines := by
  by_cases h : w.op.apply (s.ren.planeRow w.plane w.row) = s.ren.planeRow w.plane w.row
  · rw [State.rowWrite_same h]
  · rw [State.rowWrite_change h]
@[simp] theorem State.rowWrite_store (c : MarkClass) (w : RowWrite) (s : State) : (s.rowWrite c w).store = s.store := by
  by_cases h : w.op.apply (s.ren.planeRow w.plane w.row) = s.ren.planeRow w.plane w.row
  · rw [State.rowWrite_same h]
  · rw [State.rowWrite_change h]
@[simp] theorem State.rowWrite_pins (c : MarkClass) (w : RowWrite) (s : State) : (s.rowWrite c w).pins = s.pins := by
  by_cases h : w.op.apply (s.ren.planeRow w.plane w.row) = s.ren.planeRow w.plane w.row
  · rw [State.rowWrite_same h]
  · rw [State.rowWrite_change h]
@[simp] theorem State.rowWrite_choices (c : MarkClass) (w : RowWrite) (s : State) : (s.rowWrite c w).choices = s.choices := by
  by_cases h : w.op.apply (s.ren.planeRow w.plane w.row) = s.ren.planeRow w.plane w.row
  · rw [State.rowWrite_same h]
  · rw [State.rowWrite_change h]
@[simp] theorem State.rowWrite_pending (c : MarkClass) (w : RowWrite) (s : State) : (s.rowWrite c w).pending = s.pending := by
  by_cases h : w.op.apply (s.ren.planeRow w.plane w.row) = s.ren.planeRow w.plane w.row
  · rw [State.rowWrite_same h]
  · rw [State.rowWrite_change h]

@[simp] theorem State.stage_rx (more : List Stage) (s : State) : (s.stage more).rx = s.rx := rfl
@[simp] theorem State.stage_cls (more : List Stage) (s : State) : (s.stage more).cls = s.cls := rfl
@[simp] theorem State.stage_row (more : List Stage) (s : State) : (s.stage more).row = s.row := rfl
@[simp] theorem State.stage_seq (more : List Stage) (s : State) : (s.stage more).seq = s.seq := rfl
@[simp] theorem State.stage_touch (more : List Stage) (s : State) : (s.stage more).touch = s.touch := rfl
@[simp] theorem State.stage_ev (more : List Stage) (s : State) : (s.stage more).ev = s.ev := rfl
@[simp] theorem State.stage_tx (more : List Stage) (s : State) : (s.stage more).tx = s.tx := rfl
@[simp] theorem State.stage_acc (more : List Stage) (s : State) : (s.stage more).acc = s.acc := rfl
@[simp] theorem State.stage_lines (more : List Stage) (s : State) : (s.stage more).lines = s.lines := rfl
@[simp] theorem State.stage_store (more : List Stage) (s : State) : (s.stage more).store = s.store := rfl
@[simp] theorem State.stage_pins (more : List Stage) (s : State) : (s.stage more).pins = s.pins := rfl
@[simp] theorem State.stage_choices (more : List Stage) (s : State) : (s.stage more).choices = s.choices := rfl
@[simp] theorem State.stage_pending (more : List Stage) (s : State) : (s.stage more).pending = s.pending := rfl

@[simp] theorem State.stage_stages (more : List Stage) (s : State) :
    (s.stage more).ren.stages = s.ren.stages ++ more := rfl

@[simp] theorem State.stageContexts_rx (s : State) : (s.stageContexts).rx = s.rx := rfl
@[simp] theorem State.stageContexts_cls (s : State) : (s.stageContexts).cls = s.cls := rfl
@[simp] theorem State.stageContexts_row (s : State) : (s.stageContexts).row = s.row := rfl
@[simp] theorem State.stageContexts_seq (s : State) : (s.stageContexts).seq = s.seq := rfl
@[simp] theorem State.stageContexts_touch (s : State) : (s.stageContexts).touch = s.touch := rfl
@[simp] theorem State.stageContexts_ev (s : State) : (s.stageContexts).ev = s.ev := rfl
@[simp] theorem State.stageContexts_tx (s : State) : (s.stageContexts).tx = s.tx := rfl
@[simp] theorem State.stageContexts_acc (s : State) : (s.stageContexts).acc = s.acc := rfl
@[simp] theorem State.stageContexts_lines (s : State) : (s.stageContexts).lines = s.lines := rfl
@[simp] theorem State.stageContexts_store (s : State) : (s.stageContexts).store = s.store := rfl
@[simp] theorem State.stageContexts_pins (s : State) : (s.stageContexts).pins = s.pins := rfl
@[simp] theorem State.stageContexts_choices (s : State) : (s.stageContexts).choices = s.choices := rfl
@[simp] theorem State.stageContexts_pending (s : State) : (s.stageContexts).pending = s.pending := rfl

@[simp] theorem State.stageContexts_stages (s : State) :
    s.stageContexts.ren.stages = s.ren.stages ++ [.contexts s.ren.contexts] := rfl

@[simp] theorem State.rowWrites_rx (c : MarkClass) (ws : List RowWrite) (s : State) : (s.rowWrites c ws).rx = s.rx := rfl
@[simp] theorem State.rowWrites_cls (c : MarkClass) (ws : List RowWrite) (s : State) : (s.rowWrites c ws).cls = s.cls := rfl
@[simp] theorem State.rowWrites_row (c : MarkClass) (ws : List RowWrite) (s : State) : (s.rowWrites c ws).row = s.row := rfl
@[simp] theorem State.rowWrites_seq (c : MarkClass) (ws : List RowWrite) (s : State) : (s.rowWrites c ws).seq = s.seq := rfl
@[simp] theorem State.rowWrites_touch (c : MarkClass) (ws : List RowWrite) (s : State) : (s.rowWrites c ws).touch = s.touch := rfl
@[simp] theorem State.rowWrites_ev (c : MarkClass) (ws : List RowWrite) (s : State) : (s.rowWrites c ws).ev = s.ev := rfl
@[simp] theorem State.rowWrites_tx (c : MarkClass) (ws : List RowWrite) (s : State) : (s.rowWrites c ws).tx = s.tx := rfl
@[simp] theorem State.rowWrites_acc (c : MarkClass) (ws : List RowWrite) (s : State) : (s.rowWrites c ws).acc = s.acc := rfl
@[simp] theorem State.rowWrites_lines (c : MarkClass) (ws : List RowWrite) (s : State) : (s.rowWrites c ws).lines = s.lines := rfl
@[simp] theorem State.rowWrites_store (c : MarkClass) (ws : List RowWrite) (s : State) : (s.rowWrites c ws).store = s.store := rfl
@[simp] theorem State.rowWrites_pins (c : MarkClass) (ws : List RowWrite) (s : State) : (s.rowWrites c ws).pins = s.pins := rfl
@[simp] theorem State.rowWrites_choices (c : MarkClass) (ws : List RowWrite) (s : State) : (s.rowWrites c ws).choices = s.choices := rfl
@[simp] theorem State.rowWrites_pending (c : MarkClass) (ws : List RowWrite) (s : State) : (s.rowWrites c ws).pending = s.pending := rfl

@[simp] theorem State.performStage_rx (g : Stage) (s : State) : (s.performStage g).rx = s.rx := by
  cases g with
  | write c w => exact State.rowWrite_rx c w s
  | contexts c => rfl
  | textClipped => rfl
@[simp] theorem State.performStage_cls (g : Stage) (s : State) : (s.performStage g).cls = s.cls := by
  cases g with
  | write c w => exact State.rowWrite_cls c w s
  | contexts c => rfl
  | textClipped => rfl
@[simp] theorem State.performStage_seq (g : Stage) (s : State) : (s.performStage g).seq = s.seq := by
  cases g with
  | write c w => exact State.rowWrite_seq c w s
  | contexts c => rfl
  | textClipped => rfl
@[simp] theorem State.performStage_touch (g : Stage) (s : State) : (s.performStage g).touch = s.touch := by
  cases g with
  | write c w => exact State.rowWrite_touch c w s
  | contexts c => rfl
  | textClipped => rfl
@[simp] theorem State.performStage_tx (g : Stage) (s : State) : (s.performStage g).tx = s.tx := by
  cases g with
  | write c w => exact State.rowWrite_tx c w s
  | contexts c => rfl
  | textClipped => rfl
@[simp] theorem State.performStage_acc (g : Stage) (s : State) : (s.performStage g).acc = s.acc := by
  cases g with
  | write c w => exact State.rowWrite_acc c w s
  | contexts c => rfl
  | textClipped => rfl
@[simp] theorem State.performStage_lines (g : Stage) (s : State) : (s.performStage g).lines = s.lines := by
  cases g with
  | write c w => exact State.rowWrite_lines c w s
  | contexts c => rfl
  | textClipped => rfl
@[simp] theorem State.performStage_store (g : Stage) (s : State) : (s.performStage g).store = s.store := by
  cases g with
  | write c w => exact State.rowWrite_store c w s
  | contexts c => rfl
  | textClipped => rfl
@[simp] theorem State.performStage_pins (g : Stage) (s : State) : (s.performStage g).pins = s.pins := by
  cases g with
  | write c w => exact State.rowWrite_pins c w s
  | contexts c => rfl
  | textClipped => rfl
@[simp] theorem State.performStage_choices (g : Stage) (s : State) : (s.performStage g).choices = s.choices := by
  cases g with
  | write c w => exact State.rowWrite_choices c w s
  | contexts c => rfl
  | textClipped => rfl
@[simp] theorem State.performStage_pending (g : Stage) (s : State) : (s.performStage g).pending = s.pending := by
  cases g with
  | write c w => exact State.rowWrite_pending c w s
  | contexts c => rfl
  | textClipped => rfl

@[simp] theorem Render.setPlaneRow_windows (p : PlaneId) (y : RowNo) (b : RowBits) (r : Render) : (r.setPlaneRow p y b).windows = r.windows := by cases p <;> rfl
@[simp] theorem Render.setPlaneRow_slots (p : PlaneId) (y : RowNo) (b : RowBits) (r : Render) : (r.setPlaneRow p y b).slots = r.slots := by cases p <;> rfl
@[simp] theorem Render.setPlaneRow_queue (p : PlaneId) (y : RowNo) (b : RowBits) (r : Render) : (r.setPlaneRow p y b).queue = r.queue := by cases p <;> rfl
@[simp] theorem Render.setPlaneRow_echoes (p : PlaneId) (y : RowNo) (b : RowBits) (r : Render) : (r.setPlaneRow p y b).echoes = r.echoes := by cases p <;> rfl
@[simp] theorem Render.setPlaneRow_held (p : PlaneId) (y : RowNo) (b : RowBits) (r : Render) : (r.setPlaneRow p y b).held = r.held := by cases p <;> rfl
@[simp] theorem Render.setPlaneRow_ready (p : PlaneId) (y : RowNo) (b : RowBits) (r : Render) : (r.setPlaneRow p y b).ready = r.ready := by cases p <;> rfl
@[simp] theorem Render.setPlaneRow_transfer (p : PlaneId) (y : RowNo) (b : RowBits) (r : Render) : (r.setPlaneRow p y b).transfer = r.transfer := by cases p <;> rfl
@[simp] theorem Render.setPlaneRow_threshold (p : PlaneId) (y : RowNo) (b : RowBits) (r : Render) : (r.setPlaneRow p y b).threshold = r.threshold := by cases p <;> rfl
@[simp] theorem Render.setPlaneRow_weights (p : PlaneId) (y : RowNo) (b : RowBits) (r : Render) : (r.setPlaneRow p y b).weights = r.weights := by cases p <;> rfl
@[simp] theorem Render.setPlaneRow_glyphs (p : PlaneId) (y : RowNo) (b : RowBits) (r : Render) : (r.setPlaneRow p y b).glyphs = r.glyphs := by cases p <;> rfl
@[simp] theorem Render.setPlaneRow_busy (p : PlaneId) (y : RowNo) (b : RowBits) (r : Render) : (r.setPlaneRow p y b).busy = r.busy := by cases p <;> rfl
@[simp] theorem Render.setPlaneRow_stages (p : PlaneId) (y : RowNo) (b : RowBits) (r : Render) : (r.setPlaneRow p y b).stages = r.stages := by cases p <;> rfl
@[simp] theorem Render.setPlaneRow_notices (p : PlaneId) (y : RowNo) (b : RowBits) (r : Render) : (r.setPlaneRow p y b).notices = r.notices := by cases p <;> rfl

@[simp] theorem Render.setSlot_image (k : Fin 4) (c : Slot) (r : Render) : (r.setSlot k c).image = r.image := rfl
@[simp] theorem Render.setSlot_text (k : Fin 4) (c : Slot) (r : Render) : (r.setSlot k c).text = r.text := rfl
@[simp] theorem Render.setSlot_mark (k : Fin 4) (c : Slot) (r : Render) : (r.setSlot k c).mark = r.mark := rfl
@[simp] theorem Render.setSlot_windows (k : Fin 4) (c : Slot) (r : Render) : (r.setSlot k c).windows = r.windows := rfl
@[simp] theorem Render.setSlot_queue (k : Fin 4) (c : Slot) (r : Render) : (r.setSlot k c).queue = r.queue := rfl
@[simp] theorem Render.setSlot_echoes (k : Fin 4) (c : Slot) (r : Render) : (r.setSlot k c).echoes = r.echoes := rfl
@[simp] theorem Render.setSlot_held (k : Fin 4) (c : Slot) (r : Render) : (r.setSlot k c).held = r.held := rfl
@[simp] theorem Render.setSlot_ready (k : Fin 4) (c : Slot) (r : Render) : (r.setSlot k c).ready = r.ready := rfl
@[simp] theorem Render.setSlot_transfer (k : Fin 4) (c : Slot) (r : Render) : (r.setSlot k c).transfer = r.transfer := rfl
@[simp] theorem Render.setSlot_threshold (k : Fin 4) (c : Slot) (r : Render) : (r.setSlot k c).threshold = r.threshold := rfl
@[simp] theorem Render.setSlot_weights (k : Fin 4) (c : Slot) (r : Render) : (r.setSlot k c).weights = r.weights := rfl
@[simp] theorem Render.setSlot_glyphs (k : Fin 4) (c : Slot) (r : Render) : (r.setSlot k c).glyphs = r.glyphs := rfl
@[simp] theorem Render.setSlot_busy (k : Fin 4) (c : Slot) (r : Render) : (r.setSlot k c).busy = r.busy := rfl
@[simp] theorem Render.setSlot_stages (k : Fin 4) (c : Slot) (r : Render) : (r.setSlot k c).stages = r.stages := rfl
@[simp] theorem Render.setSlot_notices (k : Fin 4) (c : Slot) (r : Render) : (r.setSlot k c).notices = r.notices := rfl

@[simp] theorem Render.dropHeld_image (n : Byte) (r : Render) : (r.dropHeld n).image = r.image := rfl
@[simp] theorem Render.dropHeld_text (n : Byte) (r : Render) : (r.dropHeld n).text = r.text := rfl
@[simp] theorem Render.dropHeld_mark (n : Byte) (r : Render) : (r.dropHeld n).mark = r.mark := rfl
@[simp] theorem Render.dropHeld_windows (n : Byte) (r : Render) : (r.dropHeld n).windows = r.windows := rfl
@[simp] theorem Render.dropHeld_slots (n : Byte) (r : Render) : (r.dropHeld n).slots = r.slots := rfl
@[simp] theorem Render.dropHeld_queue (n : Byte) (r : Render) : (r.dropHeld n).queue = r.queue := rfl
@[simp] theorem Render.dropHeld_echoes (n : Byte) (r : Render) : (r.dropHeld n).echoes = r.echoes := rfl
@[simp] theorem Render.dropHeld_transfer (n : Byte) (r : Render) : (r.dropHeld n).transfer = r.transfer := rfl
@[simp] theorem Render.dropHeld_threshold (n : Byte) (r : Render) : (r.dropHeld n).threshold = r.threshold := rfl
@[simp] theorem Render.dropHeld_weights (n : Byte) (r : Render) : (r.dropHeld n).weights = r.weights := rfl
@[simp] theorem Render.dropHeld_glyphs (n : Byte) (r : Render) : (r.dropHeld n).glyphs = r.glyphs := rfl
@[simp] theorem Render.dropHeld_busy (n : Byte) (r : Render) : (r.dropHeld n).busy = r.busy := rfl
@[simp] theorem Render.dropHeld_stages (n : Byte) (r : Render) : (r.dropHeld n).stages = r.stages := rfl
@[simp] theorem Render.dropHeld_notices (n : Byte) (r : Render) : (r.dropHeld n).notices = r.notices := rfl

@[simp] theorem Render.freeSlot_image (k : Fin 4) (r : Render) : (r.freeSlot k).image = r.image := rfl
@[simp] theorem Render.freeSlot_text (k : Fin 4) (r : Render) : (r.freeSlot k).text = r.text := rfl
@[simp] theorem Render.freeSlot_mark (k : Fin 4) (r : Render) : (r.freeSlot k).mark = r.mark := rfl
@[simp] theorem Render.freeSlot_windows (k : Fin 4) (r : Render) : (r.freeSlot k).windows = r.windows := rfl
@[simp] theorem Render.freeSlot_queue (k : Fin 4) (r : Render) : (r.freeSlot k).queue = r.queue := rfl
@[simp] theorem Render.freeSlot_echoes (k : Fin 4) (r : Render) : (r.freeSlot k).echoes = r.echoes := rfl
@[simp] theorem Render.freeSlot_transfer (k : Fin 4) (r : Render) : (r.freeSlot k).transfer = r.transfer := rfl
@[simp] theorem Render.freeSlot_threshold (k : Fin 4) (r : Render) : (r.freeSlot k).threshold = r.threshold := rfl
@[simp] theorem Render.freeSlot_weights (k : Fin 4) (r : Render) : (r.freeSlot k).weights = r.weights := rfl
@[simp] theorem Render.freeSlot_glyphs (k : Fin 4) (r : Render) : (r.freeSlot k).glyphs = r.glyphs := rfl
@[simp] theorem Render.freeSlot_busy (k : Fin 4) (r : Render) : (r.freeSlot k).busy = r.busy := rfl
@[simp] theorem Render.freeSlot_stages (k : Fin 4) (r : Render) : (r.freeSlot k).stages = r.stages := rfl
@[simp] theorem Render.freeSlot_notices (k : Fin 4) (r : Render) : (r.freeSlot k).notices = r.notices := rfl

@[simp] theorem State.stage_ren_image (more : List Stage) (s : State) :
    (s.stage more).ren.image = s.ren.image := rfl
@[simp] theorem State.stage_ren_text (more : List Stage) (s : State) :
    (s.stage more).ren.text = s.ren.text := rfl
@[simp] theorem State.stage_ren_mark (more : List Stage) (s : State) :
    (s.stage more).ren.mark = s.ren.mark := rfl
@[simp] theorem State.stage_ren_windows (more : List Stage) (s : State) :
    (s.stage more).ren.windows = s.ren.windows := rfl
@[simp] theorem State.stage_ren_queue (more : List Stage) (s : State) :
    (s.stage more).ren.queue = s.ren.queue := rfl
@[simp] theorem State.stage_ren_echoes (more : List Stage) (s : State) :
    (s.stage more).ren.echoes = s.ren.echoes := rfl
@[simp] theorem State.stage_ren_transfer (more : List Stage) (s : State) :
    (s.stage more).ren.transfer = s.ren.transfer := rfl
@[simp] theorem State.stage_ren_threshold (more : List Stage) (s : State) :
    (s.stage more).ren.threshold = s.ren.threshold := rfl
@[simp] theorem State.stage_ren_weights (more : List Stage) (s : State) :
    (s.stage more).ren.weights = s.ren.weights := rfl
@[simp] theorem State.stage_ren_glyphs (more : List Stage) (s : State) :
    (s.stage more).ren.glyphs = s.ren.glyphs := rfl
@[simp] theorem State.stage_ren_busy (more : List Stage) (s : State) :
    (s.stage more).ren.busy = s.ren.busy := rfl
@[simp] theorem State.stage_ren_notices (more : List Stage) (s : State) :
    (s.stage more).ren.notices = s.ren.notices := rfl

@[simp] theorem State.stage_ren_slots (more : List Stage) (s : State) :
    (s.stage more).ren.slots = s.ren.slots := rfl
@[simp] theorem Render.contexts_slots (r : Render) : r.contexts.slots = r.slots := rfl
@[simp] theorem Render.withContexts_slots (c : Contexts) (r : Render) : (r.withContexts c).slots = c.slots := rfl
@[simp] theorem State.stage_ren_held (more : List Stage) (s : State) :
    (s.stage more).ren.held = s.ren.held := rfl
@[simp] theorem Render.contexts_held (r : Render) : r.contexts.held = r.held := rfl
@[simp] theorem Render.withContexts_held (c : Contexts) (r : Render) : (r.withContexts c).held = c.held := rfl
@[simp] theorem State.stage_ren_ready (more : List Stage) (s : State) :
    (s.stage more).ren.ready = s.ren.ready := rfl
@[simp] theorem Render.contexts_ready (r : Render) : r.contexts.ready = r.ready := rfl
@[simp] theorem Render.withContexts_ready (c : Contexts) (r : Render) : (r.withContexts c).ready = c.ready := rfl

@[simp] theorem Render.withContexts_image (c : Contexts) (r : Render) : (r.withContexts c).image = r.image := rfl
@[simp] theorem Render.withContexts_text (c : Contexts) (r : Render) : (r.withContexts c).text = r.text := rfl
@[simp] theorem Render.withContexts_mark (c : Contexts) (r : Render) : (r.withContexts c).mark = r.mark := rfl
@[simp] theorem Render.withContexts_windows (c : Contexts) (r : Render) : (r.withContexts c).windows = r.windows := rfl
@[simp] theorem Render.withContexts_queue (c : Contexts) (r : Render) : (r.withContexts c).queue = r.queue := rfl
@[simp] theorem Render.withContexts_echoes (c : Contexts) (r : Render) : (r.withContexts c).echoes = r.echoes := rfl
@[simp] theorem Render.withContexts_transfer (c : Contexts) (r : Render) : (r.withContexts c).transfer = r.transfer := rfl
@[simp] theorem Render.withContexts_threshold (c : Contexts) (r : Render) : (r.withContexts c).threshold = r.threshold := rfl
@[simp] theorem Render.withContexts_weights (c : Contexts) (r : Render) : (r.withContexts c).weights = r.weights := rfl
@[simp] theorem Render.withContexts_glyphs (c : Contexts) (r : Render) : (r.withContexts c).glyphs = r.glyphs := rfl
@[simp] theorem Render.withContexts_busy (c : Contexts) (r : Render) : (r.withContexts c).busy = r.busy := rfl
@[simp] theorem Render.withContexts_stages (c : Contexts) (r : Render) : (r.withContexts c).stages = r.stages := rfl
@[simp] theorem Render.withContexts_notices (c : Contexts) (r : Render) : (r.withContexts c).notices = r.notices := rfl

end Sys2Proof.Machine
end

