-- ==== Sys2Proof/Laws/Ops.lean ====
section
/-! SUPPORT. One lemma or two for each shared operation that say once everything it can do: marks, reports, loads, hand-off
copies, the render engine's queue, contexts, bit masks. Proofs cite these and do not unfold the operations. -/

namespace Sys2Proof.Machine

/-! ### Dirty marks (R72) -/

/-- A marked row waits, and no row stops waiting. -/
theorem RowEngine.mem_mark {c : MarkClass} {y z : RowNo} {r : RowEngine} :
    (z ∈ (r.mark c y).urgent ∨ z ∈ (r.mark c y).bulk) ↔ z = y ∨ z ∈ r.urgent ∨ z ∈ r.bulk := by
  cases c with
  | urgent =>
    by_cases h : y ∈ r.urgent
    · simp only [RowEngine.mark, h, if_true]
      constructor
      · exact Or.inr
      · rintro (rfl | hz)
        · exact Or.inl h
        · exact hz
    · simp only [RowEngine.mark, h, if_false, List.mem_append, List.mem_singleton]
      constructor
      · rintro ((hz | rfl) | hz)
        · exact Or.inr (Or.inl hz)
        · exact Or.inl rfl
        · exact Or.inr (Or.inr (List.mem_of_mem_erase hz))
      · rintro (rfl | hz | hz)
        · exact Or.inl (Or.inr rfl)
        · exact Or.inl (Or.inl hz)
        · by_cases hzy : z = y
          · exact Or.inl (Or.inr hzy)
          · exact Or.inr ((List.mem_erase_of_ne hzy).mpr hz)
  | bulk =>
    by_cases h : y ∈ r.urgent ∨ y ∈ r.bulk
    · simp only [RowEngine.mark, h, if_true]
      constructor
      · exact Or.inr
      · rintro (rfl | hz)
        · exact h
        · exact hz
    · simp only [RowEngine.mark, h, if_false, List.mem_append, List.mem_singleton]
      constructor
      · rintro (hz | hz | rfl)
        · exact Or.inr (Or.inl hz)
        · exact Or.inr (Or.inr hz)
        · exact Or.inl rfl
      · rintro (rfl | hz | hz)
        · exact Or.inr (Or.inr rfl)
        · exact Or.inl hz
        · exact Or.inr (Or.inl hz)

/-- A mark keeps every row at most once across the two lists (R71). -/
theorem RowEngine.mark_nodup {c : MarkClass} {y : RowNo} {r : RowEngine} (h : (r.urgent ++ r.bulk).Nodup) :
    ((r.mark c y).urgent ++ (r.mark c y).bulk).Nodup := by
  rw [List.nodup_append] at h
  obtain ⟨hu, hb, hd⟩ := h
  cases c with
  | urgent =>
    by_cases hy : y ∈ r.urgent
    · simp only [RowEngine.mark, hy, if_true]
      exact List.nodup_append.mpr ⟨hu, hb, hd⟩
    · simp only [RowEngine.mark, hy, if_false]
      refine List.nodup_append.mpr ⟨?_, hb.erase _, ?_⟩
      · refine List.nodup_append.mpr ⟨hu, List.nodup_singleton _, ?_⟩
        intro a ha b hb' hab
        rw [List.mem_singleton] at hb'
        exact hy (hb' ▸ hab ▸ ha)
      · intro a ha b hb' hab
        subst hab
        rcases List.mem_append.mp ha with ha | ha
        · exact hd a ha a (List.mem_of_mem_erase hb') rfl
        · rw [List.mem_singleton] at ha
          subst ha
          exact (List.Nodup.not_mem_erase hb) hb'
  | bulk =>
    by_cases hy : y ∈ r.urgent ∨ y ∈ r.bulk
    · simp only [RowEngine.mark, hy, if_true]
      exact List.nodup_append.mpr ⟨hu, hb, hd⟩
    · simp only [RowEngine.mark, hy, if_false]
      refine List.nodup_append.mpr ⟨hu, ?_, ?_⟩
      · refine List.nodup_append.mpr ⟨hb, List.nodup_singleton _, ?_⟩
        intro a ha b hb' hab
        rw [List.mem_singleton] at hb'
        exact hy (Or.inr (hb' ▸ hab ▸ ha))
      · intro a ha b hb' hab
        subst hab
        rcases List.mem_append.mp hb' with hb' | hb'
        · exact hd a ha a hb' rfl
        · rw [List.mem_singleton] at hb'
          exact hy (Or.inl (hb' ▸ ha))

theorem RowEngine.markAll_nodup {c : MarkClass} {ys : List RowNo} {r : RowEngine} (h : (r.urgent ++ r.bulk).Nodup) :
    ((r.markAll c ys).urgent ++ (r.markAll c ys).bulk).Nodup := by
  induction ys generalizing r with
  | nil => exact h
  | cons y ys ih => exact ih (RowEngine.mark_nodup h)

/-- Marks of several rows: those rows wait, and no row stops waiting. -/
theorem RowEngine.mem_markAll {c : MarkClass} {ys : List RowNo} {z : RowNo} {r : RowEngine} :
    (z ∈ (r.markAll c ys).urgent ∨ z ∈ (r.markAll c ys).bulk) ↔ z ∈ ys ∨ z ∈ r.urgent ∨ z ∈ r.bulk := by
  induction ys generalizing r with
  | nil => simp [RowEngine.markAll]
  | cons y ys ih =>
    have := ih (r := r.mark c y)
    simp only [RowEngine.markAll, List.foldl_cons] at this ⊢
    rw [this, RowEngine.mem_mark, List.mem_cons]
    constructor
    · rintro (h | h | h | h)
      · exact .inl (.inr h)
      · exact .inl (.inl h)
      · exact .inr (.inl h)
      · exact .inr (.inr h)
    · rintro ((h | h) | h | h)
      · exact .inr (.inl h)
      · exact .inl h
      · exact .inr (.inr (.inl h))
      · exact .inr (.inr (.inr h))

/-- What marks leave as it was. -/
theorem RowEngine.markAll_frame (c : MarkClass) (ys : List RowNo) (r : RowEngine) :
    (r.markAll c ys).run = r.run ∧ (r.markAll c ys).sense = r.sense ∧ (r.markAll c ys).retry = r.retry ∧
      (r.markAll c ys).mirror = r.mirror ∧ (r.markAll c ys).faults = r.faults ∧ (r.markAll c ys).slotOp = r.slotOp ∧ (r.markAll c ys).prevOp = r.prevOp ∧
      (r.markAll c ys).sensed = r.sensed ∧ (r.markAll c ys).attempting = r.attempting := by
  induction ys generalizing r with
  | nil => exact ⟨rfl, rfl, rfl, rfl, rfl, rfl, rfl, rfl, rfl⟩
  | cons y ys ih => simpa [RowEngine.markAll] using ih (r.mark c y)

/-! ### Start attempts (R77) -/

/-- Where no attempt may be made, none follows and nothing else changes. -/
theorem RowEngine.attempt_of_not {limit : Nat} {composite : RowNo → RowBits} {r : RowEngine} (h : r.mayStart = false) :
    r.attempt limit composite = { r with attempting := false } := by
  simp only [RowEngine.attempt, h, Bool.false_eq_true, if_false]

/-- The three outcomes of an attempt that may be made: no row, a row with nothing to do, a row whose service starts. -/
theorem RowEngine.attempt_cases {limit : Nat} {composite : RowNo → RowBits} {r : RowEngine} (h : r.mayStart = true) :
    ((r.arbitrate limit).2 = none ∧
        r.attempt limit composite = { (r.arbitrate limit).1 with attempting := false }) ∨
      ∃ y, (r.arbitrate limit).2 = some y ∧
        let r' := (r.arbitrate limit).1
        let lit := onSet (composite y) (r'.mirrorRow y)
        let dark := offSet (composite y) (r'.mirrorRow y)
        (lit = 0 ∧ dark = 0 ∧ r.attempt limit composite = { r' with attempting := true }) ∨
          (¬ (lit = 0 ∧ dark = 0) ∧
            r.attempt limit composite = { r'.startService y (composite y) lit dark with attempting := false }) := by
  simp only [RowEngine.attempt, h, if_true]
  obtain ⟨r', o⟩ := r.arbitrate limit
  cases o with
  | none => exact .inl ⟨rfl, rfl⟩
  | some y =>
    refine .inr ⟨y, rfl, ?_⟩
    by_cases hy : onSet (composite y) (r'.mirrorRow y) = 0 ∧ offSet (composite y) (r'.mirrorRow y) = 0
    · exact .inl ⟨hy.1, hy.2, if_pos hy⟩
    · exact .inr ⟨hy, if_neg hy⟩

/-! ### Reports (R153) -/

theorem State.offer_room {r : Report} {s : State} (h : s.tx.queue.length < 16) :
    s.offer r = { s with tx := { s.tx with queue := s.tx.queue ++ [r] } } := if_pos h

theorem State.offer_full {r : Report} {s : State} (h : ¬ s.tx.queue.length < 16) :
    s.offer r = s.latch .reportOverflow := if_neg h

/-! ### Render work items (R19, R20) -/

theorem State.queueItem_room {k : WorkKind} {b : Block} {s : State} (h : s.ren.queue.length < 8) :
    s.queueItem k b =
      { s with ren := { s.ren with
          queue := s.ren.queue ++ [⟨k, b.channel, s.cls.channels[b.channel].cls, b.body⟩] } } := if_pos h

theorem State.queueItem_full {k : WorkKind} {b : Block} {s : State} (h : ¬ s.ren.queue.length < 8) :
    s.queueItem k b = s.latch .renderOverrun := if_neg h

/-! ### Hand-off copies (R158) -/

theorem State.handOff_unfitted {body : List Byte} {s : State} (h : s.acc.fitted = false) : s.handOff body = s := by
  simp only [State.handOff, h, Bool.not_false, Bool.true_or, if_true]

theorem State.handOff_empty {s : State} : s.handOff [] = s := by
  simp only [State.handOff, List.isEmpty_nil, Bool.or_true, if_true]

theorem State.handOff_fits {body : List Byte} {s : State} (hf : s.acc.fitted = true) (hb : body ≠ [])
    (h : body.length ≤ 256 - s.acc.buffer.length) : s.handOff body = { s with acc := s.acc.join body } := by
  have : body.isEmpty = false := by cases body <;> simp_all
  simp only [State.handOff, hf, this, Config.accessoryCap, h, Bool.not_true, Bool.or_self, Bool.false_eq_true,
    if_false, if_true]

theorem State.handOff_overflow {body : List Byte} {s : State} (hf : s.acc.fitted = true) (hb : body ≠ [])
    (h : ¬ body.length ≤ 256 - s.acc.buffer.length) : s.handOff body = s.latch .accessoryOverflow := by
  have : body.isEmpty = false := by cases body <;> simp_all
  simp only [State.handOff, hf, this, Config.accessoryCap, h, Bool.not_true, Bool.or_self, Bool.false_eq_true, if_false]

/-! ### The render engine between pieces of work (R23, R24) -/

/-- With nothing left to do, nothing is done. -/
theorem State.perform_nil {s : State} (h : s.ren.stages = []) : s.perform = s := by
  simp only [State.perform, h, List.foldl_nil]
  rw [← h]

/-- What is left to do is done stage by stage. -/
theorem State.perform_cons {s : State} {g : Stage} {rest : List Stage} (h : s.ren.stages = g :: rest) :
    s.perform = rest.foldl State.performStage (State.performStage { s with ren := { s.ren with stages := [] } } g) := by
  simp only [State.perform, h, List.foldl_cons]

/-- Row writes left to do, with nothing before them, are done one after another in their order. -/
theorem State.perform_rowWrites {s : State} (h : s.ren.stages = []) (c : MarkClass) (ws : List RowWrite) :
    (s.rowWrites c ws).perform = ws.foldl (fun t w => t.rowWrite c w) s := by
  have hs : { s with ren := { s.ren with stages := [] } } = s := by rw [← h]
  simp only [State.rowWrites, State.stage, State.perform, h, List.nil_append, List.foldl_map, hs]
  rfl

/-- A piece of work that goes on does its next stage. -/
theorem State.continuePiece_cons {s : State} {g : Stage} {rest : List Stage} (h : s.ren.stages = g :: rest) :
    s.continuePiece = State.performStage { s with ren := { s.ren with stages := rest } } g := by
  simp only [State.continuePiece, h]

/-- With no command waiting and no start attempt to make, the piece of work goes on. -/
theorem State.idle_closed {s : State} (h : s.row.attempting = false) : s.idle = s.continuePiece := by
  simp only [State.idle, h, Bool.false_eq_true, if_false]

/-- With no command waiting and no piece of work in progress, the address slot has its next start attempt. -/
theorem State.idle_free {s : State} (h : s.row.attempting = true) (hb : s.ren.busy = false) : s.idle = s.nextAttempt := by
  simp only [State.idle, h, hb, if_true, Bool.false_eq_true, if_false]

/-- With both to do, one of the two is done, and the choice is counted. -/
theorem State.idle_both {s : State} (h : s.row.attempting = true) (hb : s.ren.busy = true) :
    s.idle = ({ s with choices := s.choices + 1 } : State).nextAttempt ∨
      s.idle = ({ s with choices := s.choices + 1 } : State).continuePiece := by
  simp only [State.idle, h, hb, if_true]
  split
  · exact .inl rfl
  · exact .inr rfl

/-- An engine at rest has no piece of work to end. -/
theorem State.endPiece_atRest {s : State} (h : s.ren.AtRest) : s.endPiece = s := by
  obtain ⟨hb, hg, hn⟩ := h
  simp only [State.endPiece, State.perform_nil hg, hn, List.foldl_nil]
  rw [← hb, ← hn]

/-- The engine takes its next item and executes it. -/
theorem State.runItem_offers {k : WorkKind} {work : WorkItem → State → State} {s : State} {item : WorkItem}
    {rest : List WorkItem} (h : s.ren.Offers item rest) (hk : item.kind = k) :
    s.runItem k work = work item (s.took rest) := by
  obtain ⟨hr, he, hy, hq⟩ := h
  simp only [State.runItem, State.takeItem, State.endPiece_atRest hr, he, hy, hq, hk, if_true, State.took]

/-- A notice to an engine that executes a piece of work is held. -/
theorem State.notice_busy {n : Notice} {s : State} (h : s.ren.busy = true) :
    s.notice n = { s with ren := { s.ren with notices := s.ren.notices ++ [n] } } := by
  simp only [State.notice, h, if_true]

/-- A notice to an engine at rest is applied at once. -/
theorem State.notice_idle {n : Notice} {s : State} (h : s.ren.busy = false) : s.notice n = s.applyNotice n := by
  simp only [State.notice, h, Bool.false_eq_true, if_false]

/-! ### Contexts -/

/-- The slot found holds the image and is not FREE. -/
theorem Render.findImage_some {n : Byte} {r : Render} {k : Fin 4} (h : r.findImage n = some k) :
    r.slots[k].state ≠ .free ∧ r.slots[k].image = n := by
  have := List.find?_some h
  simpa [Bool.and_eq_true, bne_iff_ne, beq_iff_eq] using this

/-- No slot found: every slot that holds the image is FREE. -/
theorem Render.findImage_none {n : Byte} {r : Render} (h : r.findImage n = none) (k : Fin 4) :
    r.slots[k].state = .free ∨ r.slots[k].image ≠ n := by
  have := List.find?_eq_none.mp h k (List.mem_finRange k)
  by_cases hs : r.slots[k].state = .free
  · exact .inl hs
  · refine .inr fun hi => this ?_
    rw [Bool.and_eq_true, bne_iff_ne, beq_iff_eq]
    exact ⟨hs, hi⟩

/-! ### Row masks -/

/-- The columns x0..x1 (for x1 on the panel) are just those. -/
theorem getLsbD_columns {x0 x1 x : Nat} (h1 : x1 < 512) (hx : x < 512) :
    (columns x0 x1).getLsbD x = decide (x0 ≤ x ∧ x ≤ x1) := by
  simp only [columns, BitVec.getLsbD_and, BitVec.getLsbD_shiftLeft, BitVec.getLsbD_ushiftRight, BitVec.getLsbD_allOnes]
  rw [Bool.eq_iff_iff]
  simp only [Bool.and_eq_true, decide_eq_true_eq, Bool.not_eq_true', decide_eq_false_iff_not]
  omega

/-- The cell of a list that bit x of its number is. -/
theorem testBit_cellsToNat (cells : List Bool) (i : Nat) : (cellsToNat cells).testBit i = cells.getD i false := by
  induction cells generalizing i with
  | nil => simp [cellsToNat]
  | cons b bs ih =>
    cases i with
    | zero => cases b <;> simp [cellsToNat, Nat.testBit_zero, Nat.add_mod]
    | succ i =>
      have : (b.toNat + 2 * cellsToNat bs) / 2 = cellsToNat bs := by
        cases b with
        | false => simp
        | true => simp only [Bool.toNat_true]; omega
      simp only [cellsToNat, Nat.testBit_add_one, this, ih, List.getD_cons_succ]

/-- A list of cells laid into a row from column x0. -/
theorem getLsbD_cellsFrom (x0 : Nat) (cells : List Bool) {x : Nat} (hx : x < 512) :
    (cellsFrom x0 cells).getLsbD x = (decide (x0 ≤ x) && cells.getD (x - x0) false) := by
  simp only [cellsFrom, BitVec.getLsbD_shiftLeft, BitVec.getLsbD_ofNat, testBit_cellsToNat]
  by_cases h : x0 ≤ x
  · simp [h, hx, show ¬ x < x0 by omega, show x - x0 < 512 by omega]
  · simp [h, show x < x0 by omega]

/-- A row write's new bits, cell by cell (R3, R63, R66, R67). -/
theorem CellOp.getLsbD_apply (op : CellOp) (old : RowBits) {x : Nat} (hx : x < 512) :
    (op.apply old).getLsbD x =
      match op with
      | .put cells bits => if cells.getLsbD x then bits.getLsbD x else old.getLsbD x
      | .set cells => cells.getLsbD x || old.getLsbD x
      | .clear cells => !cells.getLsbD x && old.getLsbD x
      | .invert cells => cells.getLsbD x != old.getLsbD x := by
  cases op with
  | put cells bits =>
    simp only [CellOp.apply, BitVec.getLsbD_or, BitVec.getLsbD_and, BitVec.getLsbD_not, hx, decide_true, Bool.true_and]
    cases cells.getLsbD x <;> simp
  | set cells => simp [CellOp.apply, Bool.or_comm]
  | clear cells => simp [CellOp.apply, hx, Bool.and_comm]
  | invert cells =>
    simp only [CellOp.apply, BitVec.getLsbD_xor]
    cases cells.getLsbD x <;> cases old.getLsbD x <;> rfl

end Sys2Proof.Machine
end

