-- ==== Sys2Proof/Laws/Receive.lean ====
section
/-! SUPPORT. The line receiver over a whole block: what the bytes of a block, delivered one after another to a receiver
that hunts, come to. A proof about a command that sends a block starts from these and never takes bytes apart. -/

namespace Sys2Proof.Machine

/-- A byte that finishes no block changes the receiver alone. -/
theorem State.takeByte_none {s : State} {b : Byte} {r : LineReceiver} (h : s.rx.takeByte b = (r, .none)) :
    s.takeByte b = { s with rx := r } := by
  simp only [State.takeByte, h, State.rxResult]

/-- A byte with a finding. -/
theorem State.takeByte_result {s : State} {b : Byte} {r : LineReceiver} {x : RxResult} (h : s.rx.takeByte b = (r, x)) :
    s.takeByte b = ({ s with rx := r } : State).rxResult x := by
  simp only [State.takeByte, h]

theorem State.deliver_cons (b : Byte) (bs : List Byte) (s : State) : s.deliver (b :: bs) = (s.takeByte b).deliver bs :=
  rfl

theorem State.deliver_append (as bs : List Byte) (s : State) : s.deliver (as ++ bs) = (s.deliver as).deliver bs :=
  List.foldl_append

/-- A body length that a block can carry survives its length byte. -/
theorem byteOf_toNat {n : Nat} (h : n ≤ 240) : (byteOf n).toNat = n := by
  simp only [byteOf, BitVec.toNat_ofNat]; omega

/-- The two bytes of a 16-bit field, put together again. -/
theorem wordBytes_append (w : BitVec 16) : w.extractLsb' 8 8 ++ w.extractLsb' 0 8 = w := by
  ext i hi
  simp only [BitVec.getElem_append, BitVec.getElem_extractLsb']
  split
  · simp only [Nat.zero_add]; exact BitVec.getLsbD_eq_getElem hi
  · rw [show 8 + (i - 8) = i by omega]; exact BitVec.getLsbD_eq_getElem hi

/-- The lead taken in HUNTING (R137). -/
theorem LineReceiver.takeByte_lead {r : LineReceiver} (h : r.state = .hunting) :
    r.takeByte leadByte = ({ r with state := .header, held := [] }, .none) := by
  simp only [LineReceiver.takeByte, h, if_true]

/-- A header byte before the fifth (R137). -/
theorem LineReceiver.takeByte_header {r : LineReceiver} (h : r.state = .header) (b : Byte)
    (hl : (r.held ++ [b]).length < 5) : r.takeByte b = ({ r with held := r.held ++ [b] }, .none) := by
  simp only [LineReceiver.takeByte, h, hl, if_true]

/-- The length byte, holding at most 240 (R137, R138). -/
theorem LineReceiver.takeByte_length {r : LineReceiver} (h : r.state = .header) (b : Byte)
    (hl : ¬ (r.held ++ [b]).length < 5) (hn : LineReceiver.length (r.held ++ [b]) ≤ 240) :
    r.takeByte b =
      ({ r with
          state := if LineReceiver.length (r.held ++ [b]) = 0 then .check else .body
          held := r.held ++ [b] }, .none) := by
  simp only [LineReceiver.takeByte, h, hl, if_false, Config.maxBody, show ¬ 240 < LineReceiver.length (r.held ++ [b]) by omega]
  split <;> rfl

/-- The length byte, holding more than 240 (R138). -/
theorem LineReceiver.takeByte_long {r : LineReceiver} (h : r.state = .header) (b : Byte)
    (hl : ¬ (r.held ++ [b]).length < 5) (hn : 240 < LineReceiver.length (r.held ++ [b])) :
    r.takeByte b = ({ r with state := .hunting, held := [] }, .lengthError) := by
  simp only [LineReceiver.takeByte, h, hl, if_false, Config.maxBody, hn, if_true]

/-- The lead and the first four header bytes, delivered to a receiver that hunts. -/
theorem deliver_lead {s : State} (hs : s.rx.state = .hunting) (a c k q : Byte) (rest : List Byte) :
    s.deliver (leadByte :: a :: c :: k :: q :: rest) =
      ({ s with rx := { s.rx with state := .header, held := [a, c, k, q] } } : State).deliver rest := by
  rw [State.deliver_cons, State.takeByte_none (LineReceiver.takeByte_lead hs)]
  rw [State.deliver_cons, State.takeByte_none (LineReceiver.takeByte_header (by simp only) a (by simp))]
  rw [State.deliver_cons, State.takeByte_none (LineReceiver.takeByte_header (by simp only) c (by simp))]
  rw [State.deliver_cons, State.takeByte_none (LineReceiver.takeByte_header (by simp only) k (by simp))]
  rw [State.deliver_cons, State.takeByte_none (LineReceiver.takeByte_header (by simp only) q (by simp))]
  simp only [List.nil_append, List.cons_append]

/-- The lead and the header's five bytes, delivered to a receiver that hunts, with a length byte of at most 240. -/
theorem deliver_header {s : State} (hs : s.rx.state = .hunting) (a c k q n : Byte) (hn : n.toNat ≤ 240) :
    s.deliver [leadByte, a, c, k, q, n] =
      { s with rx := { s.rx with
          state := if n.toNat = 0 then .check else .body
          held := [a, c, k, q, n] } } := by
  rw [deliver_lead hs, State.deliver_cons,
    State.takeByte_none (LineReceiver.takeByte_length (by simp only) n (by simp) (by exact hn))]
  simp only [State.deliver, List.foldl_nil, List.cons_append, List.nil_append]
  rfl

/-- The lead and a header whose length byte is above 240, delivered to a receiver that hunts (R138). -/
theorem deliver_long {s : State} (hs : s.rx.state = .hunting) (a c k q n : Byte) (hn : 240 < n.toNat) :
    s.deliver [leadByte, a, c, k, q, n] =
      ({ s with rx := { s.rx with state := .hunting, held := [] } } : State).latch .formatError := by
  rw [deliver_lead hs, State.deliver_cons,
    State.takeByte_result (LineReceiver.takeByte_long (by simp only) n (by simp) (by exact hn))]
  simp only [State.deliver, List.foldl_nil, State.rxResult]

/-- The body's bytes, delivered to a receiver in BODY that holds the header and the bytes before them. -/
theorem deliver_body {bs : List Byte} : ∀ {s : State}, s.rx.state = .body → bs ≠ [] →
    s.rx.held.length + bs.length = 5 + LineReceiver.length s.rx.held → 5 ≤ s.rx.held.length →
    s.deliver bs = { s with rx := { s.rx with state := .check, held := s.rx.held ++ bs } } := by
  induction bs with
  | nil => intro s _ h; exact absurd rfl h
  | cons b bs ih =>
    intro s hs _ hlen h5
    have hl : LineReceiver.length (s.rx.held ++ [b]) = LineReceiver.length s.rx.held := by
      simp only [LineReceiver.length, byteAt, List.getD_eq_getElem?_getD]
      rw [List.getElem?_append_left (by omega)]
    rw [State.deliver_cons]
    rcases bs with _ | ⟨b', bs'⟩
    · have hx : s.rx.takeByte b = ({ s.rx with state := .check, held := s.rx.held ++ [b] }, .none) := by
        simp only [LineReceiver.takeByte, hs, hl]
        rw [if_neg (by simp only [List.length_append, List.length_cons, List.length_nil] at hlen ⊢; omega)]
      rw [State.takeByte_none hx]
      simp only [State.deliver, List.foldl_nil]
    · have hx : s.rx.takeByte b = ({ s.rx with held := s.rx.held ++ [b] }, .none) := by
        simp only [LineReceiver.takeByte, hs, hl]
        rw [if_pos (by simp only [List.length_append, List.length_cons, List.length_nil] at hlen ⊢; omega)]
      rw [State.takeByte_none hx, ih (by simpa only using hs) (List.cons_ne_nil _ _)
        (by simp only [List.length_append, List.length_cons, List.length_nil, hl] at hlen ⊢; omega)
        (by simp only [List.length_append, List.length_cons, List.length_nil]; omega)]
      simp only [List.append_assoc, List.singleton_append]

/-- The two CRC bytes, delivered to a receiver in CHECK that holds the header and the body: the block is judged and the
receiver hunts (R140). -/
theorem deliver_check {s : State} (hs : s.rx.state = .check) (x y : Byte)
    (hlen : s.rx.held.length = 5 + LineReceiver.length s.rx.held) :
    s.deliver [x, y] =
      ({ s with rx := { s.rx with state := .hunting, held := [] } } : State).rxResult (judgeBlock (s.rx.held ++ [x, y])) := by
  have hl : ∀ zs, LineReceiver.length (s.rx.held ++ zs) = LineReceiver.length s.rx.held := by
    intro zs
    simp only [LineReceiver.length, byteAt, List.getD_eq_getElem?_getD]
    rw [List.getElem?_append_left (by omega)]
  have hx : s.rx.takeByte x = ({ s.rx with held := s.rx.held ++ [x] }, .none) := by
    simp only [LineReceiver.takeByte, hs, hl]
    rw [if_pos (by simp only [List.length_append, List.length_cons, List.length_nil] at hlen ⊢; omega)]
  rw [State.deliver_cons, State.takeByte_none hx, State.deliver_cons]
  have hy : LineReceiver.takeByte y { s.rx with held := s.rx.held ++ [x] } =
      ({ s.rx with state := .hunting, held := [] }, judgeBlock (s.rx.held ++ [x, y])) := by
    simp only [LineReceiver.takeByte, hs, List.append_assoc, List.singleton_append, hl]
    rw [if_neg (by simp only [List.length_append, List.length_cons, List.length_nil] at hlen ⊢; omega)]
  rw [State.takeByte_result hy]; rfl

/-- A whole block's bytes, delivered to a receiver that hunts, are judged by its CRC. -/
theorem deliver_block {s : State} (hs : s.rx.state = .hunting) (h : Header) (kind : Byte) {body : List Byte}
    (hb : body.length ≤ 240) (crc : BitVec 16) :
    s.deliver (blockBytes h kind body crc) =
      ({ s with rx := { s.rx with state := .hunting, held := [] } } : State).rxResult
        (judgeBlock (blockData h kind body ++ wordBytes crc)) := by
  have hn : (byteOf body.length).toNat = body.length := byteOf_toNat hb
  have hsplit : blockBytes h kind body crc =
      [leadByte, h.addr, h.chan, kind, h.seq, byteOf body.length] ++ (body ++ wordBytes crc) := by
    simp only [blockBytes, blockData, List.cons_append, List.nil_append]
  rw [hsplit, State.deliver_append, deliver_header hs _ _ _ _ _ (by omega), State.deliver_append]
  have hl : LineReceiver.length [h.addr, h.chan, kind, h.seq, byteOf body.length] = body.length := hn
  by_cases h0 : body = []
  · subst h0
    simp only [State.deliver, List.foldl_nil]
    exact deliver_check (by simp only [hn]; rfl) _ _ (by simp only [hl]; rfl)
  · have hne : body.length ≠ 0 := by simpa using h0
    rw [deliver_body (by simp only [hn, hne, if_false]) h0 (by simp only [hl]; rfl) (by simp)]
    have hl2 : LineReceiver.length ([h.addr, h.chan, kind, h.seq, byteOf body.length] ++ body) = body.length := hn
    exact deliver_check rfl _ _ (by simp only [hl2, List.length_append, List.length_cons, List.length_nil])

/-- The CRC bytes of a block as the receiver reads them back. -/
theorem wordAt_blockData (h : Header) (kind : Byte) (body : List Byte) (crc : BitVec 16) :
    wordAt (blockData h kind body ++ wordBytes crc) (5 + body.length) = crc := by
  have hd : (blockData h kind body).length = 5 + body.length := by
    simp only [blockData, List.length_append, List.length_cons, List.length_nil]
  simp only [wordAt, byteAt, List.getD_eq_getElem?_getD]
  rw [List.getElem?_append_right (by omega), List.getElem?_append_right (by omega), hd]
  simp only [Nat.sub_self, show 5 + body.length + 1 - (5 + body.length) = 1 by omega, wordBytes]
  exact wordBytes_append crc

/-- A block judged: good where the CRC bytes are its CRC, discarded otherwise (R140). -/
theorem judgeBlock_block (h : Header) (kind : Byte) {body : List Byte} (hb : body.length ≤ 240) (crc : BitVec 16) :
    judgeBlock (blockData h kind body ++ wordBytes crc) =
      if crc16 (blockData h kind body) = crc then .good (blockOf h kind body) else .checkError := by
  have hd : (blockData h kind body).length = 5 + body.length := by
    simp only [blockData, List.length_append, List.length_cons, List.length_nil]
  have hl : LineReceiver.length (blockData h kind body ++ wordBytes crc) = body.length := byteOf_toNat hb
  have ht : (blockData h kind body ++ wordBytes crc).take (5 + body.length) = blockData h kind body := by
    rw [← hd, List.take_left']; rfl
  simp only [judgeBlock, hl, ht, wordAt_blockData]
  rfl

/-- A block sent intact and received by a receiver that hunts is handed on as it was sent (R137, R140). -/
theorem receive_good {s : State} (hs : s.rx.state = .hunting) (h : Header) (kind : Byte) {body : List Byte}
    (hb : body.length ≤ 240) :
    s.receive h kind body =
      ({ s with rx := { s.rx with state := .hunting, held := [] } } : State).takeGood (blockOf h kind body) := by
  rw [State.receive, goodBlockBytes, deliver_block hs h kind hb, judgeBlock_block h kind hb, if_pos rfl]
  rfl

/-- A block other than a CADENCE, received: heard, then classified (R140). -/
theorem receive_classify {s : State} (hs : s.rx.state = .hunting) (h : Header) {kind : Byte} {body : List Byte}
    (hb : body.length ≤ 240) (hk : kind ≠ 0) :
    s.receive h kind body = s.heard.classify (blockOf h kind body) := by
  rw [receive_good hs h kind hb, State.takeGood, if_neg (show ¬ (blockOf h kind body).kind = 0 from hk)]
  rfl

/-- A block received whose CRC bytes are wrong (R140). -/
theorem deliver_bad {s : State} (hs : s.rx.state = .hunting) (h : Header) (kind : Byte) {body : List Byte}
    (hb : body.length ≤ 240) {crc : BitVec 16} (hc : crc ≠ crc16 (blockData h kind body)) :
    s.deliver (blockBytes h kind body crc) =
      ({ s with rx := { s.rx with state := .hunting, held := [] } } : State).latch .checkError := by
  rw [deliver_block hs h kind hb, judgeBlock_block h kind hb, if_neg (Ne.symm hc)]
  rfl

/-- Step 1 does nothing where no watch entry matches (R125). -/
theorem State.watchStep_unwatched {s : State} {b : Block} (h : s.Unwatched b) : s.watchStep b = s := by
  unfold State.Unwatched at h
  simp only [State.watchStep, h, List.getLast?_nil]

/-- Step 2 lets a block pass with its kind entry (R127). -/
theorem Classifier.kindStep_ok {s : State} {b : Block} {e : KindEntry} (hk : s.KindIs b e)
    (hf : e.forms.has b.form = true) (hl : tooShort e b = false) : s.cls.kindStep b = .ok e := by
  obtain ⟨hlt, hget⟩ := List.getElem?_eq_some_iff.mp hk
  have hlt' : b.kind.toNat < 32 := by simpa using hlt
  have he : s.cls.kindsInUse[b.kind.toNat] = e := by simpa using hget
  simp only [Classifier.kindStep, hlt', dif_pos, he, hf, hl, Bool.not_true, Bool.false_eq_true, if_false]

/-- A block that is addressed to this terminal, meets no watch entry and passes steps 2 to 4 is recorded and
dispatched by its entry's disposition (R123, R125 to R133). -/
theorem State.classify_passes {s : State} {b : Block} {e : KindEntry} (hm : s.cls.matchesAddress b = true)
    (hw : s.Unwatched b) (hp : s.Passes e b) :
    s.classify b = ({ s with cls := s.cls.record b } : State).dispatch e.disposition b := by
  obtain ⟨hk, hf, hl, hc, hr⟩ := hp
  simp only [State.classify, hm, Bool.not_true, Bool.false_eq_true, if_false, State.watchStep_unwatched hw,
    Classifier.kindStep_ok hk hf hl, hc, State.recordAndDispatch, hr]

/-- An admitted block is dispatched by its entry's disposition, on the state that has taken it (R131 to R133). -/
theorem receive_admitted {s : State} {e : KindEntry} {h : Header} {kind : Byte} {body : List Byte}
    (ha : s.Admits e (blockOf h kind body)) :
    s.receive h kind body = (s.taken (blockOf h kind body)).dispatch e.disposition (blockOf h kind body) := by
  obtain ⟨hs, hb, hk, hm, hw, hp⟩ := ha
  rw [receive_classify (kind := kind) (body := body) hs h hb hk]
  exact State.classify_passes (s := s.heard) hm hw hp

/-- An admitted block with disposition ACT goes to its owner alone (R133). -/
theorem receive_acts {s : State} {h : Header} {kind : Byte} {body : List Byte} (ha : s.Acts (blockOf h kind body)) :
    s.receive h kind body = (s.taken (blockOf h kind body)).act (blockOf h kind body) := by
  obtain ⟨e, ha, hd⟩ := ha
  rw [receive_admitted ha, hd]
  rfl

end Sys2Proof.Machine
end

