-- ==== Sys2Proof/Tests/Slice0.lean ====
section
/-! SUPPORT. Tests: the ill-formed commands that WellFormed refuses, worked examples of the manual, and for each statement
a state and operands that meet its hypotheses. -/

namespace Sys2Proof.Tests

-- One test after the other: each waits for the kernel, and a waiting test holds a thread.
set_option Elab.async false

open Sys2Proof Sys2Proof.Machine

/-- The header of a block to ALL on channel 0 with sequence 0. -/
abbrev toAll : Header := ⟨0x80, 0, 0⟩

/-- The state that a command leaves. -/
def after (i : Instr) (s : State) : State :=
  match exec i s with
  | .next t => t
  | .fault _ => s
  | .refused _ => s

/-- A state in RUNNING whose mirror is all off. -/
def running : State :=
  { State.reset with
    seq := { State.reset.seq with state := .running, powerGood := true }
    row := { State.reset.row with mirror := .replicate 512 (some 0) } }

/-- A state with one item at the head of the render queue. -/
def queued (k : WorkKind) (body : List Byte) : State :=
  { State.reset with ren := { State.reset.ren with queue := [⟨k, 0, .bulk, body⟩] } }

/-- A state with one context slot written. -/
def withSlot (c : Slot) (s : State) : State := { s with ren := s.ren.setSlot 0 c }

/-- An OPEN slot of image 5: 4 pixels by 2 rows at (100, 40), one row to a stripe. -/
def openSlot (m : Method) : Slot :=
  .openedWith 5 { channel := 0, window := 0, width := 4, height := 2, scale := 1, x0 := 100, y0 := 40, method := m, select := 0, rows := 1 } 0

/-! ### WellFormed: an ill-formed command for each check -/

/-- A body of 241 bytes. -/
abbrev longBody : List Byte := List.replicate 241 1

theorem test_wf_body_too_long : (Instr.cadence toAll longBody).wf = false := by decide +kernel
theorem test_wf_body_longest : (Instr.statusQuery toAll (List.replicate 240 1)).wf = true := by decide +kernel
theorem test_wf_rest_too_long : (Instr.addressLoad toAll (List.replicate 240 1)).wf = false := by decide +kernel
theorem test_wf_reset_body_too_long : (Instr.terminalReset toAll longBody ⟨false, false, 0, false⟩).wf = false := by
  decide +kernel
theorem test_wf_check_error_with_right_crc :
    (Instr.checkError toAll 12 [] (crc16 (blockData toAll 12 []))).wf = false := by decide +kernel
theorem test_wf_length_not_above_240 : (Instr.lengthError toAll 12 240).wf = false := by decide +kernel
theorem test_wf_unknown_kind_below_32 : (Instr.unknownKind toAll 31 []).wf = false := by decide +kernel
theorem test_wf_render_kind_not_of_the_path : (Instr.blockQueuedForRender toAll 8 [0]).wf = false := by decide +kernel
theorem test_wf_render_panel_control_not_erase : (Instr.blockQueuedForRender toAll 9 [1]).wf = false := by decide +kernel
theorem test_wf_render_table_not_of_the_path : (Instr.blockQueuedForRender toAll 11 [9, 0, 0, 0]).wf = false := by
  decide +kernel
theorem test_wf_accessory_kind_with_owner : (Instr.accessory toAll 12 []).wf = false := by decide +kernel
theorem test_wf_table_id_valid : (Instr.invalidTableId toAll [12, 0, 0, 0]).wf = false := by decide +kernel
theorem test_wf_panel_action_defined : (Instr.panelControlUndefined toAll [2]).wf = false := by decide +kernel
theorem test_wf_zone_set_is_disarm_all : (Instr.zoneSet toAll [0xFF]).wf = false := by decide +kernel

/-! ### Worked examples of the manual -/

/-- Chapter 9.2, R139: the CRC over 0x31 to 0x39. -/
theorem test_crc_check_value : crc16 [0x31, 0x32, 0x33, 0x34, 0x35, 0x36, 0x37, 0x38, 0x39] = 0x29B1 := by
  decide +kernel

/-- R139: over no bytes at all. -/
theorem test_crc_empty : crc16 [] = 0xFFFF := by decide +kernel

/-- R140: run on through its own CRC bytes the computation reaches 0. -/
theorem test_crc_residue : crc16 [0x31, 0x32, 0x33, 0x29, 0xB1] ≠ 0 ∧ crc16 ([0x31, 0x32] ++ wordBytes (crc16 [0x31, 0x32])) = 0 := by
  decide +kernel

/-- Chapter 9.2, hunting after noise: the false lead costs a FORMAT-ERROR, and the CADENCE behind it is taken. -/
theorem test_hunting_after_noise :
    let t := State.reset.deliver
      ([0, 0, 0xC3, 0x17, 0x02, 0x40, 0x88, 0xF6, 0x55, 0x00] ++ goodBlockBytes toAll 0 [0x12, 0x34])
    (t.rx.lastCount, t.rx.state, t.rx.linePresent, t.ev.raw.getLsbD 9, t.ev.raw.getLsbD 8) =
      (0x1234, RxState.hunting, true, true, false) := by
  decide +kernel

/-- A block of chapter 13.1 byte by byte: lead, ALL, channel, kind 14, sequence, length 0, CRC. -/
theorem test_block_bytes :
    (goodBlockBytes ⟨0x80, 0, 7⟩ 14 []).take 6 = [0xC3, 0x80, 0x00, 0x0E, 0x07, 0x00] ∧
      (goodBlockBytes ⟨0x80, 0, 7⟩ 14 []).length = 8 := by
  decide +kernel

/-- Chapter 1.4: the window table of the example. -/
def windows14 : Vector Window 8 :=
  ((Vector.replicate 8 Window.unused).set 0 Window.whole).set 2 ⟨true, ⟨100, 100, 299, 199⟩, true, true, false, .mask⟩
    |>.set 5 ⟨true, ⟨250, 150, 399, 249⟩, false, false, true, .or⟩

/-- A render engine with the windows of the example and one cell's plane bits. -/
def cell14 (x y : RowNo) (i t m : Bool) : Render :=
  let bit (b : Bool) : RowBits := if b then BitVec.twoPow 512 x.val else 0
  { State.reset.ren with
    windows := windows14, image := blankPlane.set y (bit i), text := blankPlane.set y (bit t)
    mark := blankPlane.set y (bit m) }

/-- Chapter 1.4: the six cells of the example. -/
theorem test_composite_under_windows :
    [(cell14 50 50 true true false).composite 50 |>.getLsbD 50, (cell14 50 60 true false true).composite 60 |>.getLsbD 50,
      (cell14 150 120 true true true).composite 120 |>.getLsbD 150,
      (cell14 160 130 true false false).composite 130 |>.getLsbD 160,
      (cell14 260 160 true true true).composite 160 |>.getLsbD 260,
      (cell14 350 230 true false false).composite 230 |>.getLsbD 350] =
      [true, false, false, true, true, false] := by
  decide +kernel

/-- R12: the window of the example that moves marks 161 rows. -/
theorem test_window_rows : (windowRows ⟨100, 100, 299, 199⟩ ⟨120, 180, 320, 260⟩).length = 161 := by decide +kernel

/-- R46: the table of weights. -/
theorem test_weights_reduced :
    [(⟨10, 4, 6, 3⟩ : Weights).reduce, (⟨2, 8, 8, 8⟩ : Weights).reduce, (⟨16, 16, 16, 16⟩ : Weights).reduce,
      (⟨7, 0, 7, 0⟩ : Weights).reduce] =
      [⟨3, 4, 6, 3⟩, ⟨0, 8, 0, 8⟩, ⟨0, 0, 0, 16⟩, ⟨7, 0, 7, 0⟩] := by
  decide +kernel

/-- R46: wR = 12 over the factory weights. -/
theorem test_weights_one_entry : (factoryWeights.load [(0, [12])]) = factoryWeights := by decide +kernel

/-- Chapter 3.3: the six threshold decisions at t = 153. -/
theorem test_threshold_decisions :
    [(10, 5), (8, 0), (15, 2), (266, 263), (3, 4), (1, 3)].map
        (fun (x, y) => thresholdCell factoryThreshold x y (intensity factoryTransfer 0 9)) =
      [false, true, false, false, false, true] := by
  decide +kernel

/-- Chapter 3.4: stripe 0 of the flat area. -/
theorem test_diffusion_first_row :
    diffuseRow factoryWeights [153, 153, 153, 153] [0, 0, 0, 0] = ([true, false, true, true], [-13, 7, -15, -37]) := by
  decide +kernel

/-- Chapter 3.4: stripe 1 of the flat area. -/
theorem test_diffusion_second_row :
    diffuseRow factoryWeights [153, 153, 153, 153] [-13, 7, -15, -37] = ([true, false, true, false], [-16, 3, 6, 12]) := by
  decide +kernel

/-- Chapter 3.4 through IMAGE_STRIPE: stripe 0 of the image at (100, 40), four pixels of level 9 in one run. -/
theorem test_image_stripe_diffusion :
    let t := (after .imageStripe (withSlot (openSlot .diffusion) (queued .imageStripe [5, 0, 0, 0x39]))).perform
    ((List.range 5).map (fun k => (t.ren.image[40]).getLsbD (100 + k)), t.ren.slots[0].err.toList.take 5, t.ren.slots[0].next,
      t.row.bulk) = ([true, false, true, true, false], [-13, 7, -15, -37, 0], 1, [40]) := by
  decide +kernel

/-- R14: a FILL of rows 40 and 41 is taken; its row 40 is written and marked and a service of it starts while row 41 is
still to be written; row 41 is written and marked after that. -/
theorem test_row_served_within_a_piece :
    let s := after .fill { running with
      ren := { running.ren with queue := [⟨.fill, 0, .bulk, [0, 1, 0, 0, 3, 0, 40, 0, 3, 0, 41]⟩] } }
    let t := after .addressSlot s.idle
    ((s.row.bulk, s.ren.stages.length), (s.idle.row.bulk, s.idle.ren.busy), t.row.slotOp, t.row.bulk, t.idle.row.bulk) =
      (([], 2), ([40], true), some ⟨.write, 40, columns 3 3⟩, [], [41]) := by
  decide +kernel

/-- A DIFFUSION image of 4 stripes at row 40, with stripes 1 and 2 held, and stripe 3 or an IMAGE-CLOSE at the head of the
queue; row 41, stripe 1's, lies outside the window. -/
def heldOutside (st : SlotState) (k : WorkKind) (body : List Byte) : State :=
  let c := openSlot .diffusion
  let s := withSlot { c with state := st, params := { c.params with height := 4 } } (queued k body)
  { s with ren := { s.ren with
      held := [⟨5, 2, List.replicate 4 15, .bulk⟩, ⟨5, 1, List.replicate 4 15, .bulk⟩]
      windows := s.ren.windows.set 0 { Window.whole with rect := ⟨0, 42, 511, 511⟩ } } }

/-- R35: closed, stripe 1's rendering ends with no row write, and its index is received before row 42 is written. -/
theorem test_close_ends_each_rendering :
    let s := after .imageClose (heldOutside .opened .imageClose [5])
    let t := s.idle.idle
    (s.ren.slots[0].received, s.ren.stages.length) = (0, 5) ∧
      (t.ren.slots[0].received, t.ren.slots[0].next, t.ren.image[42], t.ren.stages.length) = (2, 2, 0, 3) ∧
      (t.perform.ren.slots[0].received, t.perform.ren.slots[0].state, t.perform.ren.image[42] != 0) =
        (6, SlotState.closing, true) := by
  decide +kernel

/-- R32: in the gap skip that stripe 3 makes with the hold queue full, the same. -/
theorem test_gap_skip_ends_each_rendering :
    let u := heldOutside .opened .imageStripe [5, 0, 3, 0x3F]
    let s := after .imageStripe { u with ren := { u.ren with
      held := u.ren.held ++ [⟨6, 9, [], .bulk⟩, ⟨6, 8, [], .bulk⟩] } }
    let t := s.idle.idle
    (s.ren.slots[0].received, t.ren.slots[0].received, t.ren.image[42]) = (0, 2, 0) ∧
      (t.perform.ren.slots[0].received, t.perform.ren.slots[0].next, t.perform.ren.held.length) = (14, 4, 2) := by
  decide +kernel

/-- R29, R30: a stripe of two runs, one pixel too long for its row: STRIPE-LONG. -/
theorem test_image_stripe_long :
    (after .imageStripe (withSlot (openSlot .threshold) (queued .imageStripe [5, 0, 1, 0x3F, 0x00]))).ev.raw.getLsbD 14 =
      true := by
  decide +kernel

/-- Chapter 4.3: the boxes of the caption; the last code is lost. -/
theorem test_caption_boxes :
    layText ⟨100, 200, 139, 240⟩ 1 2 1 2 [0x41, 0x42, 0x43, 0x44, 0x05, 0x80, 0x46] =
      ([⟨116, 216, 0x41⟩, ⟨124, 216, 0x42⟩, ⟨132, 216, 0x43⟩, ⟨116, 232, 0x44⟩, ⟨124, 232, 0x05⟩], true) := by
  decide +kernel

/-- Chapter 4.3 with starting column 6: nothing is drawn. -/
theorem test_caption_beyond_the_edge : layText ⟨100, 200, 139, 240⟩ 1 6 1 6 [0x41, 0x42] = ([], true) := by decide +kernel

/-- The row engine of chapter 5.10 before slot 1. -/
def lists510 : RowEngine := { RowEngine.reset with urgent := [304, 305, 306], bulk := [10, 11, 12, 13] }

/-- Chapter 5.10, slot 1: URGENT row 304, count 1. -/
theorem test_arbiter_slot_1 :
    ((lists510.arbitrate 2).2, (lists510.arbitrate 2).1.run, (lists510.arbitrate 2).1.urgent) = (some 304, 1, [305, 306]) := by
  decide +kernel

/-- Chapter 5.10, slot 3: the count at U, BULK row 10, count 0. -/
theorem test_arbiter_slot_3 :
    let r := ({ lists510 with urgent := [306], run := 2 }).arbitrate 2
    (r.2, r.1.run, r.1.bulk) = (some 10, 0, [11, 12, 13]) := by
  decide +kernel

/-- Chapter 5.10, end of cycle 4: the echo's URGENT mark of row 12. -/
theorem test_urgent_mark_raises :
    let r := ({ RowEngine.reset with bulk := [11, 12, 13] }).mark .urgent 12
    (r.urgent, r.bulk) = ([12], [11, 13]) := by
  decide +kernel

/-- Row 200 of chapter 5.11: the mirror holds cells 0..9, the composite cells 5..14. -/
def row511 : State :=
  { running with
    ren := { running.ren with image := blankPlane.set 200 (columns 5 14) }
    row := { running.row with bulk := [200], mirror := running.row.mirror.set 200 (some (columns 0 9)) } }

/-- Chapter 5.11, slot 1: the ERASE of columns 0..4 is issued, and the WRITE of columns 10..14 remains. -/
theorem test_row_start :
    let t := after .addressSlot row511
    (t.row.slotOp, t.row.sense, t.row.bulk) =
      (some ⟨.erase, 200, columns 0 4⟩, [⟨200, columns 5 14, 10, 0, .issuing (columns 10 14)⟩], []) := by
  decide +kernel

/-- Row 5 waits with nothing to do; image row 9 is lit under no window until the WINDOW-SET that heads the render queue. -/
def idleRow : State :=
  { running with
    ren := { running.ren with
      image := blankPlane.set 9 (columns 2 2), windows := running.ren.windows.set 0 .unused
      queue := [⟨.windowSet, 0, .bulk, [1, 3, 0, 0, 0, 0, 9, 0, 3, 0, 9]⟩] }
    row := { running.row with bulk := [5] } }

/-- R77: the slot's first attempt finds nothing to do in row 5, the WINDOW-SET marks rows 0 and 9, and the next attempts of
the slot see them: row 0 has nothing to do either, and row 9 uses the slot. -/
theorem test_mark_between_two_attempts :
    let s := after .addressSlot idleRow
    let t := (after .windowSet s).nextAttempt
    (s.row.attempting, s.row.bulk, s.row.slotOp) = (true, [], none) ∧
      (t.row.attempting, t.row.bulk, t.row.slotOp) = (true, [9], none) ∧
      (t.nextAttempt.row.attempting, t.nextAttempt.row.slotOp) = (false, some ⟨.write, 9, columns 2 2⟩) ∧
      (s.idle.row.attempting, s.idle.row.slotOp) = (false, none) := by
  decide +kernel

/-- R77, R76: two ADDRESS_SLOTs with nothing between. The first slot's first attempt finds nothing to do in row 5; its second
issues row 200's ERASE, which the next slot finds issued and follows with the WRITE. -/
theorem test_attempt_left_to_the_next_slot :
    let s := after .addressSlot { row511 with row := { row511.row with bulk := [5, 200] } }
    let t := after .addressSlot s
    (s.row.attempting, s.row.slotOp, s.row.prevOp) = (true, none, none) ∧
      (t.row.attempting, t.row.prevOp, t.row.slotOp) =
        (false, some ⟨.erase, 200, columns 0 4⟩, some ⟨.write, 200, columns 10 14⟩) := by
  decide +kernel

/-- Chapter 5.11, end of cycle 4: a sense of 9 against 10 appends a full-row refresh of 502 and 10 columns. -/
theorem test_sense_disagrees :
    let s := { running with
      row := { running.row with sense := [⟨200, columns 5 14, 10, 0, .settling (some 1)⟩] } }
    let t := after (.senseCompletion 9) s
    (t.row.retry.map (fun o => litCount o.columns), t.row.sense.map (fun v => (v.retries, v.phase))) =
      ([502, 10], [(1, Phase.refreshing)]) := by
  decide +kernel

/-- Chapter 5.12: a fault of row 90 with the list full. -/
theorem test_fault_list_full :
    let s := { running with
      row := { running.row with
        sense := [⟨90, 1, 1, 2, .settling (some 1)⟩], faults := [17, 40, 41, 200, 301, 302, 303, 480] } }
    let t := after (.senseCompletion 0) s
    (t.row.faults, t.ev.raw.getLsbD 21, t.ev.raw.getLsbD 22) =
      ([17, 40, 41, 200, 301, 302, 303, 480], true, true) := by
  decide +kernel

/-- Chapter 6.8: the CADENCE notice that brings the timer to 1,200 under a timeout of 2 minutes. -/
theorem test_timed_blank :
    let s := { running with
      seq := { running.seq with blankTimer := 1199, panel := { factoryPanel with blankTimeout := 2 } } }
    let t := after (.cadence toAll [0, 1]) s
    (t.seq.state, t.seq.blankTimer) = (PanelState.blanking, 1200) := by
  decide +kernel

/-- R103: a lowered timeout blanks at the next CADENCE, not before it. -/
theorem test_blank_at_next_notice :
    let s := { running with seq := { running.seq with blankTimer := 1300 } }
    let t := after (.panelLoad toAll [0, 4, 1, 2]) s
    let u := after .blankTimeout t
    (t.seq.panel.blankTimeout, t.seq.state, u.seq.state, u.seq.blankTimer, (after .blankTimeout s).seq.state) =
      (2, PanelState.running, .blanking, 1301, .running) := by
  decide +kernel

/-- Chapter 7.3: the debounce of the example, scan by scan. -/
theorem test_debounce_scans :
    ([true, false, true, true, true, false, true].foldl
        (fun (acc : Beam × List (Nat × Bool)) x => let b := acc.1.sample 3 x; (b, acc.2 ++ [(b.count, b.broken)]))
        (⟨false, 0⟩, [])).2 =
      [(1, false), (0, false), (1, false), (2, false), (0, true), (1, true), (0, true)] := by
  decide +kernel

/-- R110: the positions of the examples. -/
theorem test_axis_positions :
    let beams (l : List Nat) : Vector Beam 16 := tabulate fun n => ⟨l.contains n.val, 0⟩
    (axisPosition (beams [6, 7, 8]), axisPosition (beams [10, 11]), axisPosition (beams [3, 9]), axisPosition (beams [15])) =
      (some 7, some 10, none, some 15) := by
  decide +kernel

/-- Chapter 7.7: the zones of the example. -/
def zones77 : Vector Zone 16 :=
  ((Vector.replicate 16 Zone.unset).set 0 ⟨false, 0, 0, 15, 15, 10, false, none⟩).set 2
      ⟨true, 4, 8, 9, 12, 31, true, some ⟨1, 0x10, 228, 324⟩⟩ |>.set 5
    ⟨true, 0, 0, 15, 15, 99, false, some ⟨1, 0x11, 8, 8⟩⟩

/-- Chapter 7.7: the first press, as the scan that accepts it with D = 1 finds it. -/
theorem test_first_press :
    let s := { running with
      touch := { running.touch with zones := zones77, table := { factoryTouch with debounce := 1 } }
      rx := { running.rx with lastCount := 4410 } }
    let t := after (.scan ⟨0b111000000, 0b110000000000, false, false, 0⟩) s
    (t.tx.queue, t.ren.echoes, t.touch.zones[2].armed, t.touch.pressHeld) =
      ([.touch (some 2) 31 7 10 4410], [⟨1, 0x10, 228, 324⟩], false, true) := by
  decide +kernel

/-- Chapter 7.8: the press on a blanked panel wakes it and answers nothing. -/
theorem test_wake_press :
    let s := { running with
      seq := { running.seq with state := .blanked }
      touch := { running.touch with zones := zones77, table := { factoryTouch with debounce := 1 } } }
    let t := after (.scan ⟨0b111000000, 0b110000000000, false, false, 0⟩) s
    (t.seq.state, t.tx.queue, t.ren.echoes, t.touch.zones[2].armed, t.touch.pressHeld) =
      (PanelState.running, [], [], true, true) := by
  decide +kernel

/-- Chapter 8.2: the GROUPS load of the example. -/
theorem test_groups_load :
    groupsOf [9, 70, 9, 3, 12, 12, 1, 5, 8, 60, 2, 44] = ([9, 3, 12, 1, 5, 8, 60, 2], true) := by
  decide +kernel

/-- R131: an EVENT-TEST that repeats the channel's last sequence is dropped. -/
theorem test_repeat_dropped :
    let s := after (.eventTest toAll []) State.reset
    (s.ev.raw.getLsbD 31, (after (.eventTest toAll []) (after (.eventClear ⟨0x80, 0, 1⟩ [0xFF, 0xFF, 0xFF, 0xFF]) s)).ev.raw.getLsbD 31,
      (after (.eventTest ⟨0x80, 0, 1⟩ []) (after (.eventClear ⟨0x80, 0, 1⟩ [0xFF, 0xFF, 0xFF, 0xFF]) s)).ev.raw.getLsbD 31) =
      (true, true, false) := by
  decide +kernel

/-- Chapter 10.7: the silence that ends LINE-PRESENT under BOTH latches event 0. -/
theorem test_line_silence_latched :
    let s := { after (.statusQuery toAll []) State.reset with
      ev := { State.reset.ev with raw := 1 } }
    let t := after .lineSilenceTimeout s
    (t.ev.raw, t.ev.latched, t.ev.attention) = (0, 1, true) := by
  decide +kernel

/-- R177: the bytes of a TOUCH frame of terminal 3 under attention, and of an IDLE frame. -/
theorem test_frame_bytes :
    (frameBytes 3 true (some (.touch (some 2) 31 7 10 4410))).take 10 =
        [0xC3, 0x83, 0x01, 0x06, 0x02, 0x1F, 0x07, 0x0A, 0x11, 0x3A] ∧
      (frameBytes 3 false none).take 4 = [0xC3, 0x03, 0x00, 0x00] := by
  decide +kernel

/-- R178: a STATUS frame is 47 bytes with an empty fault row list and 63 with a full one. -/
theorem test_status_frame_length :
    (frameBytes 0 false (some (.status State.reset.statusReport))).length = 47 ∧
      (frameBytes 0 false (some (.status { State.reset.statusReport with faults := [1, 2, 3, 4, 5, 6, 7, 8] }))).length =
        63 := by
  decide +kernel

/-- Chapter 11.2: the 40-byte body is strobed at its first byte; the 220-byte one overflows behind 58 bytes. -/
theorem test_accessory_overflow :
    let s := { State.reset with acc := { State.reset.acc with fitted := true } }
    let t := s.handOff (List.replicate 40 1)
    let u := { s with acc := { s.acc with buffer := List.replicate 58 1, state := .stalled } }.handOff (List.replicate 220 2)
    (t.acc.state, t.acc.buffer.length, t.acc.ackTimer, u.acc.buffer.length, u.ev.raw.getLsbD 27) =
      (Handshake.strobed, 40, Timer.running, 58, true) := by
  decide +kernel

/-- R162: a high level accepted at its second sample, with a LINE report. -/
theorem test_line_accepted :
    let s := { State.reset with
      lines := State.reset.lines.set 1 ⟨⟨.input, true, false⟩, false, some true, false⟩ }
    let t := after (.scan ⟨0, 0, false, false, 0b0010⟩) s
    (t.lines[1].accepted, t.tx.queue, t.ev.raw.getLsbD 5) = (true, [.line 1 true 0], true) := by
  decide +kernel

/-- R170, R168: a programming stopped by a power-on reset leaves a CRC that fails, and the factory tables are loaded. -/
theorem test_interrupted_commit (s : State) (t : StoredTables) (p : PowerOnPins)
    (h : s.store.commit = .programming t) : (s.powerOn p).store.image.good = false := by
  have hs : ∀ (n : Fin 65535) (c : BitVec 16), c + 1 + BitVec.ofNat 16 n.val ≠ c := by
    intro n c hc
    have h2 := congrArg BitVec.toNat hc
    have := n.isLt
    have := c.isLt
    simp only [BitVec.toNat_add, BitVec.toNat_ofNat, BitVec.ofNat_eq_ofNat] at h2
    omega
  have hst : (s.powerOn p).store = s.store.interrupted := by
    unfold State.powerOn State.latchIf
    simp only [Store.powerOn, h]
    split <;> rfl
  rw [hst]
  simpa [Store.interrupted, StoredImage.good, beq_eq_false_iff_ne] using hs _ _

/-! ### A state and operands for the hypotheses of each statement -/

/-- The conditions of `State.Admits` as a computation. -/
def admitsB (s : State) (e : KindEntry) (b : Block) : Bool :=
  s.rx.state == .hunting && decide (b.body.length ≤ Config.maxBody) && b.kind != 0 && s.cls.matchesAddress b &&
    s.cls.watchHits b.kind == [] && s.cls.kindsInUse.toList[b.kind.toNat]? == some e && e.forms.has b.form &&
    !tooShort e b && s.cls.channelStep e b == .pass && !s.cls.repeats b

theorem admits_of_admitsB {s : State} {e : KindEntry} {b : Block} (h : admitsB s e b = true) : s.Admits e b := by
  simp only [admitsB, Bool.and_eq_true, beq_iff_eq, bne_iff_ne, decide_eq_true_eq, Bool.not_eq_true'] at h
  obtain ⟨⟨⟨⟨⟨⟨⟨⟨⟨h1, h2⟩, h3⟩, h4⟩, h5⟩, h6⟩, h7⟩, h8⟩, h9⟩, h10⟩ := h
  exact ⟨h1, h2, h3, h4, h5, h6, h7, h8, h9, h10⟩

/-- Each block of a list of blocks of kinds 1 to 9 (`bypass` clear) or 11 to 19 (set) acts at a state. -/
theorem acts_all {s : State} (bypass : Bool) {bs : List Block}
    (h : bs.all (admitsB s ⟨.act, bypass, .every⟩) = true) : ∀ b ∈ bs, s.Acts b := fun b hb =>
  ⟨_, admits_of_admitsB (List.all_eq_true.1 h b hb), rfl⟩

theorem test_witness_StepTakesFrontCommand :
    State.reset.pending = [] ∧ State.reset.ren.AtRest ∧ State.reset.row.attempting = false := by
  unfold Render.AtRest; decide +kernel

theorem test_witness_EventsLatchAsTheTablesSay : State.reset.ev.attention = true ↔ State.reset.ev.latched ≠ 0 := by
  decide +kernel

/-- The reset state with CHECK-ERROR and TEST latched. -/
def twoLatched : State := (State.reset.latch .checkError).latch .test

theorem test_witness_LatchedClearedOnlyByClearOrReset :
    twoLatched.AttentionExact ∧ (Instr.eventTest toAll []).wf = true ∧ twoLatched.rx.state = .hunting ∧
      (∃ t, exec (.eventTest toAll []) twoLatched = .next t) ∧ twoLatched.ev.latched.getLsbD 8 = true ∧
      (∃ t, exec (.eventClear toAll [0, 0, 1, 0]) twoLatched = .next t) ∧ twoLatched.ev.latched.getLsbD 31 = true ∧
      (longAt [0, 0, 1, 0] 0).getLsbD 31 = false := by
  refine ⟨?_, ?_, ?_, ⟨_, rfl⟩, ?_, ⟨_, rfl⟩, ?_, ?_⟩
  · unfold State.AttentionExact; decide +kernel
  all_goals decide +kernel

theorem test_witness_DiscardedLineTraffic :
    State.reset.rx.state = .hunting ∧ (List.replicate 240 (0 : Byte)).length ≤ 240 ∧
      crc16 (blockData toAll 255 (List.replicate 240 0)) + 1 ≠ crc16 (blockData toAll 255 (List.replicate 240 0)) ∧
      240 < (241 : Byte).toNat ∧
      (blockOf ⟨0x00, 0, 0⟩ 0 (List.replicate 240 0)).form ≠ .all ∧ [(7 : Byte)].length < 2 ∧
      (blockOf toAll 0 [7]).form = .all := by
  have h (x : BitVec 16) : x + 1 ≠ x := by bv_omega
  exact ⟨rfl, by decide +kernel, h _, by decide +kernel, by decide +kernel, by decide +kernel, by decide +kernel⟩

/-- A state with a present channel, a CLOSING and an OPEN slot whose counts end at the next notice, in RUNNING. -/
def dueAtCadence : State :=
  let s := withSlot { openSlot .diffusion with state := .closing, closing := 7 } running
  { s with
    ren := s.ren.setSlot 3 { openSlot .threshold with image := 6, idle := 49 }
    cls := { s.cls with chanState := s.cls.chanState.set 63 ⟨some 1, true, 7⟩ }
    seq := { s.seq with blankTimer := 599, panel := { factoryPanel with blankTimeout := 1 } } }

theorem test_witness_CadenceAdvancesItsOwners :
    dueAtCadence.rx.state = .hunting ∧ (List.replicate 238 (0 : Byte)).length ≤ 238 ∧
      (blockOf toAll 0 (0xFF :: 0xFF :: List.replicate 238 0)).form = .all ∧ dueAtCadence.ren.busy = false ∧
      ({ dueAtCadence.ren with busy := true } : Render).busy = true ∧ dueAtCadence.seq.state = .running ∧
      (dueAtCadence.seq.panel.blankTimeout ≠ 0 ∧
        dueAtCadence.seq.panel.blankTimeout * 600 ≤ dueAtCadence.seq.blankTimer + 1) ∧
      running.seq.panel.blankTimeout = 0 ∧ dueAtCadence.ren.CadenceFrees 0 ∧ dueAtCadence.ren.CadenceFrees 3 ∧
      ¬ dueAtCadence.ren.CadenceFrees 1 ∧ dueAtCadence.RowsOnce := by
  unfold Render.CadenceFrees State.RowsOnce; decide +kernel

theorem test_witness_LineSilenceEndsPresence :
    State.reset.rx.silence = .stands ∧ State.reset.heard.rx.silence = .running ∧ State.reset.heard.AttentionExact := by
  refine ⟨?_, ?_, ?_⟩
  · decide +kernel
  · decide +kernel
  · unfold State.AttentionExact; decide +kernel

theorem test_witness_UnaddressedBlockIgnored :
    State.reset.rx.state = .hunting ∧
      (let b := blockOf ⟨0x01, 0, 0⟩ 14 []
       (Instr.eventTest ⟨0x01, 0, 0⟩ []).sentBlock = some b ∧ b.form = .individual ∧
         b.number.val ≠ State.reset.cls.number.val) ∧
      (let b := blockOf ⟨0x7F, 0, 0⟩ 18 (List.replicate 240 0)
       b.body.length ≤ 240 ∧ b.form = .group ∧ b.number ∉ State.reset.cls.groups ∧ blockOf ⟨0x7F, 0, 0⟩ 18 b.body = b) ∧
      (blockOf ⟨0xC0, 0, 0⟩ 255 []).form = .fourth := by
  decide +kernel

/-- A state whose kind entry for EVENT-TEST allows no ALL form, and whose channel 0 allows windows 0 to 6 and no GROUP. -/
def strict : State :=
  { State.reset with
    cls := { State.reset.cls with
      kinds := State.reset.cls.kinds.set 14 ⟨.act, true, ⟨true, true, false⟩⟩
      channels := State.reset.cls.channels.set 0 ⟨true, ⟨true, false, true⟩, 0x7F, .bulk, true⟩
      groups := [9]
      chanState := State.reset.cls.chanState.set 0 ⟨some 5, true, 0⟩ } }

theorem test_witness_RefusedBlockLeavesItsEvent :
    (∀ b ∈ [blockOf toAll 32 [], blockOf toAll 255 [], blockOf toAll 14 [], blockOf toAll 13 [1, 2, 3],
        blockOf ⟨0x80, 1, 0⟩ 5 [0, 0, 0, 0, 0, 0], blockOf ⟨0x49, 0, 0⟩ 7 (List.replicate 11 0),
        blockOf toAll 6 (7 :: List.replicate 10 0), blockOf toAll 6 (8 :: List.replicate 10 0), blockOf ⟨0x80, 0, 5⟩ 12 []],
      strict.cls.matchesAddress b = true ∧ strict.cls.watchHits b.kind = []) ∧
    (strict.cls.kinds[14].forms.has (blockOf toAll 14 []).form = false ∧ fixedPart 13 = 4) ∧
    strict.cls.channels[1].member = false ∧
    strict.cls.channels[0].forms.has (blockOf ⟨0x49, 0, 0⟩ 7 (List.replicate 11 0)).form = false ∧
    (windowNumber 6 (7 :: List.replicate 10 0) = some 7 ∧ strict.cls.channels[0].windows.getLsbD 7 = false) ∧
    windowNumber 6 (8 :: List.replicate 10 0) = some 8 ∧
    (strict.cls.channels[0].dedupe = true ∧ strict.cls.chanState[0].lastSeq = some 5) ∧
    (Instr.statusQuery ⟨0x80, 0, 5⟩ []).sentBlock = some (blockOf ⟨0x80, 0, 5⟩ 12 []) ∧
    (strict.cls.kindsInUse.toList[14]? = some ⟨.act, true, ⟨true, true, false⟩⟩ ∧
      strict.cls.kindsInUse.toList[13]? = some ⟨.act, true, .every⟩ ∧
      strict.cls.kindsInUse.toList[6]? = some ⟨.act, false, .every⟩) := by
  decide +kernel

/-- A TERMINAL-RESET that repeats channel 0's last sequence. -/
def repeatedReset : Block := blockOf ⟨0x80, 0, 5⟩ 18 []

/-- The input lines all asserted. -/
def allHigh : InputLevels := ⟨true, true, 0xF, true⟩

theorem test_witness_terminal_reset_refused_or_watched :
    (∀ s : State, s.Sends (.terminalReset ⟨0x80, 0, 5⟩ [] allHigh) repeatedReset { s with pins := allHigh }) ∧
      strict.cls.matchesAddress repeatedReset = true ∧ strict.cls.watchHits repeatedReset.kind = [] ∧
      strict.cls.kindsInUse.toList[18]? = some ⟨.act, true, .every⟩ ∧
      tooShort ⟨.act, true, .every⟩ repeatedReset = false ∧
      strict.cls.channelStep ⟨.act, true, .every⟩ repeatedReset = .pass ∧
      strict.cls.channels[0].dedupe = true ∧ strict.cls.chanState[0].lastSeq = some repeatedReset.seq ∧
      (⟨some 18, true⟩ : WatchEntry).hits repeatedReset.kind = true :=
  ⟨fun _ => .inr ⟨_, _, _, rfl, rfl, rfl⟩, by decide +kernel⟩

/-- The strict state with the watch list on STATUS-QUERY (entries 3, which unblanks, and 7), EVENT-TEST, EVENT-CLEAR, TEXT
and FILL, in BLANKED. -/
def watching : State :=
  { strict with
    seq := { strict.seq with state := .blanked }
    cls := { strict.cls with
      watch := #v[⟨some 14, false⟩, ⟨some 13, false⟩, ⟨some 5, true⟩, ⟨some 12, true⟩, ⟨some 6, false⟩, ⟨none, true⟩,
        ⟨some 31, false⟩, ⟨some 12, false⟩] } }

/-- Entry k is the highest-numbered watch entry on the block's kind, and step 2 reads the kind entry e. -/
def watchedB (s : State) (e : KindEntry) (k : Fin 8) (b : Block) : Bool :=
  s.rx.state == .hunting && s.cls.matchesAddress b && s.cls.watch[k].hits b.kind &&
    (List.finRange 8).all (fun j => !s.cls.watch[j].hits b.kind || decide (j ≤ k)) &&
    s.cls.kindsInUse.toList[b.kind.toNat]? == some e

theorem test_witness_WatchHitIsRecordedAndWakes :
    let e : KindEntry := ⟨.act, true, .every⟩
    let d : KindEntry := ⟨.act, false, .every⟩
    let repeated := blockOf ⟨0x80, 0, 5⟩ 12 []
    let fresh := blockOf ⟨0x80, 0, 6⟩ 12 []
    (watchedB watching e 7 repeated = true ∧ tooShort e repeated = false ∧ watching.cls.channelStep e repeated = .pass ∧
      watching.cls.channels[repeated.channel].dedupe = true ∧
      watching.cls.chanState[repeated.channel].lastSeq = some repeated.seq) ∧
    ((Instr.statusQuery ⟨0x80, 0, 6⟩ []).sentBlock = some fresh ∧ watchedB watching e 7 fresh = true ∧
      e.forms.has fresh.form = true ∧ tooShort e fresh = false ∧ watching.cls.channelStep e fresh = .pass ∧
      watching.cls.repeats fresh = false) ∧
    (let b := blockOf toAll 14 []
     watchedB watching ⟨.act, true, ⟨true, true, false⟩⟩ 0 b = true ∧ (⟨true, true, false⟩ : FormSet).has b.form = false) ∧
    (let b := blockOf toAll 13 [1, 2, 3]
     watchedB watching e 1 b = true ∧ tooShort e b = true) ∧
    (let b := blockOf ⟨0x80, 1, 0⟩ 5 (List.replicate 6 0)
     watchedB watching d 2 b = true ∧ tooShort d b = false ∧ watching.cls.channelStep d b = .silent) ∧
    (let b := blockOf toAll 6 (7 :: List.replicate 10 0)
     watchedB watching d 4 b = true ∧ tooShort d b = false ∧ watching.cls.channelStep d b = .filtered) ∧
    (watching.seq.state = .blanked ∧
      ∃ j : Fin 8, watching.cls.watch[j].hits 12 = true ∧ watching.cls.watch[j].unblank = true) ∧
    (¬ ∃ j : Fin 8, watching.cls.watch[j].hits 6 = true ∧ watching.cls.watch[j].unblank = true) ∧
    ∃ e, State.reset.KindIs (blockOf toAll 12 []) e := by
  refine ⟨by decide +kernel, by decide +kernel, by decide +kernel, by decide +kernel, by decide +kernel,
    by decide +kernel, by decide +kernel, by decide +kernel, ⟨⟨.act, true, .every⟩, ?_⟩⟩
  unfold State.KindIs; decide +kernel

/-- A state with an accessory fitted and 16 bytes free. -/
def nearlyFull : State :=
  { State.reset with acc := { State.reset.acc with fitted := true, buffer := List.replicate 240 0, state := .strobed } }

/-- A state whose kind entry k is ACT-AND-HAND with bypass. -/
def both (k : Fin 32) (s : State) : State :=
  { s with cls := { s.cls with kinds := s.cls.kinds.set k ⟨.actAndHand, true, .every⟩ } }

theorem test_witness_HandedBlockJoinsAccessoryBuffer :
    State.reset.Admits ⟨.discard, false, .every⟩ (blockOf toAll 31 [1]) ∧
      ({ State.reset with cls := { State.reset.cls with
          kinds := State.reset.cls.kinds.set 20 ⟨.act, false, .every⟩ } } : State).Admits ⟨.act, false, .every⟩
        (blockOf toAll 20 [1]) ∧
      (State.reset.Admits ⟨.hand, false, .every⟩ (blockOf toAll 10 [1]) ∧ State.reset.acc.fitted = false) ∧
      (nearlyFull.Admits ⟨.hand, false, .every⟩ (blockOf toAll 10 (List.replicate 16 1)) ∧
        nearlyFull.acc.buffer.length + 16 ≤ 256) ∧
      (nearlyFull.Admits ⟨.hand, false, .every⟩ (blockOf toAll 10 (List.replicate 17 1)) ∧
        256 < nearlyFull.acc.buffer.length + 17) ∧
      (∀ n ∈ [0, 16, 17], (both 14 nearlyFull).Admits ⟨.actAndHand, true, .every⟩ (blockOf toAll 14 (List.replicate n 1))) ∧
      (both 14 State.reset).Admits ⟨.actAndHand, true, .every⟩ (blockOf toAll 14 [1]) := by
  refine ⟨admits_of_admitsB ?_, admits_of_admitsB ?_, ⟨admits_of_admitsB ?_, ?_⟩, ⟨admits_of_admitsB ?_, ?_⟩,
    ⟨admits_of_admitsB ?_, ?_⟩, fun n hn => admits_of_admitsB ?_, admits_of_admitsB ?_⟩
  case refine_9 => fin_cases hn <;> decide +kernel
  all_goals decide +kernel

/-- The blocks of the render path, one of each kind, table and action. -/
def renderBlocks : List Block :=
  [blockOf toAll 1 (List.replicate 14 1), blockOf toAll 2 [0, 0, 0], blockOf toAll 3 [0], blockOf toAll 4 [0],
    blockOf toAll 5 (List.replicate 6 0), blockOf toAll 6 (List.replicate 11 0), blockOf toAll 7 (List.replicate 11 0),
    blockOf toAll 9 [0]]

theorem test_witness_RenderBlockQueuedWithItsClass :
    (∀ b ∈ renderBlocks, State.reset.Acts b) ∧ (∀ b ∈ renderBlocks, workKindOf b.kind b.body ≠ none) ∧
      (∀ b ∈ [blockOf toAll 11 [5, 0, 0, 0], blockOf toAll 11 [6, 0, 0, 0], blockOf toAll 11 [7, 0, 0, 0],
        blockOf toAll 11 [8, 0, 0, 0]], State.reset.Acts b) :=
  ⟨acts_all false (by decide +kernel), by decide +kernel, acts_all true (by decide +kernel)⟩

theorem test_witness_AddressAndGroupsLoads :
    ∀ b ∈ [blockOf toAll 11 (0 :: loadRest 0 1 [1, 32]), blockOf toAll 11 (0 :: loadRest 0 1 [0, 31]),
        blockOf toAll 11 (1 :: loadRest 0 9 [0, 1, 2, 3, 4, 5, 6, 63, 64]),
        blockOf toAll 11 (1 :: loadRest 0 255 [])], State.reset.Acts b :=
  acts_all true (by decide +kernel)

theorem test_witness_ChannelsKindsWatchLoads :
    (∀ b ∈ [blockOf toAll 11 (2 :: loadRest 62 2 [1, 2, 3, 4]), blockOf toAll 11 (3 :: loadRest 0 1 [1]),
        blockOf toAll 11 (3 :: loadRest 10 3 [1, 2, 3]), blockOf toAll 11 (3 :: loadRest 31 1 [9]),
        blockOf toAll 11 (4 :: loadRest 0 8 (List.replicate 16 32))], State.reset.Acts b) ∧
      (62 : BitVec 16).toNat + (2 : Byte).toNat ≤ 64 ∧ (31 : BitVec 16).toNat + (1 : Byte).toNat ≤ 32 ∧
      Loaded 10 3 11 ∧ protectedKind 11 = true ∧ Loaded 31 1 31 ∧ protectedKind 31 = false := by
  refine ⟨acts_all true (by decide +kernel), ?_⟩
  unfold Loaded; decide +kernel

theorem test_witness_PanelAndTouchLoads :
    (∀ b ∈ [blockOf toAll 11 (9 :: loadRest 0 5 [0, 0, 255, 0, 255]), blockOf toAll 11 (9 :: loadRest 4 1 [255]),
        blockOf toAll 11 (10 :: loadRest 0 4 [0, 0, 0xFF, 0xFF, 0, 0, 0, 1]),
        blockOf toAll 11 (10 :: loadRest 3 1 [0, 1])], State.reset.Acts b) ∧
      Loaded 0 5 4 ∧ ¬ Loaded 4 1 0 ∧ Loaded 0 4 3 ∧ ¬ Loaded 3 1 0 := by
  refine ⟨acts_all true (by decide +kernel), ?_⟩
  unfold Loaded; decide +kernel

theorem test_witness_EventsAndLinesLoads :
    (∀ b ∈ [blockOf toAll 11 (11 :: loadRest 0 40 (List.replicate 40 0)), blockOf toAll 11 (11 :: loadRest 39 1 [7]),
        blockOf toAll 11 (12 :: loadRest 0 4 [1, 2, 3, 2]), blockOf toAll 11 (12 :: loadRest 3 1 [0])],
      State.reset.Acts b) ∧
      (Loaded 0 4 0 ∧ (lineOfByte 0 1).config ≠ State.reset.lines[0].entry.config ∧
        State.reset.lines[0].entry.config = .input) ∧
      (lineOfByte 1 2).config = State.reset.lines[1].entry.config ∧ ¬ Loaded 3 1 0 ∧
      ((lineOfByte 3 0).config = .input ∧ (lineOfByte 3 2).config = .attention ∧ (lineOfByte 3 1).config = .output) ∧
      (State.reset.setLevel (.lineIn 0) true).ev.raw.getLsbD 4 = true := by
  refine ⟨acts_all true (by decide +kernel), ?_⟩
  unfold Loaded; decide +kernel

theorem test_witness_LoadRangeIsJudged :
    (∀ b ∈ [blockOf toAll 11 (2 :: loadRest 0 1 [7]), blockOf toAll 11 (3 :: loadRest 32 255 []),
        blockOf toAll 11 (12 :: loadRest 0 0 []), blockOf toAll 11 (2 :: loadRest 63 2 [1, 2])], State.reset.Acts b) ∧
      ((63 : BitVec 16).toNat + (1 : Byte).toNat = 64 ∧ (1 : Byte).toNat < (2 : Byte).toNat ∧
        (1 : Byte).toNat * 2 ≤ [(1 : Byte), 2].length ∧
        (Instr.channelsLoad toAll (loadRest 63 1 [1, 2])).sentBlock = some { blockOf toAll 11 (2 :: loadRest 63 2 [1, 2]) with
          body := 2 :: loadRest 63 1 [1, 2] }) ∧
      arrivalTable 2 = some (64, 2) ∧ [(7 : Byte)].length < (min (0 + 1) 64 - 0) * 2 ∧ arrivalTable 3 = some (32, 1) ∧
      32 ≤ (32 : BitVec 16).toNat ∧ arrivalTable 12 = some (4, 1) ∧
      (Instr.channelsLoad toAll (loadRest 0 1 [7])).sentBlock = some (blockOf toAll 11 (2 :: loadRest 0 1 [7])) := by
  exact ⟨acts_all true (by decide +kernel), by decide +kernel⟩

theorem test_witness_UndefinedIdOrActionIsFormatError :
    (∀ b ∈ [blockOf toAll 11 [13, 0, 0, 0], blockOf toAll 11 [255, 0, 0, 0]], State.reset.Acts b) ∧
      (∀ b ∈ [blockOf toAll 9 [3], blockOf toAll 9 [255]], State.reset.Acts b) :=
  ⟨acts_all true (by decide +kernel), acts_all false (by decide +kernel)⟩

theorem test_witness_BlankAndUnblank :
    running.RowsOnce ∧ running.seq.state = .running ∧ watching.seq.state = .blanked ∧
      (∀ b ∈ [blockOf toAll 9 [1], blockOf toAll 9 [2]], running.Acts b) ∧
      (∀ b ∈ [blockOf toAll 9 [1], blockOf toAll 9 [2]], watching.Acts b) := by
  refine ⟨?_, by decide +kernel, by decide +kernel, acts_all false (by decide +kernel), acts_all false (by decide +kernel)⟩
  unfold State.RowsOnce; decide +kernel

theorem test_witness_ZoneSetReplacesItsRecord :
    ∀ b ∈ [blockOf toAll 8 [15, 7, 16, 15, 0, 255, 9, 255, 255, 2, 0, 1, 255],
        blockOf toAll 8 [16], blockOf toAll 8 [254], blockOf toAll 8 [0, 1, 2, 3, 4, 5, 6, 7, 8, 9, 10, 11],
        blockOf toAll 8 [0xFF]], State.reset.Acts b :=
  acts_all false (by decide +kernel)

theorem test_witness_ManagementBlocks :
    ∀ b ∈ [blockOf toAll 12 [1, 2], blockOf toAll 13 [0xFF, 0, 0, 0xFF], blockOf toAll 14 [], blockOf toAll 15 [0xA5],
        blockOf toAll 16 [], blockOf toAll 17 [], blockOf toAll 18 [], blockOf toAll 19 [9]], State.reset.Acts b :=
  acts_all true (by decide +kernel)

theorem test_witness_StatusQueryReportsTheState : State.reset.Acts (blockOf toAll 12 [1, 2]) :=
  test_witness_ManagementBlocks _ (by simp)

theorem test_witness_EventClearClearsTheNamed : State.reset.Acts (blockOf toAll 13 [0xFF, 0, 0, 0xFF]) :=
  test_witness_ManagementBlocks _ (by simp)

theorem test_witness_EventTestMakesTestOccur : State.reset.Acts (blockOf toAll 14 []) :=
  test_witness_ManagementBlocks _ (by simp)

theorem test_witness_LineSetWritesTheNamedLatches :
    State.reset.Acts (blockOf toAll 15 [0xA5]) ∧
      (let line : SignalLine := ⟨⟨.output, false, false⟩, false, none, false⟩
       ({ State.reset with lines := .replicate 4 line } : State).lines[3].entry.config = .output) :=
  ⟨test_witness_ManagementBlocks _ (by simp), rfl⟩

theorem test_witness_TerminalResetLeavesResetValues :
    (∀ b ∈ [blockOf ⟨0x80, 0, 9⟩ 18 []], (after (.storeCommit toAll []) State.reset).Acts b) ∧
      (after (.storeCommit toAll []) State.reset).store.commit = .programming State.reset.workingTables ∧
      State.reset.Acts (blockOf toAll 18 []) ∧ State.reset.store.commit = .idle ∧
      State.reset.store.image.good = true :=
  ⟨acts_all true (by decide +kernel), by decide +kernel, test_witness_ManagementBlocks _ (by simp), rfl,
    by simp [StoredImage.good, State.reset]⟩

theorem test_witness_CommitAndItsCompletion :
    (State.reset.store.commit = .idle ∧ State.reset.store.commits < 10000) ∧
      (after (.storeCommit toAll []) State.reset).store.commit ≠ .idle ∧
      (∀ b ∈ [blockOf ⟨0x80, 0, 1⟩ 16 []], (after (.storeCommit toAll []) State.reset).Acts b) :=
  ⟨by decide +kernel, by decide +kernel, acts_all true (by decide +kernel)⟩

theorem test_witness_StoreFactoryRestoresDefaults :
    State.reset.Acts (blockOf toAll 17 []) ∧ (State.reset.ren.busy = false → State.reset.ren.notices = []) ∧
      ({ State.reset.ren with busy := true } : Render).busy = true ∧
      (⟨⟨.output, true, true⟩, true, none, false⟩ : SignalLine).entry.config ≠ .input :=
  ⟨test_witness_ManagementBlocks _ (by simp), fun _ => rfl, rfl, by decide⟩

theorem test_witness_PowerOnResetLeavesResetValues :
    (State.reset.store.commit = .idle ∧ State.reset.store.image.good = true) ∧
      (StoredImage.mk factoryTables (factoryTables.crc + 1)).good = false := by
  have h (x : BitVec 16) : (x + 1 == x) = false := by simp
  exact ⟨⟨rfl, by simp [StoredImage.good, State.reset]⟩, h _⟩

theorem test_witness_CompositeOfRowIsCellByCell :
    (State.reset.ren.windows[0].enabled = true ∧ State.reset.ren.windows[0].rect.contains 511 511 = true ∧
        ∀ j : Fin 8, 0 < j → State.reset.ren.windows[j].enabled = true →
          State.reset.ren.windows[j].rect.contains 511 511 = false) ∧
      ∀ k : Fin 8, ({ State.reset.ren with windows := .replicate 8 Window.unused } : Render).windows[k].enabled = true →
        ({ State.reset.ren with windows := .replicate 8 Window.unused } : Render).windows[k].rect.contains 0 0 = false := by
  decide +kernel

/-- A FILL of the cell (3, 40) in TEXT, taken, with its one row write still to do. -/
def filling : State := after .fill (queued .fill [0, 1, 0, 0, 3, 0, 40, 0, 3, 0, 40])

theorem test_witness_PlanesWrittenOnlyByTheirWriters :
    (Instr.windowSet).wf = true ∧ (queued .windowSet [0]).rx.state = .hunting ∧
      (∃ t, exec .windowSet (queued .windowSet [0]) = .next t) ∧
      Instr.windowSet ∉ [Instr.imageStripe, .readyStripe, .imageClose, .text, .fill, .echoRequest, .eraseAll] ∧
      filling.rx.state = .hunting ∧ filling.ren.stages ≠ [] ∧ filling.perform.ren.text ≠ filling.ren.text := by
  refine ⟨by decide +kernel, by decide +kernel, ⟨_, rfl⟩, by decide +kernel, by decide +kernel, by decide +kernel, fun h => ?_⟩
  have : (filling.perform.ren.text[40]).getLsbD 3 = (filling.ren.text[40]).getLsbD 3 := by rw [h]
  revert this; decide +kernel

theorem test_witness_offers (k : WorkKind) (body : List Byte) :
    (queued k body).ren.Offers ⟨k, 0, .bulk, body⟩ [] := by
  refine ⟨⟨rfl, rfl, rfl⟩, rfl, rfl, rfl⟩

theorem test_witness_EraseAllClearsPlanesAndMarksRows :
    (queued .eraseAll [0]).ren.Offers ⟨.eraseAll, 0, .bulk, [0]⟩ [] := test_witness_offers .eraseAll [0]

theorem test_witness_WindowSetReplacesAndMarks :
    (byteAt (8 :: List.replicate 10 0) 0).toNat = 8 ∧
      windowOfBody (0 :: 0x0F :: List.replicate 9 0xFF) ≠ State.reset.ren.windows[0] ∧
      windowOfBody (1 :: List.replicate 10 0) = State.reset.ren.windows[1] ∧
      (byteAt (7 :: List.replicate 10 0) 0).toNat = 7 := by
  decide +kernel

theorem test_witness_FillWritesTheCommonCells :
    (∀ body, (queued .fill body).ren.Offers ⟨.fill, 0, .bulk, body⟩ []) ∧
    (byteAt [7, 2, 2] 0).toNat = 7 ∧ planeOfCode (byteAt [7, 2, 2] 1) = some .mark ∧
      fillOpOfCode (byteAt [7, 2, 2] 2) = some .invert ∧ 8 ≤ (byteAt [8, 2, 2] 0).toNat ∧
      3 ≤ (byteAt [7, 3, 2] 1).toNat ∧ 3 ≤ (byteAt [7, 2, 3] 2).toNat :=
  ⟨test_witness_offers .fill, by decide +kernel⟩

theorem test_witness_EchoInvertsAndTwoCancel :
    let e : EchoRequest := ⟨3, 127, 511, 500⟩
    ({ State.reset.ren with echoes := [e, e] } : Render).AtRest := ⟨rfl, rfl, rfl⟩

theorem test_witness_TextDrawsItsBox :
    (∀ body, (queued .text body).ren.Offers ⟨.text, 0, .bulk, body⟩ []) ∧
    (6 < ([0, 0, 0, 1, 0, 0] ++ List.replicate 201 (0x81 : Byte)).length ∧
      206 < ([0, 0, 0, 1, 0, 0] ++ List.replicate 201 (0x81 : Byte)).length ∧ ([0, 0, 0, 1, 0, 0] : List Byte).length ≤ 6) ∧
    (byteAt [0, 31, 63, 1, 0, 0, 0x41] 0).toNat = 0 ∧ [0, 31, 63, 1, 0, 0, 0x41].drop 6 = [(0x41 : Byte)] ∧
      (0x41 : Byte) ≠ 0x80 ∧ 0 + 8 * 1 * 63 ≤ State.reset.ren.windows[0].rect.x1.val ∧
      0 + 16 * 1 * 31 ≤ State.reset.ren.windows[0].rect.y1.val ∧ State.reset.ren.windows[0].rect.y1.val < 0 + 16 * 1 * 32 :=
  ⟨test_witness_offers .text, by decide +kernel⟩

theorem test_witness_TextCodesAreLaidOut :
    let r : Rect := ⟨100, 200, 139, 240⟩
    (r.x0.val + 8 * 1 * 4 ≤ r.x1.val ∧ r.y0.val + 16 * 1 * 2 ≤ r.y1.val) ∧
      (r.x1.val < r.x0.val + 8 * 1 * 5 ∧ r.x0.val + 8 * 1 * 2 ≤ r.x1.val ∧ r.y0.val + 16 * 1 * (1 + 1) ≤ r.y1.val) ∧
      (r.x1.val < r.x0.val + 8 * 1 * 5 ∧ r.x1.val < r.x0.val + 8 * 1 * 6) ∧
      (r.x0.val + 8 * 1 * 2 ≤ r.x1.val ∧ r.y1.val < r.y0.val + 16 * 1 * 3) := by
  decide +kernel

theorem test_witness_RenderPathLoadsWriteTheirTables :
    (∀ k body, (queued k body).ren.Offers ⟨k, 0, .bulk, body⟩ []) ∧
    (63 : BitVec 16).toNat + (1 : Byte).toNat ≤ 64 ∧ (511 : BitVec 16).toNat + (1 : Byte).toNat ≤ 512 ∧
      16 * (1 : Byte).toNat ≤ (List.replicate 16 (7 : Byte)).length ∧ Loaded 511 1 511 ∧ ¬ Loaded 511 1 510 ∧
      ((3 : BitVec 16).toNat + (1 : Byte).toNat ≤ 4 ∧ State.reset.ren.weights.sum ≤ 16) ∧
      ([] : List Byte).length < (min (0 + 1) 4 - 0) * 1 ∧ 4 ≤ (4 : BitVec 16).toNat ∧
      ((3 : BitVec 16).toNat + (1 : Byte).toNat = 4 ∧ (1 : Byte).toNat < (255 : Byte).toNat ∧
        (1 : Byte).toNat * 1 ≤ [(9 : Byte)].length) := by
  refine ⟨test_witness_offers, ?_⟩
  unfold Loaded; decide +kernel

/-- The body of an IMAGE-OPEN of an image, with the parameters of `openSlot` and a method code. -/
def openBody (n m : Byte) : List Byte := [n, 0, 0, 4, 0, 2, 1, 0, 100, 0, 40, m, 0, 1]

/-- A state whose four slots hold images 5, 6, 7 and 8. -/
def fourOpen : State :=
  let s := withSlot (openSlot .diffusion) (queued .imageOpen (openBody 9 1))
  { s with
    rx := { s.rx with lastCount := 3 }
    ren := ((s.ren.setSlot 1 { openSlot .threshold with image := 6, activity := 1 }).setSlot 2
      { openSlot .threshold with image := 7 }).setSlot 3 { openSlot .threshold with image := 8, activity := 2 } }

theorem test_witness_ImageOpenTakesItsSlot :
    imageParamsOf 0 (openBody 5 1) = some (openSlot .diffusion).params ∧
      imageParamsOf 0 (openBody 5 0) = some (openSlot .threshold).params ∧
      imageParamsOf 0 [5, 8, 0, 4, 0, 2] = none ∧
      (State.reset.ren.slots[0].state = .free ∧ ∀ j : Fin 4, State.reset.ren.slots[j].state = .free) ∧
      (∀ j : Fin 4, fourOpen.ren.slots[j].state ≠ .free ∧ fourOpen.ren.slots[j].image ≠ 9) ∧
      (∀ j : Fin 4, (fourOpen.rx.lastCount - fourOpen.ren.slots[j].activity).toNat ≤
          (fourOpen.rx.lastCount - fourOpen.ren.slots[0].activity).toNat) ∧
      (fourOpen.ren.slots[0].image = 5 ∧ ∀ j : Fin 4, fourOpen.ren.slots[j].image = 5 → j = 0) := by
  decide +kernel

theorem test_witness_StripeDiscardedOrHeld :
    let s := withSlot (openSlot .diffusion) (queued .imageStripe [5, 0, 1, 0x3F])
    let held : HeldStripe := ⟨5, 1, List.replicate 4 0, .bulk⟩
    (s.ren.slots[0].state = .opened ∧ s.ren.slots[0].image = 5 ∧
        (∀ j : Fin 4, s.ren.slots[j].state ≠ .free → s.ren.slots[j].image = 5 → j = 0) ∧
        s.ren.slots[0].params.stripeCount = 2 ∧ s.ren.slots[0].received.getLsbD 1 = false ∧ s.ren.slots[0].next < 1 ∧
        s.ren.held.length < 4) ∧
      (∀ j : Fin 4, s.ren.slots[j].state ≠ .free → s.ren.slots[j].image ≠ 6) ∧
      ∃ g ∈ ({ s.ren with held := [held] } : Render).held, g.image = 5 ∧ g.index = 1 := by
  decide +kernel

theorem test_witness_ThresholdStripeDrawnCellByCell :
    (∀ c : Slot, (withSlot c (queued .imageStripe [5, 0, 1, 0x3F])).ren.Offers ⟨.imageStripe, 0, .bulk, [5, 0, 1, 0x3F]⟩ []) ∧
    ∀ st ∈ [SlotState.opened, .closing],
    let s := withSlot { openSlot .threshold with state := st } (queued .imageStripe [5, 0, 1, 0x3F])
    let c := s.ren.slots[0]
    c.state ≠ .free ∧ c.image = 5 ∧ c.params.method = .threshold ∧ 1 ≤ c.params.scale ∧ 1 ≤ c.params.rows ∧
      1 ≤ c.params.width ∧ c.params.x0 ≤ 511 ∧ 1 < c.params.stripeCount ∧ c.received.getLsbD 1 = false ∧
      (∀ j : Fin 4, s.ren.slots[j].state ≠ .free → s.ren.slots[j].image = 5 → j = 0) ∧
      ({ c with received := 3 } : Slot).complete = true ∧ ({ c with received := 2 } : Slot).complete = false := by
  exact ⟨fun c => ⟨⟨rfl, rfl, rfl⟩, rfl, rfl, rfl⟩, by decide +kernel⟩

/-- A state whose slot 0 holds a DIFFUSION image of 2 stripes at `next`, with `received`. -/
def diffusing (next : Nat) (received : StripeSet) (body : List Byte) : State :=
  withSlot { openSlot .diffusion with next := next, received := received } (queued .imageStripe body)

/-- The contexts of a state with one slot in use, of the parameters of `openSlot`, are sound where its own are. -/
theorem contextsSound_of_one (s : State) (st : s.ren.stages = []) (hs : ∀ k : Fin 4, k ≠ 0 → s.ren.slots[k].state = .free)
    (hp : s.ren.slots[0].params = (openSlot .diffusion).params) (hn : s.ren.slots[0].next ≤ 2)
    (hrec : s.ren.slots[0].received.toNat < 4)
    (hh : ∀ h ∈ s.ren.held, s.ren.slots[0].state = .opened ∧ s.ren.slots[0].image = h.image ∧
      s.ren.slots[0].next < h.index ∧ h.index < 2 ∧ s.ren.slots[0].received.getLsbD h.index = false)
    (hnd : (s.ren.held.map (fun h => (h.image, h.index))).Nodup)
    (hd : ∀ h, s.ren.ready = some h → s.ren.slots[0].state = .opened ∧ s.ren.slots[0].image = h.image ∧
      s.ren.slots[0].next = h.index ∧ h.index < 2 ∧ s.ren.slots[0].received.getLsbD h.index = false) :
    s.ContextsSound := by
  have hc : s.ren.slots[0].params.stripeCount = 2 := by rw [hp]; rfl
  have hm : s.ren.slots[0].params.method = .diffusion := by rw [hp]; rfl
  have key : ∀ k : Fin 4, s.ren.slots[k].state ≠ .free → k = 0 := fun k hk => by
    by_contra h; exact hk (hs k h)
  refine ⟨⟨fun j k hj hk _ => (key j hj).trans (key k hk).symm, fun k hk => ?_, fun h hmem => ?_, hnd, fun h hready => ?_⟩,
    fun c hmem => by simp [st] at hmem, fun h => absurd st h⟩
  · have h0 := key k hk
    subst h0
    refine ⟨?_, hc.trans_le (by omega), hn.trans_eq hc.symm, fun i hi => ?_, fun h => absurd (h.symm.trans hm) (by decide)⟩
    · simp only [Render.contexts]
      exact hp ▸ by decide +kernel
    · by_contra hge
      have h2 : 2 ≤ i := Nat.le_of_not_lt fun h => hge (h.trans_eq hc.symm)
      have : s.ren.slots[0].received.getLsbD i = false := by
        rw [BitVec.getLsbD]
        exact Nat.testBit_lt_two_pow (by have := Nat.pow_le_pow_right (n := 2) (by omega) h2; omega)
      exact absurd (hi.symm.trans this) (by decide)
  · obtain ⟨h1, h2, h3, h4, h5⟩ := hh h hmem
    exact ⟨0, h1, h2, hm, h3, h4.trans_eq hc.symm, h5⟩
  · obtain ⟨h1, h2, h3, h4, h5⟩ := hd h hready
    exact ⟨0, fun h => absurd (h1.symm.trans h) (by decide), h2, hm, h3, h4.trans_eq hc.symm, h5⟩

/-- A CLOSING slot 0 of a DIFFUSION image of 2 stripes, both missing, with stripe 1 at the head of the render queue. -/
def closingAhead : State :=
  withSlot { openSlot .diffusion with state := .closing } (queued .imageStripe [5, 0, 1])

/-- An OPEN slot 0 of a DIFFUSION image of 2 stripes, stripe 1 held, with an IMAGE-CLOSE at the head of the queue. -/
def closingHeld : State :=
  let s := withSlot (openSlot .diffusion) (queued .imageClose [5])
  { s with ren := { s.ren with held := [⟨5, 1, [1, 2, 3, 4], .urgent⟩] } }

/-- The slot and queues that the witnesses of the image statements share. -/
theorem sound_diffusing : (diffusing 0 0 [5, 0, 0]).ContextsSound ∧ (diffusing 2 2 [5, 0, 0]).ContextsSound ∧
    ({ diffusing 1 1 [] with
        ren := { (diffusing 1 1 []).ren with ready := some ⟨5, 1, [], .bulk⟩ } } : State).ContextsSound ∧
    closingAhead.ContextsSound ∧ closingHeld.ContextsSound := by
  refine ⟨contextsSound_of_one _ rfl ?_ ?_ ?_ ?_ (fun h hm => nomatch hm) ?_ (fun h hr => nomatch hr),
    contextsSound_of_one _ rfl ?_ ?_ ?_ ?_ (fun h hm => nomatch hm) ?_ (fun h hr => nomatch hr),
    contextsSound_of_one _ rfl ?_ ?_ ?_ ?_ (fun h hm => nomatch hm) ?_ (fun h hr => ?_),
    contextsSound_of_one _ rfl ?_ ?_ ?_ ?_ (fun h hm => nomatch hm) ?_ (fun h hr => nomatch hr),
    contextsSound_of_one _ rfl ?_ ?_ ?_ ?_ ?_ ?_ (fun h hr => nomatch hr)⟩
  all_goals first
    | decide +kernel
    | (obtain rfl := Option.some.inj hr; decide +kernel)

theorem test_witness_DiffusionStripeInOrderOrLate :
    ((diffusing 0 0 [5, 0, 0]).ContextsSound ∧ (diffusing 0 0 [5, 0, 0]).ren.slots[0].received.getLsbD 0 = false) ∧
      ((diffusing 2 2 [5, 0, 0]).ContextsSound ∧ 0 < (diffusing 2 2 [5, 0, 0]).ren.slots[0].next ∧
        (diffusing 2 2 [5, 0, 0]).ren.slots[0].received.getLsbD 0 = false) ∧
      ({ diffusing 1 1 [] with
          ren := { (diffusing 1 1 []).ren with ready := some ⟨5, 1, [], .bulk⟩ } } : State).ContextsSound ∧
      closingAhead.ContextsSound ∧ closingAhead.ren.AtRest ∧
        (closingAhead.ren.slots[0].next < 1 ∧ closingAhead.ren.slots[0].state = .closing ∧
          1 < closingAhead.ren.slots[0].params.stripeCount ∧ closingAhead.ren.slots[0].received.getLsbD 1 = false) :=
  ⟨⟨sound_diffusing.1, by decide +kernel⟩, ⟨sound_diffusing.2.1, by decide +kernel⟩, sound_diffusing.2.2.1,
    sound_diffusing.2.2.2.1, ⟨rfl, rfl, rfl⟩, by decide +kernel⟩

theorem test_witness_CloseAndAbortEndTheImage :
    (closingHeld.ContextsSound ∧ closingHeld.ren.Offers ⟨.imageClose, 0, .bulk, [5]⟩ [] ∧
      closingHeld.ren.slots[0].state = .opened ∧ closingHeld.ren.slots[0].image = 5) ∧
    let s := withSlot (openSlot .diffusion) (queued .imageClose [5])
    s.ren.slots[0].state = .opened ∧ s.ren.slots[0].image = 5 ∧ (∀ g ∈ s.ren.held, g.image ≠ 5) ∧
      s.ren.slots[0].params.method = .diffusion ∧
      (withSlot { openSlot .diffusion with state := .closing } (queued .imageClose [5])).ren.slots[0].state = .closing ∧
      ∀ j : Fin 4, (queued .imageAbort [5]).ren.slots[j].state ≠ .free → (queued .imageAbort [5]).ren.slots[j].image ≠ 5 :=
  ⟨⟨sound_diffusing.2.2.2.2, ⟨⟨rfl, rfl, rfl⟩, rfl, rfl, rfl⟩, by decide +kernel, by decide +kernel⟩, by decide +kernel⟩

/-- Which of the three stages it is. -/
def stageShape : Stage → Nat
  | .write _ _ => 0
  | .contexts _ => 1
  | .textClipped => 2

theorem test_witness_HeldNoticesAppliedInTurn :
    let s (n : List Notice) : State := { dueAtCadence with ren := { dueAtCadence.ren with busy := true, notices := n } }
    (s [.cadence, .factory]).ren.notices = .cadence :: [.factory] ∧ (s [.factory]).ren.notices = .factory :: [] ∧
      (s []).ren.notices.head? ≠ some .cadence ∧ filling.row.attempting = false ∧
      (filling.pending = [] ∧ filling.ren.stages.map stageShape = [0]) ∧
      ((after .imageStripe (diffusing 0 0 [5, 0, 0, 0x3F])).ren.stages.map stageShape = [0, 1]) ∧
      (after .text (queued .text [0, 32, 0, 1, 0, 0, 0x41])).ren.stages = [.textClipped] ∧
      (let b : State := { filling with ren := { filling.ren with queue := [⟨.windowSet, 0, .bulk, [8]⟩] } }
       b.ren.busy = true ∧ b.endPiece.ren.queue ≠ [] ∧ (after .windowSet b.endPiece).ren.queue = []) :=
  ⟨by decide +kernel, by decide +kernel, by decide +kernel, by decide +kernel, by decide +kernel, by decide +kernel,
    by decide +kernel, by decide +kernel⟩

theorem test_witness_ExpiredCountsFreeAndLapse :
    (openSlot .diffusion).idle < 50 ∧
      (let c := { openSlot .diffusion with state := .closing, closing := 8 }
       (withSlot c State.reset).ren.slots[0].state = .closing ∧ 8 ≤ (withSlot c State.reset).ren.slots[0].closing) ∧
      (let c := { openSlot .diffusion with idle := 50 }
       (withSlot c State.reset).ren.slots[0].state = .opened ∧ 50 ≤ (withSlot c State.reset).ren.slots[0].idle) ∧
      State.reset.cls.chanState[63].present = false ∧ 8 ≤ (⟨none, true, 8⟩ : ChannelState).lapse := by
  decide +kernel

/-- A state in RUNNING with one service in the sense queue and one retry operation. -/
def serving (p : Phase) (retry : List AddressOp) : State :=
  { running with row := { running.row with sense := [⟨200, 1, 1, 0, p⟩], retry := retry, bulk := [10] } }

theorem test_witness_AddressSlotGoesToItsSource :
    State.reset.seq.state = .off ∧
      (let s : State := { running with seq := { running.seq with state := .starting, sweeping := true, sweepPos := 511 } }
       s.seq.sweeping = true ∧ s.seq.sweepPos = (511 : RowNo).val) ∧
      (serving .refreshing [⟨.write, 200, 1⟩]).row.retry = ⟨.write, 200, 1⟩ :: [] ∧
      ((serving (.issuing 2) []).row.sense = [] ++ ⟨200, 1, 1, 0, .issuing 2⟩ :: [] ∧ (serving (.issuing 2) []).row.retry = []) ∧
      ((serving (.settling none) []).row.AllInFlight [200] ∧ (serving (.settling none) []).row.mirrorKnown = true ∧
        (serving (.settling none) []).row.sense.length < 4 ∧ (serving (.settling none) []).row.attempting = false) := by
  unfold RowEngine.AllInFlight; decide +kernel

theorem test_witness_RowStartServesTheArbitersRow :
    (serving (.settling (some 1)) []).row.Takes 4 .bulk 10 ∧ lists510.Takes 1 .urgent 304 ∧
      ({ lists510 with run := 4 } : RowEngine).Takes 4 .bulk 10 ∧
      (serving (.settling (some 1)) []).row.mirrorKnown = true ∧
      (∀ v ∈ (serving (.settling (some 1)) []).row.sense, v.phase = .settling (some 1)) ∧
      (serving (.settling (some 1)) []).row.mirror[(10 : RowNo)] = some 0 ∧
      (let s := after .addressSlot idleRow
       s.row.attempting = true ∧ s.pending = [] ∧ s.ren.busy = false ∧ s.seq.state = .running ∧ s.row.retry = [] ∧
         s.row.sense = [] ∧ s.row.mirrorKnown = true ∧ s.row.bulk = [] ∧ s.row.urgent = [] ∧
         (after .windowSet s).ren.busy = true ∧ (after .windowSet s).row.attempting = true) := by
  have none_before (r : RowEngine) : ∀ z ∈ ([] : List RowNo), ∃ v ∈ r.sense, v.row = z := fun _ h => nomatch h
  refine ⟨⟨Or.inl (Or.inr rfl), [], [], rfl, none_before _, by decide +kernel⟩,
    ⟨Or.inl ?_, [], [305, 306], rfl, none_before _, by decide +kernel⟩,
    ⟨Or.inl (Or.inl ⟨Nat.le_refl 4, fun h => nomatch h⟩), [], [11, 12, 13], rfl, none_before _, by decide +kernel⟩, ?_⟩
  · unfold RowEngine.BulkFirst; decide +kernel
  · decide +kernel

theorem test_witness_SenseCompletionDecidesTheService :
    (serving (.settling (some 1)) []).row.sense = [] ++ ⟨200, 1, 1, 0, .settling (some 1)⟩ :: [] ∧
      (∃ n, (⟨200, 1, 1, 0, .settling (some 1)⟩ : Service).phase = .settling (some n) ∧ n ≤ 1) ∧
      (serving (.settling (some 1)) []).row.sensed = false ∧ (serving (.settling (some 1)) []).row.attempting = false ∧
      (serving (.settling (some 1)) []).RowsOnce ∧
      (serving (.settling (some 1)) []).seq.panel.retries = 2 ∧ (200 : RowNo) ∉ (serving .refreshing []).row.faults := by
  refine ⟨rfl, ⟨1, rfl, by decide⟩, rfl, rfl, ?_, by decide +kernel, by decide +kernel⟩
  unfold State.RowsOnce; decide +kernel

theorem test_witness_FaultListEmptiedOnlyByFaultClear :
    (Instr.powerGoodFall).wf = true ∧ running.rx.state = .hunting ∧ ∃ t, exec .powerGoodFall running = .next t :=
  ⟨by decide +kernel, by decide +kernel, ⟨_, rfl⟩⟩

theorem test_witness_PanelFollowsPowerSweepsAndTimer :
    (State.reset.seq.powerGood = false ∧ State.reset.seq.state = .off ∧ State.reset.AttentionExact) ∧
      (running.seq.powerGood = true ∧ running.AttentionExact ∧ running.RowsOnce ∧ running.row.Empty ∧
        running.seq.sweeping = false) ∧
      (dueAtCadence.seq.panel.blankTimeout ≠ 0 ∧ dueAtCadence.seq.state = .running ∧ dueAtCadence.rx.state = .hunting ∧
        dueAtCadence.seq.panel.blankTimeout * 600 ≤ min (dueAtCadence.seq.blankTimer + 1) 153000 ∧
        dueAtCadence.RowsOnce) := by
  unfold State.AttentionExact State.RowsOnce RowEngine.Empty; decide +kernel

/-- A state in RUNNING whose touch unit accepts every sample, with zone 15 on the corner (15, 15). -/
def touched (d : PanelState) : State :=
  { running with
    seq := { running.seq with state := d }
    touch := { running.touch with
      table := { factoryTouch with debounce := 1 }
      zones := running.touch.zones.set 15 ⟨true, 15, 15, 15, 15, 7, true, some ⟨0, 0, 0, 0⟩⟩ } }

theorem test_witness_ScanAnswersThePress :
    (∀ d ∈ [PanelState.running, .blanked], (touched d).touch.pressHeld = false ∧
        ∀ n : Fin 4, (touched d).lines[n].entry.report = false) ∧
      (let t := after (.scan ⟨0x8000, 0x8000, false, false, 0⟩) (touched .running)
       t.touch.pressHeld = true ∧ (∀ n : Fin 16, t.touch.xBeams[n].broken = true ↔ 15 ≤ n ∧ n ≤ (15 : Fin 16)) ∧
         (∀ n : Fin 16, t.touch.yBeams[n].broken = true ↔ 15 ≤ n ∧ n ≤ (15 : Fin 16))) ∧
      (let t := after (.scan ⟨0x8001, 1, false, false, 0⟩) (touched .running)
       t.touch.pressHeld = true ∧ t.touch.xBeams[0].broken = true ∧ t.touch.xBeams[1].broken = false ∧
         t.touch.xBeams[15].broken = true) ∧
      (after (.scan ⟨1, 1, false, false, 0⟩) (touched .blanked)).touch.pressHeld = true ∧
      (let s := { touched .running with
          touch := { (touched .running).touch with table := { factoryTouch with debounce := 1, strays := true } }
          tx := { State.reset.tx with queue := List.replicate 16 (.line 0 true 0) } }
       s.touch.table.strays = true ∧ 16 ≤ s.tx.queue.length ∧
         (∀ k : Fin 16, ¬ (s.touch.zones[k].armed = true ∧ s.touch.zones[k].tx0 ≤ 0)) ∧
         (after (.scan ⟨1, 1, false, false, 0⟩) s).touch.pressHeld = true ∧
         (after (.scan ⟨1, 1, false, false, 0⟩) s).tx = s.tx) := by
  decide +kernel

theorem test_witness_ScanDebouncesAndHoldsThePress :
    (touched .running).touch.pressHeld = false ∧
      (let t := after (.scan ⟨1, 1, false, false, 0⟩) (touched .running)
       t.touch.pressHeld = true ∧ (after (.scan ⟨0, 0, false, false, 0⟩) t).touch.pressHeld = false) := by
  decide +kernel

theorem test_witness_ScanSamplesTheInputLines :
    let s := after (.scan ⟨1, 1, false, false, 0⟩) (touched .running)
    s.touch.pressHeld = true ∧ (touched .running).touch.pressHeld = false ∧ s.tx.queue.length = 0 ∧
      (after (.scan ⟨0, 1, false, false, 0⟩) (touched .running)).touch.pressHeld = false ∧
      s.acc.fitted = false ∧ s.lines[3].entry.config = .input ∧
      s.lines[3].lastSample = some false ∧
      (let t := { s with
          acc := { s.acc with fitted := true }
          lines := (s.lines.set 0 ⟨⟨.input, true, false⟩, false, none, false⟩).set 1 ⟨⟨.output, false, true⟩, true, none, false⟩ }
       t.touch.pressHeld = true ∧ t.acc.fitted = true ∧ t.lines[0].lastSample = none ∧ t.lines[0].entry.config = .input ∧
         t.lines[1].entry.config ≠ .input) := by
  decide +kernel

theorem test_witness_FramesFollowTheGrant :
    State.reset.tx.state = .waiting ∧ (after .grantAsserted State.reset).tx.state = .qualifying ∧
      (after .frameBegin (after .grantAsserted State.reset)).tx.state = .sending ∧
      (after .frameBegin (after .grantAsserted State.reset)).tx.frame.isSome = true := by
  decide +kernel

theorem test_witness_AccessoryHandshakeFollowsItsTable :
    State.reset.AttentionExact ∧ State.reset.acc.state = .idle ∧ nearlyFull.acc.state = .strobed ∧
      nearlyFull.acc.buffer = 0 :: List.replicate 239 0 ∧ (after .ackTimeout nearlyFull).acc.state = .stalled ∧
      (after .busyAsserted nearlyFull).acc.busy = true := by
  unfold State.AttentionExact; decide +kernel

theorem test_witness_invariants :
    (∃ t, step State.reset = .next t) ∧ State.reset.QueuesBounded ∧ State.reset.RectanglesOrdered ∧
      State.reset.CountsInRange := by
  refine ⟨⟨_, rfl⟩, ?_, ?_, ?_⟩
  · exact ⟨(fun c h => nomatch h), by decide +kernel⟩
  · unfold State.RectanglesOrdered; decide +kernel
  · unfold State.CountsInRange
    refine ⟨by decide +kernel, ?_, (fun x h => nomatch h), (fun v h => nomatch h), by decide +kernel, by decide +kernel,
      by decide +kernel, by decide +kernel, by decide +kernel, by decide +kernel, fun h => absurd rfl h⟩
    unfold Slot.CountsInRange; decide +kernel

theorem test_witness_RowsWaitOnceAlways :
    (serving .refreshing []).RowsOnce ∧ ∃ t, step (serving .refreshing []) = .next t := by
  refine ⟨?_, ⟨_, rfl⟩⟩
  unfold State.RowsOnce; decide +kernel

theorem test_witness_StepKeepsContextsSound :
    (diffusing 0 0 [5, 0, 0]).ContextsSound ∧
      ∃ t, step { diffusing 0 0 [5, 0, 0] with pending := [.imageStripe] } = .next t :=
  ⟨sound_diffusing.1, ⟨_, rfl⟩⟩

theorem test_witness_StepKeepsTablesInRange : factoryTables.InRange := by
  unfold StoredTables.InRange; decide +kernel

theorem test_witness_StepKeepsErrorsBounded :
    (diffusing 0 0 [5, 0, 0]).ren.weights.sum ≤ 16 ∧
      (∀ e ∈ (diffusing 0 0 [5, 0, 0]).ren.slots[0].err.toList, e = 0) ∧ (diffusing 0 0 [5, 0, 0]).ContextsSound := by
  exact ⟨by decide +kernel, by decide +kernel, sound_diffusing.1⟩

/-- A window shows nothing of a row that is clear in every plane. -/
theorem shows_clear (w : Window) : w.shows 0 0 0 = 0 := by
  unfold Window.shows; simp only [ite_self]; cases w.mode <;> decide +kernel

/-- The composite of a row that is clear in every plane is all off. -/
theorem composite_clear (r : Render) (y : RowNo) (hi : r.image[y] = 0) (ht : r.text[y] = 0) (hm : r.mark[y] = 0) :
    r.composite y = 0 := by
  have hz (a b : RowBits) : (0 &&& a) ||| (0 &&& b) = 0 := by simp
  unfold Render.composite
  rw [hi, ht, hm]
  generalize r.windows.toList = ws
  induction ws with
  | nil => rfl
  | cons w ws ih => rw [List.foldl_cons, shows_clear, hz]; exact ih

theorem test_witness_MirrorEqualsCompositeWhenQuiet :
    running.MirrorSound ∧ running.RowsOnce ∧ running.row.Quiet := by
  refine ⟨⟨rfl, by decide +kernel, fun y => ?_⟩, ?_, ?_⟩
  · have h : running.ren.composite y = 0 := by
      apply composite_clear <;> simp [running, State.reset, Render.reset, blankPlane]
    exact Or.inr (Or.inr (Or.inr ⟨by simp [running, State.reset, RowEngine.reset], by rw [h]; simp [running]⟩))
  · unfold State.RowsOnce; decide +kernel
  · unfold RowEngine.Quiet RowEngine.Empty; decide +kernel

end Sys2Proof.Tests
end

