-- ==== Sys2Proof/Proofs/Composite.lean ====
section
/-! The composite of a row, cell by cell (R8 to R10): the fold of `Render.composite` over the windows of a whole row comes,
at each column, to what the window of `Render.governing` shows of the cell. -/

namespace Sys2Proof.Machine

/-- What a window shows of one cell where it governs, from the cell's bits in the three planes (R9). -/
def Window.cell (w : Window) (image text mark : Bool) : Bool :=
  let i := w.showImage && image
  let t := w.showText && text
  let m := w.showMark && mark
  (match w.mode with
    | .or => i || t
    | .xor => i != t
    | .mask => i && !t) != m

theorem Window.cell_clear (w : Window) : w.cell false false false = false := by
  unfold Window.cell
  cases w.mode <;> simp only [Bool.and_false] <;> rfl

theorem getLsbD_ite_zero (b : Bool) (row : RowBits) (x : Nat) :
    (if b then row else 0).getLsbD x = (b && row.getLsbD x) := by
  cases b <;> simp

/-- `Window.shows` is `Window.cell` at every column. -/
theorem Window.getLsbD_shows (w : Window) (image text mark : RowBits) {x : Nat} (hx : x < 512) :
    (w.shows image text mark).getLsbD x = w.cell (image.getLsbD x) (text.getLsbD x) (mark.getLsbD x) := by
  unfold Window.shows Window.cell
  cases w.mode with
  | or => simp only [BitVec.getLsbD_xor, BitVec.getLsbD_or, getLsbD_ite_zero]
  | xor => simp only [BitVec.getLsbD_xor, getLsbD_ite_zero]
  | mask =>
    simp only [BitVec.getLsbD_xor, BitVec.getLsbD_and, BitVec.getLsbD_not, getLsbD_ite_zero, hx, decide_true,
      Bool.true_and]

/-- A window covers the cells of its rectangle if it is enabled, and none otherwise (R8). -/
theorem Window.getLsbD_covered (w : Window) (y : Nat) {x : Nat} (hx : x < 512) :
    (w.covered y).getLsbD x = (w.enabled && w.rect.contains x y) := by
  rw [Window.covered, getLsbD_ite_zero, getLsbD_columns w.rect.x1.isLt hx, Rect.spansRow, Rect.contains,
    Bool.decide_and]
  ac_rfl

/-- Windows overlaid one after another on a blank row: a cell is the last window's that covers it, and off if none does. -/
theorem getLsbD_overlay (ws : List Window) (image text mark : RowBits) (y : Nat) {x : Nat} (hx : x < 512) :
    (ws.foldl (fun acc (w : Window) => (acc &&& ~~~(w.covered y)) ||| (w.shows image text mark &&& w.covered y))
        (0 : RowBits)).getLsbD x =
      ((ws.reverse.find? fun w => w.enabled && w.rect.contains x y).elim false fun w =>
        w.cell (image.getLsbD x) (text.getLsbD x) (mark.getLsbD x)) := by
  induction ws using List.reverseRecOn with
  | nil => simp
  | append_singleton ws w ih =>
    rw [List.foldl_append, List.foldl_cons, List.foldl_nil, List.reverse_append, List.reverse_singleton,
      List.singleton_append, List.find?_cons, BitVec.getLsbD_or, BitVec.getLsbD_and, BitVec.getLsbD_and,
      BitVec.getLsbD_not, Window.getLsbD_covered w y hx, Window.getLsbD_shows w _ _ _ hx, ih]
    cases w.enabled && w.rect.contains x y <;> simp [hx]

/-- The row's composite at a column is what the governing window shows of the cell. -/
theorem Render.getLsbD_composite (r : Render) (x y : RowNo) :
    (r.composite y).getLsbD x.val =
      (r.governing x.val y.val).elim false fun w =>
        w.cell (r.image[y].getLsbD x.val) (r.text[y].getLsbD x.val) (r.mark[y].getLsbD x.val) :=
  getLsbD_overlay r.windows.toList _ _ _ y.val x.isLt

/-- The enabled window that contains the cell, with no such window above it, governs (R8). -/
theorem Render.governing_eq_some {r : Render} {x y : Nat} {k : Fin 8} (he : r.windows[k].enabled = true)
    (hc : r.windows[k].rect.contains x y = true)
    (habove : ∀ j : Fin 8, k < j → r.windows[j].enabled = true → r.windows[j].rect.contains x y = false) :
    r.governing x y = some r.windows[k] := by
  have hk := k.isLt
  rw [Render.governing, List.find?_eq_some_iff_getElem]
  refine ⟨by rw [he, hc]; rfl, 7 - k.val, by simp; omega, ?_, fun j hj => ?_⟩
  · simp [show 7 - (7 - k.val) = k.val by omega]
  · have hlow := habove ⟨7 - j, by omega⟩ (Fin.lt_def.mpr (show k.val < 7 - j by omega))
    simpa [imp_iff_not_or] using hlow

/-- Where no enabled window contains the cell, none governs it (R8). -/
theorem Render.governing_eq_none {r : Render} {x y : Nat}
    (h : ∀ k : Fin 8, r.windows[k].enabled = true → r.windows[k].rect.contains x y = false) :
    r.governing x y = none := by
  rw [Render.governing, List.find?_eq_none]
  intro w hw
  obtain ⟨k, hk, rfl⟩ := List.getElem_of_mem (List.mem_reverse.mp hw)
  simpa using h ⟨k, by simpa using hk⟩

/-- A row that is clear in every plane is composed to a row that is off, whatever the windows. -/
theorem Render.composite_eq_zero {r : Render} {y : RowNo} (hi : r.image[y] = 0) (ht : r.text[y] = 0)
    (hm : r.mark[y] = 0) : r.composite y = 0 := by
  refine BitVec.eq_of_getLsbD_eq fun x hx => ?_
  rw [r.getLsbD_composite ⟨x, hx⟩ y, hi, ht, hm]
  cases r.governing x y.val with
  | none => simp
  | some w => simpa using w.cell_clear

/-- Settles O28: the overlay of the windows is the governing window's cell. -/
theorem compositeOfRowIsCellByCell : Obligations.CompositeOfRowIsCellByCell := by
  intro r x y
  refine ⟨fun k he hc habove => ?_, fun hnone => ?_⟩
  · rw [Render.getLsbD_composite, Render.governing_eq_some he hc habove]
    rfl
  · rw [Render.getLsbD_composite, Render.governing_eq_none hnone]
    rfl

end Sys2Proof.Machine
end

