-- ==== Sys2Proof/Proofs/WindowsAndErase.lean ====
section
/-! WINDOW_SET and ERASE_ALL taken by an engine at rest: the record or the planes replaced, and the rows marked BULK. -/

namespace Sys2Proof.Machine

/-! ### BULK marks of several rows (R72) -/

theorem RowEngine.mark_bulk_of_waiting {y : RowNo} {r : RowEngine} (h : y ∈ r.urgent ∨ y ∈ r.bulk) :
    r.mark .bulk y = r := if_pos h

theorem RowEngine.mark_bulk_of_not_waiting {y : RowNo} {r : RowEngine} (h : ¬ (y ∈ r.urgent ∨ y ∈ r.bulk)) :
    r.mark .bulk y = { r with bulk := r.bulk ++ [y] } := if_neg h

/-- BULK marks of distinct rows: a row that waits keeps its place, and the others join BULK in the order of the marks. -/
theorem RowEngine.markAll_bulk {ys : List RowNo} (hys : ys.Nodup) (r : RowEngine) :
    r.markAll .bulk ys =
      { r with bulk := r.bulk ++ ys.filter (fun y => decide (y ∉ r.urgent ∧ y ∉ r.bulk)) } := by
  induction ys generalizing r with
  | nil => simp [RowEngine.markAll]
  | cons y ys ih =>
    obtain ⟨hy, hys⟩ := List.nodup_cons.mp hys
    have hcons : r.markAll .bulk (y :: ys) = (r.mark .bulk y).markAll .bulk ys := rfl
    rw [hcons, ih hys]
    by_cases hw : y ∈ r.urgent ∨ y ∈ r.bulk
    · rw [RowEngine.mark_bulk_of_waiting hw, List.filter_cons_of_neg (by simpa [or_iff_not_imp_left] using hw)]
    · have hsame : ys.filter (fun z => decide (z ∉ r.urgent ∧ z ∉ r.bulk ++ [y])) =
          ys.filter (fun z => decide (z ∉ r.urgent ∧ z ∉ r.bulk)) :=
        List.filter_congr fun z hz => by
          have hzy : z ≠ y := fun h => hy (h ▸ hz)
          simp [hzy]
      rw [RowEngine.mark_bulk_of_not_waiting hw, List.filter_cons_of_pos (by simpa using not_or.mp hw)]
      simp only [hsame, List.append_assoc, List.singleton_append]

/-! ### ERASE_ALL (R15) -/

/-- What ERASE_ALL does where the engine's next piece of work is one. -/
theorem exec_eraseAll_offers {s : State} {item : WorkItem} {rest : List WorkItem} (h : s.ren.Offers item rest)
    (hk : item.kind = .eraseAll) : exec .eraseAll s = .next (eraseAllWork item (s.took rest)) := by
  show Host.Outcome.next (s.runItem .eraseAll eraseAllWork) = _
  rw [State.runItem_offers h hk]

/-- Settles O31: marks of all the rows in order, and planes that are clear under every window. -/
theorem eraseAllClearsPlanesAndMarksRows : Obligations.EraseAllClearsPlanesAndMarksRows := by
  intro s item rest h hk
  refine ⟨_, exec_eraseAll_offers h hk, ?_, fun y => ?_⟩
  · rw [eraseAllWork, allRows, RowEngine.markAll_bulk (List.nodup_finRange 512)]
    rfl
  · exact Render.composite_eq_zero (Vector.getElem_replicate _) (Vector.getElem_replicate _)
      (Vector.getElem_replicate _)

/-! ### WINDOW_SET (R5 to R7, R12) -/

/-- What WINDOW_SET does where the engine's next piece of work is one. -/
theorem exec_windowSet_offers {s : State} {item : WorkItem} {rest : List WorkItem} (h : s.ren.Offers item rest)
    (hk : item.kind = .windowSet) : exec .windowSet s = .next (windowSetWork item (s.took rest)) := by
  show Host.Outcome.next (s.runItem .windowSet windowSetWork) = _
  rw [State.runItem_offers h hk]

theorem window8_of_le {b : Byte} (h : 8 ≤ b.toNat) : window8 b = none := dif_neg (by omega)

theorem window8_eq_some {b : Byte} {k : Fin 8} (h : b.toNat = k.val) : window8 b = some k := by
  rw [window8, dif_pos (by omega)]
  exact congrArg some (Fin.ext h)

theorem windowSetWork_of_undefined {item : WorkItem} (h : 8 ≤ (byteAt item.body 0).toNat) (s : State) :
    windowSetWork item s = s.latch .formatError := by
  rw [windowSetWork, window8_of_le h]

theorem windowSetWork_of_window {item : WorkItem} {k : Fin 8} (h : (byteAt item.body 0).toNat = k.val) (s : State) :
    windowSetWork item s = s.setWindow k (windowOfBody item.body) := by
  rw [windowSetWork, window8_eq_some h]

/-- A record equal to the stored one changes nothing (R7). -/
theorem State.setWindow_same {k : Fin 8} {w : Window} {s : State} (h : w = s.ren.windows[k]) : s.setWindow k w = s :=
  if_pos h

/-- A record that differs from the stored one replaces it, and the rows of both spans are marked BULK (R7, R12). -/
theorem State.setWindow_change {k : Fin 8} {w : Window} {s : State} (h : w ≠ s.ren.windows[k]) :
    s.setWindow k w =
      { s with
        ren := { s.ren with windows := s.ren.windows.set k w }
        row := { s.row with
          bulk := s.row.bulk ++ (windowRows s.ren.windows[k].rect w.rect).filter
            (fun y => decide (y ∉ s.row.urgent ∧ y ∉ s.row.bulk)) } } := by
  have hrows : (windowRows s.ren.windows[k].rect w.rect).Nodup := (List.nodup_finRange 512).filter _
  rw [State.setWindow, if_neg h, RowEngine.markAll_bulk hrows]

/-- A rectangle's edges: each coordinate clamped to 511, then each pair put in order (R6). -/
theorem rectOf_val (x0 y0 x1 y1 : Nat) :
    (rectOf x0 y0 x1 y1).x0.val = min (min x0 511) (min x1 511) ∧
      (rectOf x0 y0 x1 y1).x1.val = max (min x0 511) (min x1 511) ∧
      (rectOf x0 y0 x1 y1).y0.val = min (min y0 511) (min y1 511) ∧
      (rectOf x0 y0 x1 y1).y1.val = max (min y0 511) (min y1 511) :=
  ⟨Fin.coe_min _ _, Fin.coe_max _ _, Fin.coe_min _ _, Fin.coe_max _ _⟩

/-- Settles O30: the window number decides between the discard and `State.setWindow`, whose two cases follow. -/
theorem windowSetReplacesAndMarks : Obligations.WindowSetReplacesAndMarks := by
  refine ⟨fun s item rest h hk => ⟨fun hundefined => ?_, fun k hwin => ⟨fun hsame => ?_, fun hdiff => ?_⟩⟩,
    fun body => ?_⟩
  · rw [exec_windowSet_offers h hk, windowSetWork_of_undefined hundefined]
  · rw [exec_windowSet_offers h hk, windowSetWork_of_window hwin, State.setWindow_same (s := s.took rest) hsame]
  · rw [exec_windowSet_offers h hk, windowSetWork_of_window hwin, State.setWindow_change (s := s.took rest) hdiff]
    rfl
  · exact ⟨rfl, rfl, rfl, rfl, rfl, rectOf_val _ _ _ _⟩

end Sys2Proof.Machine
end

