-- ==== Sys2Proof/Proofs/EventUnit.lean ====
section
/-! An occurrence of an edge event, bit by bit (R146), and EVENT-TEST, which is one (R150). -/

namespace Sys2Proof.Machine

/-- Bit n of a set of events to which event m has been added. -/
theorem getLsbD_or_eventBit (l : BitVec 32) {m n : Nat} (hn : n < 32) :
    (l ||| eventBit m).getLsbD n = (n == m || l.getLsbD n) := by
  rw [eventBit, BitVec.getLsbD_or, BitVec.getLsbD_twoPow, Bool.or_comm]
  by_cases h : n = m
  · simp [← h, hn]
  · simp [h, Ne.symm h]

/-- Attention after the latched statuses are written (R148). -/
theorem EventUnit.withLatched_attention_iff (l : BitVec 32) (u : EventUnit) :
    (u.withLatched l).attention = true ↔ (u.withLatched l).latched ≠ 0 := bne_iff_ne

/-- The model's occurrence of an edge event is the one of R146. -/
theorem EventUnit.occurred_occur (e : EdgeEvent) (u : EventUnit) : EventUnit.Occurred e u (u.occur e) := by
  refine ⟨fun n hn => getLsbD_or_eventBit u.raw hn, fun n hn => ?_, rfl, rfl,
    EventUnit.withLatched_attention_iff _ _⟩
  rw [EventUnit.occur_latched]
  by_cases hmask : u.table.mask.getLsbD e.num
  · rw [if_pos hmask, getLsbD_or_eventBit u.latched hn]
    by_cases hne : n = e.num
    · simp [hne, hmask]
    · simp [beq_false_of_ne hne]
  · rw [if_neg hmask]
    by_cases hne : n = e.num
    · simp [hne, hmask]
    · simp [beq_false_of_ne hne]

/-- Settles O22: the block is dispatched to the event unit, where TEST occurs. -/
theorem eventTestMakesTestOccur : Obligations.EventTestMakesTestOccur := by
  intro s h body ha
  have hexec : exec (.eventTest h body) s = .next ((s.taken (blockOf h 14 body)).latch .test) :=
    congrArg Host.Outcome.next (receive_acts ha)
  exact ⟨_, _, hexec, rfl, rfl, EventUnit.occurred_occur .test _⟩

end Sys2Proof.Machine
end

