-- ==== Sys2Proof/Proofs/ClearsOnly.lean ====
section
/-! What each part of a step does to the latched statuses and to attention (R148): `State.ClearsOnly` says it of two
states, and for each operation of the model that can reach the event unit one lemma says that it clears nothing. -/

namespace Sys2Proof.Machine

/-- From `s` to `t` attention stays exact, and no latched status is cleared but of events in `lost`. -/
structure State.ClearsOnly (lost : Nat → Prop) (s t : State) : Prop where
  attention : s.AttentionExact → t.AttentionExact
  latched : ∀ n, ¬ lost n → s.ev.latched.getLsbD n = true → t.ev.latched.getLsbD n = true

section
variable {lost : Nat → Prop} {s t u : State}

/-! ### The relation -/

theorem State.ClearsOnly.refl (s : State) : s.ClearsOnly lost s := ⟨id, fun _ _ h => h⟩

theorem State.ClearsOnly.trans (h : s.ClearsOnly lost t) (h' : t.ClearsOnly lost u) : s.ClearsOnly lost u :=
  ⟨h'.attention ∘ h.attention, fun n hn => h'.latched n hn ∘ h.latched n hn⟩

theorem State.ClearsOnly.of_statuses (ha : t.ev.attention = s.ev.attention) (hl : t.ev.latched = s.ev.latched) :
    s.ClearsOnly lost t := by
  refine ⟨fun h => ?_, fun n _ h => ?_⟩
  · rw [State.AttentionExact, ha, hl]
    exact h
  · rw [hl]
    exact h

theorem State.ClearsOnly.of_ev (h : t.ev = s.ev) : s.ClearsOnly lost t := .of_statuses (by rw [h]) (by rw [h])

/-- A change that leaves the event unit as it is may come before. -/
theorem State.ClearsOnly.of_ev_left (h : u.ClearsOnly lost t) (hev : u.ev = s.ev) : s.ClearsOnly lost t :=
  .trans (.of_ev hev) h

/-- Every write of the latched statuses makes attention exact. -/
theorem State.ClearsOnly.of_withLatched {l : BitVec 32} {v : EventUnit} (h : t.ev = v.withLatched l)
    (hl : ∀ n, ¬ lost n → s.ev.latched.getLsbD n = true → l.getLsbD n = true) : s.ClearsOnly lost t := by
  refine ⟨fun _ => ?_, fun n hn hs => ?_⟩
  · rw [State.AttentionExact, h]
    exact EventUnit.withLatched_attention_iff l v
  · rw [h]
    exact hl n hn hs

/-- Two branches that leave one event unit. -/
theorem State.ite_ev {c : Prop} [Decidable c] {v : EventUnit} (ht : t.ev = v) (hu : u.ev = v) :
    (if c then t else u).ev = v := by
  split
  · exact ht
  · exact hu

theorem State.clearsOnly_foldl {α : Type} {f : State → α → State} (h : ∀ s a, State.ClearsOnly lost s (f s a))
    (as : List α) (s : State) : s.ClearsOnly lost (as.foldl f s) := by
  induction as generalizing s with
  | nil => exact .refl s
  | cons a as ih => exact (h s a).trans (ih (f s a))

/-! ### The event unit and reports (R145, R146, R153) -/

/-- An event added under a condition leaves those that are latched. -/
theorem getLsbD_addedIf {c : Prop} [Decidable c] {l added : BitVec 32} {n : Nat} (h : l.getLsbD n = true) :
    (if c then l ||| added else l).getLsbD n = true := by
  split
  · rw [BitVec.getLsbD_or, h, Bool.true_or]
  · exact h

theorem State.clearsOnly_latch (e : EdgeEvent) (s : State) : s.ClearsOnly lost (s.latch e) :=
  .of_withLatched rfl fun _ _ => getLsbD_addedIf

theorem State.clearsOnly_latchIf (c : Bool) (e : EdgeEvent) (s : State) : s.ClearsOnly lost (s.latchIf c e) := by
  cases c with
  | false => exact .refl s
  | true => exact s.clearsOnly_latch e

theorem State.clearsOnly_setLevel (e : LevelEvent) (v : Bool) (s : State) : s.ClearsOnly lost (s.setLevel e v) := by
  by_cases h : s.ev.raw.getLsbD e.num = v
  · exact .of_ev (if_pos h)
  · exact .of_withLatched (if_neg h) fun _ _ => getLsbD_addedIf

theorem State.clearsOnly_offer (r : Report) (s : State) : s.ClearsOnly lost (s.offer r) := by
  unfold State.offer
  split
  · exact .of_ev rfl
  · exact s.clearsOnly_latch .reportOverflow

/-! ### Stages, notices and pieces of work (R14, R24) -/

theorem State.clearsOnly_performStage (s : State) (g : Stage) : s.ClearsOnly lost (s.performStage g) := by
  cases g with
  | write c w => exact .of_ev (State.rowWrite_ev c w s)
  | contexts c => exact .of_ev rfl
  | textClipped => exact s.clearsOnly_latch .textClipped

theorem State.clearsOnly_perform (s : State) : s.ClearsOnly lost s.perform :=
  (State.clearsOnly_foldl State.clearsOnly_performStage _ _).of_ev_left rfl

theorem State.clearsOnly_closingTimeout (k : Fin 4) (s : State) : s.ClearsOnly lost (s.closingTimeout k) :=
  (State.clearsOnly_latch .imageIncomplete _).of_ev_left rfl

theorem State.clearsOnly_idleTimeout (k : Fin 4) (s : State) : s.ClearsOnly lost (s.idleTimeout k) :=
  (State.clearsOnly_latchIf _ .imageIncomplete _).of_ev_left rfl

theorem State.clearsOnly_cadenceAtSlot (s : State) (k : Fin 4) : s.ClearsOnly lost (s.cadenceAtSlot k) := by
  unfold State.cadenceAtSlot
  dsimp only
  split
  · exact .refl s
  · split
    · exact (State.clearsOnly_closingTimeout k _).of_ev_left rfl
    · exact .of_ev rfl
  · split
    · exact (State.clearsOnly_idleTimeout k _).of_ev_left rfl
    · exact .of_ev rfl

theorem State.clearsOnly_applyNotice (s : State) (n : Notice) : s.ClearsOnly lost (s.applyNotice n) := by
  cases n with
  | cadence => exact State.clearsOnly_foldl State.clearsOnly_cadenceAtSlot _ s
  | factory => exact .of_ev rfl

theorem State.clearsOnly_notice (n : Notice) (s : State) : s.ClearsOnly lost (s.notice n) := by
  unfold State.notice
  split
  · exact .of_ev rfl
  · exact s.clearsOnly_applyNotice n

theorem State.clearsOnly_endPiece (s : State) : s.ClearsOnly lost s.endPiece :=
  s.clearsOnly_perform.trans ((State.clearsOnly_foldl State.clearsOnly_applyNotice _ _).of_ev_left rfl)

theorem State.clearsOnly_continuePiece (s : State) : s.ClearsOnly lost s.continuePiece := by
  unfold State.continuePiece
  split
  · exact s.clearsOnly_endPiece
  · exact (State.clearsOnly_performStage _ _).of_ev_left rfl

theorem State.clearsOnly_idle (s : State) : s.ClearsOnly lost s.idle := by
  unfold State.idle
  split
  · split
    · dsimp only
      split
      · exact .of_ev (State.nextAttempt_ev _)
      · exact (State.clearsOnly_continuePiece _).of_ev_left rfl
    · exact .of_ev s.nextAttempt_ev
  · exact s.clearsOnly_continuePiece

theorem State.clearsOnly_applyHeld (n : Notice) (s : State) : s.ClearsOnly lost (s.applyHeld n) := by
  unfold State.applyHeld
  split
  · split
    · exact s.clearsOnly_perform.trans ((State.clearsOnly_applyNotice _ n).of_ev_left rfl)
    · exact .refl s
  · exact .refl s

/-- The take of an item ends the piece of work before it. -/
theorem State.clearsOnly_takeItem {k : WorkKind} {item : WorkItem} (h : s.takeItem k = some (item, t)) :
    s.ClearsOnly lost t := by
  unfold State.takeItem at h
  dsimp only at h
  split at h
  · split at h
    · cases h
      exact s.clearsOnly_endPiece.trans (.of_ev rfl)
    · cases h
  · cases h

theorem State.clearsOnly_runItem (k : WorkKind) {work : WorkItem → State → State}
    (hwork : ∀ item s, State.ClearsOnly lost s (work item s)) (s : State) : s.ClearsOnly lost (s.runItem k work) := by
  unfold State.runItem
  split
  · rename_i item t h
    exact (State.clearsOnly_takeItem h).trans (hwork item t)
  · exact .refl s

/-! ### Image work (chapter 2) -/

theorem State.clearsOnly_openImage (n : Byte) (p : ImageParams) (s : State) : s.ClearsOnly lost (s.openImage n p) := by
  unfold State.openImage
  dsimp only
  split
  · split
    · exact .of_ev rfl
    · exact (State.clearsOnly_latch .imageNew _).of_ev_left rfl
  · split
    · exact .of_ev rfl
    · exact (State.clearsOnly_latch .imageEvicted _).of_ev_left rfl

theorem clearsOnly_imageOpenWork (item : WorkItem) (s : State) : s.ClearsOnly lost (imageOpenWork item s) := by
  unfold imageOpenWork
  split
  · exact s.clearsOnly_latch .formatError
  · exact s.clearsOnly_openImage _ _

theorem State.deferContexts_ev {plan : State → State} (h : ∀ s, (plan s).ev = s.ev) (s : State) :
    (s.deferContexts plan).ev = s.ev := by
  unfold State.deferContexts
  dsimp only
  split
  · exact h s
  · exact h s

theorem State.freeIfDone_ev (k : Fin 4) (s : State) : (s.freeIfDone k).ev = s.ev := by
  unfold State.freeIfDone
  split <;> rfl

theorem State.promote_ev (k : Fin 4) (s : State) : (s.promote k).ev = s.ev := by
  unfold State.promote
  dsimp only
  split <;> rfl

theorem State.skipGap_ev (k : Fin 4) (h : HeldStripe) (s : State) : (s.skipGap k h).ev = s.ev := by
  unfold State.skipGap
  split <;> rfl

theorem State.renderAfterGap_ev (k : Fin 4) (s : State) (h : HeldStripe) : (s.renderAfterGap k h).ev = s.ev :=
  s.skipGap_ev k h

theorem State.renderHeld_ev (k : Fin 4) (n : Byte) (p : HeldStripe → Bool) (s : State) :
    (s.renderHeld k n p).ev = s.ev := by
  have hfold (hs : List HeldStripe) (t : State) :
      (hs.foldl (fun s h => (s.renderAfterGap k h).stageContexts) t).ev = t.ev := by
    induction hs generalizing t with
    | nil => rfl
    | cons h hs ih => exact (ih _).trans (t.renderAfterGap_ev k h)
  exact hfold _ _

theorem State.diffusionStripe_ev (k : Fin 4) (h : HeldStripe) (s : State) : (s.diffusionStripe k h).ev = s.ev := by
  unfold State.diffusionStripe
  dsimp only
  split
  · rfl
  · split
    · exact State.promote_ev k _
    · split
      · rfl
      · rw [State.gapSkip, State.promote_ev, State.renderAfterGap_ev, State.renderHeld_ev]

/-- Of an accepted stripe's work only the length check latches. -/
theorem State.clearsOnly_takeStripe (k : Fin 4) (item : WorkItem) (s : State) :
    s.ClearsOnly lost (s.takeStripe k item) := by
  unfold State.takeStripe
  dsimp only
  split
  · exact .of_ev rfl
  · split
    · exact .of_ev rfl
    · refine .trans ?_ (.of_ev (State.deferContexts_ev (fun s => ?_) _))
      · refine .trans ?_ (State.clearsOnly_latchIf _ .stripeLong _)
        exact (State.clearsOnly_latchIf _ .stripeShort _).of_ev_left rfl
      · split
        · exact State.freeIfDone_ev k _
        · rw [State.freeIfDone_ev, State.diffusionStripe_ev]

theorem clearsOnly_imageStripeWork (item : WorkItem) (s : State) : s.ClearsOnly lost (imageStripeWork item s) := by
  unfold imageStripeWork
  split
  · exact s.clearsOnly_latch .stripeDiscarded
  · split
    · exact s.clearsOnly_takeStripe _ item
    · exact s.clearsOnly_latch .stripeDiscarded

theorem State.renderReady_ev (h : HeldStripe) (s : State) : (s.renderReady h).ev = s.ev := by
  unfold State.renderReady
  split
  · rfl
  · refine State.deferContexts_ev (fun s => ?_) s
    rw [State.freeIfDone_ev, State.promote_ev]
    rfl

theorem State.closeSlot_ev (k : Fin 4) (s : State) : (s.closeSlot k).ev = s.ev := by
  unfold State.closeSlot
  cases s.ren.slots[k].params.method with
  | threshold => dsimp only; split <;> rfl
  | diffusion => dsimp only; split <;> exact State.renderHeld_ev k _ _ s

theorem clearsOnly_imageCloseWork (item : WorkItem) (s : State) : s.ClearsOnly lost (imageCloseWork item s) := by
  unfold imageCloseWork
  split
  · exact .refl s
  · split
    · exact .of_ev (State.deferContexts_ev (State.closeSlot_ev _) s)
    · exact .refl s

theorem clearsOnly_imageAbortWork (item : WorkItem) (s : State) : s.ClearsOnly lost (imageAbortWork item s) := by
  unfold imageAbortWork
  split
  · exact .refl s
  · exact .of_ev rfl

/-! ### Text, fills, windows and loads (chapters 1, 3 and 4) -/

theorem clearsOnly_textWork (item : WorkItem) (s : State) : s.ClearsOnly lost (textWork item s) := by
  unfold textWork
  split
  · exact s.clearsOnly_latch .formatError
  · dsimp only
    split
    · exact s.clearsOnly_latch .formatError
    · exact (s.clearsOnly_latchIf _ .formatError).trans (.of_ev rfl)

theorem clearsOnly_fillWork (item : WorkItem) (s : State) : s.ClearsOnly lost (fillWork item s) := by
  unfold fillWork
  split
  · exact .of_ev rfl
  · exact s.clearsOnly_latch .formatError

theorem clearsOnly_windowSetWork (item : WorkItem) (s : State) : s.ClearsOnly lost (windowSetWork item s) := by
  unfold windowSetWork
  split
  · exact s.clearsOnly_latch .formatError
  · unfold State.setWindow
    split
    · exact .refl s
    · exact .of_ev rfl

/-- A load latches by R166 alone, if its entries' writes clear nothing. -/
theorem State.clearsOnly_applyLoad (range : LoadRange) {write : List (Nat × List Byte) → State → State}
    (hwrite : ∀ entries s, State.ClearsOnly lost s (write entries s)) (s : State) :
    s.ClearsOnly lost (s.applyLoad range write) := by
  unfold State.applyLoad
  dsimp only
  refine (s.clearsOnly_latchIf range.clipped .tableClipped).trans ?_
  split
  · exact hwrite _ _
  · exact State.clearsOnly_latch .formatError _

theorem State.clearsOnly_applyLoad_of_ev (range : LoadRange) {write : List (Nat × List Byte) → State → State}
    (hwrite : ∀ entries s, (write entries s).ev = s.ev) (s : State) : s.ClearsOnly lost (s.applyLoad range write) :=
  s.clearsOnly_applyLoad range fun entries s => .of_ev (hwrite entries s)

theorem eraseAllWork_ev (item : WorkItem) (s : State) : (eraseAllWork item s).ev = s.ev := rfl

theorem clearsOnly_transferWork (item : WorkItem) (s : State) : s.ClearsOnly lost (transferWork item s) :=
  s.clearsOnly_applyLoad_of_ev _ (by intros; rfl)

theorem clearsOnly_thresholdWork (item : WorkItem) (s : State) : s.ClearsOnly lost (thresholdWork item s) :=
  s.clearsOnly_applyLoad_of_ev _ (by intros; rfl)

theorem clearsOnly_weightsWork (item : WorkItem) (s : State) : s.ClearsOnly lost (weightsWork item s) :=
  s.clearsOnly_applyLoad_of_ev _ (by intros; rfl)

theorem clearsOnly_glyphsWork (item : WorkItem) (s : State) : s.ClearsOnly lost (glyphsWork item s) :=
  s.clearsOnly_applyLoad_of_ev _ (by intros; rfl)

/-! ### The panel, the ports and the touch unit (chapters 6, 7 and 11) -/

theorem State.blank_ev (s : State) : s.blank.ev = s.ev := by
  unfold State.blank
  split <;> rfl

theorem State.unblank_ev (s : State) : s.unblank.ev = s.ev := by
  unfold State.unblank
  split
  · simp only [State.markLit_ev]
  · simp only [State.markLit_ev]
  all_goals rfl

theorem State.cadenceAtPanel_ev (s : State) : s.cadenceAtPanel.ev = s.ev := by
  unfold State.cadenceAtPanel
  split
  · exact State.ite_ev (State.blank_ev _) rfl
  all_goals rfl

theorem State.clearsOnly_followAccessory (s : State) : s.ClearsOnly lost s.followAccessory :=
  s.clearsOnly_setLevel .accessoryFault _

theorem State.clearsOnly_handOff (body : List Byte) (s : State) : s.ClearsOnly lost (s.handOff body) := by
  unfold State.handOff
  split
  · exact .refl s
  · split
    · exact .of_ev rfl
    · exact s.clearsOnly_latch .accessoryOverflow

theorem State.clearsOnly_sampleFault (level : Bool) (s : State) : s.ClearsOnly lost (s.sampleFault level) := by
  unfold State.sampleFault
  split
  · exact (State.clearsOnly_followAccessory _).of_ev_left rfl
  · exact .refl s

theorem State.clearsOnly_sampleLine (levels : BitVec 4) (s : State) (n : Fin 4) :
    s.ClearsOnly lost (s.sampleLine levels n) := by
  have haccept (l : SignalLine) (v : Bool) : s.ClearsOnly lost ((s.setLine n l).setLevel (.lineIn n) v) :=
    (State.clearsOnly_setLevel (.lineIn n) v _).of_ev_left rfl
  unfold State.sampleLine
  dsimp only
  split
  · exact .refl s
  · exact .refl s
  · split
    · exact haccept _ _
    · split
      · split
        · exact (haccept _ _).trans (State.clearsOnly_offer _ _)
        · exact haccept _ _
      · exact .of_ev rfl

theorem State.clearsOnly_configureLine (n : Fin 4) (e : LineEntry) (s : State) :
    s.ClearsOnly lost (s.configureLine n e) := by
  unfold State.configureLine
  dsimp only
  split
  · exact .of_ev rfl
  · split
    · exact (State.clearsOnly_setLevel (.lineIn n) false _).of_ev_left rfl
    all_goals split <;> exact .of_ev rfl

theorem State.offerEcho_ev (e : EchoPart) (s : State) : (s.offerEcho e).ev = s.ev := by
  unfold State.offerEcho
  split <;> rfl

theorem State.clearsOnly_hitZone (k tx ty : Fin 16) (s : State) : s.ClearsOnly lost (s.hitZone k tx ty) := by
  unfold State.hitZone
  dsimp only
  refine .trans (s.clearsOnly_offer (.touch (some k) s.touch.zones[k].code tx ty s.rx.lastCount)) (.of_ev ?_)
  cases s.touch.zones[k].echo with
  | none => exact State.ite_ev rfl rfl
  | some e => exact State.ite_ev (State.offerEcho_ev e _) (State.offerEcho_ev e _)

theorem State.clearsOnly_answerPress (s : State) : s.ClearsOnly lost s.answerPress := by
  unfold State.answerPress
  split
  · split
    · exact s.clearsOnly_hitZone _ _ _
    · unfold State.stray
      split
      · exact s.clearsOnly_offer _
      · exact .refl s
  · exact s.clearsOnly_latch .touchAmbiguous

theorem State.wakePress_ev (s : State) : s.wakePress.1.ev = s.ev := by
  unfold State.wakePress
  split
  · exact s.unblank_ev
  all_goals rfl

theorem State.clearsOnly_press (s : State) : s.ClearsOnly lost s.press := by
  have hwake : s.ClearsOnly lost s.restartBlankTimer.wakePress.1 := .of_ev (State.wakePress_ev _)
  unfold State.press
  dsimp only
  split
  · exact hwake
  · exact hwake.trans (State.clearsOnly_answerPress _)

theorem State.clearsOnly_examineTouch (s : State) : s.ClearsOnly lost s.examineTouch := by
  unfold State.examineTouch
  split
  · split
    · exact .refl s
    · exact .of_ev rfl
  · split
    · exact (State.clearsOnly_press _).of_ev_left rfl
    · exact .refl s

theorem State.clearsOnly_sampleService (level : Bool) (s : State) : s.ClearsOnly lost (s.sampleService level) :=
  (State.clearsOnly_setLevel .serviceLine _ _).of_ev_left rfl

theorem State.clearsOnly_zoneSet (body : List Byte) (s : State) : s.ClearsOnly lost (s.zoneSet body) := by
  unfold State.zoneSet
  split
  · exact .of_ev rfl
  · split
    · split
      · exact s.clearsOnly_latch .formatError
      · exact .of_ev rfl
    · exact s.clearsOnly_latch .formatError

/-! ### The store and the loads at arrival (chapters 8 and 12) -/

theorem State.clearsOnly_storeCommit (s : State) : s.ClearsOnly lost s.storeCommit := by
  unfold State.storeCommit
  split
  · split
    · exact .of_ev rfl
    · exact s.clearsOnly_latch .storeRefused
  · exact s.clearsOnly_latch .storeRefused

theorem State.clearsOnly_configureLines (t : Vector LineEntry 4) (s : State) :
    s.ClearsOnly lost (s.configureLines t) :=
  State.clearsOnly_foldl (fun s n => s.clearsOnly_configureLine n t[n]) _ s

/-- STORE-FACTORY writes the event tables and no status (R147, R171). -/
theorem State.clearsOnly_storeFactory (s : State) : s.ClearsOnly lost s.storeFactory := by
  unfold State.storeFactory
  refine .trans ?_ (State.clearsOnly_notice .factory _)
  refine .trans (.of_statuses ?_ ?_) (State.clearsOnly_configureLines _ _)
  · rfl
  · rfl

theorem State.clearsOnly_loadGroups (body : List Byte) (s : State) : s.ClearsOnly lost (s.loadGroups body) := by
  unfold State.loadGroups
  dsimp only
  split
  · exact s.clearsOnly_latch .formatError
  · exact (State.clearsOnly_latchIf _ .tableClipped _).of_ev_left rfl

theorem State.clearsOnly_loadKinds (body : List Byte) (s : State) : s.ClearsOnly lost (s.loadKinds body) := by
  refine s.clearsOnly_applyLoad _ fun entries t => ?_
  exact (State.clearsOnly_latchIf _ .tableClipped _).of_ev_left rfl

/-- An EVENTS load writes the event tables and no status (R147). -/
theorem State.clearsOnly_loadEvents (body : List Byte) (s : State) : s.ClearsOnly lost (s.loadEvents body) := by
  refine s.clearsOnly_applyLoad _ fun entries t => ?_
  exact .of_statuses rfl rfl

theorem State.clearsOnly_writeLine (s : State) (e : Nat × List Byte) : s.ClearsOnly lost (s.writeLine e) := by
  unfold State.writeLine
  split
  · exact s.clearsOnly_configureLine _ _
  · exact .refl s

theorem State.clearsOnly_queueItem (k : WorkKind) (b : Block) (s : State) : s.ClearsOnly lost (s.queueItem k b) := by
  by_cases h : s.ren.queue.length < 8
  · rw [State.queueItem_room h]
    exact .of_ev rfl
  · rw [State.queueItem_full h]
    exact s.clearsOnly_latch .renderOverrun

theorem State.clearsOnly_tableLoad (b : Block) (s : State) : s.ClearsOnly lost (s.tableLoad b) := by
  unfold State.tableLoad
  split
  · exact s.clearsOnly_applyLoad_of_ev _ (by intros; rfl)
  · exact s.clearsOnly_loadGroups b.body
  · exact s.clearsOnly_applyLoad_of_ev _ (by intros; rfl)
  · exact s.clearsOnly_loadKinds b.body
  · exact s.clearsOnly_applyLoad_of_ev _ (by intros; rfl)
  · exact s.clearsOnly_queueItem .transferLoad b
  · exact s.clearsOnly_queueItem .thresholdLoad b
  · exact s.clearsOnly_queueItem .weightsLoad b
  · exact s.clearsOnly_queueItem .glyphsLoad b
  · exact s.clearsOnly_applyLoad_of_ev _ (by intros; rfl)
  · exact s.clearsOnly_applyLoad_of_ev _ (by intros; rfl)
  · exact s.clearsOnly_loadEvents b.body
  · exact s.clearsOnly_applyLoad _ fun entries s => State.clearsOnly_foldl State.clearsOnly_writeLine entries s
  · exact s.clearsOnly_latch .formatError

theorem State.clearsOnly_panelControl (b : Block) (s : State) : s.ClearsOnly lost (s.panelControl b) := by
  unfold State.panelControl
  split
  · exact s.clearsOnly_queueItem .eraseAll b
  · exact .of_ev s.blank_ev
  · exact .of_ev s.unblank_ev
  · exact s.clearsOnly_latch .formatError

end

end Sys2Proof.Machine
end

