-- ==== Sys2Proof/Proofs/AttentionExact.lean ====
section
/-! Attention over a whole step (R148): a good block clears what its kind says, every other byte of the lesson line and
every step of the part itself clears nothing, and a reset leaves attention exact. -/

namespace Sys2Proof.Machine

/-! ### Resets (R151) -/

section
variable {s t : State}

/-- Where every status may be cleared, only attention is asked for. -/
theorem State.ClearsOnly.of_exact (h : t.AttentionExact) : s.ClearsOnly (fun _ => True) t :=
  ⟨fun _ => h, fun _ hn => absurd trivial hn⟩

theorem State.attentionExact_of_reset {tab : EventTable} {levels : LevelEvent → Bool}
    (h : t.ev = EventUnit.reset tab levels) : t.AttentionExact := by
  rw [State.AttentionExact, h]
  exact ⟨fun h => absurd h Bool.false_ne_true, fun h => absurd rfl h⟩

theorem State.clearsOnly_powerOn (p : PowerOnPins) (s : State) : s.ClearsOnly (fun _ => True) (s.powerOn p) :=
  .trans (.of_exact (State.attentionExact_of_reset rfl)) (State.clearsOnly_latchIf _ .storeCorrupt _)

theorem State.clearsOnly_terminalReset (s : State) : s.ClearsOnly (fun _ => True) s.terminalReset :=
  .trans (.of_exact (State.attentionExact_of_reset rfl)) (State.clearsOnly_latchIf _ .storeCorrupt _)

end

/-! ### Good blocks (R133, R140, R149, R172) -/

/-- The latched statuses that a good block may clear: an EVENT-CLEAR those it names, a TERMINAL-RESET all (R148). -/
def Block.Clears (b : Block) (n : Nat) : Prop :=
  b.kind.toNat = 18 ∨ (b.kind.toNat = 13 ∧ (longAt b.body 0).getLsbD n = true)

section
variable {lost : Nat → Prop} {s t : State}

theorem State.ClearsOnly.mono {more : Nat → Prop} (h : s.ClearsOnly lost t) (hm : ∀ n, lost n → more n) :
    s.ClearsOnly more t :=
  ⟨h.attention, fun n hn => h.latched n fun hl => hn (hm n hl)⟩

/-- EVENT-CLEAR clears the statuses named (R149). -/
theorem State.clearsOnly_eventClear (named : BitVec 32) (s : State) :
    s.ClearsOnly (fun n => named.getLsbD n = true) { s with ev := s.ev.clear named } := by
  refine .of_withLatched rfl fun n hn hs => ?_
  rw [BitVec.getLsbD_and, BitVec.getLsbD_not, hs, Bool.eq_false_iff.mpr hn]
  simpa using BitVec.lt_of_getLsbD hs

/-- The owner of a block's kind clears what the block may clear. -/
theorem State.clearsOnly_act (b : Block) (s : State) : s.ClearsOnly b.Clears (s.act b) := by
  have hdrawing (k : WorkKind) : s.ClearsOnly b.Clears (s.queueItem k b).restartBlankTimer :=
    (s.clearsOnly_queueItem k b).trans (.of_ev rfl)
  unfold State.act
  split
  · exact hdrawing .imageOpen
  · exact hdrawing .imageStripe
  · exact hdrawing .imageClose
  · exact hdrawing .imageAbort
  · exact hdrawing .text
  · exact hdrawing .fill
  · exact s.clearsOnly_queueItem .windowSet b
  · exact s.clearsOnly_zoneSet b.body
  · exact s.clearsOnly_panelControl b
  · exact s.clearsOnly_tableLoad b
  · exact s.clearsOnly_offer _
  · next hk => exact (s.clearsOnly_eventClear _).mono fun n hn => .inr ⟨hk, hn⟩
  · exact s.clearsOnly_latch .test
  · exact .of_ev rfl
  · exact s.clearsOnly_storeCommit
  · exact s.clearsOnly_storeFactory
  · next hk => exact s.clearsOnly_terminalReset.mono fun n _ => .inl hk
  · exact .of_ev rfl
  · exact .refl s

theorem State.clearsOnly_dispatch (d : Disposition) (b : Block) (s : State) :
    s.ClearsOnly b.Clears (s.dispatch d b) := by
  have hact : s.ClearsOnly b.Clears (if d.acts then s.act b else s) := by
    split
    · exact s.clearsOnly_act b
    · exact .refl s
  unfold State.dispatch
  dsimp only
  generalize (if d.acts then s.act b else s) = u at hact ⊢
  split
  · exact hact.trans (u.clearsOnly_handOff b.body)
  · exact hact

/-- A watch hit latches WATCH-HIT, and an unblank it asks for touches no event (R125, R102). -/
theorem State.clearsOnly_watchStep (b : Block) (s : State) : s.ClearsOnly lost (s.watchStep b) := by
  unfold State.watchStep
  split
  · exact .refl s
  · next k _ =>
    have hhit : s.ClearsOnly lost
        { s.latch .watchHit with ev := { (s.latch .watchHit).ev with lastWatch := some k } } :=
      (s.clearsOnly_latch .watchHit).trans (.of_statuses rfl rfl)
    exact hhit.trans (.of_ev (State.ite_ev (State.unblank_ev _) rfl))

theorem State.clearsOnly_classify (b : Block) (s : State) : s.ClearsOnly b.Clears (s.classify b) := by
  unfold State.classify
  split
  · exact .refl s
  · refine (s.clearsOnly_watchStep b).trans ?_
    dsimp only
    split
    · exact State.clearsOnly_latch _ _
    · split
      · exact .refl _
      · exact State.clearsOnly_latch .filtered _
      · unfold State.recordAndDispatch
        split
        · exact .refl _
        · exact (State.clearsOnly_dispatch _ b _).of_ev_left rfl

theorem State.clearsOnly_lapse (ch : Fin 64) (s : State) : s.ClearsOnly lost (s.lapse ch) :=
  (State.clearsOnly_latch .lessonLapse _).of_ev_left rfl

theorem State.clearsOnly_cadenceAtChannel (s : State) (ch : Fin 64) : s.ClearsOnly lost (s.cadenceAtChannel ch) := by
  unfold State.cadenceAtChannel
  dsimp only
  split
  · split
    · exact (State.clearsOnly_lapse ch _).of_ev_left rfl
    · exact .of_ev rfl
  · exact .refl s

theorem State.clearsOnly_cadenceNotice (s : State) : s.ClearsOnly lost s.cadenceNotice := by
  have hchannels : s.ClearsOnly lost s.cadenceAtChannels :=
    State.clearsOnly_foldl State.clearsOnly_cadenceAtChannel _ s
  exact (hchannels.trans (State.clearsOnly_notice .cadence _)).trans (.of_ev (State.cadenceAtPanel_ev _))

theorem State.clearsOnly_takeCadence (b : Block) (s : State) : s.ClearsOnly lost (s.takeCadence b) := by
  unfold State.takeCadence
  split
  · split
    · exact s.clearsOnly_latch .formatError
    · exact (State.clearsOnly_cadenceNotice _).of_ev_left rfl
  all_goals exact .refl s

theorem State.clearsOnly_takeGood (b : Block) (s : State) : s.ClearsOnly b.Clears (s.takeGood b) := by
  have hpresent : s.ClearsOnly b.Clears s.linePresent :=
    (State.clearsOnly_setLevel .linePresent true _).of_ev_left rfl
  unfold State.takeGood
  refine hpresent.trans ?_
  dsimp only
  split
  · exact State.clearsOnly_takeCadence b _
  · exact State.clearsOnly_classify b _

/-! ### Bytes on the lesson line (chapter 9) -/

/-- Whatever the bytes and the receiver's state: attention stays exact. -/
theorem State.clearsOnly_deliver (bytes : List Byte) (s : State) :
    s.ClearsOnly (fun _ => True) (s.deliver bytes) := by
  refine State.clearsOnly_foldl (fun s byte => ?_) bytes s
  refine .of_ev_left (u := { s with rx := (s.rx.takeByte byte).1 }) ?_ rfl
  show State.ClearsOnly _ _ (State.rxResult (s.rx.takeByte byte).2 _)
  cases (s.rx.takeByte byte).2 with
  | none => exact .refl _
  | lengthError => exact State.clearsOnly_latch .formatError _
  | checkError => exact State.clearsOnly_latch .checkError _
  | good b => exact (State.clearsOnly_takeGood b _).mono fun _ _ => trivial

/-- A block sent intact to a receiver that hunts clears what it may clear. -/
theorem State.clearsOnly_receive (hs : s.rx.state = .hunting) (h : Header) (kind : Byte) {body : List Byte}
    (hb : body.length ≤ 240) : s.ClearsOnly (blockOf h kind body).Clears (s.receive h kind body) := by
  rw [receive_good hs h kind hb]
  exact (State.clearsOnly_takeGood _ _).of_ev_left rfl

/-- A block of any kind but those of EVENT-CLEAR and TERMINAL-RESET clears nothing. -/
theorem State.clearsOnly_receive_of_kind (hs : s.rx.state = .hunting) (h : Header) {kind : Byte} {body : List Byte}
    (hb : body.length ≤ 240) (h13 : kind.toNat ≠ 13) (h18 : kind.toNat ≠ 18) :
    s.ClearsOnly lost (s.receive h kind body) := by
  refine (s.clearsOnly_receive hs h kind hb).mono fun n hn => ?_
  obtain hreset | ⟨hclear, _⟩ := hn
  · exact absurd hreset h18
  · exact absurd hclear h13

/-! ### The part's own steps -/

/-- The outcome is a next state that clears only statuses in `lost`. -/
def State.NextClearsOnly (lost : Nat → Prop) (s : State) (o : Host.Outcome State Fault Refusal) : Prop :=
  ∃ t, o = .next t ∧ s.ClearsOnly lost t

theorem State.NextClearsOnly.of_eq {o : Host.Outcome State Fault Refusal} (h : s.NextClearsOnly lost o)
    (ho : o = .next t) : s.ClearsOnly lost t := by
  obtain ⟨t', ho', ht⟩ := h
  cases ho.symm.trans ho'
  exact ht

theorem nextClearsOnly_lineSilenceTimeout (s : State) : s.NextClearsOnly lost (execLineSilenceTimeout s) := by
  refine ⟨_, rfl, ?_⟩
  split
  · exact (State.clearsOnly_setLevel .linePresent false _).of_ev_left rfl
  · exact .refl s

theorem nextClearsOnly_channelLapse (ch : Fin 64) (s : State) : s.NextClearsOnly lost (execChannelLapse ch s) := by
  refine ⟨_, rfl, ?_⟩
  split
  · exact s.clearsOnly_lapse ch
  · exact .refl s

theorem nextClearsOnly_readyStripe (s : State) : s.NextClearsOnly lost (execReadyStripe s) := by
  refine ⟨_, rfl, ?_⟩
  dsimp only
  split
  · exact s.clearsOnly_endPiece.trans (.of_ev (State.renderReady_ev _ _))
  · exact .refl s

theorem nextClearsOnly_echoRequest (s : State) : s.NextClearsOnly lost (execEchoRequest s) := by
  refine ⟨_, rfl, ?_⟩
  dsimp only
  split
  · exact s.clearsOnly_endPiece.trans (.of_ev rfl)
  · exact .refl s

theorem nextClearsOnly_closingTimeout (k : Fin 4) (s : State) : s.NextClearsOnly lost (execClosingTimeout k s) := by
  refine ⟨_, rfl, ?_⟩
  dsimp only
  split
  · exact s.clearsOnly_perform.trans (State.clearsOnly_closingTimeout k _)
  · exact .refl s

theorem nextClearsOnly_idleTimeout (k : Fin 4) (s : State) : s.NextClearsOnly lost (execIdleTimeout k s) := by
  refine ⟨_, rfl, ?_⟩
  dsimp only
  split
  · exact s.clearsOnly_perform.trans (State.clearsOnly_idleTimeout k _)
  · exact .refl s

theorem nextClearsOnly_programmingComplete (s : State) : s.NextClearsOnly lost (execProgrammingComplete s) := by
  refine ⟨_, rfl, ?_⟩
  split
  · exact (State.clearsOnly_latch .storeDone _).of_ev_left rfl
  · exact .refl s

theorem nextClearsOnly_addressSlot (s : State) : s.NextClearsOnly lost (execAddressSlot s) := by
  refine ⟨_, rfl, .of_ev ?_⟩
  split
  · rfl
  all_goals
    dsimp only
    split
    · split <;> rfl
    · split <;> rfl

theorem State.clearsOnly_rowFault (v : Service) (s : State) : s.ClearsOnly lost (s.rowFault v) := by
  unfold State.rowFault
  dsimp only
  refine .trans ?_ (State.clearsOnly_latchIf _ .faultListFull _)
  exact (State.clearsOnly_latch .rowFault _).of_ev_left rfl

theorem nextClearsOnly_senseCompletion (count : Fin 513) (s : State) :
    s.NextClearsOnly lost (execSenseCompletion count s) := by
  refine ⟨_, rfl, ?_⟩
  split
  · exact .refl s
  · split
    · exact .refl s
    · dsimp only
      split
      · split
        · exact .of_ev rfl
        · split
          · exact .of_ev rfl
          · exact (State.clearsOnly_rowFault _ _).of_ev_left rfl
      all_goals exact .of_ev rfl

theorem nextClearsOnly_drainComplete (s : State) : s.NextClearsOnly lost (execDrainComplete s) := by
  refine ⟨_, rfl, .of_ev ?_⟩
  split
  · exact State.ite_ev rfl rfl
  all_goals rfl

theorem nextClearsOnly_startingSweepComplete (s : State) :
    s.NextClearsOnly lost (execStartingSweepComplete s) := by
  refine ⟨_, rfl, .of_ev ?_⟩
  split
  · refine State.ite_ev ?_ rfl
    simp only [State.markLit_ev]
  all_goals rfl

theorem nextClearsOnly_blankingSweepComplete (s : State) :
    s.NextClearsOnly lost (execBlankingSweepComplete s) := by
  refine ⟨_, rfl, .of_ev ?_⟩
  split
  · exact State.ite_ev rfl rfl
  all_goals rfl

theorem nextClearsOnly_powerGoodRise (s : State) : s.NextClearsOnly lost (execPowerGoodRise s) := by
  refine ⟨_, rfl, ?_⟩
  split
  · exact .refl s
  · have hgood : s.ClearsOnly lost
        (State.setLevel .panelPower true { s with seq := { s.seq with powerGood := true } }) :=
      (State.clearsOnly_setLevel .panelPower true _).of_ev_left rfl
    refine hgood.trans (.of_ev ?_)
    dsimp only
    split <;> rfl

theorem nextClearsOnly_powerGoodFall (s : State) : s.NextClearsOnly lost (execPowerGoodFall s) := by
  refine ⟨_, rfl, ?_⟩
  split
  · exact (State.clearsOnly_setLevel .panelPower false _).of_ev_left rfl
  · exact .refl s

theorem nextClearsOnly_scan (x : ScanSample) (s : State) : s.NextClearsOnly lost (execScan x s) := by
  refine ⟨_, rfl, ?_⟩
  dsimp only
  refine .trans ?_ (State.clearsOnly_sampleFault x.fault _)
  refine .trans ?_ (State.clearsOnly_foldl (State.clearsOnly_sampleLine x.lines) _ _)
  refine .trans ?_ (State.clearsOnly_sampleService x.service _)
  exact (State.clearsOnly_examineTouch _).of_ev_left rfl

theorem nextClearsOnly_grantAsserted (s : State) : s.NextClearsOnly lost (execGrantAsserted s) := by
  refine ⟨_, rfl, .of_ev ?_⟩
  dsimp only
  split <;> rfl

theorem nextClearsOnly_frameBegin (s : State) : s.NextClearsOnly lost (execFrameBegin s) := by
  refine ⟨_, rfl, .of_ev ?_⟩
  split <;> rfl

theorem nextClearsOnly_frameComplete (s : State) : s.NextClearsOnly lost (execFrameComplete s) := by
  refine ⟨_, rfl, .of_ev ?_⟩
  split <;> rfl

theorem nextClearsOnly_acknowledge (s : State) : s.NextClearsOnly lost (execAcknowledge s) := by
  refine ⟨_, rfl, ?_⟩
  split
  · exact (State.clearsOnly_followAccessory _).of_ev_left rfl
  · exact (State.clearsOnly_followAccessory _).of_ev_left rfl
  all_goals exact .refl s

theorem nextClearsOnly_busyReleased (s : State) : s.NextClearsOnly lost (execBusyReleased s) := by
  refine ⟨_, rfl, ?_⟩
  split
  · dsimp only
    split
    · exact (State.clearsOnly_followAccessory _).of_ev_left rfl
    · exact (State.clearsOnly_followAccessory _).of_ev_left rfl
    all_goals exact .of_ev rfl
  · exact .refl s

theorem nextClearsOnly_ackTimeout (s : State) : s.NextClearsOnly lost (execAckTimeout s) := by
  refine ⟨_, rfl, ?_⟩
  split
  · exact (State.clearsOnly_followAccessory _).of_ev_left rfl
  all_goals exact .refl s

/-! ### The commands -/

/-- The bytes that a command puts on the lesson line, if it is an arrival there. -/
def lineBytes (s : State) : Instr → Option (List Byte)
  | .terminalReset h body _ => some (goodBlockBytes h 18 body)
  | .cadence h body => some (goodBlockBytes h 0 body)
  | .checkError h kind body crc => some (blockBytes h kind body crc)
  | .lengthError h kind length => some [leadByte, h.addr, h.chan, kind, h.seq, length]
  | .blankTimeout => some (goodBlockBytes s.nextCadence.1 0 s.nextCadence.2)
  | i => i.sentBlock.map fun b => goodBlockBytes ⟨b.addr, b.chan, b.seq⟩ b.kind b.body

/-- A command that sends a block is its reception. -/
theorem exec_of_sentBlock {i : Instr} {b : Block} (h : i.sentBlock = some b) (s : State) :
    exec i s = .next (s.receive ⟨b.addr, b.chan, b.seq⟩ b.kind b.body) := by
  cases i <;> cases h <;> rfl

/-- A command that puts bytes on the lesson line does so where the input lines stand as it says. -/
theorem exec_of_lineBytes {i : Instr} {bytes : List Byte} (h : lineBytes s i = some bytes) :
    ∃ pins, exec i s = .next (({ s with pins := pins } : State).deliver bytes) := by
  cases hb : i.sentBlock with
  | some b =>
    have hbytes : lineBytes s i = some (goodBlockBytes ⟨b.addr, b.chan, b.seq⟩ b.kind b.body) := by
      cases i <;> cases hb <;> rfl
    cases h.symm.trans hbytes
    exact ⟨s.pins, exec_of_sentBlock hb s⟩
  | none =>
    cases i with
    | terminalReset _ _ levels => cases h; exact ⟨levels, rfl⟩
    | cadence => cases h; exact ⟨s.pins, rfl⟩
    | checkError => cases h; exact ⟨s.pins, rfl⟩
    | lengthError => cases h; exact ⟨s.pins, rfl⟩
    | blankTimeout => cases h; exact ⟨s.pins, rfl⟩
    | _ => simp [lineBytes, hb] at h

/-- A step of the part itself clears nothing. -/
theorem nextClearsOnly_ownStep {i : Instr} (hl : lineBytes s i = none) (hp : ∀ p, i ≠ .powerOnReset p) :
    s.NextClearsOnly lost (exec i s) := by
  cases i with
  | powerOnReset p => exact absurd rfl (hp p)
  | lineSilenceTimeout => exact nextClearsOnly_lineSilenceTimeout s
  | channelLapse ch => exact nextClearsOnly_channelLapse ch s
  | imageOpen => exact ⟨_, rfl, s.clearsOnly_runItem .imageOpen clearsOnly_imageOpenWork⟩
  | imageStripe => exact ⟨_, rfl, s.clearsOnly_runItem .imageStripe clearsOnly_imageStripeWork⟩
  | readyStripe => exact nextClearsOnly_readyStripe s
  | imageClose => exact ⟨_, rfl, s.clearsOnly_runItem .imageClose clearsOnly_imageCloseWork⟩
  | imageAbort => exact ⟨_, rfl, s.clearsOnly_runItem .imageAbort clearsOnly_imageAbortWork⟩
  | applyHeldCadenceNotice => exact ⟨_, rfl, s.clearsOnly_applyHeld .cadence⟩
  | closingTimeout k => exact nextClearsOnly_closingTimeout k s
  | idleTimeout k => exact nextClearsOnly_idleTimeout k s
  | text => exact ⟨_, rfl, s.clearsOnly_runItem .text clearsOnly_textWork⟩
  | fill => exact ⟨_, rfl, s.clearsOnly_runItem .fill clearsOnly_fillWork⟩
  | windowSet => exact ⟨_, rfl, s.clearsOnly_runItem .windowSet clearsOnly_windowSetWork⟩
  | eraseAll => exact ⟨_, rfl, s.clearsOnly_runItem .eraseAll fun item t => .of_ev (eraseAllWork_ev item t)⟩
  | echoRequest => exact nextClearsOnly_echoRequest s
  | transferLoad => exact ⟨_, rfl, s.clearsOnly_runItem .transferLoad clearsOnly_transferWork⟩
  | thresholdLoad => exact ⟨_, rfl, s.clearsOnly_runItem .thresholdLoad clearsOnly_thresholdWork⟩
  | weightsLoad => exact ⟨_, rfl, s.clearsOnly_runItem .weightsLoad clearsOnly_weightsWork⟩
  | glyphsLoad => exact ⟨_, rfl, s.clearsOnly_runItem .glyphsLoad clearsOnly_glyphsWork⟩
  | programmingComplete => exact nextClearsOnly_programmingComplete s
  | factoryHalftoneNotice => exact ⟨_, rfl, s.clearsOnly_applyHeld .factory⟩
  | addressSlot => exact nextClearsOnly_addressSlot s
  | senseCompletion count => exact nextClearsOnly_senseCompletion count s
  | drainComplete => exact nextClearsOnly_drainComplete s
  | startingSweepComplete => exact nextClearsOnly_startingSweepComplete s
  | blankingSweepComplete => exact nextClearsOnly_blankingSweepComplete s
  | powerGoodRise => exact nextClearsOnly_powerGoodRise s
  | powerGoodFall => exact nextClearsOnly_powerGoodFall s
  | scan x => exact nextClearsOnly_scan x s
  | grantAsserted => exact nextClearsOnly_grantAsserted s
  | frameBegin => exact nextClearsOnly_frameBegin s
  | frameComplete => exact nextClearsOnly_frameComplete s
  | grantWithdrawn => exact ⟨_, rfl, .of_ev rfl⟩
  | acknowledge => exact nextClearsOnly_acknowledge s
  | busyAsserted => exact ⟨_, rfl, .of_ev rfl⟩
  | busyReleased => exact nextClearsOnly_busyReleased s
  | ackTimeout => exact nextClearsOnly_ackTimeout s
  | _ => cases hl

/-- Every command keeps attention exact. -/
theorem nextClearsOnly_exec (i : Instr) (s : State) : s.NextClearsOnly (fun _ => True) (exec i s) := by
  cases hl : lineBytes s i with
  | some bytes =>
    obtain ⟨pins, hexec⟩ := exec_of_lineBytes hl
    exact ⟨_, hexec, (State.clearsOnly_deliver bytes _).of_ev_left rfl⟩
  | none =>
    by_cases hp : ∃ p, i = .powerOnReset p
    · obtain ⟨p, rfl⟩ := hp
      exact ⟨_, rfl, s.clearsOnly_powerOn p⟩
    · exact nextClearsOnly_ownStep hl fun p h => hp ⟨p, h⟩

/-- The kinds of the render path are not those of EVENT-CLEAR and TERMINAL-RESET (R133). -/
theorem toNat_le_of_renderPathBlock {kind : Byte} {body : List Byte} (h : renderPathBlock kind body = true) :
    kind.toNat ≤ 11 := by
  simp only [renderPathBlock, Bool.or_eq_true, Bool.and_eq_true, decide_eq_true_eq, beq_iff_eq] at h
  obtain ((⟨_, hle⟩ | ⟨rfl, _⟩) | ⟨rfl, _⟩) := h
  · omega
  · decide
  · decide

/-- Nor are the kinds with no owner (R134). -/
theorem toNat_of_ownerlessKind {kind : Byte} (h : ownerlessKind kind = true) :
    kind.toNat = 10 ∨ 20 ≤ kind.toNat := by
  simp only [ownerlessKind, Bool.or_eq_true, Bool.and_eq_true, decide_eq_true_eq, beq_iff_eq] at h
  obtain (rfl | ⟨hge, _⟩) := h
  · exact .inl rfl
  · exact .inr hge

/-- The blocks of the commands that can be sent, but for EVENT-CLEAR: short enough, and of no kind that clears. Three
rows give a range of kinds; the others fix the kind. -/
theorem sentBlock_of_wf {i : Instr} {b : Block} (hwf : i.wf = true) (hc : ∀ h body, i ≠ .eventClear h body)
    (h : i.sentBlock = some b) : b.body.length ≤ 240 ∧ b.kind.toNat ≠ 13 ∧ b.kind.toNat ≠ 18 := by
  cases i with
  | eventClear header body => exact absurd rfl (hc header body)
  | unknownKind _ kind body =>
    cases h
    simp only [Instr.wf, wfBody, Bool.and_eq_true, decide_eq_true_eq] at hwf
    simp only [blockOf]
    omega
  | blockQueuedForRender _ kind body =>
    cases h
    simp only [Instr.wf, wfBody, Bool.and_eq_true, decide_eq_true_eq] at hwf
    obtain ⟨hlen, hpath⟩ := hwf
    have hkind := toNat_le_of_renderPathBlock hpath
    simp only [blockOf]
    omega
  | accessory _ kind body =>
    cases h
    simp only [Instr.wf, wfBody, Bool.and_eq_true, decide_eq_true_eq] at hwf
    obtain ⟨hlen, hnone⟩ := hwf
    have hkind := toNat_of_ownerlessKind hnone
    simp only [blockOf]
    omega
  | _ => cases h <;> simp [Instr.wf, wfBody, wfRest, blockOf] at hwf ⊢ <;> omega

/-- The arrivals on the lesson line, but for the two resets and EVENT-CLEAR, clear nothing of a receiver that hunts. -/
theorem nextClearsOnly_arrival {i : Instr} {bytes : List Byte} (hwf : i.wf = true) (hs : s.rx.state = .hunting)
    (hr : ∀ h body levels, i ≠ .terminalReset h body levels) (hc : ∀ h body, i ≠ .eventClear h body)
    (hl : lineBytes s i = some bytes) : s.NextClearsOnly lost (exec i s) := by
  have hcadence (h : Header) {body : List Byte} (hb : body.length ≤ 240) : s.ClearsOnly lost (s.receive h 0 body) :=
    s.clearsOnly_receive_of_kind hs h hb (by decide) (by decide)
  cases hb : i.sentBlock with
  | some b =>
    obtain ⟨hlen, h13, h18⟩ := sentBlock_of_wf hwf hc hb
    exact ⟨_, exec_of_sentBlock hb s, s.clearsOnly_receive_of_kind hs _ hlen h13 h18⟩
  | none =>
    cases i with
    | terminalReset h body levels => exact absurd rfl (hr h body levels)
    | cadence h body => exact ⟨_, rfl, hcadence h (of_decide_eq_true hwf)⟩
    | checkError h kind body crc =>
      simp only [Instr.wf, wfBody, Bool.and_eq_true, decide_eq_true_eq, bne_iff_ne] at hwf
      obtain ⟨hlen, hcrc⟩ := hwf
      refine ⟨_, congrArg Host.Outcome.next (deliver_bad hs h kind hlen hcrc), ?_⟩
      exact (State.clearsOnly_latch .checkError _).of_ev_left rfl
    | lengthError h kind length =>
      refine ⟨_, congrArg Host.Outcome.next (deliver_long hs _ _ _ _ length (of_decide_eq_true hwf)), ?_⟩
      exact (State.clearsOnly_latch .formatError _).of_ev_left rfl
    | blankTimeout => exact ⟨_, rfl, hcadence _ (by decide : 2 ≤ 240)⟩
    | _ => simp [lineBytes, hb] at hl

/-- A step keeps attention exact, and so does the idling of an empty queue. -/
theorem step_keeps_attentionExact (h : s.AttentionExact) (hst : step s = .next t) : t.AttentionExact := by
  unfold step at hst
  split at hst
  · cases hst
    exact (s.clearsOnly_idle (lost := fun _ => True)).attention h
  · exact ((nextClearsOnly_exec _ _).of_eq hst).attention h

end

/-- Settles O3: every write of the latched statuses makes attention exact, and only an EVENT-CLEAR block and the resets
write fewer than there were. -/
theorem latchedClearedOnlyByClearOrReset : Obligations.LatchedClearedOnlyByClearOrReset := by
  refine ⟨fun s t => step_keeps_attentionExact, fun i s t hwf hs hp hr hc hexec n hn => ?_,
    fun h body s t hlen hs hexec n hn hnamed => ?_⟩
  · have hnext : s.NextClearsOnly (fun _ => False) (exec i s) := by
      cases hl : lineBytes s i with
      | some bytes => exact nextClearsOnly_arrival hwf hs hr hc hl
      | none => exact nextClearsOnly_ownStep hl hp
    exact (hnext.of_eq hexec).latched n id hn
  · cases hexec
    refine (s.clearsOnly_receive hs h 13 hlen).latched n ?_ hn
    rintro (h18 | ⟨_, hset⟩)
    · exact absurd h18 (by decide : (13 : Byte).toNat ≠ 18)
    · exact absurd (hnamed.symm.trans hset) Bool.false_ne_true

end Sys2Proof.Machine
end

