-- ==== Sys2Proof/Proofs/ResetState.lean ====
section
/-! The state right after reset satisfies what the steps keep. -/

namespace Sys2Proof.Machine

/-- A property of every entry of a vector of equal entries. -/
theorem forall_mem_replicate {α : Type} {n : Nat} {p : α → Prop} {a : α} (h : p a) :
    ∀ x ∈ (Vector.replicate n a).toList, p x := by
  intro x hx
  rw [Vector.toList_replicate] at hx
  obtain rfl := List.eq_of_mem_replicate hx
  exact h

theorem factoryTables_inRange : factoryTables.InRange := by
  refine ⟨by decide, by decide, by decide, by decide, by decide, by decide, by decide, ?_, ⟨Nat.zero_le _, List.nodup_nil⟩,
    rfl, rfl, rfl, rfl⟩
  decide

theorem State.reset_workingTables : State.reset.workingTables = factoryTables := by
  simp only [State.workingTables, State.reset, Vector.map_replicate]
  rfl

theorem State.reset_queuesBounded : State.reset.QueuesBounded := by
  refine ⟨fun c hc => (List.not_mem_nil hc).elim, ?_⟩
  decide

theorem State.reset_rectanglesOrdered : State.reset.RectanglesOrdered := by
  constructor <;> decide

theorem State.reset_countsInRange : State.reset.CountsInRange := by
  have hslot : Slot.reset.CountsInRange := ⟨Nat.zero_le _, nofun, Nat.zero_le _, nofun⟩
  refine ⟨forall_mem_replicate (by decide), forall_mem_replicate hslot, fun c hc => (List.not_mem_nil hc).elim,
    fun v hv => (List.not_mem_nil hv).elim, Nat.zero_le _, forall_mem_replicate (Nat.zero_le _),
    forall_mem_replicate (Nat.zero_le _), Nat.zero_le _, Nat.zero_le _, Nat.zero_le _, fun h => absurd rfl h⟩

theorem State.reset_tablesInRange : State.reset.TablesInRange := by
  refine ⟨?_, ?_, fun _ => factoryTables_inRange, fun t ht => nomatch ht⟩
  · rw [State.reset_workingTables]
    exact factoryTables_inRange
  · rw [State.reset_workingTables]
    exact factoryTables_inRange

theorem State.reset_contextsSound : State.reset.ContextsSound := by
  have hfree (k : Fin 4) : State.reset.ren.contexts.slots[k].state = .free := by
    show (Vector.replicate 4 Slot.reset)[k.val].state = .free
    rw [Vector.getElem_replicate]
    rfl
  refine ⟨⟨fun j k hj => absurd (hfree j) hj, fun k hk => absurd (hfree k) hk, fun h hh => (List.not_mem_nil hh).elim,
    List.nodup_nil, fun h hh => nomatch hh⟩, fun c hc => (List.not_mem_nil hc).elim, fun h => absurd rfl h⟩

theorem State.reset_errorsBounded : State.reset.ErrorsBounded := by
  have hslot (k : Fin 4) : State.reset.ren.slots[k] = Slot.reset := Vector.getElem_replicate ..
  refine ⟨by decide, fun _ => by decide, fun t ht => (nomatch ht), ⟨fun k => ?_, fun k hk => ?_⟩,
    fun c hc => (List.not_mem_nil hc).elim⟩
  · rw [hslot]
    exact forall_mem_replicate (by decide)
  · rw [hslot] at hk
    exact absurd rfl hk

/-- Settles O60: each property is read off the reset values. -/
theorem resetMeetsEveryInvariant : Obligations.ResetMeetsEveryInvariant :=
  ⟨State.reset_queuesBounded, ⟨nofun, fun h => absurd rfl h⟩, State.reset_rectanglesOrdered, State.reset_countsInRange,
    State.reset_tablesInRange, State.reset_contextsSound, State.reset_errorsBounded, ⟨⟨rfl, rfl⟩, rfl⟩,
    ⟨List.nodup_nil, List.nodup_nil⟩, rfl⟩

/-! ### Two services of one row -/

/-- A RUNNING part with two services of row 0 in flight, which no run from reset reaches: the first is due, and the second has
had its three retries. -/
def State.twinServices : State :=
  { State.reset with
    seq := { State.reset.seq with state := .running }
    row := { RowEngine.reset with sense := [⟨0, 0, 0, 0, .settling (some 1)⟩, ⟨0, 0, 0, 3, .settling none⟩] }
    pending := [.senseCompletion 1] }

theorem State.twinServices_countsInRange : State.twinServices.CountsInRange := by
  obtain ⟨hlapse, hslots, hstaged, _, hrest⟩ := State.reset_countsInRange
  exact ⟨hlapse, hslots, hstaged, by decide, hrest⟩

/-- The refresh of the first service counts a retry of every service of its row. -/
theorem State.twinServices_step : ∃ t, step State.twinServices = .next t ∧ ⟨0, 0, 0, 4, .refreshing⟩ ∈ t.row.sense := by
  exact ⟨_, rfl, .tail _ (.head _)⟩

/-- Refutes O55: its counts are claimed of states with two services of one row in flight too, and there a disagreeing sense
of one of them counts a fourth retry of the other. -/
theorem not_stepKeepsQueuesRectanglesCounts : ¬ Obligations.StepKeepsQueuesRectanglesCounts := by
  intro ⟨_, hkept⟩
  obtain ⟨t, hstep, hfourth⟩ := State.twinServices_step
  obtain ⟨_, _, hcounts⟩ := hkept _ t hstep
  obtain ⟨_, _, _, hretries, _⟩ := hcounts State.reset_tablesInRange State.twinServices_countsInRange
  exact absurd (hretries _ hfourth) (by decide)

end Sys2Proof.Machine
end

