-- ==== Sys2Proof/Proofs/StepParts.lean ====
section
/-! The parts that every step is made of. A relation between states that holds over each part of a step, and is reflexive
and transitive, holds over every step (`State.KeptBySteps.step`): the properties that steps keep, and what steps leave
unchanged, are proved part by part. What a part may do to a block of the state that several parts write is said once, by
`Classifier.Evolves`, `TouchTable.DebounceInRange` and `PanelTable.InRange`. -/

namespace Sys2Proof.Machine

/-! ### What the parts do to the classifier, the touch unit and the PANEL table -/

/-- The kind entries that no load changes are those of the factory (R126). -/
def FixedKinds (t : Vector KindEntry 32) : Prop :=
  t[0] = factoryKinds[0] ∧ t[11] = factoryKinds[11] ∧ t[12] = factoryKinds[12] ∧ t[18] = factoryKinds[18]

/-- A group list is one that fits (R124). -/
def GroupsFit (gs : List (Fin 64)) : Prop := gs.length ≤ Config.groupListCap ∧ gs.Nodup

/-- From `c` to `c'` the group list and the guarded kind entries stay in range. -/
structure Classifier.Evolves (c c' : Classifier) : Prop where
  groups : GroupsFit c.groups → GroupsFit c'.groups
  kinds : FixedKinds c.kinds → FixedKinds c'.kinds

/-- The debounce is in range (R107). -/
def TouchTable.DebounceInRange (t : TouchTable) : Prop := 1 ≤ t.debounce ∧ t.debounce ≤ 15

/-- The PANEL values are in the ranges of their owners (R75, R93). -/
def PanelTable.InRange (p : PanelTable) : Prop :=
  (20 ≤ p.period ∧ p.period ≤ 80) ∧ (1 ≤ p.settle ∧ p.settle ≤ 8) ∧ p.retries ≤ 3 ∧
    (1 ≤ p.urgentLimit ∧ p.urgentLimit ≤ 15) ∧ p.blankTimeout ≤ 255

/-- Threshold entries are in range (R44). -/
def ThresholdInRange (t : Vector Byte 64) : Prop := ∀ v ∈ t.toList, v.toNat ≤ 254

theorem Classifier.Evolves.of_eq {c c' : Classifier} (hg : c'.groups = c.groups) (hk : c'.kinds = c.kinds) : c.Evolves c' :=
  ⟨fun h => hg ▸ h, fun h => hk ▸ h⟩

/-- An entry written keeps what every entry satisfies. -/
theorem forall_mem_listSet {α : Type} {p : α → Prop} {l : List α} {i : Nat} {a : α} (h : ∀ x ∈ l, p x) (ha : p a) :
    ∀ x ∈ l.set i a, p x := by
  intro x hx
  obtain hx | rfl := List.mem_or_eq_of_mem_set hx
  · exact h x hx
  · exact ha

theorem forall_mem_setIfInBounds {α : Type} {n : Nat} {p : α → Prop} {v : Vector α n} {i : Nat} {a : α}
    (h : ∀ x ∈ v.toList, p x) (ha : p a) : ∀ x ∈ (v.setIfInBounds i a).toList, p x := by
  rw [Vector.toList_setIfInBounds]
  exact forall_mem_listSet h ha

@[simp] theorem getElem_tabulate {α : Type} {n : Nat} (f : Fin n → α) (k : Nat) (hk : k < n) :
    (tabulate f)[k] = f ⟨k, hk⟩ := by
  simp [tabulate]

theorem Classifier.evolves_formNumber (c : Classifier) : c.Evolves c.formNumber := .of_eq (by simp) (by simp)

/-- A group list from a load's entries fits (R124). -/
theorem groupsFit_groupsOf (entries : List Byte) : GroupsFit (groupsOf entries).1 := by
  unfold groupsOf
  refine List.foldlRecOn entries _ (motive := fun (acc : List (Fin 64) × Bool) => GroupsFit acc.1) ⟨Nat.zero_le _, List.nodup_nil⟩ ?_
  rintro ⟨gs, dropped⟩ hgs b _
  dsimp only at hgs ⊢
  split
  · next hb =>
    split
    · exact hgs
    · next hnew =>
      split
      · next hroom =>
        refine ⟨?_, ?_⟩
        · simpa [Config.groupListCap, Nat.succ_le_iff] using hroom
        · exact List.nodup_append.mpr ⟨hgs.2, List.nodup_singleton _, fun a ha c hc hac => hnew (by
            rw [List.mem_singleton] at hc; exact hc ▸ hac ▸ ha)⟩
      · exact hgs
  · exact hgs

/-- No entry of a KINDS load changes a guarded kind (R126). -/
theorem fixedKinds_writeKind {t : Vector KindEntry 32} (h : FixedKinds t) (e : Nat × List Byte) :
    FixedKinds (writeKind t e) := by
  unfold writeKind
  split
  · exact h
  · next hfree =>
    obtain ⟨h0, h11, h12, h18⟩ := h
    simp only [protectedKind, Bool.or_eq_true, beq_iff_eq, not_or] at hfree
    obtain ⟨hn0, ⟨hn11, hn12⟩, hn18⟩ := hfree
    exact ⟨by simpa [Vector.getElem_setIfInBounds, hn0] using h0,
      by simpa [Vector.getElem_setIfInBounds, hn11] using h11,
      by simpa [Vector.getElem_setIfInBounds, hn12] using h12,
      by simpa [Vector.getElem_setIfInBounds, hn18] using h18⟩

/-- A PANEL entry is clamped when it is written (R75, R93). -/
theorem PanelTable.inRange_write {p : PanelTable} (h : p.InRange) (index : Nat) {v : Nat} (hv : v ≤ 255) :
    (p.write index v).InRange := by
  unfold PanelTable.InRange at h ⊢
  unfold PanelTable.write
  split
  case h_6 => exact h
  all_goals dsimp only; omega

theorem PanelTable.inRange_factory : factoryPanel.InRange := by
  unfold PanelTable.InRange
  decide

theorem TouchTable.debounceInRange_factory : factoryTouch.DebounceInRange := by
  unfold TouchTable.DebounceInRange
  decide

/-- A TOUCH entry is clamped when it is written (R107). -/
theorem TouchTable.debounce_write {t : TouchTable} (h : t.DebounceInRange) (index : Nat) (b : List Byte) :
    (t.write index b).DebounceInRange := by
  unfold TouchTable.DebounceInRange at h ⊢
  unfold TouchTable.write
  split
  case h_3 => dsimp only; omega
  all_goals exact h

/-- The two steps of R46 leave a sum of at most 16. -/
theorem Weights.sum_reduce_le (w : Weights) : w.reduce.sum ≤ 16 := by
  simp only [Weights.reduce, Weights.sum]
  omega

theorem Weights.sum_load_le (entries : List (Nat × List Byte)) (w : Weights) : (w.load entries).sum ≤ 16 :=
  Weights.sum_reduce_le _

/-- A byte of the THRESHOLD table is stored as at most 254 (R44). -/
theorem toNat_thresholdOfByte_le (b : Byte) : (thresholdOfByte b).toNat ≤ 254 := by
  unfold thresholdOfByte
  split
  · decide
  · next h =>
    have : b.toNat ≠ 255 := fun hb => h (BitVec.eq_of_toNat_eq hb)
    omega

theorem thresholdInRange_writeBytes {t : Vector Byte 64} (h : ThresholdInRange t) (entries : List (Nat × List Byte)) :
    ThresholdInRange (writeBytes thresholdOfByte entries t) := by
  unfold writeBytes
  refine List.foldlRecOn entries _ (motive := ThresholdInRange) h fun t ht e _ => ?_
  exact forall_mem_setIfInBounds ht (toNat_thresholdOfByte_le _)

end Sys2Proof.Machine
end

