-- ==== Sys2Proof/Proofs/StepKept.lean ====
section
/-! What arrives on the lesson line, part by part: notices, the owners of a block's kind, classification, the receiver. -/

namespace Sys2Proof.Machine

/-! ### Arrivals on the lesson line -/

/-- A relation that holds over each part of what arrives on the lesson line, but for the resets and FAULT-CLEAR. -/
structure State.KeptByArrivals (R : State → State → Prop) : Prop where
  refl : ∀ s, R s s
  trans : ∀ {s t u}, R s t → R t u → R s u
  /-- the receiver, the event unit, the transmitter, the ports, the blank timer and the model's own records -/
  aside : ∀ {s t : State}, t = { s with
    rx := t.rx, ev := t.ev, tx := t.tx, acc := t.acc, lines := t.lines, pins := t.pins, choices := t.choices
    pending := t.pending, seq := { s.seq with blankTimer := t.seq.blankTimer } } → R s t
  cls : ∀ {s t : State}, t = { s with cls := t.cls } → s.cls.Evolves t.cls → R s t
  touch : ∀ {s t : State}, t = { s with touch := t.touch } →
    (s.touch.table.DebounceInRange → t.touch.table.DebounceInRange) → R s t
  storeCommit : ∀ s : State, R s s.storeCommit
  panel : ∀ {s t : State}, t = { s with seq := { s.seq with panel := t.seq.panel } } →
    (s.seq.panel.InRange → t.seq.panel.InRange) → R s t
  blank : ∀ s : State, R s s.blank
  unblank : ∀ s : State, R s s.unblank
  queues : ∀ {s t : State}, t = { s with ren := { s.ren with queue := t.ren.queue, echoes := t.ren.echoes } } → R s t
  cadenceAtSlot : ∀ (s : State) (k : Fin 4), R s (s.cadenceAtSlot k)
  factoryHalftone : ∀ s : State, (s.ren.busy = false ∨ s.ren.stages = []) → R s { s with ren := s.ren.factoryHalftone }
  holdNotice : ∀ (s : State) (n : Notice), s.ren.busy = true →
    R s { s with ren := { s.ren with notices := s.ren.notices ++ [n] } }

section
variable {R : State → State → Prop} (k : State.KeptByArrivals R)
include k

theorem State.KeptByArrivals.foldl {α : Type} {f : State → α → State} (h : ∀ s a, R s (f s a)) (as : List α) (s : State) :
    R s (as.foldl f s) := by
  induction as generalizing s with
  | nil => exact k.refl s
  | cons a as ih => exact k.trans (h s a) (ih (f s a))

theorem State.KeptByArrivals.latch (e : EdgeEvent) (s : State) : R s (s.latch e) := k.aside rfl

theorem State.KeptByArrivals.latchIf (c : Bool) (e : EdgeEvent) (s : State) : R s (s.latchIf c e) := by
  cases c with
  | false => exact k.refl s
  | true => exact k.latch e s

theorem State.KeptByArrivals.setLevel (e : LevelEvent) (v : Bool) (s : State) : R s (s.setLevel e v) := k.aside rfl

theorem State.KeptByArrivals.offer (r : Report) (s : State) : R s (s.offer r) := by
  by_cases h : s.tx.queue.length < 16
  · rw [State.offer_room h]
    exact k.aside rfl
  · rw [State.offer_full h]
    exact k.latch _ s

theorem State.KeptByArrivals.handOff (body : List Byte) (s : State) : R s (s.handOff body) := by
  unfold State.handOff
  split
  · exact k.refl s
  · split
    · exact k.aside rfl
    · exact k.latch _ s

theorem State.KeptByArrivals.queueItem (w : WorkKind) (b : Block) (s : State) : R s (s.queueItem w b) := by
  by_cases h : s.ren.queue.length < 8
  · rw [State.queueItem_room h]
    exact k.queues rfl
  · rw [State.queueItem_full h]
    exact k.latch _ s

theorem State.KeptByArrivals.restartBlankTimer (s : State) : R s s.restartBlankTimer := k.aside rfl

theorem State.KeptByArrivals.configureLine (n : Fin 4) (e : LineEntry) (s : State) : R s (s.configureLine n e) := by
  unfold State.configureLine
  dsimp only
  split
  · exact k.aside rfl
  · split
    · exact k.aside rfl
    all_goals split <;> exact k.aside rfl

/-! #### Notices (R24, R143) -/

theorem State.KeptByArrivals.applyNotice {s : State} (n : Notice) (h : s.ren.busy = false ∨ s.ren.stages = []) :
    R s (s.applyNotice n) := by
  cases n with
  | cadence => exact k.foldl k.cadenceAtSlot _ s
  | factory => exact k.factoryHalftone s h

theorem State.KeptByArrivals.notice (n : Notice) (s : State) : R s (s.notice n) := by
  cases hb : s.ren.busy with
  | true =>
    rw [State.notice_busy hb]
    exact k.holdNotice s n hb
  | false =>
    rw [State.notice_idle hb]
    exact k.applyNotice n (.inl hb)

theorem State.KeptByArrivals.lapse (ch : Fin 64) (s : State) : R s (s.lapse ch) := by
  refine k.trans ?_ (k.latch .lessonLapse _)
  exact k.cls rfl (.of_eq rfl rfl)

theorem State.KeptByArrivals.cadenceAtChannel (s : State) (ch : Fin 64) : R s (s.cadenceAtChannel ch) := by
  unfold State.cadenceAtChannel
  dsimp only
  split
  · split
    · refine k.trans ?_ (k.lapse ch _)
      exact k.cls rfl (.of_eq rfl rfl)
    · exact k.cls rfl (.of_eq rfl rfl)
  · exact k.refl s

theorem State.KeptByArrivals.cadenceAtPanel (s : State) : R s s.cadenceAtPanel := by
  unfold State.cadenceAtPanel
  split
  · dsimp only
    generalize (if s.seq.blankTimer = Config.blankTimerMax then s.seq.blankTimer else s.seq.blankTimer + 1) = n
    split
    · refine k.trans ?_ (k.blank _)
      exact k.aside rfl
    · exact k.aside rfl
  all_goals exact k.refl s

theorem State.KeptByArrivals.takeCadence (b : Block) (s : State) : R s (s.takeCadence b) := by
  unfold State.takeCadence
  split
  · split
    · exact k.latch _ s
    · refine k.trans (k.aside (t := { s with rx := { s.rx with lastCount := wordAt b.body 0 } }) rfl) ?_
      exact k.trans (k.trans (k.foldl k.cadenceAtChannel _ _) (k.notice .cadence _)) (k.cadenceAtPanel _)
  all_goals exact k.refl s

/-! #### Owners (R133) -/

theorem State.KeptByArrivals.applyLoad (range : LoadRange) {write : List (Nat × List Byte) → State → State}
    (h : ∀ entries s, R s (write entries s)) (s : State) : R s (s.applyLoad range write) := by
  unfold State.applyLoad
  dsimp only
  refine k.trans (k.latchIf range.clipped .tableClipped s) ?_
  split
  · exact h _ _
  · exact k.latch _ _

theorem State.KeptByArrivals.tableLoad (b : Block) (s : State) : R s (s.tableLoad b) := by
  unfold State.tableLoad
  split
  · refine k.applyLoad _ (fun entries s => k.cls rfl ?_) s
    exact .of_eq (by simp) (by simp)
  · unfold State.loadGroups
    dsimp only
    split
    · exact k.latch _ s
    · refine k.trans ?_ (k.latchIf _ _ _)
      exact k.cls rfl ⟨fun _ => groupsFit_groupsOf _, id⟩
  · refine k.applyLoad _ (fun entries s => ?_) s
    exact k.cls rfl (.of_eq rfl rfl)
  · refine k.applyLoad _ (fun entries s => k.trans ?_ (k.latchIf _ _ _)) s
    refine k.cls rfl ⟨id, fun h => ?_⟩
    exact List.foldlRecOn entries _ h fun t ht e _ => fixedKinds_writeKind ht e
  · refine k.applyLoad _ (fun entries s => ?_) s
    exact k.cls rfl (.of_eq rfl rfl)
  · exact k.queueItem _ b s
  · exact k.queueItem _ b s
  · exact k.queueItem _ b s
  · exact k.queueItem _ b s
  · refine k.applyLoad _ (fun entries s => k.panel rfl fun h => ?_) s
    exact List.foldlRecOn entries _ h fun p hp e _ => PanelTable.inRange_write hp _ (by omega)
  · refine k.applyLoad _ (fun entries s => k.touch rfl fun h => ?_) s
    exact List.foldlRecOn entries _ (motive := TouchTable.DebounceInRange) h
      fun t ht e _ => TouchTable.debounce_write ht _ _
  · exact k.applyLoad _ (fun entries s => k.aside rfl) s
  · refine k.applyLoad _ (fun entries s => k.foldl (fun s e => ?_) entries s) s
    unfold State.writeLine
    split
    · exact k.configureLine _ _ s
    · exact k.refl s
  · exact k.latch _ s

theorem State.KeptByArrivals.panelControl (b : Block) (s : State) : R s (s.panelControl b) := by
  unfold State.panelControl
  split
  · exact k.queueItem _ b s
  · exact k.blank s
  · exact k.unblank s
  · exact k.latch _ s

theorem State.KeptByArrivals.zoneSet (body : List Byte) (s : State) : R s (s.zoneSet body) := by
  unfold State.zoneSet
  split
  · exact k.touch rfl id
  · split
    · split
      · exact k.latch _ s
      · exact k.touch rfl id
    · exact k.latch _ s

theorem State.KeptByArrivals.storeFactory (s : State) : R s s.storeFactory := by
  unfold State.storeFactory
  dsimp only
  refine k.trans ?_ (k.notice .factory _)
  refine k.trans ?_ (k.foldl (fun s n => k.configureLine n _ s) _ _)
  have hcls : R s { s with cls := Classifier.formNumber { s.cls with
      address := factoryTables.address, groups := [], channels := factoryChannels, kinds := factoryKinds
      watch := factoryTables.watch } } := by
    refine k.cls rfl ⟨fun _ => ?_, fun _ => ?_⟩
    · rw [Classifier.formNumber_groups]
      exact ⟨Nat.zero_le _, List.nodup_nil⟩
    · rw [Classifier.formNumber_kinds]
      exact ⟨rfl, rfl, rfl, rfl⟩
  have hpanel (s : State) : R s { s with seq := { s.seq with panel := factoryPanel } } :=
    k.panel rfl fun _ => PanelTable.inRange_factory
  have htouch (s : State) : R s { s with touch := s.touch.setTable factoryTouch } :=
    k.touch rfl fun _ => TouchTable.debounceInRange_factory
  exact k.trans hcls (k.trans (hpanel _) (k.trans (htouch _) (k.aside rfl)))

/-- The owners that empty the fault row list keep the relation too. -/
def State.ResetsKept (R : State → State → Prop) (b : Block) : Prop :=
  (b.kind.toNat = 18 → ∀ s : State, R s s.terminalReset) ∧
    (b.kind.toNat = 19 → ∀ s : State, R s { s with row := s.row.clearFaults })

theorem State.KeptByArrivals.act {b : Block} (hb : State.ResetsKept R b) (s : State) : R s (s.act b) := by
  have hdrawing (w : WorkKind) : R s (s.queueItem w b).restartBlankTimer :=
    k.trans (k.queueItem w b s) (k.restartBlankTimer _)
  unfold State.act
  split
  · exact hdrawing .imageOpen
  · exact hdrawing .imageStripe
  · exact hdrawing .imageClose
  · exact hdrawing .imageAbort
  · exact hdrawing .text
  · exact hdrawing .fill
  · exact k.queueItem .windowSet b s
  · exact k.zoneSet b.body s
  · exact k.panelControl b s
  · exact k.tableLoad b s
  · exact k.offer _ s
  · exact k.aside rfl
  · exact k.latch .test s
  · exact k.aside rfl
  · exact k.storeCommit s
  · exact k.storeFactory s
  · next h18 => exact hb.1 h18 s
  · next h19 => exact hb.2 h19 s
  · exact k.refl s

/-! #### Good blocks and bytes (R123 to R143) -/

theorem State.KeptByArrivals.dispatch (d : Disposition) {b : Block} (hb : State.ResetsKept R b) (s : State) :
    R s (s.dispatch d b) := by
  have hact : R s (if d.acts then s.act b else s) := by
    split
    · exact k.act hb s
    · exact k.refl s
  unfold State.dispatch
  dsimp only
  generalize (if d.acts then s.act b else s) = u at hact ⊢
  split
  · exact k.trans hact (k.handOff b.body u)
  · exact hact

theorem State.KeptByArrivals.watchStep (b : Block) (s : State) : R s (s.watchStep b) := by
  unfold State.watchStep
  split
  · exact k.refl s
  · next n _ =>
    refine k.trans (k.aside (t := { s.latch .watchHit with ev := { (s.latch .watchHit).ev with lastWatch := some n } }) rfl) ?_
    dsimp only
    split
    · exact k.unblank _
    · exact k.refl _

theorem State.KeptByArrivals.classify {b : Block} (hb : State.ResetsKept R b) (s : State) : R s (s.classify b) := by
  unfold State.classify
  split
  · exact k.refl s
  · refine k.trans (k.watchStep b s) ?_
    dsimp only
    split
    · exact k.latch _ _
    · split
      · exact k.refl _
      · exact k.latch .filtered _
      · unfold State.recordAndDispatch
        split
        · exact k.refl _
        · exact k.trans (k.cls (t := { s.watchStep b with cls := (s.watchStep b).cls.record b }) rfl (.of_eq rfl rfl))
            (k.dispatch _ hb _)

theorem State.KeptByArrivals.takeGood {b : Block} (hb : State.ResetsKept R b) (s : State) : R s (s.takeGood b) := by
  unfold State.takeGood
  dsimp only
  refine k.trans (k.aside (t := s.linePresent) rfl) ?_
  split
  · exact k.takeCadence b _
  · exact k.classify hb _

/-- Whatever the bytes and the receiver's state. -/
theorem State.KeptByArrivals.deliver (hr : ∀ b, State.ResetsKept R b) (bytes : List Byte) (s : State) :
    R s (s.deliver bytes) := by
  refine k.foldl (fun s byte => ?_) bytes s
  refine k.trans (k.aside (t := { s with rx := (s.rx.takeByte byte).1 }) rfl) ?_
  show R _ (State.rxResult (s.rx.takeByte byte).2 _)
  cases (s.rx.takeByte byte).2 with
  | none => exact k.refl _
  | lengthError => exact k.latch .formatError _
  | checkError => exact k.latch .checkError _
  | good b => exact k.takeGood (hr b) _

/-- A block sent intact to a receiver that hunts. -/
theorem State.KeptByArrivals.receive {s : State} (hs : s.rx.state = .hunting) (h : Header) {kind : Byte} {body : List Byte}
    (hlen : body.length ≤ 240) (hb : State.ResetsKept R (blockOf h kind body)) : R s (s.receive h kind body) := by
  rw [receive_good hs h kind hlen]
  exact k.trans (k.aside rfl) (k.takeGood hb _)

end

end Sys2Proof.Machine
end

