-- ==== Sys2Proof/Proofs/OwnSteps.lean ====
section
/-! The part's own steps, part by part: stages and notices of a piece of work, the works of the render engine, the row
engine, the panel, the scan. -/

namespace Sys2Proof.Machine

/-! ### Stages, one after another (R14, R24; log 5) -/

/-- The state with another list of what is left to do. -/
def State.withStages (l : List Stage) (s : State) : State := { s with ren := { s.ren with stages := l } }

/-- A stage neither reads nor writes what is left to do. -/
theorem State.performStage_withStages (g : Stage) (l : List Stage) (s : State) :
    (s.withStages l).performStage g = (s.performStage g).withStages l := by
  cases g with
  | write c w =>
    have hrow : (s.withStages l).ren.planeRow w.plane w.row = s.ren.planeRow w.plane w.row := by
      cases w.plane <;> rfl
    show (s.withStages l).rowWrite c w = (s.rowWrite c w).withStages l
    by_cases h : w.op.apply (s.ren.planeRow w.plane w.row) = s.ren.planeRow w.plane w.row
    · rw [State.rowWrite_same h, State.rowWrite_same (by rw [hrow]; exact h)]
    · rw [State.rowWrite_change h, State.rowWrite_change (by rw [hrow]; exact h), hrow]
      cases w.plane <;> rfl
  | contexts c => rfl
  | textClipped => rfl

@[simp] theorem State.performStage_stages (g : Stage) (s : State) : (s.performStage g).ren.stages = s.ren.stages := by
  have h := congrArg (fun t => t.ren.stages) (s.performStage_withStages g s.ren.stages)
  exact h

/-- Doing the next stage first does not change what the piece of work comes to. -/
theorem State.perform_next {s : State} {g : Stage} {rest : List Stage} (h : s.ren.stages = g :: rest) :
    (State.performStage (s.withStages rest) g).perform = s.perform := by
  rw [State.perform_cons h, State.perform, State.performStage_stages]
  show rest.foldl State.performStage (State.withStages [] (State.performStage (s.withStages rest) g)) = _
  rw [← State.performStage_withStages]
  rfl

@[simp] theorem State.perform_stages (s : State) : s.perform.ren.stages = [] := by
  unfold State.perform
  refine List.foldlRecOn s.ren.stages _ (motive := fun t : State => t.ren.stages = []) rfl fun t ht g _ => ?_
  rw [State.performStage_stages, ht]

@[simp] theorem State.performStage_notices (g : Stage) (s : State) : (s.performStage g).ren.notices = s.ren.notices := by
  cases g with
  | write c w =>
    show (s.rowWrite c w).ren.notices = s.ren.notices
    by_cases h : w.op.apply (s.ren.planeRow w.plane w.row) = s.ren.planeRow w.plane w.row
    · rw [State.rowWrite_same h]
    · rw [State.rowWrite_change h]
      simp
  | contexts c => rfl
  | textClipped => rfl

@[simp] theorem State.perform_notices (s : State) : s.perform.ren.notices = s.ren.notices := by
  unfold State.perform
  refine List.foldlRecOn s.ren.stages _ (motive := fun t : State => t.ren.notices = s.ren.notices) rfl fun t ht g _ => ?_
  rw [State.performStage_notices, ht]

/-- A notice leaves what is left to do, and whether a piece of work is in progress. -/
theorem State.cadenceAtSlot_stages (s : State) (k : Fin 4) :
    (s.cadenceAtSlot k).ren.stages = s.ren.stages ∧ (s.cadenceAtSlot k).ren.busy = s.ren.busy := by
  unfold State.cadenceAtSlot State.closingTimeout State.idleTimeout
  dsimp only
  split
  · exact ⟨rfl, rfl⟩
  · split <;> exact ⟨rfl, rfl⟩
  · split
    · simp
    · exact ⟨rfl, rfl⟩

theorem Render.setWeights_stages (w : Weights) (r : Render) :
    (r.setWeights w).stages = r.stages ∧ (r.setWeights w).busy = r.busy := by
  unfold Render.setWeights
  split <;> exact ⟨rfl, rfl⟩

theorem State.applyNotice_stages (s : State) (n : Notice) :
    (s.applyNotice n).ren.stages = s.ren.stages ∧ (s.applyNotice n).ren.busy = s.ren.busy := by
  cases n with
  | cadence =>
    refine List.foldlRecOn _ State.cadenceAtSlot
      (motive := fun t : State => t.ren.stages = s.ren.stages ∧ t.ren.busy = s.ren.busy) ⟨rfl, rfl⟩ fun t ht k _ => ?_
    obtain ⟨hstages, hbusy⟩ := t.cadenceAtSlot_stages k
    exact ⟨hstages.trans ht.1, hbusy.trans ht.2⟩
  | factory => exact Render.setWeights_stages _ _

/-- The parameters of an IMAGE-OPEN after clamping (R25). -/
def ImageParams.InRange (p : ImageParams) : Prop :=
  1 ≤ p.width ∧ p.width ≤ 512 ∧ 1 ≤ p.height ∧ p.height ≤ 512 ∧ 1 ≤ p.scale ∧ p.scale ≤ 4 ∧ p.x0 ≤ 511 ∧ p.y0 ≤ 511 ∧
    1 ≤ p.rows ∧ p.rows ≤ 16

theorem ImageParams.inRange_of {channel : Fin 64} {body : List Byte} {p : ImageParams}
    (h : imageParamsOf channel body = some p) : p.InRange := by
  unfold imageParamsOf at h
  split at h
  · cases h
  · dsimp only at h
    split at h
    · cases h
    · next hzero =>
      cases h
      unfold ImageParams.InRange
      dsimp only
      omega

/-! ### Scans, timers, frames and the handshake -/

section
variable {R : State → State → Prop} (k : State.KeptByArrivals R)
include k

/-! #### A scan (R109, R112, R121, R160, R162) -/

theorem State.KeptByArrivals.offerEcho (e : EchoPart) (s : State) : R s (s.offerEcho e) := by
  unfold State.offerEcho
  split
  · exact k.queues rfl
  · exact k.refl s

theorem State.KeptByArrivals.hitZone (n tx ty : Fin 16) (s : State) : R s (s.hitZone n tx ty) := by
  have hdisarm (t : State) (e : Option EchoPart) :
      R t (if s.touch.zones[n].oneShot then t.setZone n { s.touch.zones[n] with armed := false, echo := e } else t) := by
    split
    · exact k.touch rfl id
    · exact k.refl t
  unfold State.hitZone
  refine k.trans (k.offer (.touch (some n) s.touch.zones[n].code tx ty s.rx.lastCount) s) ?_
  dsimp only
  generalize s.offer (.touch (some n) s.touch.zones[n].code tx ty s.rx.lastCount) = u
  cases s.touch.zones[n].echo with
  | none => exact hdisarm u none
  | some e => exact k.trans (k.offerEcho e u) (hdisarm _ (some e))

theorem State.KeptByArrivals.answerPress (s : State) : R s s.answerPress := by
  unfold State.answerPress
  split
  · split
    · exact k.hitZone _ _ _ s
    · unfold State.stray
      split
      · exact k.offer _ s
      · exact k.refl s
  · exact k.latch _ s

theorem State.KeptByArrivals.examineTouch (s : State) : R s s.examineTouch := by
  have hheld (b : Bool) : R s { s with touch := { s.touch with pressHeld := b } } :=
    k.touch rfl id
  unfold State.examineTouch
  split
  · split
    · exact k.refl s
    · exact hheld false
  · split
    · refine k.trans (hheld true) (k.trans (k.restartBlankTimer _) ?_)
      unfold State.press State.wakePress
      dsimp only
      split
      · exact k.unblank _
      all_goals exact k.answerPress _
    · exact k.refl s

theorem State.KeptByArrivals.sampleLine (levels : BitVec 4) (s : State) (n : Fin 4) : R s (s.sampleLine levels n) := by
  have haccept (l : SignalLine) (v : Bool) : R s ((s.setLine n l).setLevel (.lineIn n) v) := k.aside rfl
  unfold State.sampleLine
  dsimp only
  split
  · exact k.refl s
  · exact k.refl s
  · split
    · exact haccept _ _
    · split
      · split
        · exact k.trans (haccept _ _) (k.offer _ _)
        · exact haccept _ _
      · exact k.aside rfl

theorem State.KeptByArrivals.scan {s t : State} {x : ScanSample} (h : execScan x s = .next t) : R s t := by
  cases h
  dsimp only
  have hsampled : R s { s with
      touch := s.touch.scan x
      pins := { s.pins with service := x.service, fault := x.fault, lines := x.lines } } :=
    k.trans (k.touch (t := { s with touch := s.touch.scan x }) rfl id) (k.aside rfl)
  have hservice (u : State) : R u (u.sampleService x.service) := by
    unfold State.sampleService
    dsimp only
    refine k.trans ?_ (k.setLevel _ _ _)
    refine k.cls rfl (.of_eq ?_ ?_)
    all_goals
      dsimp only
      split
      · rfl
      · simp
  have hfault (u : State) : R u (u.sampleFault x.fault) := by
    unfold State.sampleFault
    split
    · refine k.trans ?_ (k.setLevel _ _ _)
      exact k.aside rfl
    · exact k.refl u
  exact k.trans hsampled (k.trans (k.examineTouch _) (k.trans (hservice _)
    (k.trans (k.foldl (k.sampleLine x.lines) _ _) (hfault _))))

/-! #### Timers, frames and the handshake (R132, R141, R154, R155, R159) -/

theorem State.KeptByArrivals.lineSilenceTimeout {s t : State} (h : execLineSilenceTimeout s = .next t) : R s t := by
  cases h
  split
  · exact k.aside rfl
  · exact k.refl s

theorem State.KeptByArrivals.channelLapse {s t : State} {ch : Fin 64} (h : execChannelLapse ch s = .next t) : R s t := by
  cases h
  split
  · exact k.lapse ch s
  · exact k.refl s

theorem State.KeptByArrivals.transmitter {s t : State} (h : execGrantAsserted s = .next t ∨ execFrameBegin s = .next t ∨
    execFrameComplete s = .next t ∨ execGrantWithdrawn s = .next t) : R s t := by
  have hpins (b : Bool) : R s { s with pins := { s.pins with grant := b } } := k.aside rfl
  obtain h | h | h | h := h
  · cases h
    dsimp only
    split
    · exact k.trans (hpins true) (k.aside rfl)
    · exact k.trans (hpins true) (k.aside rfl)
    all_goals exact hpins true
  · cases h
    split
    · exact k.trans (hpins true) (k.aside rfl)
    all_goals exact k.refl s
  · cases h
    split
    · exact k.aside rfl
    all_goals exact k.refl s
  · cases h
    exact k.trans (hpins false) (k.aside rfl)

theorem State.KeptByArrivals.handshake {s t : State} (h : execAcknowledge s = .next t ∨ execBusyAsserted s = .next t ∨
    execBusyReleased s = .next t ∨ execAckTimeout s = .next t) : R s t := by
  have hfollow (a : AccessoryPort) : R s (State.followAccessory { s with acc := a }) :=
    k.trans (k.aside (t := { s with acc := a }) rfl) (k.setLevel _ _ _)
  obtain h | h | h | h := h
  · cases h
    split
    · exact hfollow _
    · exact hfollow _
    all_goals exact k.refl s
  · cases h
    exact k.aside rfl
  · cases h
    split
    · dsimp only
      split
      · exact hfollow _
      · exact hfollow _
      all_goals exact k.aside rfl
    · exact k.refl s
  · cases h
    split
    · exact hfollow _
    all_goals exact k.refl s

end

/-! ### The relation over the part's own steps -/

/-- A relation that holds over each part of every step, but for the resets and FAULT-CLEAR. The render engine's works are
asked for with nothing left to do, as they are taken. -/
structure State.KeptByOwnSteps (R : State → State → Prop) : Prop extends State.KeptByArrivals R where
  performNext : ∀ {s : State} {g : Stage} {rest : List Stage}, s.ren.stages = g :: rest →
    R s ((s.withStages rest).performStage g)
  pieceDone : ∀ {s : State}, s.ren.stages = [] → R s { s with ren := { s.ren with busy := false, notices := [] } }
  popNotice : ∀ {s : State} {n : Notice} {rest : List Notice}, s.ren.stages = [] → s.ren.notices = n :: rest →
    R s { s with ren := { s.ren with notices := rest, busy := !rest.isEmpty } }
  setBusy : ∀ s : State, R s { s with ren := { s.ren with busy := true } }
  stageDrawing : ∀ {s : State} {gs : List Stage}, s.ren.busy = true → (∀ c, Stage.contexts c ∉ gs) → R s (s.stage gs)
  openImage : ∀ {s : State} {n : Byte} {p : ImageParams}, s.ren.stages = [] → p.InRange → R s (s.openImage n p)
  takeStripe : ∀ {s : State} {k : Fin 4} {item : WorkItem}, s.ren.stages = [] → s.ren.busy = true → s.ren.ready = none →
    s.ren.findImage (byteAt item.body 0) = some k →
    (wordAt item.body 1).toNat < s.ren.slots[k].params.stripeCount → R s (s.takeStripe k item)
  renderReady : ∀ {s : State} {h : HeldStripe}, s.ren.stages = [] → s.ren.ready = some h →
    R s (State.renderReady h { s with ren := { s.ren with ready := none, busy := true } })
  closeSlot : ∀ {s : State} {k : Fin 4}, s.ren.stages = [] → s.ren.busy = true → s.ren.ready = none →
    s.ren.slots[k].state = .opened →
    R s (s.deferContexts (State.closeSlot k))
  freeSlot : ∀ {s : State} (k : Fin 4), s.ren.stages = [] → R s { s with ren := s.ren.freeSlot k }
  setWindow : ∀ (s : State) (k : Fin 8) (w : Window), R s (s.setWindow k w)
  eraseAll : ∀ (s : State) (item : WorkItem), R s (eraseAllWork item s)
  patterns : ∀ {s t : State}, t = { s with ren := { s.ren with transfer := t.ren.transfer, glyphs := t.ren.glyphs } } → R s t
  threshold : ∀ {s t : State}, t = { s with ren := { s.ren with threshold := t.ren.threshold } } →
    (ThresholdInRange s.ren.threshold → ThresholdInRange t.ren.threshold) → R s t
  setWeights : ∀ {s : State} {w : Weights}, s.ren.stages = [] → w.sum ≤ 16 → R s { s with ren := s.ren.setWeights w }
  nextAttempt : ∀ s : State, R s s.nextAttempt
  addressSlot : ∀ {s t : State}, execAddressSlot s = .next t → R s t
  senseCompletion : ∀ {s t : State} {count : Fin 513}, execSenseCompletion count s = .next t → R s t
  drainComplete : ∀ {s t : State}, execDrainComplete s = .next t → R s t
  startingSweepComplete : ∀ {s t : State}, execStartingSweepComplete s = .next t → R s t
  blankingSweepComplete : ∀ {s t : State}, execBlankingSweepComplete s = .next t → R s t
  powerGoodRise : ∀ {s t : State}, execPowerGoodRise s = .next t → R s t
  powerGoodFall : ∀ {s t : State}, execPowerGoodFall s = .next t → R s t
  programmingComplete : ∀ {s t : State}, execProgrammingComplete s = .next t → R s t

section
variable {R : State → State → Prop} (k : State.KeptByOwnSteps R)
include k

/-! #### Pieces of work (R14, R23, R24) -/

theorem State.KeptByOwnSteps.perform (s : State) : R s s.perform := by
  induction hl : s.ren.stages generalizing s with
  | nil =>
    rw [State.perform_nil hl]
    exact k.refl s
  | cons g rest ih =>
    rw [← State.perform_next hl]
    exact k.trans (k.performNext hl) (ih _ (State.performStage_stages g (s.withStages rest)))

theorem State.KeptByOwnSteps.applyNotices (ns : List Notice) {s : State} (h : s.ren.stages = []) :
    R s (ns.foldl State.applyNotice s) ∧ (ns.foldl State.applyNotice s).ren.stages = [] := by
  induction ns generalizing s with
  | nil => exact ⟨k.refl s, h⟩
  | cons n ns ih =>
    obtain ⟨hrel, hstages⟩ := ih ((s.applyNotice_stages n).1.trans h)
    exact ⟨k.trans (k.applyNotice n (.inr h)) hrel, hstages⟩

/-- The end of a piece of work, which leaves nothing to do. -/
theorem State.KeptByOwnSteps.endPiece (s : State) : R s s.endPiece ∧ s.endPiece.ren.stages = [] := by
  obtain ⟨hrel, hstages⟩ := k.applyNotices s.perform.ren.notices
    (s := { s.perform with ren := { s.perform.ren with busy := false, notices := [] } }) s.perform_stages
  exact ⟨k.trans (k.perform s) (k.trans (k.pieceDone s.perform_stages) hrel), hstages⟩

theorem State.KeptByOwnSteps.continuePiece (s : State) : R s s.continuePiece := by
  cases hl : s.ren.stages with
  | nil =>
    simp only [State.continuePiece, hl]
    exact (k.endPiece s).1
  | cons g rest =>
    rw [State.continuePiece_cons hl]
    exact k.performNext hl

theorem State.KeptByOwnSteps.idle (s : State) : R s s.idle := by
  have hchoice : R s { s with choices := s.choices + 1 } := k.aside rfl
  unfold State.idle
  split
  · split
    · dsimp only
      split
      · exact k.trans hchoice (k.nextAttempt _)
      · exact k.trans hchoice (k.continuePiece _)
    · exact k.nextAttempt s
  · exact k.continuePiece s

theorem State.KeptByOwnSteps.applyHeld (n : Notice) (s : State) : R s (s.applyHeld n) := by
  unfold State.applyHeld
  split
  · next m rest hnotices =>
    split
    · have hkept : s.perform.ren.notices = m :: rest := by rw [State.perform_notices, hnotices]
      exact k.trans (k.perform s) (k.trans (k.popNotice s.perform_stages hkept) (k.applyNotice n (.inr s.perform_stages)))
    · exact k.refl s
  · exact k.refl s

/-- A work of the render queue, taken with nothing left to do. -/
theorem State.KeptByOwnSteps.runItem (w : WorkKind) {work : WorkItem → State → State}
    (hwork : ∀ item s, s.ren.stages = [] → s.ren.busy = true → s.ren.ready = none → R s (work item s)) (s : State) : R s (s.runItem w work) := by
  obtain ⟨hend, hstages⟩ := k.endPiece s
  unfold State.runItem State.takeItem
  dsimp only
  generalize s.endPiece = t at hend hstages
  split
  · next item u htake =>
    split at htake
    · next rest hechoes hready hqueue =>
      split at htake
      · cases htake
        refine k.trans hend (k.trans (k.queues (t := { t with ren := { t.ren with queue := rest } }) rfl)
          (k.trans (k.setBusy _) (hwork item _ hstages rfl hready)))
      · cases htake
    · cases htake
  · exact k.refl s

/-! #### The works (chapters 1 to 4) -/

theorem State.KeptByOwnSteps.rowWrites {s : State} (h : s.ren.busy = true) (c : MarkClass) (ws : List RowWrite) :
    R s (s.rowWrites c ws) := by
  refine k.stageDrawing h fun x hx => ?_
  obtain ⟨w, _, hw⟩ := List.mem_map.mp hx
  cases hw

theorem State.KeptByOwnSteps.imageWork (item : WorkItem) (s : State) (hs : s.ren.stages = []) (hb : s.ren.busy = true)
    (hr : s.ren.ready = none) :
    R s (imageOpenWork item s) ∧ R s (imageStripeWork item s) ∧ R s (imageCloseWork item s) ∧
      R s (imageAbortWork item s) := by
  refine ⟨?_, ?_, ?_, ?_⟩
  · unfold imageOpenWork
    split
    · exact k.latch _ s
    · next p hp => exact k.openImage hs (ImageParams.inRange_of hp)
  · unfold imageStripeWork
    split
    · exact k.latch _ s
    · next j hfound =>
      split
      · next hindex => exact k.takeStripe hs hb hr hfound hindex
      · exact k.latch _ s
  · unfold imageCloseWork
    split
    · exact k.refl s
    · split
      · next hopen => exact k.closeSlot hs hb hr hopen
      · exact k.refl s
  · unfold imageAbortWork
    split
    · exact k.refl s
    · exact k.freeSlot _ hs

theorem State.KeptByOwnSteps.textWork (item : WorkItem) (s : State) (hb : s.ren.busy = true) : R s (textWork item s) := by
  unfold Machine.textWork
  split
  · exact k.latch _ s
  · dsimp only
    split
    · exact k.latch _ s
    · unfold State.drawText
      dsimp only
      refine k.trans (k.latchIf _ _ s) (k.trans (k.rowWrites ?_ _ _) (k.stageDrawing ?_ ?_))
      · simpa using hb
      · simpa [State.rowWrites] using hb
      · intro c hc
        split at hc
        · cases List.mem_singleton.mp hc
        · cases hc

theorem State.KeptByOwnSteps.fillWork (item : WorkItem) (s : State) (hb : s.ren.busy = true) : R s (fillWork item s) := by
  unfold Machine.fillWork
  split
  · exact k.rowWrites hb _ _
  · exact k.latch _ s

theorem State.KeptByOwnSteps.windowSetWork (item : WorkItem) (s : State) : R s (windowSetWork item s) := by
  unfold Machine.windowSetWork
  split
  · exact k.latch _ s
  · exact k.setWindow s _ _

theorem State.KeptByOwnSteps.loadWork (item : WorkItem) (s : State) (hs : s.ren.stages = []) :
    R s (transferWork item s) ∧ R s (thresholdWork item s) ∧ R s (weightsWork item s) ∧ R s (glyphsWork item s) := by
  refine ⟨?_, ?_, ?_, ?_⟩
  · refine k.applyLoad _ (fun entries s => ?_) s
    exact k.patterns rfl
  · refine k.applyLoad _ (fun entries s => ?_) s
    exact k.threshold rfl fun h => thresholdInRange_writeBytes h entries
  · unfold weightsWork State.applyLoad
    dsimp only
    refine k.trans (k.latchIf (judgeLoad 4 1 item.body).clipped .tableClipped s) ?_
    split
    · exact k.setWeights (by simpa using hs) (Weights.sum_load_le _ _)
    · exact k.latch _ _
  · refine k.applyLoad _ (fun entries s => ?_) s
    exact k.patterns rfl

/-! #### The commands -/

theorem State.KeptByOwnSteps.readyStripe {s t : State} (h : execReadyStripe s = .next t) : R s t := by
  obtain ⟨hend, hstages⟩ := k.endPiece s
  cases h
  dsimp only
  split
  · next hready => exact k.trans hend (k.renderReady hstages hready)
  · exact k.refl s

theorem State.KeptByOwnSteps.echoRequest {s t : State} (h : execEchoRequest s = .next t) : R s t := by
  cases h
  dsimp only
  split
  · next e rest hechoes =>
    exact k.trans (k.endPiece s).1 (k.trans (k.queues (t := { s.endPiece with
      ren := { s.endPiece.ren with echoes := rest } }) rfl)
      (k.trans (k.setBusy _) (k.rowWrites rfl .urgent _)))
  · exact k.refl s

theorem State.KeptByOwnSteps.timeouts {s t : State} {n : Fin 4}
    (h : execClosingTimeout n s = .next t ∨ execIdleTimeout n s = .next t) : R s t := by
  have hfree : R s { s.perform with ren := s.perform.ren.freeSlot n } :=
    k.trans (k.perform s) (k.freeSlot n s.perform_stages)
  obtain h | h := h
  all_goals
    cases h
    dsimp only
    split
  · exact k.trans hfree (k.latch _ _)
  · exact k.refl s
  · exact k.trans hfree (k.latchIf _ _ _)
  · exact k.refl s

/-- A step of the part itself. -/
theorem State.KeptByOwnSteps.ownStep {i : Instr} {s t : State} (hl : lineBytes s i = none)
    (hp : ∀ p, i ≠ .powerOnReset p) (h : exec i s = .next t) : R s t := by
  have hnext {u : State} (hu : R s u) (h : Host.Outcome.next u = (.next t : Host.Outcome State Fault Refusal)) : R s t := by
    cases h
    exact hu
  cases i with
  | powerOnReset p => exact absurd rfl (hp p)
  | lineSilenceTimeout => exact k.lineSilenceTimeout h
  | channelLapse ch => exact k.channelLapse h
  | imageOpen => exact hnext (k.runItem _ (fun item s hs hb hr => (k.imageWork item s hs hb hr).1) s) h
  | imageStripe => exact hnext (k.runItem _ (fun item s hs hb hr => (k.imageWork item s hs hb hr).2.1) s) h
  | readyStripe => exact k.readyStripe h
  | imageClose => exact hnext (k.runItem _ (fun item s hs hb hr => (k.imageWork item s hs hb hr).2.2.1) s) h
  | imageAbort => exact hnext (k.runItem _ (fun item s hs hb hr => (k.imageWork item s hs hb hr).2.2.2) s) h
  | applyHeldCadenceNotice => exact hnext (k.applyHeld .cadence s) h
  | closingTimeout n => exact k.timeouts (.inl h)
  | idleTimeout n => exact k.timeouts (.inr h)
  | text => exact hnext (k.runItem _ (fun item s _ hb _ => k.textWork item s hb) s) h
  | fill => exact hnext (k.runItem _ (fun item s _ hb _ => k.fillWork item s hb) s) h
  | windowSet => exact hnext (k.runItem _ (fun item s _ _ _ => k.windowSetWork item s) s) h
  | eraseAll => exact hnext (k.runItem _ (fun item s _ _ _ => k.eraseAll s item) s) h
  | echoRequest => exact k.echoRequest h
  | transferLoad => exact hnext (k.runItem _ (fun item s hs _ _ => (k.loadWork item s hs).1) s) h
  | thresholdLoad => exact hnext (k.runItem _ (fun item s hs _ _ => (k.loadWork item s hs).2.1) s) h
  | weightsLoad => exact hnext (k.runItem _ (fun item s hs _ _ => (k.loadWork item s hs).2.2.1) s) h
  | glyphsLoad => exact hnext (k.runItem _ (fun item s hs _ _ => (k.loadWork item s hs).2.2.2) s) h
  | programmingComplete => exact k.programmingComplete h
  | factoryHalftoneNotice => exact hnext (k.applyHeld .factory s) h
  | addressSlot => exact k.addressSlot h
  | senseCompletion count => exact k.senseCompletion h
  | drainComplete => exact k.drainComplete h
  | startingSweepComplete => exact k.startingSweepComplete h
  | blankingSweepComplete => exact k.blankingSweepComplete h
  | powerGoodRise => exact k.powerGoodRise h
  | powerGoodFall => exact k.powerGoodFall h
  | scan x => exact k.scan h
  | grantAsserted => exact k.transmitter (.inl h)
  | frameBegin => exact k.transmitter (.inr (.inl h))
  | frameComplete => exact k.transmitter (.inr (.inr (.inl h)))
  | grantWithdrawn => exact k.transmitter (.inr (.inr (.inr h)))
  | acknowledge => exact k.handshake (.inl h)
  | busyAsserted => exact k.handshake (.inr (.inl h))
  | busyReleased => exact k.handshake (.inr (.inr (.inl h)))
  | ackTimeout => exact k.handshake (.inr (.inr (.inr h)))
  | _ => cases hl

end

/-! ### Arrivals of blocks that can be sent, at a receiver that hunts -/

/-- Every block that a command can send fits its length byte. -/
theorem length_le_of_sentBlock {i : Instr} {b : Block} (hwf : i.wf = true) (h : i.sentBlock = some b) :
    b.body.length ≤ 240 := by
  by_cases hc : ∃ header body, i = .eventClear header body
  · obtain ⟨header, body, rfl⟩ := hc
    cases h
    exact of_decide_eq_true hwf
  · exact (sentBlock_of_wf hwf (fun header body he => hc ⟨header, body, he⟩) h).1

/-- The kinds of TERMINAL-RESET and FAULT-CLEAR are sent by their own commands alone. -/
theorem kind_of_sentBlock {i : Instr} {b : Block} (hwf : i.wf = true) (hf : ∀ header body, i ≠ .faultClear header body)
    (h : i.sentBlock = some b) : b.kind.toNat ≠ 18 ∧ b.kind.toNat ≠ 19 := by
  cases i with
  | faultClear header body => exact absurd rfl (hf header body)
  | unknownKind _ kind body =>
    cases h
    simp only [Instr.wf, Bool.and_eq_true, decide_eq_true_eq] at hwf
    simp only [blockOf]
    omega
  | blockQueuedForRender _ kind body =>
    cases h
    simp only [Instr.wf, Bool.and_eq_true] at hwf
    have hkind := toNat_le_of_renderPathBlock hwf.2
    simp only [blockOf]
    omega
  | accessory _ kind body =>
    cases h
    simp only [Instr.wf, Bool.and_eq_true] at hwf
    have hkind := toNat_of_ownerlessKind hwf.2
    simp only [blockOf]
    omega
  | _ => cases h <;> simp [blockOf]

/-- The arrivals on the lesson line, but for the resets and FAULT-CLEAR. -/
theorem State.KeptByArrivals.arrival {R : State → State → Prop} (k : State.KeptByArrivals R) {i : Instr} {s t : State}
    {bytes : List Byte} (hwf : i.wf = true) (hs : s.rx.state = .hunting)
    (hr : ∀ h body levels, i ≠ .terminalReset h body levels) (hf : ∀ h body, i ≠ .faultClear h body)
    (hl : lineBytes s i = some bytes) (h : exec i s = .next t) : R s t := by
  have hreceive (header : Header) {kind : Byte} {body : List Byte} (hlen : body.length ≤ 240)
      (h18 : kind.toNat ≠ 18) (h19 : kind.toNat ≠ 19) : R s (s.receive header kind body) :=
    k.receive hs header hlen ⟨fun hk => absurd hk h18, fun hk => absurd hk h19⟩
  cases hb : i.sentBlock with
  | some b =>
    obtain ⟨h18, h19⟩ := kind_of_sentBlock hwf hf hb
    cases (exec_of_sentBlock hb s).symm.trans h
    exact hreceive _ (length_le_of_sentBlock hwf hb) h18 h19
  | none =>
    cases i with
    | terminalReset header body levels => exact absurd rfl (hr header body levels)
    | cadence header body =>
      cases h
      exact hreceive header (of_decide_eq_true hwf) (by decide) (by decide)
    | checkError header kind body crc =>
      simp only [Instr.wf, wfBody, Bool.and_eq_true, decide_eq_true_eq, bne_iff_ne] at hwf
      cases (congrArg Host.Outcome.next (deliver_bad hs header kind hwf.1 hwf.2)).symm.trans h
      exact k.aside rfl
    | lengthError header kind length =>
      cases (congrArg Host.Outcome.next (deliver_long hs _ _ _ _ length (of_decide_eq_true hwf))).symm.trans h
      exact k.aside rfl
    | blankTimeout =>
      cases h
      exact hreceive _ (by decide : 2 ≤ 240) (by decide) (by decide)
    | _ => simp [lineBytes, hb] at hl

/-! ### Whole steps -/

/-- A relation that holds over each part of every step. -/
structure State.KeptBySteps (R : State → State → Prop) : Prop extends State.KeptByOwnSteps R where
  terminalReset : ∀ s : State, R s s.terminalReset
  powerOn : ∀ (p : PowerOnPins) (s : State), R s (s.powerOn p)
  clearFaults : ∀ s : State, R s { s with row := s.row.clearFaults }

theorem State.KeptBySteps.exec {R : State → State → Prop} (k : State.KeptBySteps R) {i : Instr} {s t : State}
    (h : exec i s = .next t) : R s t := by
  cases hl : lineBytes s i with
  | some bytes =>
    obtain ⟨pins, hexec⟩ := exec_of_lineBytes hl
    cases hexec.symm.trans h
    refine k.trans (k.aside rfl) (k.deliver (fun b => ?_) bytes _)
    exact ⟨fun _ => k.terminalReset, fun _ => k.clearFaults⟩
  | none =>
    by_cases hp : ∃ p, i = .powerOnReset p
    · obtain ⟨p, rfl⟩ := hp
      cases h
      exact k.powerOn p s
    · exact k.ownStep hl (fun p hi => hp ⟨p, hi⟩) h

theorem State.KeptBySteps.step {R : State → State → Prop} (k : State.KeptBySteps R) {s t : State}
    (h : step s = .next t) : R s t := by
  unfold Machine.step at h
  split at h
  · cases h
    exact k.idle s
  · next rest _ => exact k.trans (k.aside (t := { s with pending := rest }) rfl) (k.exec h)

end Sys2Proof.Machine
end

