-- ==== Sys2Proof/Proofs/ImagesOnly.lean ====
section
/-! What the works on images and the CADENCE notice write: the contexts, what is left to do, and the event unit. -/

namespace Sys2Proof.Machine

/-- From `s` to `t` nothing is written but the contexts, what is left to do, and the event unit. -/
def State.ImagesOnly (s t : State) : Prop :=
  ∃ ev slots held ready stages, t = { s with
    ev := ev, ren := { s.ren with slots := slots, held := held, ready := ready, stages := stages } }

section
variable {s t u : State}

theorem State.ImagesOnly.refl (s : State) : s.ImagesOnly s := ⟨_, _, _, _, _, rfl⟩

theorem State.ImagesOnly.trans (h : s.ImagesOnly t) (h' : t.ImagesOnly u) : s.ImagesOnly u := by
  obtain ⟨_, _, _, _, _, rfl⟩ := h
  obtain ⟨_, _, _, _, _, rfl⟩ := h'
  exact ⟨_, _, _, _, _, rfl⟩

theorem State.row_of_imagesOnly {s t : State} (h : s.ImagesOnly t) : t.row = s.row := by
  obtain ⟨_, _, _, _, _, rfl⟩ := h
  rfl

theorem State.ImagesOnly.store {s t : State} (h : s.ImagesOnly t) : t.store = s.store := by
  obtain ⟨_, _, _, _, _, rfl⟩ := h
  rfl

theorem State.imagesOnly_foldl {α : Type} {f : State → α → State} (h : ∀ s a, State.ImagesOnly s (f s a)) (as : List α)
    (s : State) : s.ImagesOnly (as.foldl f s) := by
  induction as generalizing s with
  | nil => exact .refl s
  | cons a as ih => exact (h s a).trans (ih (f s a))

theorem State.imagesOnly_latch (e : EdgeEvent) (s : State) : s.ImagesOnly (s.latch e) := ⟨_, _, _, _, _, rfl⟩

theorem State.imagesOnly_latchIf (c : Bool) (e : EdgeEvent) (s : State) : s.ImagesOnly (s.latchIf c e) := by
  cases c with
  | false => exact .refl s
  | true => exact s.imagesOnly_latch e

theorem State.imagesOnly_setSlot (k : Fin 4) (c : Slot) (s : State) :
    s.ImagesOnly { s with ren := s.ren.setSlot k c } := ⟨_, _, _, _, _, rfl⟩

theorem State.imagesOnly_freeSlot (k : Fin 4) (s : State) : s.ImagesOnly { s with ren := s.ren.freeSlot k } :=
  ⟨_, _, _, _, _, rfl⟩

theorem State.imagesOnly_stage (gs : List Stage) (s : State) : s.ImagesOnly (s.stage gs) := ⟨_, _, _, _, _, rfl⟩

theorem State.imagesOnly_cadenceAtSlot (s : State) (k : Fin 4) : s.ImagesOnly (s.cadenceAtSlot k) := by
  unfold State.cadenceAtSlot State.closingTimeout State.idleTimeout
  dsimp only
  split
  · exact .refl s
  · split
    · exact ⟨_, _, _, _, _, rfl⟩
    · exact s.imagesOnly_setSlot _ _
  · split
    · exact .trans ⟨_, _, _, _, _, rfl⟩ (State.imagesOnly_latchIf _ _ _)
    · exact s.imagesOnly_setSlot _ _

theorem State.imagesOnly_openImage (n : Byte) (p : ImageParams) (s : State) : s.ImagesOnly (s.openImage n p) := by
  unfold State.openImage
  dsimp only
  split
  · split
    · exact s.imagesOnly_setSlot _ _
    · exact ⟨_, _, _, _, _, rfl⟩
  · split
    · exact s.imagesOnly_setSlot _ _
    · exact ⟨_, _, _, _, _, rfl⟩

theorem State.imagesOnly_deferContexts {plan : State → State} (h : ∀ s, State.ImagesOnly s (plan s)) (s : State) :
    s.ImagesOnly (s.deferContexts plan) := by
  unfold State.deferContexts
  dsimp only
  split
  · exact h s
  · exact (h s).trans ⟨_, _, _, _, _, rfl⟩

theorem State.imagesOnly_renderInOrder (k : Fin 4) (h : HeldStripe) (s : State) : s.ImagesOnly (s.renderInOrder k h) :=
  ⟨_, _, _, _, _, rfl⟩

theorem State.imagesOnly_promote (k : Fin 4) (s : State) : s.ImagesOnly (s.promote k) := by
  unfold State.promote
  dsimp only
  split
  · exact ⟨_, _, _, _, _, rfl⟩
  · exact .refl s

theorem State.imagesOnly_freeIfDone (k : Fin 4) (s : State) : s.ImagesOnly (s.freeIfDone k) := by
  unfold State.freeIfDone
  split
  · exact s.imagesOnly_freeSlot k
  · exact .refl s

theorem State.imagesOnly_renderAfterGap (k : Fin 4) (s : State) (h : HeldStripe) : s.ImagesOnly (s.renderAfterGap k h) := by
  refine .trans ?_ (State.imagesOnly_renderInOrder k h _)
  unfold State.skipGap
  split
  · exact ⟨_, _, _, _, _, rfl⟩
  · exact .refl s

theorem State.imagesOnly_renderHeld (k : Fin 4) (n : Byte) (p : HeldStripe → Bool) (s : State) :
    s.ImagesOnly (s.renderHeld k n p) := by
  unfold State.renderHeld
  dsimp only
  refine .trans ⟨_, _, _, _, _, rfl⟩ (State.imagesOnly_foldl (fun s h => ?_) _ _)
  exact (s.imagesOnly_renderAfterGap k h).trans ⟨_, _, _, _, _, rfl⟩

theorem State.imagesOnly_diffusionStripe (k : Fin 4) (h : HeldStripe) (s : State) : s.ImagesOnly (s.diffusionStripe k h) := by
  unfold State.diffusionStripe
  dsimp only
  split
  · exact ⟨_, _, _, _, _, rfl⟩
  · split
    · exact (s.imagesOnly_renderInOrder k h).trans (State.imagesOnly_promote k _)
    · split
      · exact ⟨_, _, _, _, _, rfl⟩
      · exact ((s.imagesOnly_renderHeld k _ _).trans (State.imagesOnly_renderAfterGap k _ h)).trans
          (State.imagesOnly_promote k _)

theorem State.imagesOnly_takeStripe (k : Fin 4) (item : WorkItem) (s : State) : s.ImagesOnly (s.takeStripe k item) := by
  unfold State.takeStripe
  dsimp only
  split
  · exact s.imagesOnly_setSlot _ _
  · split
    · exact s.imagesOnly_setSlot _ _
    · refine .trans ?_ (State.imagesOnly_deferContexts (fun s => ?_) _)
      · exact ((s.imagesOnly_setSlot _ _).trans (State.imagesOnly_latchIf _ .stripeShort _)).trans
          (State.imagesOnly_latchIf _ .stripeLong _)
      · split
        · exact .trans ⟨_, _, _, _, _, rfl⟩ (State.imagesOnly_freeIfDone k _)
        · exact (s.imagesOnly_diffusionStripe k _).trans (State.imagesOnly_freeIfDone k _)

theorem State.imagesOnly_renderReady (h : HeldStripe) (s : State) : s.ImagesOnly (s.renderReady h) := by
  unfold State.renderReady
  split
  · exact .refl s
  · refine State.imagesOnly_deferContexts (fun s => ?_) s
    exact ((s.imagesOnly_renderInOrder _ h).trans (State.imagesOnly_promote _ _)).trans (State.imagesOnly_freeIfDone _ _)

theorem State.imagesOnly_closeSlot (k : Fin 4) (s : State) : s.ImagesOnly (s.closeSlot k) := by
  have hend (u : State) : u.ImagesOnly (if u.ren.slots[k].complete then { u with ren := u.ren.freeSlot k }
      else { u with ren := u.ren.setSlot k { u.ren.slots[k] with state := .closing, closing := 0 } }) := by
    split
    · exact u.imagesOnly_freeSlot k
    · exact u.imagesOnly_setSlot k _
  unfold State.closeSlot
  cases s.ren.slots[k].params.method with
  | diffusion => exact (s.imagesOnly_renderHeld k _ _).trans (hend _)
  | threshold => exact hend s

theorem State.imagesOnly_performContexts (c : Contexts) (s : State) : s.ImagesOnly (s.performStage (.contexts c)) :=
  ⟨_, _, _, _, _, rfl⟩

end

/-- A store-factory notice writes the halftone tables and, in the contexts, error rows (R54, R55). -/
theorem Render.factoryHalftone_eq (r : Render) : r.factoryHalftone =
    { r with transfer := factoryTransfer, threshold := factoryThreshold, weights := factoryWeights
             slots := r.factoryHalftone.slots } := by
  unfold Render.factoryHalftone Render.setWeights
  split
  · next h =>
    rw [h]
  · rfl

theorem Render.setWeights_eq (w : Weights) (r : Render) :
    r.setWeights w = { r with weights := w, slots := (r.setWeights w).slots } := by
  unfold Render.setWeights
  split
  · next h =>
    rw [h]
  · rfl

/-- A commit request writes the store's commit state or the event unit (R169). -/
theorem State.storeCommit_cases (s : State) :
    (s.storeCommit = s.latch .storeRefused ∧ (s.store.commit ≠ .idle ∨ 10000 ≤ s.store.commits)) ∨
      (s.store.commit = .idle ∧ s.store.commits < 10000 ∧
        s.storeCommit = { s with store := { s.store with commit := .programming s.workingTables } }) := by
  unfold State.storeCommit
  split
  · next hidle =>
    split
    · next hroom => exact .inr ⟨hidle, hroom, rfl⟩
    · next hfull => exact .inl ⟨rfl, .inr (Nat.not_lt.mp hfull)⟩
  · next hbusy => exact .inl ⟨rfl, .inl (by rw [hbusy]; exact fun h => nomatch h)⟩

end Sys2Proof.Machine
end

