-- ==== Sys2Proof/Proofs/RowView.lean ====
section
/-! The row engine under every step: what its own operations keep, every step keeps (`RowEngine.KeptByParts.ownSteps`). Rows
wait once, and the fault row list only grows. -/

namespace Sys2Proof.Machine

/-! ### The arbiter (R78, R79) -/

/-- The row picked waits in the list it is picked from, and is not in flight. -/
theorem RowEngine.pick_some {limit : Nat} {r : RowEngine} {c : MarkClass} {y : RowNo} (h : r.pick limit = some (c, y)) :
    r.inFlight y = false ∧
      match c with
      | .urgent => r.firstFree r.urgent = some y ∧ y ∈ r.urgent
      | .bulk => r.firstFree r.bulk = some y ∧ y ∈ r.bulk := by
  have hfree {l : List RowNo} (hl : r.firstFree l = some y) : r.inFlight y = false ∧ y ∈ l :=
    ⟨by simpa using List.find?_some hl, List.mem_of_find?_eq_some hl⟩
  have hcases : (c = .urgent ∧ r.firstFree r.urgent = some y) ∨ (c = .bulk ∧ r.firstFree r.bulk = some y) := by
    unfold RowEngine.pick at h
    dsimp only at h
    split at h
    all_goals
      rw [Option.or_eq_some_iff] at h
      simp only [Option.map_eq_some_iff, Prod.mk.injEq] at h
      obtain ⟨_, h, hc, rfl⟩ | ⟨_, _, h, hc, rfl⟩ := h
    · exact .inr ⟨hc.symm, h⟩
    · exact .inl ⟨hc.symm, h⟩
    · exact .inl ⟨hc.symm, h⟩
    · exact .inr ⟨hc.symm, h⟩
  obtain ⟨rfl, hl⟩ | ⟨rfl, hl⟩ := hcases
  · exact ⟨(hfree hl).1, hl, (hfree hl).2⟩
  · exact ⟨(hfree hl).1, hl, (hfree hl).2⟩

/-- The row that the arbiter takes was waiting and is not in flight; it leaves its list. -/
theorem RowEngine.arbitrate_some {limit : Nat} {r : RowEngine} {y : RowNo} (h : (r.arbitrate limit).2 = some y) :
    r.inFlight y = false ∧
      ((y ∈ r.urgent ∧
          (r.arbitrate limit).1 = { r with urgent := r.urgent.erase y, run := min (r.run + 1) 15 }) ∨
        (y ∈ r.bulk ∧ (r.arbitrate limit).1 = { r with bulk := r.bulk.erase y, run := 0 })) := by
  unfold RowEngine.arbitrate at h ⊢
  split at h
  · next z hp =>
    cases h
    obtain ⟨hfree, _, hmem⟩ := RowEngine.pick_some hp
    exact ⟨hfree, .inl ⟨hmem, rfl⟩⟩
  · next z hp =>
    cases h
    obtain ⟨hfree, _, hmem⟩ := RowEngine.pick_some hp
    exact ⟨hfree, .inr ⟨hmem, rfl⟩⟩
  · cases h

theorem RowEngine.arbitrate_none {limit : Nat} {r : RowEngine} (h : (r.arbitrate limit).2 = none) :
    (r.arbitrate limit).1 = { r with run := if r.urgent.isEmpty then 0 else r.run } := by
  unfold RowEngine.arbitrate at h ⊢
  split at h
  · cases h
  · cases h
  · rfl

/-! ### The address slot (R76) -/

/-- Where an address slot goes. -/
theorem State.execAddressSlot_cases (s : State) :
    (s.seq.state = .off ∧ execAddressSlot s = .next s) ∨
      (s.seq.state ≠ .off ∧
        let r := s.endSlot.row.beginCycle s.seq.panel.settle
        let q := { s.seq with cycle := some s.seq.panel.period }
        ((s.seq.sweeping = true ∧ ∃ h : s.seq.sweepPos < 512, execAddressSlot s = .next { s with
            row := r.sweepRow ⟨s.seq.sweepPos, h⟩, seq := { q with sweepPos := s.seq.sweepPos + 1 } }) ∨
          (s.seq.sweeping = true ∧ 512 ≤ s.seq.sweepPos ∧ execAddressSlot s = .next { s with row := r, seq := q }) ∨
          (s.seq.sweeping = false ∧ (s.seq.state = .running ∨ s.seq.state = .blanking) ∧ execAddressSlot s = .next { s with
            row := r.serveSlot (decide (s.seq.state = .running)) s.seq.panel.urgentLimit s.ren.composite, seq := q }) ∨
          (s.seq.sweeping = false ∧ (s.seq.state = .starting ∨ s.seq.state = .blanked) ∧
            execAddressSlot s = .next { s with row := r, seq := q }))) := by
  cases hst : s.seq.state with
  | off => exact .inl ⟨rfl, by simp only [execAddressSlot, hst]⟩
  | starting | running | blanking | blanked =>
    refine .inr ⟨nofun, ?_⟩
    cases hsweep : s.seq.sweeping with
    | false => simp [execAddressSlot, hst, hsweep, State.endSlot]
    | true =>
      by_cases hpos : s.seq.sweepPos < 512
      · simp [execAddressSlot, hst, hsweep, hpos, State.endSlot]
      · simp [execAddressSlot, hst, hsweep, hpos, State.endSlot, Nat.not_lt.mp hpos]

/-! ### Relations over the row engine's operations -/

/-- A relation that holds over each operation of the row engine. -/
structure RowEngine.KeptByParts (Q : RowEngine → RowEngine → Prop) : Prop where
  refl : ∀ r, Q r r
  trans : ∀ {r r' r'' : RowEngine}, Q r r' → Q r' r'' → Q r r''
  /-- the urgent-run count, the retry operations, the mirror and the notes of the cycle -/
  aside : ∀ {r r' : RowEngine}, r' = { r with
    run := r'.run, retry := r'.retry, mirror := r'.mirror, slotOp := r'.slotOp, prevOp := r'.prevOp, sensed := r'.sensed
    attempting := r'.attempting } → Q r r'
  mark : ∀ (c : MarkClass) (y : RowNo) (r : RowEngine), Q r (r.mark c y)
  emptyLists : ∀ r : RowEngine, Q r { r with urgent := [], bulk := [] }
  takeUrgent : ∀ (r : RowEngine) (y : RowNo), Q r { r with urgent := r.urgent.erase y }
  takeBulk : ∀ (r : RowEngine) (y : RowNo), Q r { r with bulk := r.bulk.erase y }
  enter : ∀ {r : RowEngine} {v : Service}, r.inFlight v.row = false → Q r { r with sense := r.sense ++ [v] }
  rewrite : ∀ (r : RowEngine) {f : Service → Service}, (∀ v, (f v).row = v.row) → Q r { r with sense := r.sense.map f }
  leave : ∀ (r : RowEngine) (p : Service → Bool), Q r { r with sense := r.sense.filter p }
  fault : ∀ {r : RowEngine} {y : RowNo}, y ∉ r.faults → Q r { r with faults := r.faults ++ [y] }
  abandon : ∀ r : RowEngine, Q r r.abandon

section
variable {Q : RowEngine → RowEngine → Prop} (q : RowEngine.KeptByParts Q)
include q

theorem RowEngine.KeptByParts.of_eq {r r' : RowEngine} (h : r' = r) : Q r r' := h ▸ q.refl r

theorem RowEngine.KeptByParts.markAll (c : MarkClass) (ys : List RowNo) (r : RowEngine) : Q r (r.markAll c ys) := by
  induction ys generalizing r with
  | nil => exact q.refl r
  | cons y ys ih => exact q.trans (q.mark c y r) (ih _)

theorem RowEngine.KeptByParts.startService {r : RowEngine} {y : RowNo} (h : r.inFlight y = false)
    (target lit dark : RowBits) : Q r (r.startService y target lit dark) := by
  have henter (p : Phase) (op : AddressOp) :
      Q r (RowEngine.issue op { r with sense := r.sense ++ [⟨y, target, litCount target, 0, p⟩] }) :=
    q.trans (q.enter (v := ⟨y, target, litCount target, 0, p⟩) h) (q.aside rfl)
  unfold RowEngine.startService
  dsimp only
  split
  · exact henter _ _
  · split
    · exact henter _ _
    · exact henter _ _

theorem RowEngine.KeptByParts.arbitrate (limit : Nat) (r : RowEngine) : Q r (r.arbitrate limit).1 := by
  cases h : (r.arbitrate limit).2 with
  | none =>
    rw [RowEngine.arbitrate_none h]
    exact q.aside rfl
  | some y =>
    obtain ⟨_, ⟨_, heq⟩ | ⟨_, heq⟩⟩ := RowEngine.arbitrate_some h <;> rw [heq]
    · exact q.trans (q.takeUrgent r y) (q.aside rfl)
    · exact q.trans (q.takeBulk r y) (q.aside rfl)

theorem RowEngine.KeptByParts.attempt (limit : Nat) (composite : RowNo → RowBits) (r : RowEngine) :
    Q r (r.attempt limit composite) := by
  cases hmay : r.mayStart with
  | false =>
    rw [RowEngine.attempt_of_not hmay]
    exact q.aside rfl
  | true =>
    have harb := q.arbitrate limit r
    obtain ⟨_, heq⟩ | ⟨y, hy, ⟨_, _, heq⟩ | ⟨_, heq⟩⟩ :=
      RowEngine.attempt_cases (limit := limit) (composite := composite) hmay <;> rw [heq]
    · exact q.trans harb (q.aside rfl)
    · exact q.trans harb (q.aside rfl)
    · refine q.trans harb (q.trans (q.startService ?_ _ _ _) (q.aside rfl))
      obtain ⟨hfree, ⟨_, heq⟩ | ⟨_, heq⟩⟩ := RowEngine.arbitrate_some hy <;> rw [heq] <;> exact hfree

theorem RowEngine.KeptByParts.attempts (limit : Nat) (composite : RowNo → RowBits) (fuel : Nat) (r : RowEngine) :
    Q r (r.attempts limit composite fuel) := by
  induction fuel generalizing r with
  | zero => exact q.refl r
  | succ fuel ih =>
    unfold RowEngine.attempts
    split
    · exact q.trans (q.attempt limit composite r) (ih _)
    · exact q.refl r

theorem RowEngine.KeptByParts.nextAttempt (s : State) : Q s.row s.nextAttempt.row := by
  unfold State.nextAttempt
  split
  · dsimp only
    split
    · exact q.attempt _ _ _
    · exact q.aside rfl
  · exact q.refl _

theorem RowEngine.KeptByParts.endSlot (s : State) : Q s.row s.endSlot.row := by
  unfold State.endSlot
  dsimp only
  split
  · exact q.attempts _ _ _ _
  · exact q.aside rfl

theorem RowEngine.KeptByParts.updateService (y : RowNo) {f : Service → Service} (hf : ∀ v, (f v).row = v.row)
    (r : RowEngine) : Q r (r.updateService y f) := by
  refine q.rewrite r fun v => ?_
  split
  · exact hf v
  · rfl

theorem RowEngine.KeptByParts.settle (y : RowNo) (r : RowEngine) :
    Q r (r.updateService y (fun v => { v with phase := .settling none })) := 
  q.updateService y (f := fun v => { v with phase := .settling none }) (fun _ => rfl) r

theorem RowEngine.KeptByParts.serveSlot (starts : Bool) (limit : Nat) (composite : RowNo → RowBits) (r : RowEngine) :
    Q r (r.serveSlot starts limit composite) := by
  unfold RowEngine.serveSlot
  split
  · next op rest _ =>
    unfold RowEngine.issueRetry
    have hissue : Q r (RowEngine.issue op { r with retry := rest }) := q.aside rfl
    dsimp only
    split
    · exact hissue
    · exact q.trans hissue (q.settle op.row _)
  · split
    · next y rest _ => exact q.trans (q.settle y r) (q.aside rfl)
    · split
      · exact q.attempt _ _ _
      · exact q.refl r

theorem RowEngine.KeptByParts.endService (v : Service) (r : RowEngine) : Q r (r.endService v) :=
  q.trans (q.leave r _) (q.aside rfl)

theorem RowEngine.KeptByParts.beginDrain (r : RowEngine) : Q r r.beginDrain := by
  refine q.trans (r' := (r.sense.filter (fun v => v.phase == .refreshing)).foldl (fun r v => r.endService v) r) ?_
    (q.aside rfl)
  exact List.foldlRecOn _ _ (q.refl r) fun r' hr' v _ => q.trans hr' (q.endService v r')

theorem RowEngine.KeptByParts.addressSlot {s t : State} (h : execAddressSlot s = .next t) : Q s.row t.row := by
  have hbegin : Q s.row (s.endSlot.row.beginCycle s.seq.panel.settle) := by
    refine q.trans (q.endSlot s) (q.trans (q.rewrite s.endSlot.row (f := Service.endOfCycle s.seq.panel.settle) ?_) (q.aside rfl))
    intro v
    unfold Service.endOfCycle
    split <;> rfl
  obtain ⟨_, heq⟩ | ⟨_, ⟨_, _, heq⟩ | ⟨_, _, heq⟩ | ⟨_, _, heq⟩ | ⟨_, _, heq⟩⟩ := s.execAddressSlot_cases
  all_goals cases heq.symm.trans h
  · exact q.refl s.row
  · exact q.trans hbegin (q.aside rfl)
  · exact hbegin
  · exact q.trans hbegin (q.serveSlot _ _ _ _)
  · exact hbegin

theorem RowEngine.KeptByParts.offerFault (y : RowNo) (r : RowEngine) : Q r (r.offerFault y).1 := by
  unfold RowEngine.offerFault
  split
  · exact q.refl r
  · next hnew =>
    split
    · exact q.fault hnew
    · exact q.refl r

theorem RowEngine.KeptByParts.refresh (v : Service) (r : RowEngine) : Q r (r.refresh v) :=
  q.trans (q.updateService v.row (f := fun w => { w with retries := w.retries + 1, phase := .refreshing }) (fun _ => rfl) r)
    (q.aside rfl)

theorem RowEngine.KeptByParts.senseCompletion {s t : State} {count : Fin 513} (h : execSenseCompletion count s = .next t) :
    Q s.row t.row := by
  have hend (v : Service) : Q s.row (RowEngine.endService v { s.endSlot.row with sensed := true }) :=
    q.trans (q.endSlot s) (q.trans (q.aside rfl) (q.endService v _))
  cases h
  dsimp only
  split
  · exact q.refl s.row
  · split
    · exact q.refl s.row
    · next v _ =>
      split
      · split
        · exact hend v
        · split
          · refine q.trans (q.endSlot s) (q.trans (q.aside (r' := { s.endSlot.row with sensed := true }) rfl) ?_)
            exact q.refresh v _
          · unfold State.rowFault
            simp only [State.latchIf_row, State.latch_row]
            exact q.trans (hend v) (q.offerFault _ _)
      all_goals exact hend v

end

/-! ### The row engine under the part's own steps -/

/-- What holds over each operation of the row engine holds over each of the part's own steps. -/
theorem RowEngine.KeptByParts.ownSteps {Q : RowEngine → RowEngine → Prop} (q : RowEngine.KeptByParts Q) :
    State.KeptByOwnSteps (fun s t => Q s.row t.row) where
  refl s := q.refl s.row
  trans := q.trans
  aside h := q.of_eq (congrArg State.row h :)
  cls h _ := q.of_eq (congrArg State.row h :)
  touch h _ := q.of_eq (congrArg State.row h :)
  storeCommit s := by
    obtain ⟨h, _⟩ | ⟨_, _, h⟩ := s.storeCommit_cases <;> rw [h] <;> exact q.refl _
  panel h _ := q.of_eq (congrArg State.row h :)
  blank s := by
    unfold State.blank
    split
    · exact q.beginDrain s.row
    all_goals exact q.refl s.row
  unblank s := by
    unfold State.unblank
    split
    · dsimp only [State.markLit]
      exact q.trans (q.emptyLists s.row) (q.markAll _ _ _)
    · dsimp only [State.markLit]
      exact q.markAll _ _ _
    all_goals exact q.refl s.row
  queues h := q.of_eq (congrArg State.row h :)
  cadenceAtSlot s k := q.of_eq (State.row_of_imagesOnly (s.imagesOnly_cadenceAtSlot k))
  factoryHalftone s _ := q.refl s.row
  holdNotice s _ _ := q.refl s.row
  performNext {s g rest} _ := by
    cases g with
    | write c w =>
      show Q s.row ((s.withStages rest).rowWrite c w).row
      by_cases h : w.op.apply ((s.withStages rest).ren.planeRow w.plane w.row) = (s.withStages rest).ren.planeRow w.plane w.row
      · rw [State.rowWrite_same h]
        exact q.refl s.row
      · rw [State.rowWrite_change h]
        exact q.mark c w.row s.row
    | contexts c => exact q.refl s.row
    | textClipped => exact q.refl s.row
  pieceDone _ := q.refl _
  popNotice _ _ := q.refl _
  setBusy s := q.refl s.row
  stageDrawing _ _ := q.refl _
  openImage {s n p} _ _ := q.of_eq (State.row_of_imagesOnly (s.imagesOnly_openImage n p))
  takeStripe {s k item} _ _ _ _ _ := q.of_eq (State.row_of_imagesOnly (s.imagesOnly_takeStripe k item))
  renderReady {s h} _ _ := q.of_eq (.trans (State.row_of_imagesOnly (State.imagesOnly_renderReady h _)) rfl)
  closeSlot {s k} _ _ _ _ := q.of_eq (State.row_of_imagesOnly (s.imagesOnly_deferContexts (State.imagesOnly_closeSlot k)))
  freeSlot _ _ := q.refl _
  setWindow s k w := by
    unfold State.setWindow
    split
    · exact q.refl s.row
    · dsimp only
      exact q.markAll _ _ _
  eraseAll s item := by
    dsimp only [eraseAllWork]
    exact q.markAll _ _ _
  patterns h := q.of_eq (congrArg State.row h :)
  threshold h _ := q.of_eq (congrArg State.row h :)
  setWeights _ _ := q.refl _
  nextAttempt := q.nextAttempt
  addressSlot := q.addressSlot
  senseCompletion := q.senseCompletion
  drainComplete {s t} h := by
    cases h
    dsimp only
    split
    · split <;> exact q.refl s.row
    all_goals exact q.refl s.row
  startingSweepComplete {s t} h := by
    cases h
    dsimp only
    split
    · split
      · dsimp only [State.markLit]
        exact q.markAll _ _ _
      · exact q.refl s.row
    all_goals exact q.refl s.row
  blankingSweepComplete {s t} h := by
    cases h
    dsimp only
    split
    · split <;> exact q.refl s.row
    all_goals exact q.refl s.row
  powerGoodRise {s t} h := by
    cases h
    dsimp only
    split
    · exact q.refl s.row
    · split <;> exact q.refl s.row
  powerGoodFall {s t} h := by
    cases h
    dsimp only
    split
    · exact q.abandon s.row
    · exact q.refl s.row
  programmingComplete {s t} h := by
    cases h
    dsimp only
    split <;> exact q.refl s.row

end Sys2Proof.Machine
end

