-- ==== Sys2Proof/Proofs/RowsAndFaults.lean ====
section
/-! Rows wait once in every step, and only the resets and FAULT-CLEAR take a row from the fault row list. -/

namespace Sys2Proof.Machine

/-- A row waits at most once in the two lists together, and no two services in flight are of one row (R71, R82). -/
def RowEngine.RowsOnce (r : RowEngine) : Prop := (r.urgent ++ r.bulk).Nodup ∧ (r.sense.map Service.row).Nodup

theorem RowEngine.inFlight_iff {r : RowEngine} {y : RowNo} : r.inFlight y = true ↔ ∃ v ∈ r.sense, v.row = y := by
  simp [RowEngine.inFlight, List.any_eq_true]

theorem RowEngine.inFlight_false_iff {r : RowEngine} {y : RowNo} : r.inFlight y = false ↔ ∀ v ∈ r.sense, v.row ≠ y := by
  simp [RowEngine.inFlight]

theorem RowEngine.keptByParts_rowsOnce : RowEngine.KeptByParts (fun r r' => r.RowsOnce → r'.RowsOnce) where
  refl _ := id
  trans h h' := h' ∘ h
  aside {r r'} h := by
    rw [h]
    exact id
  mark c y r h := by
    refine ⟨RowEngine.mark_nodup h.1, ?_⟩
    rw [RowEngine.mark_sense]
    exact h.2
  emptyLists _ h := ⟨List.nodup_nil, h.2⟩
  takeUrgent _ _ h := ⟨h.1.sublist (List.Sublist.append_right List.erase_sublist _), h.2⟩
  takeBulk _ _ h := ⟨h.1.sublist (List.Sublist.append_left List.erase_sublist _), h.2⟩
  enter {r v} hfree h := by
    refine ⟨h.1, ?_⟩
    rw [List.map_append, List.map_singleton]
    refine List.nodup_append.mpr ⟨h.2, List.nodup_singleton _, fun a ha b hb hab => ?_⟩
    obtain ⟨w, hw, rfl⟩ := List.mem_map.mp ha
    exact RowEngine.inFlight_false_iff.mp hfree w hw (hab.trans (List.mem_singleton.mp hb))
  rewrite r f hf h := by
    refine ⟨h.1, ?_⟩
    rw [List.map_map, show Service.row ∘ f = Service.row from funext hf]
    exact h.2
  leave _ _ h := ⟨h.1, h.2.sublist (List.filter_sublist.map _)⟩
  fault _ h := h
  abandon _ _ := ⟨List.nodup_nil, List.nodup_nil⟩

theorem RowEngine.rowsOnce_reset : RowEngine.reset.RowsOnce := ⟨List.nodup_nil, List.nodup_nil⟩

theorem State.keptBySteps_rowsOnce : State.KeptBySteps (fun s t => s.row.RowsOnce → t.row.RowsOnce) where
  toKeptByOwnSteps := RowEngine.keptByParts_rowsOnce.ownSteps
  terminalReset s _ := by
    simp only [State.terminalReset, State.latchIf_row]
    exact RowEngine.rowsOnce_reset
  powerOn p s _ := by
    simp only [State.powerOn, State.latchIf_row]
    exact RowEngine.rowsOnce_reset
  clearFaults _ h := h

/-- Settles O54: each operation of the row engine keeps its rows once, and a service starts only of a row that is not in
flight. -/
theorem rowsWaitOnceAlways : Obligations.RowsWaitOnceAlways :=
  ⟨fun _ _ h hstep => State.keptBySteps_rowsOnce.step hstep h, RowEngine.rowsOnce_reset⟩

/-! ### The fault row list (R87) -/

theorem RowEngine.keptByParts_faults : RowEngine.KeptByParts (fun r r' => r.faults <+: r'.faults) where
  refl _ := List.prefix_rfl
  trans := List.IsPrefix.trans
  aside {r r'} h := by rw [h]
  mark c y r := by rw [RowEngine.mark_faults]
  emptyLists _ := List.prefix_rfl
  takeUrgent _ _ := List.prefix_rfl
  takeBulk _ _ := List.prefix_rfl
  enter _ := List.prefix_rfl
  rewrite _ _ _ := List.prefix_rfl
  leave _ _ := List.prefix_rfl
  fault _ := List.prefix_append _ _
  abandon _ := List.prefix_rfl

/-- Settles O47: FAULT-CLEAR is its owner's action on the admitted block, and no operation of the row engine takes a row from
the list. -/
theorem faultListEmptiedOnlyByFaultClear : Obligations.FaultListEmptiedOnlyByFaultClear := by
  refine ⟨fun s h body hacts => ?_, fun i s t hwf hs hp hr hf hexec => ?_⟩
  · show Host.Outcome.next (s.receive h 19 body) = _
    rw [receive_acts hacts]
    rfl
  · have q := RowEngine.keptByParts_faults.ownSteps
    cases hl : lineBytes s i with
    | some bytes => exact q.arrival hwf hs hr hf hl hexec
    | none => exact q.ownStep hl hp hexec

end Sys2Proof.Machine
end

