-- ==== Sys2Proof/Proofs/PanelOnly.lean ====
section
/-! What the row engine's and the panel's own operations write. -/

namespace Sys2Proof.Machine

/-- From `s` to `t` nothing is written but the row engine, the sequencer's own values and the event unit. -/
def State.PanelOnly (s t : State) : Prop :=
  ∃ row ev q, t = { s with row := row, ev := ev, seq := q } ∧ q.panel = s.seq.panel

section
variable {s t u : State}

theorem State.PanelOnly.of_eq (row : RowEngine) (ev : EventUnit) {q : Sequencer} (hq : q.panel = s.seq.panel) :
    s.PanelOnly { s with row := row, ev := ev, seq := q } := ⟨row, ev, q, rfl, hq⟩

theorem State.PanelOnly.refl (s : State) : s.PanelOnly s := .of_eq s.row s.ev rfl

theorem State.PanelOnly.trans (h : s.PanelOnly t) (h' : t.PanelOnly u) : s.PanelOnly u := by
  obtain ⟨_, _, _, rfl, hq⟩ := h
  obtain ⟨_, _, _, rfl, hq'⟩ := h'
  exact .of_eq _ _ (hq'.trans hq)

theorem State.panelOnly_latchIf (c : Bool) (e : EdgeEvent) (s : State) : s.PanelOnly (s.latchIf c e) := by
  cases c with
  | false => exact .refl s
  | true => exact .of_eq s.row _ rfl

theorem State.panelOnly_rowFault (v : Service) (s : State) : s.PanelOnly (s.rowFault v) := by
  unfold State.rowFault
  dsimp only
  refine .trans ?_ (State.panelOnly_latchIf _ _ _)
  exact .of_eq _ _ rfl

theorem State.panelOnly_nextAttempt (s : State) : s.PanelOnly s.nextAttempt := by
  unfold State.nextAttempt
  split
  · exact .of_eq _ s.ev rfl
  · exact .refl s

theorem State.panelOnly_blank (s : State) : s.PanelOnly s.blank := by
  unfold State.blank
  split
  · exact .of_eq _ s.ev rfl
  all_goals exact .refl s

theorem State.panelOnly_unblank (s : State) : s.PanelOnly s.unblank := by
  unfold State.unblank
  split
  · dsimp only [State.markLit]
    exact .of_eq _ s.ev rfl
  · dsimp only [State.markLit]
    exact .of_eq _ s.ev rfl
  all_goals exact .refl s

theorem State.panelOnly_addressSlot (h : execAddressSlot s = .next t) : s.PanelOnly t := by
  obtain ⟨_, heq⟩ | ⟨_, ⟨_, _, heq⟩ | ⟨_, _, heq⟩ | ⟨_, _, heq⟩ | ⟨_, _, heq⟩⟩ := s.execAddressSlot_cases
  all_goals cases heq.symm.trans h
  · exact .refl s
  all_goals exact .of_eq _ s.ev rfl

theorem State.panelOnly_senseCompletion {count : Fin 513} (h : execSenseCompletion count s = .next t) : s.PanelOnly t := by
  cases h
  dsimp only
  split
  · exact .refl s
  · split
    · exact .refl s
    · next v _ =>
      split
      · split
        · exact .of_eq _ s.ev rfl
        · split
          · exact .of_eq _ s.ev rfl
          · refine .trans ?_ (State.panelOnly_rowFault v _)
            exact .of_eq _ s.ev rfl
      all_goals exact .of_eq _ s.ev rfl

/-- The sweeps, the drain and power. -/
theorem State.panelOnly_transitions (h : execDrainComplete s = .next t ∨ execStartingSweepComplete s = .next t ∨
    execBlankingSweepComplete s = .next t ∨ execPowerGoodRise s = .next t ∨ execPowerGoodFall s = .next t) :
    s.PanelOnly t := by
  obtain h | h | h | h | h := h
  all_goals
    cases h
    dsimp only [State.markLit]
    split
  · split
    · exact .of_eq _ s.ev rfl
    · exact .refl s
  iterate 4 exact .refl s
  · split
    · exact .of_eq _ s.ev rfl
    · exact .refl s
  iterate 4 exact .refl s
  · split
    · exact .of_eq _ s.ev rfl
    · exact .refl s
  iterate 4 exact .refl s
  · exact .refl s
  · split
    all_goals exact .of_eq _ _ rfl
  · exact .of_eq _ _ rfl
  · exact .refl s

end

end Sys2Proof.Machine
end

