-- ==== Sys2Proof/Proofs/TablesInRange.lean ====
section
/-! The stored-class tables in the ranges of their owners under every step (R44, R46, R75, R93, R107, R124, R126). -/

namespace Sys2Proof.Machine

theorem StoredTables.inRange_iff (t : StoredTables) :
    t.InRange ↔ GroupsFit t.groups ∧ FixedKinds t.kinds ∧ t.panel.InRange ∧ t.touch.DebounceInRange ∧
      ThresholdInRange t.threshold ∧ t.weights.sum ≤ 16 := by
  unfold StoredTables.InRange GroupsFit FixedKinds PanelTable.InRange TouchTable.DebounceInRange ThresholdInRange
  tauto

/-- The tables that a reset can load from the store are in range (R168, R172). -/
def Store.TablesInRange (st : Store) : Prop :=
  (st.image.good = true → st.image.tables.InRange) ∧ ∀ t, st.commit = .programming t → t.InRange

/-- The working values at their owners are in range, and so are those of the store. -/
structure State.OwnersInRange (s : State) : Prop where
  groups : GroupsFit s.cls.groups
  kinds : FixedKinds s.cls.kinds
  panel : s.seq.panel.InRange
  debounce : s.touch.table.DebounceInRange
  threshold : ThresholdInRange s.ren.threshold
  weights : s.ren.weights.sum ≤ 16
  store : s.store.TablesInRange

theorem factoryThreshold_inRange : ThresholdInRange factoryThreshold := by
  unfold ThresholdInRange
  decide

theorem factoryWeights_sum_le : factoryWeights.sum ≤ 16 := by decide

/-- The values that a held STORE-FACTORY notice stands for are in range, so that it makes no difference. -/
theorem State.OwnersInRange.workingTables {s : State} (h : s.OwnersInRange) : s.workingTables.InRange := by
  rw [StoredTables.inRange_iff]
  refine ⟨h.groups, h.kinds, h.panel, h.debounce, ?_, ?_⟩
  all_goals
    unfold State.workingTables
    dsimp only
    split
  · exact factoryThreshold_inRange
  · exact h.threshold
  · decide
  · exact h.weights

theorem State.tablesInRange_iff (s : State) : s.TablesInRange ↔ s.OwnersInRange := by
  constructor
  · rintro ⟨_, hnow, himage, hcommit⟩
    obtain ⟨hgroups, hkinds, hpanel, hdebounce, hthreshold, hweights⟩ := (StoredTables.inRange_iff _).mp hnow
    exact ⟨hgroups, hkinds, hpanel, hdebounce, hthreshold, hweights, himage, hcommit⟩
  · intro h
    refine ⟨h.workingTables, (StoredTables.inRange_iff _).mpr ?_, h.store.1, h.store.2⟩
    exact ⟨h.groups, h.kinds, h.panel, h.debounce, h.threshold, h.weights⟩

section
variable {s t : State}

/-- No table and nothing of the store is written. -/
theorem State.OwnersInRange.of_eq (h : s.OwnersInRange) (hc : t.cls = s.cls) (hp : t.seq.panel = s.seq.panel)
    (ht : t.touch.table = s.touch.table) (hth : t.ren.threshold = s.ren.threshold) (hw : t.ren.weights = s.ren.weights)
    (hs : t.store = s.store) : t.OwnersInRange :=
  ⟨hc ▸ h.groups, hc ▸ h.kinds, hp ▸ h.panel, ht ▸ h.debounce, hth ▸ h.threshold, hw ▸ h.weights, hs ▸ h.store⟩

theorem State.OwnersInRange.imagesOnly (h : s.OwnersInRange) (hst : s.ImagesOnly t) : t.OwnersInRange := by
  obtain ⟨_, _, _, _, _, rfl⟩ := hst
  exact h.of_eq rfl rfl rfl rfl rfl rfl

theorem State.OwnersInRange.panelOnly (h : s.OwnersInRange) (hst : s.PanelOnly t) : t.OwnersInRange := by
  obtain ⟨_, _, _, rfl, hq⟩ := hst
  exact h.of_eq rfl hq rfl rfl rfl rfl

theorem State.OwnersInRange.performStage (h : s.OwnersInRange) (g : Stage) : (s.performStage g).OwnersInRange := by
  cases g with
  | write c w =>
    show (s.rowWrite c w).OwnersInRange
    by_cases hw : w.op.apply (s.ren.planeRow w.plane w.row) = s.ren.planeRow w.plane w.row
    · rw [State.rowWrite_same hw]
      exact h
    · rw [State.rowWrite_change hw]
      exact h.of_eq rfl rfl rfl (by simp) (by simp) rfl
  | contexts c => exact h.of_eq rfl rfl rfl rfl rfl rfl
  | textClipped => exact h.of_eq rfl rfl rfl rfl rfl rfl

/-- A commit captures working values, which are in range (R169). -/
theorem State.OwnersInRange.storeCommit (h : s.OwnersInRange) : s.storeCommit.OwnersInRange := by
  obtain ⟨heq, _⟩ | ⟨_, _, heq⟩ := s.storeCommit_cases <;> rw [heq]
  · exact h.of_eq rfl rfl rfl rfl rfl rfl
  · refine { h with store := ⟨h.store.1, fun t ht => ?_⟩ }
    cases ht
    exact h.workingTables

theorem State.OwnersInRange.programmingComplete (h : s.OwnersInRange) (hst : execProgrammingComplete s = .next t) :
    t.OwnersInRange := by
  cases hst
  dsimp only
  split
  · next snapshot hcommit => exact { h with store := ⟨fun _ => h.store.2 snapshot hcommit, nofun⟩ }
  · exact h

/-- A reset takes its values from tables that are in range. -/
theorem State.OwnersInRange.of_reset {tables : StoredTables} (htables : tables.InRange) (hg : t.cls.groups = tables.groups)
    (hk : t.cls.kinds = tables.kinds) (hp : t.seq.panel = tables.panel) (ht : t.touch.table = tables.touch)
    (hr : t.ren.threshold = tables.threshold ∧ t.ren.weights = tables.weights) (hs : t.store.TablesInRange) :
    t.OwnersInRange := by
  obtain ⟨hgroups, hkinds, hpanel, hdebounce, hthreshold, hweights⟩ := (StoredTables.inRange_iff _).mp htables
  exact ⟨hg ▸ hgroups, hk ▸ hkinds, hp ▸ hpanel, ht ▸ hdebounce, hr.1 ▸ hthreshold, hr.2 ▸ hweights, hs⟩

theorem StoredImage.reload_inRange {i : StoredImage} (h : i.good = true → i.tables.InRange) : i.reload.InRange := by
  unfold StoredImage.reload
  split
  · next hgood => exact h hgood
  · exact factoryTables_inRange

theorem Store.TablesInRange.terminalTables {st : Store} (h : st.TablesInRange) : st.terminalTables.1.InRange := by
  unfold Store.terminalTables
  split
  · dsimp only
    exact StoredImage.reload_inRange h.1
  · next snapshot hcommit => exact h.2 snapshot hcommit

end

/-- The CRC that a stopped programming leaves is never the right one (R170). -/
theorem Store.interrupted_not_good (st : Store) : st.interrupted.image.good = false := by
  have hslip := (Config.partialCrcSlip st.interruptions).isLt
  simp only [Store.interrupted, StoredImage.good, beq_eq_false_iff_ne]
  generalize (Config.partialImage st.interruptions).crc = crc
  bv_omega

theorem Store.TablesInRange.powerOn {st : Store} (h : st.TablesInRange) : st.powerOn.TablesInRange := by
  unfold Store.powerOn
  split
  · exact h
  · refine ⟨fun hgood => ?_, nofun⟩
    rw [Store.interrupted_not_good] at hgood
    cases hgood

theorem State.keptBySteps_ownersInRange : State.KeptBySteps (fun s t => s.OwnersInRange → t.OwnersInRange) where
  refl _ := id
  trans h h' := h' ∘ h
  aside {s t} h hs := by
    rw [h]
    exact hs.of_eq rfl rfl rfl rfl rfl rfl
  cls {s t} h he hs := by
    rw [h]
    exact { hs with groups := he.groups hs.groups, kinds := he.kinds hs.kinds }
  touch {s t} h he hs := by
    rw [h]
    exact { hs with debounce := he hs.debounce }
  storeCommit _ hs := hs.storeCommit
  panel {s t} h he hs := by
    rw [h]
    exact { hs with panel := he hs.panel }
  blank s hs := hs.panelOnly s.panelOnly_blank
  unblank s hs := hs.panelOnly s.panelOnly_unblank
  queues {s t} h hs := by
    rw [h]
    exact hs.of_eq rfl rfl rfl rfl rfl rfl
  cadenceAtSlot s k hs := hs.imagesOnly (s.imagesOnly_cadenceAtSlot k)
  factoryHalftone s _ hs := by
    rw [Render.factoryHalftone_eq]
    exact { hs with threshold := factoryThreshold_inRange, weights := factoryWeights_sum_le }
  holdNotice s _ _ hs := hs.of_eq rfl rfl rfl rfl rfl rfl
  performNext {s g rest} _ hs := State.OwnersInRange.performStage (s := s.withStages rest) (hs.of_eq rfl rfl rfl rfl rfl rfl) g
  pieceDone _ hs := hs.of_eq rfl rfl rfl rfl rfl rfl
  popNotice _ _ hs := hs.of_eq rfl rfl rfl rfl rfl rfl
  setBusy s hs := hs.of_eq rfl rfl rfl rfl rfl rfl
  stageDrawing _ _ hs := hs.of_eq rfl rfl rfl rfl rfl rfl
  openImage {s n p} _ _ hs := hs.imagesOnly (s.imagesOnly_openImage n p)
  takeStripe {s k item} _ _ _ _ _ hs := hs.imagesOnly (s.imagesOnly_takeStripe k item)
  renderReady {s h} _ _ hs := by
    refine State.OwnersInRange.imagesOnly ?_ (State.imagesOnly_renderReady h _)
    exact hs.of_eq rfl rfl rfl rfl rfl rfl
  closeSlot {s k} _ _ _ _ hs := hs.imagesOnly (s.imagesOnly_deferContexts (State.imagesOnly_closeSlot k))
  freeSlot _ _ hs := hs.of_eq rfl rfl rfl rfl rfl rfl
  setWindow s k w hs := by
    unfold State.setWindow
    split
    · exact hs
    · exact hs.of_eq rfl rfl rfl rfl rfl rfl
  eraseAll s _ hs := hs.of_eq rfl rfl rfl rfl rfl rfl
  patterns {s t} h hs := by
    rw [h]
    exact hs.of_eq rfl rfl rfl rfl rfl rfl
  threshold {s t} h he hs := by
    rw [h]
    exact { hs with threshold := he hs.threshold }
  setWeights {s w} _ hw hs := by
    rw [Render.setWeights_eq]
    exact { hs with weights := hw }
  nextAttempt s hs := hs.panelOnly s.panelOnly_nextAttempt
  addressSlot h hs := hs.panelOnly (State.panelOnly_addressSlot h)
  senseCompletion h hs := hs.panelOnly (State.panelOnly_senseCompletion h)
  drainComplete h hs := hs.panelOnly (State.panelOnly_transitions (.inl h))
  startingSweepComplete h hs := hs.panelOnly (State.panelOnly_transitions (.inr (.inl h)))
  blankingSweepComplete h hs := hs.panelOnly (State.panelOnly_transitions (.inr (.inr (.inl h))))
  powerGoodRise h hs := hs.panelOnly (State.panelOnly_transitions (.inr (.inr (.inr (.inl h)))))
  powerGoodFall h hs := hs.panelOnly (State.panelOnly_transitions (.inr (.inr (.inr (.inr h)))))
  programmingComplete h hs := hs.programmingComplete h
  terminalReset s hs := by
    unfold State.terminalReset
    refine .of_reset hs.store.terminalTables ?_ ?_ ?_ ?_ ?_ ?_
    · simp [Classifier.reset]
    · simp [Classifier.reset]
    · simp only [State.latchIf_seq, Sequencer.terminalReset]
      split <;> rfl
    · simp [Touch.reset]
    · simp [Render.reset]
    · simpa using hs.store
  powerOn p s hs := by
    unfold State.powerOn
    refine .of_reset (StoredImage.reload_inRange hs.store.powerOn.1) ?_ ?_ ?_ ?_ ?_ ?_
    · simp [Classifier.reset]
    · simp [Classifier.reset]
    · simp [Sequencer.powerOn]
    · simp [Touch.reset]
    · simp [Render.reset]
    · simpa using hs.store.powerOn
  clearFaults _ hs := hs.of_eq rfl rfl rfl rfl rfl rfl

/-- Settles O56: each part of a step writes into these tables only values that their owners have clamped, or such as stand in
the store. -/
theorem stepKeepsTablesInRange : Obligations.StepKeepsTablesInRange := by
  intro s t hs hstep
  rw [State.tablesInRange_iff] at hs ⊢
  exact State.keptBySteps_ownersInRange.step hstep hs

end Sys2Proof.Machine
end

