-- ==== Sys2Proof/Proofs/ContextView.lean ====
section
/-! The image contexts under every step: a relation that holds over each operation that writes the contexts, the weights, the
store or what is left to do holds over every step (`State.KeptAtContexts.steps`). -/

namespace Sys2Proof.Machine

/-- The contexts, the weights, what is left to do, and the store are as they were. -/
def State.SameContexts (s t : State) : Prop :=
  t.ren.contexts = s.ren.contexts ∧ t.ren.weights = s.ren.weights ∧ t.ren.stages = s.ren.stages ∧
    (s.ren.busy = true → t.ren.busy = true) ∧ t.store = s.store

theorem State.SameContexts.of_ren {s t : State} (hr : t.ren = s.ren) (hs : t.store = s.store) : s.SameContexts t :=
  ⟨congrArg Render.contexts hr, congrArg Render.weights hr, congrArg Render.stages hr, fun h => hr ▸ h, hs⟩

theorem State.PanelOnly.sameContexts {s t : State} (h : s.PanelOnly t) : s.SameContexts t := by
  obtain ⟨_, _, _, rfl, _⟩ := h
  exact .of_ren rfl rfl

/-- A relation that holds over each operation on the contexts, the weights, the store and what is left to do. -/
structure State.KeptAtContexts (R : State → State → Prop) : Prop where
  refl : ∀ s, R s s
  trans : ∀ {s t u}, R s t → R t u → R s u
  same : ∀ {s t : State}, s.SameContexts t → R s t
  storeCommit : ∀ s : State, R s s.storeCommit
  programmingComplete : ∀ {s t : State}, execProgrammingComplete s = .next t → R s t
  cadenceAtSlot : ∀ (s : State) (k : Fin 4), R s (s.cadenceAtSlot k)
  factoryHalftone : ∀ s : State, (s.ren.busy = false ∨ s.ren.stages = []) → R s { s with ren := s.ren.factoryHalftone }
  stageDone : ∀ {s : State} {g : Stage} {rest : List Stage}, s.ren.stages = g :: rest → R s (s.withStages rest)
  contextsDone : ∀ {s : State} {c : Contexts} {rest : List Stage}, s.ren.stages = .contexts c :: rest →
    R s ((s.withStages rest).performStage (.contexts c))
  notBusy : ∀ {s t : State}, t = { s with ren := { s.ren with busy := t.ren.busy, notices := t.ren.notices } } →
    s.ren.stages = [] → R s t
  stageDrawing : ∀ {s : State} {gs : List Stage}, s.ren.busy = true → (∀ c, Stage.contexts c ∉ gs) → R s (s.stage gs)
  openImage : ∀ {s : State} {n : Byte} {p : ImageParams}, s.ren.stages = [] → p.InRange → R s (s.openImage n p)
  takeStripe : ∀ {s : State} {k : Fin 4} {item : WorkItem}, s.ren.stages = [] → s.ren.busy = true → s.ren.ready = none →
    s.ren.findImage (byteAt item.body 0) = some k →
    (wordAt item.body 1).toNat < s.ren.slots[k].params.stripeCount → R s (s.takeStripe k item)
  renderReady : ∀ {s : State} {h : HeldStripe}, s.ren.stages = [] → s.ren.ready = some h →
    R s (State.renderReady h { s with ren := { s.ren with ready := none, busy := true } })
  closeSlot : ∀ {s : State} {k : Fin 4}, s.ren.stages = [] → s.ren.busy = true → s.ren.ready = none →
    s.ren.slots[k].state = .opened → R s (s.deferContexts (State.closeSlot k))
  freeSlot : ∀ {s : State} (k : Fin 4), s.ren.stages = [] → R s { s with ren := s.ren.freeSlot k }
  setWeights : ∀ {s : State} {w : Weights}, s.ren.stages = [] → w.sum ≤ 16 → R s { s with ren := s.ren.setWeights w }
  terminalReset : ∀ s : State, R s s.terminalReset
  powerOn : ∀ (p : PowerOnPins) (s : State), R s (s.powerOn p)

theorem State.KeptAtContexts.panelOnly {R : State → State → Prop} (k : State.KeptAtContexts R) {s t : State}
    (h : s.PanelOnly t) : R s t := k.same h.sameContexts

theorem State.KeptAtContexts.performNext {R : State → State → Prop} (k : State.KeptAtContexts R) {s : State} {g : Stage}
    {rest : List Stage} (h : s.ren.stages = g :: rest) : R s ((s.withStages rest).performStage g) := by
  cases g with
  | contexts c => exact k.contextsDone h
  | textClipped => exact k.trans (k.stageDone h) (k.same (.of_ren rfl rfl))
  | write c w =>
    refine k.trans (k.stageDone h) (k.same ?_)
    show State.SameContexts _ ((s.withStages rest).rowWrite c w)
    generalize s.withStages rest = t
    by_cases hw : w.op.apply (t.ren.planeRow w.plane w.row) = t.ren.planeRow w.plane w.row
    · rw [State.rowWrite_same hw]
      exact .of_ren rfl rfl
    · rw [State.rowWrite_change hw]
      exact ⟨by simp [Render.contexts], by simp, by simp, by simp, rfl⟩

theorem State.KeptAtContexts.steps {R : State → State → Prop} (k : State.KeptAtContexts R) : State.KeptBySteps R where
  refl := k.refl
  trans := k.trans
  aside {s t} h := by
    rw [h]
    exact k.same (.of_ren rfl rfl)
  cls {s t} h _ := by
    rw [h]
    exact k.same (.of_ren rfl rfl)
  touch {s t} h _ := by
    rw [h]
    exact k.same (.of_ren rfl rfl)
  storeCommit := k.storeCommit
  panel {s t} h _ := by
    rw [h]
    exact k.same (.of_ren rfl rfl)
  blank s := k.panelOnly s.panelOnly_blank
  unblank s := k.panelOnly s.panelOnly_unblank
  queues {s t} h := by
    rw [h]
    exact k.same ⟨rfl, rfl, rfl, id, rfl⟩
  cadenceAtSlot := k.cadenceAtSlot
  factoryHalftone := k.factoryHalftone
  holdNotice s _ _ := k.same ⟨rfl, rfl, rfl, id, rfl⟩
  performNext := k.performNext
  pieceDone h := k.notBusy rfl h
  popNotice h _ := k.notBusy rfl h
  setBusy s := k.same ⟨rfl, rfl, rfl, fun _ => rfl, rfl⟩
  stageDrawing := k.stageDrawing
  openImage := k.openImage
  takeStripe := k.takeStripe
  renderReady := k.renderReady
  closeSlot := k.closeSlot
  freeSlot := k.freeSlot
  setWindow s j w := by
    unfold State.setWindow
    split
    · exact k.refl s
    · exact k.same ⟨rfl, rfl, rfl, id, rfl⟩
  eraseAll s _ := k.same ⟨rfl, rfl, rfl, id, rfl⟩
  patterns {s t} h := by
    rw [h]
    exact k.same ⟨rfl, rfl, rfl, id, rfl⟩
  threshold {s t} h _ := by
    rw [h]
    exact k.same ⟨rfl, rfl, rfl, id, rfl⟩
  setWeights := k.setWeights
  nextAttempt s := k.panelOnly s.panelOnly_nextAttempt
  addressSlot h := k.panelOnly (State.panelOnly_addressSlot h)
  senseCompletion h := k.panelOnly (State.panelOnly_senseCompletion h)
  drainComplete h := k.panelOnly (State.panelOnly_transitions (.inl h))
  startingSweepComplete h := k.panelOnly (State.panelOnly_transitions (.inr (.inl h)))
  blankingSweepComplete h := k.panelOnly (State.panelOnly_transitions (.inr (.inr (.inl h))))
  powerGoodRise h := k.panelOnly (State.panelOnly_transitions (.inr (.inr (.inr (.inl h)))))
  powerGoodFall h := k.panelOnly (State.panelOnly_transitions (.inr (.inr (.inr (.inr h)))))
  programmingComplete := k.programmingComplete
  terminalReset := k.terminalReset
  powerOn := k.powerOn
  clearFaults s := k.same (.of_ren rfl rfl)

end Sys2Proof.Machine
end

