-- ==== Sys2Proof/Proofs/ContextsSound.lean ====
section
/-! Image contexts, hold queue and ready stripe agree in every step. A rendering in order moves its slot's e before the ready
stripe leaves the hold queue: on the way the contexts are sound but for that slot (`Contexts.SoundBut`). -/

namespace Sys2Proof.Machine

/-! ### Soundness in named parts -/

/-- The parameters, e and the received set of a slot in use (R17, R25, R26). -/
structure Slot.Sane (c : Slot) : Prop where
  params : c.params.InRange
  count : c.params.stripeCount ≤ 512
  next : c.next ≤ c.params.stripeCount
  received : ∀ i, c.received.getLsbD i = true → i < c.params.stripeCount
  threshold : c.params.method = .threshold → c.next = 0

/-- The stripe is one that the slot has not received, of its image, under the diffusion method (R22). -/
structure Slot.Awaits (c : Slot) (h : HeldStripe) : Prop where
  image : c.image = h.image
  method : c.params.method = .diffusion
  index : h.index < c.params.stripeCount
  missing : c.received.getLsbD h.index = false

/-- No two slots in use hold one image (R26). -/
def Contexts.ImagesDiffer (x : Contexts) : Prop :=
  ∀ j k : Fin 4, x.slots[j].state ≠ .free → x.slots[k].state ≠ .free → x.slots[j].image = x.slots[k].image → j = k

/-- Sound contexts (`Contexts.Sound`) with their parts named. -/
structure Contexts.Agree (x : Contexts) : Prop where
  images : x.ImagesDiffer
  slots : ∀ k : Fin 4, x.slots[k].state ≠ .free → x.slots[k].Sane
  held : ∀ h ∈ x.held, ∃ k : Fin 4, x.slots[k].state = .opened ∧ x.slots[k].Awaits h ∧ x.slots[k].next < h.index
  once : (x.held.map (fun h => (h.image, h.index))).Nodup
  ready : ∀ h, x.ready = some h → ∃ k : Fin 4, x.slots[k].state ≠ .free ∧ x.slots[k].Awaits h ∧ x.slots[k].next = h.index

theorem Contexts.sound_iff (x : Contexts) : x.Sound ↔ x.Agree := by
  constructor
  · rintro ⟨himages, hslots, hheld, honce, hready⟩
    refine ⟨himages, fun k hk => ?_, fun h hh => ?_, honce, fun h hh => ?_⟩
    · obtain ⟨hparams, hcount, hnext, hreceived, hthreshold⟩ := hslots k hk
      exact ⟨hparams, hcount, hnext, hreceived, hthreshold⟩
    · obtain ⟨k, hopen, himage, hmethod, hnext, hindex, hmissing⟩ := hheld h hh
      exact ⟨k, hopen, ⟨himage, hmethod, hindex, hmissing⟩, hnext⟩
    · obtain ⟨k, hused, himage, hmethod, hnext, hindex, hmissing⟩ := hready h hh
      exact ⟨k, hused, ⟨himage, hmethod, hindex, hmissing⟩, hnext⟩
  · rintro ⟨himages, hslots, hheld, honce, hready⟩
    refine ⟨himages, fun k hk => ?_, fun h hh => ?_, honce, fun h hh => ?_⟩
    · obtain ⟨hparams, hcount, hnext, hreceived, hthreshold⟩ := hslots k hk
      exact ⟨hparams, hcount, hnext, hreceived, hthreshold⟩
    · obtain ⟨k, hopen, ⟨himage, hmethod, hindex, hmissing⟩, hnext⟩ := hheld h hh
      exact ⟨k, hopen, himage, hmethod, hnext, hindex, hmissing⟩
    · obtain ⟨k, hused, ⟨himage, hmethod, hindex, hmissing⟩, hnext⟩ := hready h hh
      exact ⟨k, hused, himage, hmethod, hnext, hindex, hmissing⟩

/-- A slot of the contexts written. -/
def Contexts.setSlot (k : Fin 4) (c : Slot) (x : Contexts) : Contexts := { x with slots := x.slots.set k c }

@[simp] theorem Render.contexts_setSlot (k : Fin 4) (c : Slot) (r : Render) :
    (r.setSlot k c).contexts = r.contexts.setSlot k c := rfl

theorem getElem_set_slot (v : Vector Slot 4) (k j : Fin 4) (c : Slot) : (v.set k c)[j] = if j = k then c else v[j] := by
  simp only [Fin.getElem_fin, Vector.getElem_set, Fin.ext_iff, eq_comm (a := k.val)]

theorem Contexts.getElem_setSlot (k j : Fin 4) (c : Slot) (x : Contexts) :
    (x.setSlot k c).slots[j] = if j = k then c else x.slots[j] := getElem_set_slot x.slots k j c

/-! ### Slots written -/

/-- A slot written with what soundness does not read: its error row, activity and counts. -/
structure Slot.Alike (c c' : Slot) : Prop where
  state : c'.state = c.state
  image : c'.image = c.image
  params : c'.params = c.params
  received : c'.received = c.received
  next : c'.next = c.next

theorem Slot.Alike.rfl {c : Slot} : c.Alike c := ⟨.refl _, .refl _, .refl _, .refl _, .refl _⟩

theorem Slot.Sane.alike {c c' : Slot} (h : c.Sane) (ha : c.Alike c') : c'.Sane := by
  obtain ⟨_, _, hparams, hreceived, hnext⟩ := ha
  constructor
  · exact hparams ▸ h.params
  · exact hparams ▸ h.count
  · rw [hnext, hparams]
    exact h.next
  · rw [hreceived, hparams]
    exact h.received
  · rw [hnext, hparams]
    exact h.threshold

theorem Slot.Awaits.alike {c c' : Slot} {h : HeldStripe} (hc : c.Awaits h) (ha : c.Alike c') : c'.Awaits h :=
  ⟨ha.image.trans hc.image, ha.params ▸ hc.method, ha.params ▸ hc.index, ha.received ▸ hc.missing⟩

theorem Contexts.Agree.alike {x y : Contexts} (h : x.Agree) (hs : ∀ k : Fin 4, x.slots[k].Alike y.slots[k])
    (hh : y.held = x.held) (hr : y.ready = x.ready) : y.Agree := by
  constructor
  · intro j k hj hk himage
    rw [(hs j).state] at hj
    rw [(hs k).state] at hk
    rw [(hs j).image, (hs k).image] at himage
    exact h.images j k hj hk himage
  · intro k hk
    rw [(hs k).state] at hk
    exact (h.slots k hk).alike (hs k)
  · intro g hg
    obtain ⟨k, hopen, hawaits, hnext⟩ := h.held g (hh ▸ hg)
    exact ⟨k, (hs k).state.trans hopen, hawaits.alike (hs k), (hs k).next ▸ hnext⟩
  · exact hh ▸ h.once
  · intro g hg
    obtain ⟨k, hused, hawaits, hnext⟩ := h.ready g (hr ▸ hg)
    exact ⟨k, (hs k).state ▸ hused, hawaits.alike (hs k), (hs k).next ▸ hnext⟩

theorem Contexts.Agree.setAlike {x : Contexts} (h : x.Agree) {k : Fin 4} {c : Slot} (hc : x.slots[k].Alike c) :
    (x.setSlot k c).Agree := by
  refine h.alike (fun j => ?_) rfl rfl
  rw [Contexts.getElem_setSlot]
  split
  · next hj => exact hj ▸ hc
  · exact .rfl

/-- A slot written whole, none of whose stripes stays held or ready: FREE, or in use with an image of its own. -/
theorem Contexts.Agree.replace {x y : Contexts} (h : x.Agree) {k : Fin 4} {c : Slot} (hs : y.slots = x.slots.set k c)
    (hc : c.state ≠ .free → c.Sane ∧ ∀ j : Fin 4, j ≠ k → x.slots[j].state ≠ .free → x.slots[j].image ≠ c.image)
    (hh : y.held.Sublist x.held) (hr : ∀ g, y.ready = some g → x.ready = some g)
    (hgone : x.slots[k].state ≠ .free → ∀ g, (g ∈ y.held ∨ y.ready = some g) → g.image ≠ x.slots[k].image) : y.Agree := by
  have hslot (j : Fin 4) : y.slots[j] = if j = k then c else x.slots[j] := by rw [hs, getElem_set_slot]
  have hother {g : HeldStripe} {j : Fin 4} (hg : g ∈ y.held ∨ y.ready = some g) (hj : x.slots[j].state ≠ .free)
      (himage : x.slots[j].image = g.image) : y.slots[j] = x.slots[j] := by
    rw [hslot, if_neg]
    rintro rfl
    exact hgone hj g hg himage.symm
  constructor
  · intro i j hi hj himage
    rw [hslot] at hi himage
    rw [hslot] at hj himage
    by_cases hik : i = k <;> by_cases hjk : j = k
    · exact hik.trans hjk.symm
    · rw [if_pos hik] at hi himage
      rw [if_neg hjk] at hj himage
      exact absurd himage.symm ((hc hi).2 j hjk hj)
    · rw [if_neg hik] at hi himage
      rw [if_pos hjk] at hj himage
      exact absurd himage ((hc hj).2 i hik hi)
    · rw [if_neg hik] at hi himage
      rw [if_neg hjk] at hj himage
      exact h.images i j hi hj himage
  · intro j hj
    rw [hslot] at hj ⊢
    split at hj
    · next hjk => exact if_pos hjk ▸ (hc hj).1
    · next hjk => exact if_neg hjk ▸ h.slots j hj
  · intro g hg
    obtain ⟨j, hopen, hawaits, hnext⟩ := h.held g (hh.subset hg)
    have heq := hother (.inl hg) (by rw [hopen]; nofun) hawaits.image
    exact ⟨j, heq ▸ hopen, heq ▸ hawaits, heq ▸ hnext⟩
  · exact h.once.sublist (hh.map _)
  · intro g hg
    obtain ⟨j, hused, hawaits, hnext⟩ := h.ready g (hr g hg)
    have heq := hother (.inr hg) hused hawaits.image
    exact ⟨j, heq ▸ hused, heq ▸ hawaits, heq ▸ hnext⟩

theorem Contexts.Agree.freeSlot {r : Render} (h : r.contexts.Agree) (k : Fin 4) : (r.freeSlot k).contexts.Agree := by
  refine h.replace (k := k) (c := { r.slots[k] with state := .free }) rfl (fun hc => absurd rfl hc) ?_ ?_ ?_
  · exact List.filter_sublist
  · intro g hg
    exact (Option.filter_eq_some_iff.mp hg).1
  · rintro _ g (hg | hg)
    · simpa using (List.mem_filter.mp hg).2
    · simpa using (Option.filter_eq_some_iff.mp hg).2

/-! ### The lowest missing index (R32) -/

theorem Slot.nextMissing_le_count (c : Slot) (i : Nat) : c.nextMissing i ≤ c.params.stripeCount := by
  unfold Slot.nextMissing
  cases h : (List.range c.params.stripeCount).find? (fun j => i < j && !c.received.getLsbD j) with
  | none => exact Nat.le_refl _
  | some j => exact Nat.le_of_lt (List.mem_range.mp (List.mem_of_find?_eq_some h))

/-- No index above i that is not received lies below it. -/
theorem Slot.nextMissing_le {c : Slot} {i j : Nat} (hi : i < j) (hj : j < c.params.stripeCount)
    (hm : c.received.getLsbD j = false) : c.nextMissing i ≤ j := by
  unfold Slot.nextMissing
  cases h : (List.range c.params.stripeCount).find? (fun j => i < j && !c.received.getLsbD j) with
  | none =>
    have := List.find?_eq_none.mp h j (List.mem_range.mpr hj)
    simp [hi, hm] at this
  | some n =>
    rw [List.find?_range_eq_some] at h
    obtain ⟨_, _, hlow⟩ := h
    refine Nat.not_lt.mp fun hjn => ?_
    have := hlow j hjn
    simp [hi, hm] at this

theorem getLsbD_receive (c : Slot) (i j : Nat) :
    (c.receive i).received.getLsbD j = (c.received.getLsbD j || (decide (j < 512) && decide (i = j))) := by
  by_cases h : i = j <;> simp [Slot.receive, BitVec.getLsbD_or, BitVec.getLsbD_twoPow, h]

theorem getLsbD_receive_ne {c : Slot} {i j : Nat} (h : i ≠ j) :
    (c.receive i).received.getLsbD j = c.received.getLsbD j := by
  simp [getLsbD_receive, h]

/-- A received index joins the set in range. -/
theorem Slot.Sane.receive {c : Slot} (h : c.Sane) {i : Nat} (hi : i < c.params.stripeCount) : (c.receive i).Sane := by
  refine ⟨h.params, h.count, h.next, fun j hj => ?_, h.threshold⟩
  rw [getLsbD_receive] at hj
  obtain hj | hj := Bool.or_eq_true_iff.mp hj
  · exact h.received j hj
  · simp only [Bool.and_eq_true, decide_eq_true_eq] at hj
    exact hj.2 ▸ hi

/-! ### Sound but for the e of one slot -/

/-- The contexts are sound with no ready stripe, but for where the e of slot k stands under the slot's held stripes. -/
structure Contexts.SoundBut (k : Fin 4) (x : Contexts) : Prop where
  images : x.ImagesDiffer
  slots : ∀ j : Fin 4, x.slots[j].state ≠ .free → x.slots[j].Sane
  held : ∀ h ∈ x.held, ∃ j : Fin 4, x.slots[j].state = .opened ∧ x.slots[j].Awaits h ∧ (j ≠ k → x.slots[j].next < h.index)
  once : (x.held.map (fun h => (h.image, h.index))).Nodup
  ready : x.ready = none

/-- Every held stripe of slot k lies above i. -/
def Contexts.HeldAbove (k : Fin 4) (i : Nat) (x : Contexts) : Prop :=
  ∀ g ∈ x.held, g.image = x.slots[k].image → i < g.index

theorem Contexts.Agree.soundBut {x : Contexts} (h : x.Agree) (hr : x.ready = none) (k : Fin 4) : x.SoundBut k :=
  ⟨h.images, h.slots, fun g hg => (h.held g hg).imp fun _ hj => ⟨hj.1, hj.2.1, fun _ => hj.2.2⟩, h.once, hr⟩

theorem Contexts.SoundBut.agree {k : Fin 4} {x : Contexts} (h : x.SoundBut k) (ha : x.HeldAbove k x.slots[k].next) :
    x.Agree := by
  refine ⟨h.images, h.slots, fun g hg => ?_, h.once, fun g hg => ?_⟩
  · obtain ⟨j, hopen, hawaits, hnext⟩ := h.held g hg
    refine ⟨j, hopen, hawaits, ?_⟩
    by_cases hj : j = k
    · subst hj
      exact ha g hg hawaits.image.symm
    · exact hnext hj
  · rw [h.ready] at hg
    cases hg

theorem Contexts.Agree.heldAbove {k : Fin 4} {x : Contexts} (h : x.Agree) (hk : x.slots[k].state ≠ .free) :
    x.HeldAbove k x.slots[k].next := by
  intro g hg himage
  obtain ⟨j, hopen, hawaits, hnext⟩ := h.held g hg
  have hjk : j = k := h.images j k (by rw [hopen]; nofun) hk (hawaits.image.trans himage)
  exact hjk ▸ hnext

/-- A held stripe of slot k is one that it awaits. -/
theorem Contexts.SoundBut.awaits {k : Fin 4} {x : Contexts} (h : x.SoundBut k) (hk : x.slots[k].state ≠ .free)
    {g : HeldStripe} (hg : g ∈ x.held) (himage : g.image = x.slots[k].image) :
    x.slots[k].state = .opened ∧ x.slots[k].Awaits g := by
  obtain ⟨j, hopen, hawaits, _⟩ := h.held g hg
  have hjk : j = k := h.images j k (by rw [hopen]; nofun) hk (hawaits.image.trans himage)
  exact hjk ▸ ⟨hopen, hawaits⟩

/-- Slot k written with another e, received set and error row, with the stripes held for it still missing. -/
theorem Contexts.SoundBut.setSlot {k : Fin 4} {x : Contexts} (h : x.SoundBut k) {c : Slot}
    (hstate : c.state = x.slots[k].state) (himage : c.image = x.slots[k].image) (hparams : c.params = x.slots[k].params)
    (hsane : c.state ≠ .free → c.Sane)
    (hmissing : ∀ g ∈ x.held, g.image = x.slots[k].image → c.received.getLsbD g.index = false) :
    (x.setSlot k c).SoundBut k := by
  have hslot (j : Fin 4) : (x.setSlot k c).slots[j] = if j = k then c else x.slots[j] := Contexts.getElem_setSlot ..
  have hstates (j : Fin 4) : (x.setSlot k c).slots[j].state = x.slots[j].state := by
    rw [hslot]
    split
    · next hj => exact hj ▸ hstate
    · rfl
  have himages (j : Fin 4) : (x.setSlot k c).slots[j].image = x.slots[j].image := by
    rw [hslot]
    split
    · next hj => exact hj ▸ himage
    · rfl
  refine ⟨fun i j hi hj heq => ?_, fun j hj => ?_, fun g hg => ?_, h.once, h.ready⟩
  · rw [hstates] at hi hj
    rw [himages, himages] at heq
    exact h.images i j hi hj heq
  · rw [hstates] at hj
    rw [hslot]
    split
    · next hjk => exact hsane (by rw [hstate, ← hjk]; exact hj)
    · exact h.slots j hj
  · obtain ⟨j, hopen, hawaits, hnext⟩ := h.held g hg
    refine ⟨j, (hstates j).trans hopen, ?_, fun hj => ?_⟩
    · rw [hslot]
      split
      · next hjk =>
        subst hjk
        exact ⟨himage.trans hawaits.image, hparams ▸ hawaits.method, hparams ▸ hawaits.index,
          hmissing g hg hawaits.image.symm⟩
      · exact hawaits
    · rw [hslot, if_neg hj]
      exact hnext hj

end Sys2Proof.Machine
end

