-- ==== Sys2Proof/Proofs/RenderingsSound.lean ====
section
/-! Renderings keep the contexts sound, one stripe after another, and so do opens, closes, notices and timeouts. -/

namespace Sys2Proof.Machine

/-- The contexts that renderings are to leave are sound. -/
def State.StagesSound (s : State) : Prop := ∀ c, Stage.contexts c ∈ s.ren.stages → c.Agree

/-- A rendering in slot k is being planned: the slot is in use under the diffusion method, and all is sound but for its e. -/
structure State.Rendering (k : Fin 4) (s : State) : Prop where
  used : s.ren.slots[k].state ≠ .free
  method : s.ren.slots[k].params.method = .diffusion
  sound : s.ren.contexts.SoundBut k
  stages : s.StagesSound

/-- From `s` to `t` slot k keeps its state, image and parameters, and the hold queue is as it was. -/
structure State.SameHold (k : Fin 4) (s t : State) : Prop where
  state : t.ren.slots[k].state = s.ren.slots[k].state
  image : t.ren.slots[k].image = s.ren.slots[k].image
  params : t.ren.slots[k].params = s.ren.slots[k].params
  held : t.ren.held = s.ren.held

section
variable {k : Fin 4} {s t u : State}

theorem State.SameHold.refl (k : Fin 4) (s : State) : s.SameHold k s := ⟨rfl, rfl, rfl, rfl⟩

theorem State.SameHold.trans (h : s.SameHold k t) (h' : t.SameHold k u) : s.SameHold k u :=
  ⟨h'.state.trans h.state, h'.image.trans h.image, h'.params.trans h.params, h'.held.trans h.held⟩

theorem State.SameHold.of_slot {c : Slot} (hstate : c.state = s.ren.slots[k].state) (himage : c.image = s.ren.slots[k].image)
    (hparams : c.params = s.ren.slots[k].params) (hslots : t.ren.slots = s.ren.slots.set k c) (hheld : t.ren.held = s.ren.held) :
    s.SameHold k t := by
  have hk : t.ren.slots[k] = c := by rw [hslots, getElem_set_slot, if_pos rfl]
  exact ⟨hk ▸ hstate, hk ▸ himage, hk ▸ hparams, hheld⟩

theorem State.SameHold.heldAbove (h : s.SameHold k t) {i : Nat} (ha : s.ren.contexts.HeldAbove k i) :
    t.ren.contexts.HeldAbove k i := by
  intro g hg himage
  have hg' : g ∈ s.ren.held := h.held ▸ (show g ∈ t.ren.held from hg)
  exact ha g hg' (himage.trans h.image)

/-- A slot of the state written, with more left to do that leaves sound contexts. -/
theorem State.Rendering.setSlot (hs : s.Rendering k) {c : Slot} (hstate : c.state = s.ren.slots[k].state)
    (himage : c.image = s.ren.slots[k].image) (hparams : c.params = s.ren.slots[k].params) (hsane : c.Sane)
    (hmissing : ∀ g ∈ s.ren.held, g.image = s.ren.slots[k].image → c.received.getLsbD g.index = false)
    (hcontexts : t.ren.contexts = s.ren.contexts.setSlot k c)
    (hstages : ∀ x, Stage.contexts x ∈ t.ren.stages → Stage.contexts x ∈ s.ren.stages ∨ x = t.ren.contexts ∧ x.Agree) :
    t.Rendering k ∧ s.SameHold k t := by
  have hslots : t.ren.slots = s.ren.slots.set k c := congrArg Contexts.slots hcontexts
  have hheld : t.ren.held = s.ren.held := congrArg Contexts.held hcontexts
  have hsame : s.SameHold k t := .of_slot hstate himage hparams hslots hheld
  refine ⟨⟨hsame.state ▸ hs.used, hsame.params ▸ hs.method, ?_, fun x hx => ?_⟩, hsame⟩
  · rw [hcontexts]
    exact hs.sound.setSlot hstate himage hparams (fun _ => hsane) hmissing
  · obtain hx | ⟨_, hx⟩ := hstages x hx
    · exact hs.stages x hx
    · exact hx

theorem State.Rendering.slotSane (hs : s.Rendering k) : s.ren.slots[k].Sane := hs.sound.slots k hs.used

theorem State.Rendering.missing (hs : s.Rendering k) {g : HeldStripe} (hg : g ∈ s.ren.held)
    (himage : g.image = s.ren.slots[k].image) :
    g.index < s.ren.slots[k].params.stripeCount ∧ s.ren.slots[k].received.getLsbD g.index = false :=
  have hawaits := (hs.sound.awaits hs.used hg himage).2
  ⟨hawaits.index, hawaits.missing⟩

/-- What a rendering in order leaves in its slot, but for the error row (R32). -/
def Slot.rendered (i : Nat) (err : Vector Int 512) (c : Slot) : Slot :=
  { c.receive i with err := err, next := (c.receive i).nextMissing i }

theorem State.renderInOrder_eq (k : Fin 4) (h : HeldStripe) (s : State) : ∃ (err : Vector Int 512) (ws : List RowWrite),
    s.renderInOrder k h =
    { s with ren := { s.ren with
        slots := s.ren.slots.set k (s.ren.slots[k].rendered h.index err)
        stages := s.ren.stages ++ ws.map (Stage.write h.cls) } } := ⟨_, _, rfl⟩

theorem contexts_mem_append_writes {x : Contexts} {gs : List Stage} {c : MarkClass} {ws : List RowWrite} :
    Stage.contexts x ∈ gs ++ ws.map (Stage.write c) ↔ Stage.contexts x ∈ gs := by
  simp

/-- A stripe at or above e rendered in order: e moves to no held stripe's far side (R32). -/
theorem State.Rendering.renderInOrder (hs : s.Rendering k) {h : HeldStripe}
    (hi : h.index < s.ren.slots[k].params.stripeCount) (ha : s.ren.contexts.HeldAbove k h.index) :
    (s.renderInOrder k h).Rendering k ∧ s.SameHold k (s.renderInOrder k h) ∧
      ∃ err, (s.renderInOrder k h).ren.slots[k] = s.ren.slots[k].rendered h.index err := by
  obtain ⟨err, ws, heq⟩ := s.renderInOrder_eq k h
  have hsane := hs.slotSane.receive hi
  have hstep := hs.setSlot (t := s.renderInOrder k h) (c := s.ren.slots[k].rendered h.index err) rfl rfl rfl
    ⟨hsane.params, hsane.count, Slot.nextMissing_le_count _ _, hsane.received,
      fun hm => absurd (hs.method.symm.trans hm) nofun⟩
    (fun g hg himage => (getLsbD_receive_ne (Nat.ne_of_lt (ha g hg himage))).trans (hs.missing hg himage).2)
    (by rw [heq]; rfl)
    (fun x hx => by
      rw [heq] at hx
      exact .inl (contexts_mem_append_writes.mp hx))
  refine ⟨hstep.1, hstep.2, err, ?_⟩
  rw [heq]
  exact (getElem_set_slot _ _ _ _).trans (if_pos rfl)

/-- The gap before a stripe skipped (R32, R35). -/
theorem State.Rendering.skipGap (hs : s.Rendering k) {h : HeldStripe}
    (hi : h.index < s.ren.slots[k].params.stripeCount) (ha : s.ren.contexts.HeldAbove k h.index) :
    (s.skipGap k h).Rendering k ∧ s.SameHold k (s.skipGap k h) ∧
      (s.skipGap k h).ren.slots[k].received = s.ren.slots[k].received := by
  unfold State.skipGap
  split
  · next hgap =>
    have hsane := hs.slotSane
    have hskip : s.ren.slots[k].skipTo h.index =
        { s.ren.slots[k] with err := .replicate 512 0, next := h.index } := if_pos hgap
    rw [hskip]
    generalize hc : ({ s.ren.slots[k] with err := .replicate 512 0, next := h.index } : Slot) = c
    have hcsane : c.Sane := by
      rw [← hc]
      exact ⟨hsane.params, hsane.count, Nat.le_of_lt hi, hsane.received, fun hm => absurd (hs.method.symm.trans hm) nofun⟩
    have hsound : (s.ren.contexts.setSlot k c).SoundBut k := hs.sound.setSlot (by rw [← hc]; rfl) (by rw [← hc]; rfl)
      (by rw [← hc]; rfl) (fun _ => hcsane) (fun g hg himage => by rw [← hc]; exact (hs.missing hg himage).2)
    have hk : (s.ren.contexts.setSlot k c).slots[k] = c := by rw [Contexts.getElem_setSlot, if_pos rfl]
    have hagree : (s.ren.contexts.setSlot k c).Agree := hsound.agree fun g hg himage => by
      rw [hk, ← hc] at himage ⊢
      exact ha g hg himage
    have hstep := hs.setSlot (t := State.stageContexts { s with ren := s.ren.setSlot k c }) (c := c) (by rw [← hc]) (by rw [← hc])
      (by rw [← hc]) hcsane (fun g hg himage => by rw [← hc]; exact (hs.missing hg himage).2) rfl
      (fun x hx => by
        obtain hx | hx := List.mem_append.mp hx
        · exact .inl hx
        · cases List.mem_singleton.mp hx
          exact .inr ⟨rfl, hagree⟩)
    refine ⟨hstep.1, hstep.2, ?_⟩
    show ((s.ren.slots.set k c)[k]).received = _
    rw [getElem_set_slot, if_pos rfl, ← hc]
  · exact ⟨hs, .refl k s, rfl⟩

/-- A stripe rendered after the gap before it (R32, R35). -/
theorem State.Rendering.renderAfterGap (hs : s.Rendering k) {h : HeldStripe}
    (hi : h.index < s.ren.slots[k].params.stripeCount) (ha : s.ren.contexts.HeldAbove k h.index) :
    (s.renderAfterGap k h).Rendering k ∧ s.SameHold k (s.renderAfterGap k h) ∧
      (s.renderAfterGap k h).ren.slots[k].received = (s.ren.slots[k].receive h.index).received ∧
      (s.renderAfterGap k h).ren.slots[k].next = (s.ren.slots[k].receive h.index).nextMissing h.index := by
  obtain ⟨hskip, hsame, hreceived⟩ := hs.skipGap hi ha
  obtain ⟨hdone, hsame', err, hslot⟩ := hskip.renderInOrder (h := h) (hsame.params ▸ hi) (hsame.heldAbove ha)
  refine ⟨hdone, hsame.trans hsame', ?_, ?_⟩
  · show (State.renderInOrder k h (s.skipGap k h)).ren.slots[k].received = _
    rw [hslot]
    show (s.skipGap k h).ren.slots[k].received ||| _ = _
    rw [hreceived]
    rfl
  · show (State.renderInOrder k h (s.skipGap k h)).ren.slots[k].next = _
    rw [hslot]
    show (Slot.receive h.index _).nextMissing h.index = _
    unfold Slot.nextMissing Slot.receive
    dsimp only
    rw [hreceived, hsame.params]

/-- The held stripes of slot k lie above an index that stays missing while `mine` are rendered, or there are none. -/
def State.HeldBeyond (k : Fin 4) (mine : List HeldStripe) (s : State) : Prop :=
  (∃ b, b < s.ren.slots[k].params.stripeCount ∧ s.ren.slots[k].received.getLsbD b = false ∧
      s.ren.contexts.HeldAbove k b ∧ ∀ g ∈ mine, g.index < b) ∨
    ∀ g ∈ s.ren.held, g.image ≠ s.ren.slots[k].image

theorem State.HeldBeyond.heldAbove {mine : List HeldStripe} (hb : s.HeldBeyond k mine) {h : HeldStripe} (hh : h ∈ mine) :
    s.ren.contexts.HeldAbove k h.index := by
  intro g hg himage
  obtain ⟨b, _, _, habove, hmine⟩ | hnone := hb
  · exact Nat.lt_trans (hmine h hh) (habove g hg himage)
  · exact absurd himage (hnone g hg)

/-- A state's contexts join what is left to do, where they are sound. -/
theorem State.Rendering.stageContexts (hs : s.Rendering k) (ha : s.ren.contexts.Agree) : s.stageContexts.Rendering k := by
  refine ⟨hs.used, hs.method, hs.sound, fun x hx => ?_⟩
  obtain hx | hx := List.mem_append.mp hx
  · exact hs.stages x hx
  · cases List.mem_singleton.mp hx
    exact ha

/-- Stripes rendered one after another, what each leaves standing when its own rendering ends (R32, R35). -/
theorem State.Rendering.renderAll {mine : List HeldStripe} (hs : s.Rendering k) (hb : s.HeldBeyond k mine)
    (hi : ∀ h ∈ mine, h.index < s.ren.slots[k].params.stripeCount) :
    (mine.foldl (fun s h => (s.renderAfterGap k h).stageContexts) s).Rendering k ∧
      s.SameHold k (mine.foldl (fun s h => (s.renderAfterGap k h).stageContexts) s) := by
  induction mine generalizing s with
  | nil => exact ⟨hs, .refl k s⟩
  | cons h rest ih =>
    have hih := hi h (.head _)
    obtain ⟨hdone, hsame, hreceived, hnext⟩ := hs.renderAfterGap hih (hb.heldAbove (.head _))
    have hbound : (s.renderAfterGap k h).HeldBeyond k rest ∧ (s.renderAfterGap k h).ren.contexts.Agree := by
      obtain ⟨b, hbcount, hbmissing, habove, hmine⟩ | hnone := hb
      · have hhb : h.index < b := hmine h (.head _)
        have hmissing : (s.ren.slots[k].receive h.index).received.getLsbD b = false :=
          (getLsbD_receive_ne (Nat.ne_of_lt hhb)).trans hbmissing
        refine ⟨.inl ⟨b, hsame.params ▸ hbcount, hreceived ▸ hmissing, hsame.heldAbove habove,
          fun g hg => hmine g (.tail _ hg)⟩, hdone.sound.agree fun g hg himage => ?_⟩
        show (s.renderAfterGap k h).ren.slots[k].next < g.index
        rw [hnext]
        exact Nat.lt_of_le_of_lt (Slot.nextMissing_le hhb hbcount hmissing) (hsame.heldAbove habove g hg himage)
      · have hnone' : ∀ g ∈ (s.renderAfterGap k h).ren.held, g.image ≠ (s.renderAfterGap k h).ren.slots[k].image := by
          intro g hg himage
          exact hnone g (hsame.held ▸ hg) (himage.trans hsame.image)
        exact ⟨.inr hnone', hdone.sound.agree fun g hg himage => absurd himage (hnone' g hg)⟩
    obtain ⟨hall, hsame'⟩ := ih (hdone.stageContexts hbound.2) hbound.1 fun g hg => by
      show g.index < (s.renderAfterGap k h).ren.slots[k].params.stripeCount
      rw [hsame.params]
      exact hi g (.tail _ hg)
    exact ⟨hall, hsame.trans ⟨hsame'.state, hsame'.image, hsame'.params, hsame'.held⟩⟩

end

end Sys2Proof.Machine
end

