-- ==== Sys2Proof/Proofs/ContextsKept.lean ====
section
/-! Every operation on the image contexts keeps them sound. -/

namespace Sys2Proof.Machine

/-- The contexts are sound, and so are those that a rendering is to leave. -/
structure State.Agree (s : State) : Prop where
  contexts : s.ren.contexts.Agree
  stages : s.StagesSound

theorem mem_insertByIndex {g h : HeldStripe} {l : List HeldStripe} : g ∈ insertByIndex h l ↔ g = h ∨ g ∈ l := by
  induction l with
  | nil => simp [insertByIndex]
  | cons a l ih =>
    unfold insertByIndex
    split
    · simp
    · simp only [List.mem_cons, ih]
      tauto

theorem mem_byIndex {g : HeldStripe} {l : List HeldStripe} : g ∈ byIndex l ↔ g ∈ l := by
  induction l with
  | nil => simp [byIndex]
  | cons a l ih =>
    show g ∈ insertByIndex a (byIndex l) ↔ _
    rw [mem_insertByIndex, ih, List.mem_cons]

section
variable {k : Fin 4} {s t : State}

theorem State.Agree.rendering (h : s.Agree) (hr : s.ren.ready = none) (hused : s.ren.slots[k].state ≠ .free)
    (hmethod : s.ren.slots[k].params.method = .diffusion) : s.Rendering k :=
  ⟨hused, hmethod, h.contexts.soundBut hr k, h.stages⟩

/-- Fewer held stripes. -/
theorem State.Rendering.dropSome (hs : s.Rendering k) (p : HeldStripe → Bool) :
    State.Rendering k { s with ren := { s.ren with held := s.ren.held.filter p } } := by
  obtain ⟨himages, hslots, hheld, honce, hready⟩ := hs.sound
  refine ⟨hs.used, hs.method, ⟨himages, hslots, fun g hg => ?_, ?_, hready⟩, hs.stages⟩
  · exact hheld g (List.mem_filter.mp hg).1
  · exact honce.sublist (List.filter_sublist.map _)

/-- The held stripes of slot k that satisfy `p` rendered, where those that stay lie beyond them (R32, R35). -/
theorem State.Rendering.renderHeld (hs : s.Rendering k) {n : Byte} (hn : s.ren.slots[k].image = n) {p : HeldStripe → Bool}
    (hstay : (∃ b, b < s.ren.slots[k].params.stripeCount ∧ s.ren.slots[k].received.getLsbD b = false ∧
        (∀ g ∈ s.ren.held, g.image = n → p g = false → b < g.index) ∧ ∀ g, p g = true → g.index < b) ∨ ∀ g, p g = true) :
    (s.renderHeld k n p).Rendering k ∧
      State.SameHold k { s with ren := { s.ren with held := s.ren.held.filter (fun h => !(h.image == n && p h)) } }
        (s.renderHeld k n p) := by
  unfold State.renderHeld
  refine (hs.dropSome _).renderAll ?_ ?_
  · obtain ⟨b, hcount, hmissing, hbeyond, hbelow⟩ | hall := hstay
    · refine .inl ⟨b, hcount, hmissing, fun g hg himage => ?_, fun g hg => ?_⟩
      · obtain ⟨hheld, hp⟩ := List.mem_filter.mp hg
        have himage : g.image = n := himage.trans hn
        simp only [himage, beq_self_eq_true, Bool.true_and, Bool.not_eq_true'] at hp
        exact hbeyond g hheld himage hp
      · have hp := (List.mem_filter.mp (mem_byIndex.mp hg)).2
        simp only [Bool.and_eq_true] at hp
        exact hbelow g hp.2
    · refine .inr fun g hg himage => ?_
      have hp := (List.mem_filter.mp hg).2
      have himage : g.image = n := himage.trans hn
      simp [himage, hall] at hp
  · intro g hg
    obtain ⟨hheld, hp⟩ := List.mem_filter.mp (mem_byIndex.mp hg)
    simp only [Bool.and_eq_true, beq_iff_eq] at hp
    exact (hs.missing hheld (hp.1.trans hn.symm)).1

/-- A held stripe at e becomes the ready stripe, and the contexts are sound again (R22). -/
theorem State.Rendering.promote (hs : s.Rendering k)
    (hle : ∀ g ∈ s.ren.held, g.image = s.ren.slots[k].image → s.ren.slots[k].next ≤ g.index) :
    (s.promote k).Agree ∧ (s.promote k).ren.slots = s.ren.slots := by
  unfold State.promote
  dsimp only
  split
  · next h hfind =>
    have hat := List.find?_some hfind
    have hheld := List.mem_of_find?_eq_some hfind
    simp only [Bool.and_eq_true, beq_iff_eq] at hat
    obtain ⟨himage, hindex⟩ := hat
    obtain ⟨_, hawaits⟩ := hs.sound.awaits hs.used hheld himage
    refine ⟨⟨⟨hs.sound.images, hs.sound.slots, fun g hg => ?_, ?_, fun g hg => ?_⟩, hs.stages⟩, rfl⟩
    · obtain ⟨hheld', hnot⟩ := List.mem_filter.mp hg
      obtain ⟨j, hopen, hj, hnext⟩ := hs.sound.held g hheld'
      refine ⟨j, hopen, hj, ?_⟩
      by_cases hjk : j = k
      · subst hjk
        have hne : g.index ≠ s.ren.slots[j].next := by
          intro heq
          have himage : g.image = s.ren.slots[j].image := hj.image.symm
          simp [himage, heq] at hnot
        exact Nat.lt_of_le_of_ne (hle g hheld' hj.image.symm) hne.symm
      · exact hnext hjk
    · exact hs.sound.once.sublist (List.filter_sublist.map _)
    · cases hg
      exact ⟨k, hs.used, hawaits, hindex.symm⟩
  · next hnone =>
    refine ⟨⟨hs.sound.agree fun g hg himage => ?_, hs.stages⟩, rfl⟩
    refine Nat.lt_of_le_of_ne (hle g hg himage) fun heq => ?_
    have himage : g.image = s.ren.slots[k].image := himage
    have heq : s.ren.slots[k].next = g.index := heq
    have := List.find?_eq_none.mp hnone g hg
    simp only [himage, heq, beq_self_eq_true, Bool.and_self, not_true_eq_false] at this

/-- After a rendering in order at `i` no held stripe of the slot lies below its e. -/
theorem State.Rendering.next_le (hs : t.Rendering k) {c : Slot} {i : Nat} (hparams : t.ren.slots[k].params = c.params)
    (hreceived : t.ren.slots[k].received = (c.receive i).received) (hnext : t.ren.slots[k].next = (c.receive i).nextMissing i)
    (ha : t.ren.contexts.HeldAbove k i) :
    ∀ g ∈ t.ren.held, g.image = t.ren.slots[k].image → t.ren.slots[k].next ≤ g.index := by
  intro g hg himage
  obtain ⟨hindex, hmissing⟩ := hs.missing hg himage
  rw [hnext]
  exact Slot.nextMissing_le (ha g hg himage) (hparams ▸ hindex) (hreceived ▸ hmissing)

theorem State.Agree.freeSlot (h : s.Agree) (k : Fin 4) : State.Agree { s with ren := s.ren.freeSlot k } :=
  ⟨h.contexts.freeSlot k, h.stages⟩

theorem State.Agree.freeIfDone (h : s.Agree) (k : Fin 4) : (s.freeIfDone k).Agree := by
  unfold State.freeIfDone
  split
  · exact h.freeSlot k
  · exact h

theorem State.Agree.setAlike (h : s.Agree) {c : Slot} (hc : s.ren.slots[k].Alike c) :
    State.Agree { s with ren := s.ren.setSlot k c } := ⟨h.contexts.setAlike hc, h.stages⟩

/-- A plan that keeps the contexts sound leaves them sound where it is deferred. -/
theorem State.Agree.deferContexts (h : s.Agree) {plan : State → State} (hplan : (plan s).Agree) :
    (s.deferContexts plan).Agree := by
  unfold State.deferContexts
  dsimp only
  split
  · exact hplan
  · refine ⟨h.contexts, fun x hx => ?_⟩
    obtain hx | hx := List.mem_append.mp hx
    · exact hplan.stages x hx
    · cases List.mem_singleton.mp hx
      exact hplan.contexts

/-- A rendering in order, then the promotion that follows it. -/
theorem State.Rendering.inOrder (hs : s.Rendering k) {h : HeldStripe} (hi : h.index < s.ren.slots[k].params.stripeCount)
    (ha : s.ren.contexts.HeldAbove k h.index) : ((s.renderInOrder k h).promote k).Agree := by
  obtain ⟨hdone, hsame, err, hslot⟩ := hs.renderInOrder hi ha
  refine (hdone.promote (hdone.next_le (c := s.ren.slots[k]) (i := h.index) hsame.params ?_ ?_ (hsame.heldAbove ha))).1
  · rw [hslot]
    rfl
  · rw [hslot]
    rfl

theorem State.Rendering.gapSkip (hs : s.Rendering k) {h : HeldStripe} (himage : s.ren.slots[k].image = h.image)
    (hi : h.index < s.ren.slots[k].params.stripeCount) (hmissing : s.ren.slots[k].received.getLsbD h.index = false)
    (hnew : ∀ g ∈ s.ren.held, g.image = h.image → g.index ≠ h.index) : (s.gapSkip k h).Agree := by
  have hbeyond : ∀ g ∈ s.ren.held, g.image = h.image → decide (g.index < h.index) = false → h.index < g.index := by
    intro g hg heq hnot
    have := hnew g hg heq
    simp only [decide_eq_false_iff_not] at hnot
    omega
  obtain ⟨hheld, hsame⟩ := hs.renderHeld himage (p := fun g => decide (g.index < h.index))
    (.inl ⟨h.index, hi, hmissing, hbeyond, fun g hg => of_decide_eq_true hg⟩)
  have habove : (s.renderHeld k h.image fun g => decide (g.index < h.index)).ren.contexts.HeldAbove k h.index := by
    refine hsame.heldAbove fun g hg heq => ?_
    obtain ⟨hg, hp⟩ := List.mem_filter.mp hg
    have heq : g.image = h.image := heq.trans himage
    simp only [heq, beq_self_eq_true, Bool.true_and, Bool.not_eq_true'] at hp
    exact hbeyond g hg heq hp
  obtain ⟨hdone, hsame', hreceived, hnext⟩ := hheld.renderAfterGap (h := h) (hsame.params ▸ hi) habove
  exact (hdone.promote (hdone.next_le hsame'.params hreceived hnext (hsame'.heldAbove habove))).1

/-- A stripe below e rendered late: the held stripes of its slot lie above e (R33). -/
theorem State.Agree.renderLate (hs : s.Agree) (hr : s.ren.ready = none) (hused : s.ren.slots[k].state ≠ .free)
    (hmethod : s.ren.slots[k].params.method = .diffusion) {h : HeldStripe} (hlow : h.index < s.ren.slots[k].next) :
    (s.renderLate k h).Agree := by
  have hrendering := hs.rendering hr hused hmethod
  have hsane := hrendering.slotSane
  have habove := hs.contexts.heldAbove hused
  obtain ⟨hdone, hsame⟩ := hrendering.setSlot (t := s.renderLate k h) (c := s.ren.slots[k].receive h.index) rfl rfl rfl
    (hsane.receive (Nat.lt_of_lt_of_le hlow hsane.next))
    (fun g hg himage => (getLsbD_receive_ne (Nat.ne_of_lt (Nat.lt_trans hlow (habove g hg himage)))).trans
      (hrendering.missing hg himage).2)
    rfl (fun x hx => .inl (contexts_mem_append_writes.mp hx))
  refine ⟨hdone.sound.agree fun g hg himage => ?_, hdone.stages⟩
  have hnext : (s.renderLate k h).ren.slots[k].next = s.ren.slots[k].next := by
    show ((s.ren.slots.set k (s.ren.slots[k].receive h.index))[k]).next = _
    rw [getElem_set_slot, if_pos rfl]
    rfl
  exact hnext ▸ hsame.heldAbove habove g hg himage

/-- A stripe ahead of e joins the hold queue (R32). -/
theorem State.Agree.hold (hs : s.Agree) (hopen : s.ren.slots[k].state = .opened) {h : HeldStripe}
    (hawaits : s.ren.slots[k].Awaits h) (hhigh : s.ren.slots[k].next < h.index)
    (hnew : ∀ g ∈ s.ren.held, g.image = h.image → g.index ≠ h.index) :
    State.Agree { s with ren := { s.ren with held := s.ren.held ++ [h] } } := by
  refine ⟨⟨hs.contexts.images, hs.contexts.slots, fun g hg => ?_, ?_, hs.contexts.ready⟩, hs.stages⟩
  · obtain hg | hg := List.mem_append.mp hg
    · exact hs.contexts.held g hg
    · cases List.mem_singleton.mp hg
      exact ⟨k, hopen, hawaits, hhigh⟩
  · show ((s.ren.held ++ [h]).map _).Nodup
    rw [List.map_append]
    refine List.nodup_append.mpr ⟨hs.contexts.once, List.nodup_singleton _, fun a ha b hb hab => ?_⟩
    obtain ⟨g, hg, rfl⟩ := List.mem_map.mp ha
    cases List.mem_singleton.mp hb
    obtain ⟨himage, hindex⟩ := Prod.mk.inj hab
    exact hnew g hg himage hindex

theorem State.Agree.diffusionStripe (hs : s.Agree) (hr : s.ren.ready = none) (hused : s.ren.slots[k].state ≠ .free)
    {h : HeldStripe} (hawaits : s.ren.slots[k].Awaits h)
    (hnew : ∀ g ∈ s.ren.held, g.image = h.image → g.index ≠ h.index) : (s.diffusionStripe k h).Agree := by
  have hrendering := hs.rendering hr hused hawaits.method
  unfold State.diffusionStripe
  dsimp only
  split
  · next hlow => exact hs.renderLate hr hused hawaits.method hlow
  · split
    · next hat => exact hrendering.inOrder hawaits.index (hat ▸ hs.contexts.heldAbove hused)
    · split
      · next hlow hat hhold => exact hs.hold hhold.1 hawaits (by omega) hnew
      · exact hrendering.gapSkip hawaits.image hawaits.index hawaits.missing hnew

/-- A stripe of a THRESHOLD slot received: none of its stripes is held or ready (R31, R22). -/
theorem State.Agree.renderThreshold (hs : s.Agree) (hused : s.ren.slots[k].state ≠ .free)
    (hmethod : s.ren.slots[k].params.method = .threshold) {h : HeldStripe}
    (hi : h.index < s.ren.slots[k].params.stripeCount) : (s.renderThreshold k h).Agree := by
  have hnone {j : Fin 4} {g : HeldStripe} (hj : s.ren.slots[j].state ≠ .free) (hg : s.ren.slots[j].Awaits g) :
      g.image ≠ s.ren.slots[k].image := by
    intro himage
    have hjk : j = k := hs.contexts.images j k hj hused (hg.image.trans himage)
    subst hjk
    exact nomatch hmethod.symm.trans hg.method
  refine ⟨?_, fun x hx => hs.stages x (contexts_mem_append_writes.mp hx)⟩
  refine hs.contexts.replace (k := k) (c := s.ren.slots[k].receive h.index) rfl (fun _ => ?_) (List.Sublist.refl _) (fun _ => id) ?_
  · exact ⟨(hs.contexts.slots k hused).receive hi, fun j hjk hj himage => hjk (hs.contexts.images j k hj hused himage)⟩
  · rintro _ g (hg | hg)
    · obtain ⟨j, hopen, hj, _⟩ := hs.contexts.held g hg
      exact hnone (by show s.ren.contexts.slots[j].state ≠ _; rw [hopen]; nofun) hj
    · obtain ⟨j, hj, hawaits, _⟩ := hs.contexts.ready g hg
      exact hnone hj hawaits

end

end Sys2Proof.Machine
end

