-- ==== Sys2Proof/Proofs/ContextsStep.lean ====
section
/-! Every step keeps the image contexts, the hold queue and the ready stripe in agreement. -/

namespace Sys2Proof.Machine

section
variable {k : Fin 4} {s t : State}

theorem State.Agree.latchIf (h : s.Agree) (c : Bool) (e : EdgeEvent) : (s.latchIf c e).Agree := by
  cases c with
  | false => exact h
  | true => exact ⟨h.contexts, h.stages⟩

/-- Fewer received stripes of a slot are in the way of a held stripe of another image number (R22). -/
theorem not_held_of_any {held : List HeldStripe} {n : Byte} {i : Nat}
    (h : ¬ held.any (fun g => g.image == n && g.index == i) = true) : ∀ g ∈ held, g.image = n → g.index ≠ i := by
  intro g hg himage hindex
  exact h (List.any_eq_true.mpr ⟨g, hg, by simp [himage, hindex]⟩)

theorem State.Agree.takeStripe (hs : s.Agree) (hr : s.ren.ready = none) {item : WorkItem}
    (hfound : s.ren.findImage (byteAt item.body 0) = some k)
    (hi : (wordAt item.body 1).toNat < s.ren.slots[k].params.stripeCount) : (s.takeStripe k item).Agree := by
  obtain ⟨hused, himage⟩ := Render.findImage_some hfound
  have hrefresh : s.ren.slots[k].Alike (s.ren.slots[k].refresh s.rx.lastCount) := ⟨rfl, rfl, rfl, rfl, rfl⟩
  have hset := hs.setAlike hrefresh
  have hslot : (s.ren.setSlot k (s.ren.slots[k].refresh s.rx.lastCount)).slots[k] = s.ren.slots[k].refresh s.rx.lastCount :=
    (getElem_set_slot _ _ _ _).trans (if_pos rfl)
  unfold State.takeStripe
  dsimp only
  split
  · exact hset
  · next hmissing =>
    split
    · exact hset
    · next hnotheld =>
      have hfit := (hset.latchIf (decide ((decodeRuns (item.body.drop 3)).length <
        s.ren.slots[k].params.pixelsNeeded (wordAt item.body 1).toNat)) .stripeShort).latchIf
          (decide (s.ren.slots[k].params.pixelsNeeded (wordAt item.body 1).toNat <
            (decodeRuns (item.body.drop 3)).length)) .stripeLong
      refine hfit.deferContexts ?_
      split
      · next hmethod =>
        refine State.Agree.freeIfDone (hfit.renderThreshold ?_ ?_ ?_) k
        all_goals simp only [State.latchIf_ren, hslot]
        · exact hused
        · exact hmethod
        · exact hi
      · next hmethod =>
        refine State.Agree.freeIfDone (hfit.diffusionStripe ?_ ?_ ?_ ?_) k
        all_goals simp only [State.latchIf_ren, hslot]
        · exact hr
        · exact hused
        · exact ⟨himage, hmethod, hi, Bool.eq_false_iff.mpr hmissing⟩
        · exact not_held_of_any fun hany => hnotheld ⟨hmethod, hany⟩

/-- The ready stripe is rendered with no ready stripe behind it (R22). -/
theorem State.Agree.renderReady (hs : s.Agree) {h : HeldStripe} (hready : s.ren.ready = some h) :
    (State.renderReady h { s with ren := { s.ren with ready := none, busy := true } }).Agree := by
  have hnone : State.Agree { s with ren := { s.ren with ready := none, busy := true } } :=
    ⟨⟨hs.contexts.images, hs.contexts.slots, hs.contexts.held, hs.contexts.once, nofun⟩, hs.stages⟩
  obtain ⟨j, hused, hawaits, hnext⟩ := hs.contexts.ready h hready
  unfold State.renderReady
  split
  · exact hnone
  · next k hfound =>
    obtain ⟨hk, himage⟩ := Render.findImage_some hfound
    have hjk : j = k := hs.contexts.images j k hused hk (hawaits.image.trans himage.symm)
    subst hjk
    refine hnone.deferContexts (State.Agree.freeIfDone ?_ j)
    refine (hnone.rendering rfl hused hawaits.method).inOrder hawaits.index ?_
    exact hnext ▸ hs.contexts.heldAbove hused

/-- A slot that becomes CLOSING, or FREE, with none of its stripes held or ready. -/
theorem State.Agree.endSlot (hs : s.Agree) (hr : s.ren.ready = none) (hopen : s.ren.slots[k].state = .opened)
    (hnone : ∀ g ∈ s.ren.held, g.image ≠ s.ren.slots[k].image) :
    State.Agree (if s.ren.slots[k].complete then { s with ren := s.ren.freeSlot k }
      else { s with ren := s.ren.setSlot k { s.ren.slots[k] with state := .closing, closing := 0 } }) := by
  have hused : s.ren.contexts.slots[k].state ≠ .free := by
    show s.ren.slots[k].state ≠ .free
    rw [hopen]
    nofun
  split
  · exact hs.freeSlot k
  · refine ⟨?_, hs.stages⟩
    refine hs.contexts.replace (k := k) rfl (fun _ => ?_) (List.Sublist.refl _) (fun _ => id) ?_
    · have hsane := hs.contexts.slots k hused
      exact ⟨⟨hsane.params, hsane.count, hsane.next, hsane.received, hsane.threshold⟩,
        fun j hjk hj himage => hjk (hs.contexts.images j k hj hused himage)⟩
    · rintro _ g (hg | hg)
      · exact hnone g hg
      · cases hr.symm.trans hg

theorem State.Agree.closeSlot (hs : s.Agree) (hr : s.ren.ready = none) (hopen : s.ren.slots[k].state = .opened) :
    (s.closeSlot k).Agree := by
  have hused : s.ren.slots[k].state ≠ .free := by
    rw [hopen]
    nofun
  unfold State.closeSlot
  cases hmethod : s.ren.slots[k].params.method with
  | diffusion =>
    obtain ⟨hheld, hsame⟩ := (hs.rendering hr hused hmethod).renderHeld rfl (p := fun _ => true) (.inr fun _ => rfl)
    have hnone : ∀ g ∈ (s.renderHeld k s.ren.slots[k].image fun _ => true).ren.held,
        g.image ≠ (s.renderHeld k s.ren.slots[k].image fun _ => true).ren.slots[k].image := by
      intro g hg himage
      rw [hsame.held] at hg
      have hp := (List.mem_filter.mp hg).2
      have himage : g.image = s.ren.slots[k].image := himage.trans hsame.image
      simp [himage] at hp
    have hagree : (s.renderHeld k s.ren.slots[k].image fun _ => true).Agree :=
      ⟨hheld.sound.agree fun g hg himage => absurd himage (hnone g hg), hheld.stages⟩
    exact hagree.endSlot hheld.sound.ready (hsame.state.trans hopen) hnone
  | threshold =>
    refine hs.endSlot hr hopen fun g hg himage => ?_
    obtain ⟨j, hj, hawaits, _⟩ := hs.contexts.held g hg
    have hjk : j = k := hs.contexts.images j k (by rw [hj]; nofun) hused (hawaits.image.trans himage)
    subst hjk
    exact nomatch hmethod.symm.trans hawaits.method

/-! ### Opens, notices, weights (R25 to R27, R36, R37, R54) -/

/-- At most 512 stripes: their rows are at most 512 together (R25). -/
theorem ImageParams.InRange.stripeCount_le {p : ImageParams} (h : p.InRange) : p.stripeCount ≤ 512 := by
  obtain ⟨_, _, _, hheight, _, _, _, _, hrows, _⟩ := h
  unfold ImageParams.stripeCount
  have : (p.height + p.rows - 1) / p.rows < 513 := by
    rw [Nat.div_lt_iff_lt_mul (by omega)]
    omega
  omega

theorem Slot.sane_openedWith {n : Byte} {p : ImageParams} (hp : p.InRange) (count : BitVec 16) :
    (Slot.openedWith n p count).Sane :=
  ⟨hp, hp.stripeCount_le, Nat.zero_le _, fun i hi => by simp [Slot.openedWith] at hi, fun _ => rfl⟩

theorem State.Agree.openImage (hs : s.Agree) {n : Byte} {p : ImageParams} (hp : p.InRange) : (s.openImage n p).Agree := by
  have hsane := Slot.sane_openedWith (n := n) hp s.rx.lastCount
  have hdropped {r : Render} {m : Byte} : ∀ g, (g ∈ (r.dropHeld m).held ∨ (r.dropHeld m).ready = some g) → g.image ≠ m := by
    rintro g (hg | hg)
    · simpa using (List.mem_filter.mp hg).2
    · simpa using (Option.filter_eq_some_iff.mp hg).2
  have hreset {k : Fin 4} {m : Byte} (hm : s.ren.slots[k].image = m)
      (hother : ∀ j : Fin 4, j ≠ k → s.ren.slots[j].state ≠ .free → s.ren.slots[j].image ≠ n) (e : EdgeEvent) :
      (State.latch e { s with ren := (s.ren.dropHeld m).setSlot k (.openedWith n p s.rx.lastCount) }).Agree := by
    refine ⟨hs.contexts.replace (k := k) (c := .openedWith n p s.rx.lastCount) rfl (fun _ => ⟨hsane, hother⟩)
      List.filter_sublist (fun g hg => (Option.filter_eq_some_iff.mp hg).1) (fun _ g hg => ?_), hs.stages⟩
    exact fun himage => hdropped g hg (himage.trans hm)
  unfold State.openImage
  dsimp only
  split
  · next k hfound =>
    obtain ⟨hk, himage⟩ := Render.findImage_some hfound
    split
    · exact hs.setAlike ⟨rfl, rfl, rfl, rfl, rfl⟩
    · refine hreset himage (fun j hjk hj hj' => hjk (hs.contexts.images j k hj hk (hj'.trans himage.symm))) _
  · next hfound =>
    have hother (j : Fin 4) (hj : s.ren.slots[j].state ≠ .free) : s.ren.slots[j].image ≠ n :=
      (Render.findImage_none hfound j).resolve_left hj
    split
    · next k hfree =>
      have hk : s.ren.slots[k].state = .free := by simpa using List.find?_some hfree
      exact ⟨hs.contexts.replace (k := k) rfl (fun _ => ⟨hsane, fun j _ => hother j⟩) (List.Sublist.refl _) (fun _ => id)
        (fun hused => absurd hk hused), hs.stages⟩
    · exact hreset rfl (fun j _ => hother j) _

theorem State.Agree.cadenceAtSlot (hs : s.Agree) (k : Fin 4) : (s.cadenceAtSlot k).Agree := by
  unfold State.cadenceAtSlot State.closingTimeout State.idleTimeout
  dsimp only
  split
  · exact hs
  · have hset : State.Agree { s with ren := s.ren.setSlot k { s.ren.slots[k] with closing := s.ren.slots[k].closing + 1 } } :=
      hs.setAlike ⟨rfl, rfl, rfl, rfl, rfl⟩
    split
    · exact (hset.freeSlot k).latchIf true .imageIncomplete
    · exact hset
  · have hset : State.Agree { s with ren := s.ren.setSlot k { s.ren.slots[k] with idle := s.ren.slots[k].idle + 1 } } :=
      hs.setAlike ⟨rfl, rfl, rfl, rfl, rfl⟩
    split
    · exact (hset.freeSlot k).latchIf _ .imageIncomplete
    · exact hset

theorem Slot.alike_zeroError (c : Slot) : c.Alike c.zeroError := by
  unfold Slot.zeroError
  split
  · exact ⟨rfl, rfl, rfl, rfl, rfl⟩
  · exact .rfl

theorem Render.agree_setWeights {r : Render} (h : r.contexts.Agree) (w : Weights) : (r.setWeights w).contexts.Agree := by
  unfold Render.setWeights
  split
  · exact h
  · refine h.alike (fun j => ?_) rfl rfl
    show r.slots[j].Alike (r.slots.map Slot.zeroError)[j.val]
    rw [Vector.getElem_map]
    exact Slot.alike_zeroError _

/-- After a reset every slot is FREE and nothing is held (R18, R22). -/
theorem Render.agree_reset (t : StoredTables) : (Render.reset t).contexts.Agree := by
  have hfree (j : Fin 4) : (Render.reset t).contexts.slots[j].state = .free := by
    show (Vector.replicate 4 Slot.reset)[j.val].state = .free
    rw [Vector.getElem_replicate]
    rfl
  exact ⟨fun j _ hj => absurd (hfree j) hj, fun j hj => absurd (hfree j) hj, nofun, List.nodup_nil, nofun⟩

end

/-! ### Steps -/

/-- All that `State.ContextsSound` says: something is left to do only while a piece of work is in progress (R24). -/
structure State.ContextsAgree (s : State) : Prop where
  agree : s.Agree
  busy : s.ren.stages ≠ [] → s.ren.busy = true

theorem State.contextsSound_iff (s : State) : s.ContextsSound ↔ s.ContextsAgree := by
  unfold State.ContextsSound
  rw [Contexts.sound_iff]
  simp only [Contexts.sound_iff]
  exact ⟨fun ⟨hcontexts, hstages, hbusy⟩ => ⟨⟨hcontexts, hstages⟩, hbusy⟩,
    fun ⟨⟨hcontexts, hstages⟩, hbusy⟩ => ⟨hcontexts, hstages, hbusy⟩⟩

theorem State.ImagesOnly.busy {s t : State} (h : s.ImagesOnly t) : t.ren.busy = s.ren.busy := by
  obtain ⟨_, _, _, _, _, rfl⟩ := h
  rfl

theorem State.Agree.atRest {s : State} (h : s.Agree) (hs : s.ren.stages = []) : s.ContextsAgree :=
  ⟨h, fun hne => absurd hs hne⟩

theorem State.keptAtContexts_agree : State.KeptAtContexts (fun s t => s.ContextsAgree → t.ContextsAgree) where
  refl _ := id
  trans h h' := h' ∘ h
  same {s t} h hs := by
    obtain ⟨hcontexts, _, hstages, hbusy, _⟩ := h
    refine ⟨⟨hcontexts ▸ hs.agree.contexts, fun x hx => hs.agree.stages x (hstages ▸ hx)⟩, fun hne => hbusy (hs.busy ?_)⟩
    exact hstages ▸ hne
  storeCommit s hs := by
    obtain ⟨h, _⟩ | ⟨_, _, h⟩ := s.storeCommit_cases <;> rw [h] <;> exact ⟨⟨hs.agree.contexts, hs.agree.stages⟩, hs.busy⟩
  programmingComplete {s t} h hs := by
    cases h
    dsimp only
    split
    · exact ⟨⟨hs.agree.contexts, hs.agree.stages⟩, hs.busy⟩
    · exact hs
  cadenceAtSlot s k hs := by
    obtain ⟨hstages, hbusy⟩ := s.cadenceAtSlot_stages k
    exact ⟨hs.agree.cadenceAtSlot k, by rw [hstages, hbusy]; exact hs.busy⟩
  factoryHalftone s _ hs := by
    have hframe := Render.setWeights_stages factoryWeights
      { s.ren with transfer := factoryTransfer, threshold := factoryThreshold }
    refine ⟨⟨Render.agree_setWeights (r := { s.ren with transfer := factoryTransfer, threshold := factoryThreshold })
      hs.agree.contexts _, fun x hx => hs.agree.stages x (hframe.1 ▸ hx)⟩, fun hne => hframe.2.trans (hs.busy ?_)⟩
    exact hframe.1 ▸ hne
  stageDone {s g rest} h hs := by
    refine ⟨⟨hs.agree.contexts, fun x hx => hs.agree.stages x (h ▸ .tail _ hx)⟩, fun _ => hs.busy ?_⟩
    rw [h]
    exact List.cons_ne_nil _ _
  contextsDone {s c rest} h hs := by
    refine ⟨⟨hs.agree.stages c (h ▸ .head _), fun x hx => hs.agree.stages x (h ▸ .tail _ hx)⟩, fun _ => hs.busy ?_⟩
    rw [h]
    exact List.cons_ne_nil _ _
  notBusy {s t} h hstages hs := by
    rw [h]
    exact ⟨⟨hs.agree.contexts, hs.agree.stages⟩, fun hne => absurd hstages hne⟩
  stageDrawing {s gs} hb hgs hs := by
    refine ⟨⟨hs.agree.contexts, fun x hx => ?_⟩, fun _ => hb⟩
    exact hs.agree.stages x ((List.mem_append.mp hx).resolve_right (hgs x))
  openImage {s n p} hstages hp hs := by
    refine ⟨hs.agree.openImage hp, fun hne => absurd ?_ hne⟩
    have hframe : (s.openImage n p).ren.stages = s.ren.stages := by
      unfold State.openImage
      dsimp only
      split
      · split <;> rfl
      · split <;> rfl
    exact hframe.trans hstages
  takeStripe {s k item} _ hb hr hfound hi hs :=
    ⟨hs.agree.takeStripe hr hfound hi, fun _ => (s.imagesOnly_takeStripe k item).busy.trans hb⟩
  renderReady {s h} _ hr hs := ⟨hs.agree.renderReady hr, fun _ => (State.imagesOnly_renderReady h _).busy⟩
  closeSlot {s k} _ hb hr hopen hs :=
    ⟨hs.agree.deferContexts (hs.agree.closeSlot hr hopen),
      fun _ => (s.imagesOnly_deferContexts (State.imagesOnly_closeSlot k)).busy.trans hb⟩
  freeSlot k hstages hs := (hs.agree.freeSlot k).atRest hstages
  setWeights {s w} hstages _ hs := by
    have hframe := (Render.setWeights_stages w s.ren).1
    exact State.Agree.atRest ⟨Render.agree_setWeights hs.agree.contexts w, fun x hx => hs.agree.stages x (hframe ▸ hx)⟩
      (hframe.trans hstages)
  terminalReset s _ := by
    unfold State.terminalReset
    refine State.Agree.atRest (State.Agree.latchIf ⟨Render.agree_reset _, fun _ hx => (List.not_mem_nil hx).elim⟩ _ _) ?_
    rw [State.latchIf_ren]
    rfl
  powerOn p s _ := by
    unfold State.powerOn
    refine State.Agree.atRest (State.Agree.latchIf ⟨Render.agree_reset _, fun _ hx => (List.not_mem_nil hx).elim⟩ _ _) ?_
    rw [State.latchIf_ren]
    rfl

/-- Settles O57: each operation on the contexts keeps them sound; a rendering is unsound only between its end and the
promotion of the next ready stripe. -/
theorem stepKeepsContextsSound : Obligations.StepKeepsContextsSound := by
  intro s t hs hstep
  rw [State.contextsSound_iff] at hs ⊢
  exact State.keptAtContexts_agree.steps.step hstep hs

end Sys2Proof.Machine
end

