-- ==== Sys2Proof/Proofs/ErrorBounds.lean ====
section
/-! Line diffusion keeps its errors in a signed byte: an error is at most 127, the weights' sum at most 16, and a share at most
its weight's part (R46 to R51). -/

namespace Sys2Proof.Machine

/-- A signed 8-bit value (R51). -/
def SignedByte (e : Int) : Prop := -128 ≤ e ∧ e ≤ 127

/-- No more than a part `n` of 16 of a signed 8-bit value. -/
def PartOf (n : Nat) (e : Int) : Prop := -(128 * (n : Int)) ≤ 16 * e ∧ 16 * e ≤ 127 * (n : Int)

theorem signedByte_zero : SignedByte 0 := by
  unfold SignedByte
  omega

theorem partOf_zero (n : Nat) : PartOf n 0 := by
  unfold PartOf
  omega

theorem PartOf.add {m n : Nat} {a b : Int} (ha : PartOf m a) (hb : PartOf n b) : PartOf (m + n) (a + b) := by
  unfold PartOf at *
  omega

theorem PartOf.signedByte {n : Nat} (hn : n ≤ 16) {e : Int} (h : PartOf n e) : SignedByte e := by
  unfold PartOf at h
  unfold SignedByte
  omega

/-- Truncation toward zero never takes a share beyond its part (R48). -/
theorem sixteen_mul_tdiv (x : Int) : min x 0 ≤ 16 * x.tdiv 16 ∧ 16 * x.tdiv 16 ≤ max x 0 := by
  obtain hx | hx := Int.le_total 0 x
  · rw [Int.tdiv_eq_ediv_of_nonneg hx]
    omega
  · obtain ⟨y, rfl⟩ : ∃ y, x = -y := ⟨-x, (Int.neg_neg x).symm⟩
    rw [Int.neg_tdiv, Int.tdiv_eq_ediv_of_nonneg (by omega)]
    omega

theorem partOf_share {e : Int} (h : SignedByte e) (n : Nat) : PartOf n (share e n) := by
  obtain ⟨hlow, hhigh⟩ := h
  obtain ⟨hmin, hmax⟩ := sixteen_mul_tdiv (e * n)
  have hn : (0 : Int) ≤ n := Int.natCast_nonneg n
  have hlow' : -128 * (n : Int) ≤ e * n := Int.mul_le_mul_of_nonneg_right hlow hn
  have hhigh' : e * (n : Int) ≤ 127 * n := Int.mul_le_mul_of_nonneg_right hhigh hn
  unfold PartOf share
  omega

/-- A cell's error: its value lies between −128 and 382, and a lit cell's is less by 255 (R47). -/
theorem signedByte_error {w : Weights} (hw : w.sum ≤ 16) {t : Nat} (ht : t ≤ 255) {right incoming : Int}
    (hr : PartOf w.wR right) (hi : PartOf w.down incoming) :
    SignedByte (if 128 ≤ (t : Int) + (right + incoming) then (t : Int) + (right + incoming) - 255 else (t : Int) + (right + incoming)) := by
  unfold PartOf Weights.down at *
  unfold Weights.sum at hw
  unfold SignedByte
  split <;> omega

theorem signedByte_diffuseCells {w : Weights} (hw : w.sum ≤ 16) {right : Int} (hr : PartOf w.wR right)
    {l : List (Nat × Int)} (hl : ∀ p ∈ l, p.1 ≤ 255 ∧ PartOf w.down p.2) :
    ∀ e ∈ (diffuseCells w right l).map Prod.snd, SignedByte e := by
  induction l generalizing right with
  | nil => nofun
  | cons p rest ih =>
    obtain ⟨t, incoming⟩ := p
    obtain ⟨ht, hi⟩ := hl _ (.head _)
    have herr := signedByte_error hw ht hr hi
    intro e he
    simp only [diffuseCells, List.map_cons, decide_eq_true_eq] at he
    obtain he | he := List.mem_cons.mp he
    · exact he ▸ herr
    · exact ih (partOf_share herr _) (fun q hq => hl q (.tail _ hq)) e he

theorem partOf_outgoingEntries {w : Weights} {left : Int} (hleft : SignedByte left) {es : List Int}
    (hes : ∀ e ∈ es, SignedByte e) : ∀ e ∈ outgoingEntries w left es, PartOf w.down e := by
  induction es generalizing left with
  | nil => nofun
  | cons a rest ih =>
    have ha := hes a (.head _)
    cases rest with
    | nil =>
      intro e he
      cases List.mem_singleton.mp he
      have h := (partOf_share hleft w.wBR).add (partOf_share ha w.wB)
      unfold PartOf Weights.down at *
      omega
    | cons b rest =>
      intro e he
      obtain he | he := List.mem_cons.mp he
      · have h := ((partOf_share hleft w.wBR).add (partOf_share ha w.wB)).add (partOf_share (hes b (.tail _ (.head _))) w.wBL)
        rw [he]
        unfold PartOf Weights.down at *
        omega
      · exact ih ha (fun c hc => hes c (.tail _ hc)) e he

theorem partOf_diffuseRow {w : Weights} (hw : w.sum ≤ 16) {ts : List Nat} (ht : ∀ t ∈ ts, t ≤ 255) {incoming : List Int}
    (hi : ∀ e ∈ incoming, PartOf w.down e) : ∀ e ∈ (diffuseRow w ts incoming).2, PartOf w.down e := by
  refine partOf_outgoingEntries signedByte_zero (signedByte_diffuseCells hw (partOf_zero _) fun p hp => ?_)
  obtain ⟨h1, h2⟩ := List.of_mem_zip hp
  exact ⟨ht _ h1, hi _ h2⟩

theorem le_of_mem_cellIntensities {transfer : Vector Byte 64} {p : ImageParams} {source : List (Fin 16)} {t : Nat}
    (h : t ∈ cellIntensities transfer p source) : t ≤ 255 := by
  obtain ⟨k, _, rfl⟩ := List.mem_map.mp h
  unfold intensity
  omega

/-- The entries left under a stripe are within what the weights pass down (R48, R50). -/
theorem partOf_diffuseStripe {t : HalftoneTables} (hw : t.weights.sum ≤ 16) (p : ImageParams) (rect : Rect)
    (rows : List (RowNo × List (Fin 16))) {incoming : List Int} (hi : ∀ e ∈ incoming, PartOf t.weights.down e) :
    ∀ e ∈ (diffuseStripe t p rect incoming rows).2, PartOf t.weights.down e := by
  induction rows generalizing incoming with
  | nil => exact hi
  | cons row rest ih => exact ih (partOf_diffuseRow hw (fun _ => le_of_mem_cellIntensities) hi)

/-- A property of every entry that a table is made of. -/
theorem forall_mem_tabulate {α : Type} {n : Nat} {p : α → Prop} {f : Fin n → α} (h : ∀ k, p (f k)) :
    ∀ x ∈ (tabulate f).toList, p x := by
  intro x hx
  have hx' : x ∈ List.ofFn f := by simpa [tabulate] using hx
  obtain ⟨k, rfl⟩ := List.mem_ofFn.mp hx'
  exact h k

/-- An error row made of such entries, the rest 0 (R50). -/
theorem partOf_errorRowOf {n : Nat} {entries : List Int} (h : ∀ e ∈ entries, PartOf n e) :
    ∀ e ∈ (errorRowOf entries).toList, PartOf n e := by
  refine forall_mem_tabulate fun k => ?_
  rw [List.getD_eq_getElem?_getD]
  cases hk : entries[k.val]? with
  | none => exact partOf_zero n
  | some a => exact h a (List.mem_of_getElem? hk)

/-! ### The error rows of slots -/

/-- A slot's error row holds signed 8-bit values, and in a DIFFUSION slot in use no more than the weights pass down
(R51, R54). -/
structure Slot.Bounded (w : Weights) (c : Slot) : Prop where
  byte : ∀ e ∈ c.err.toList, SignedByte e
  down : c.state ≠ .free → c.params.method = .diffusion → ∀ e ∈ c.err.toList, PartOf w.down e

theorem slotsBounded_iff {w : Weights} {slots : Vector Slot 4} :
    SlotsBounded w slots ↔ ∀ k : Fin 4, slots[k].Bounded w :=
  ⟨fun h k => ⟨h.1 k, h.2 k⟩, fun h => ⟨fun k => (h k).byte, fun k => (h k).down⟩⟩

theorem Slot.Bounded.of_err {w : Weights} {c c' : Slot} (h : c.Bounded w) (he : c'.err = c.err)
    (hd : c'.state ≠ .free → c'.params.method = .diffusion → c.state ≠ .free ∧ c.params.method = .diffusion) :
    c'.Bounded w :=
  ⟨he ▸ h.byte, fun hs hm => he ▸ h.down (hd hs hm).1 (hd hs hm).2⟩

theorem Slot.bounded_of_zero {w : Weights} {c : Slot} (h : c.err = .replicate 512 0) : c.Bounded w := by
  have hzero : ∀ e ∈ c.err.toList, e = 0 := by
    rw [h]
    exact forall_mem_replicate rfl
  exact ⟨fun e he => hzero e he ▸ signedByte_zero, fun _ _ e he => hzero e he ▸ partOf_zero _⟩

theorem Slot.bounded_of_down {w : Weights} (hw : w.sum ≤ 16) {c : Slot} (h : ∀ e ∈ c.err.toList, PartOf w.down e) :
    c.Bounded w := by
  refine ⟨fun e he => (h e he).signedByte ?_, fun _ _ => h⟩
  unfold Weights.sum at hw
  unfold Weights.down
  omega

theorem bounded_setSlot {w : Weights} {slots : Vector Slot 4} (h : ∀ k : Fin 4, slots[k].Bounded w) {k : Fin 4} {c : Slot}
    (hc : c.Bounded w) (j : Fin 4) : (slots.set k c)[j].Bounded w := by
  rw [getElem_set_slot]
  split
  · exact hc
  · exact h j

end Sys2Proof.Machine
end

