-- ==== Sys2Proof/Proofs/ErrorsStep.lean ====
section
/-! Every step keeps the weights' sum at most 16 and the error rows bounded. -/

namespace Sys2Proof.Machine

/-- The error rows are bounded under the present weights, also in the contexts that a rendering is to leave. -/
structure State.RowsBounded (s : State) : Prop where
  weights : s.ren.weights.sum ≤ 16
  slots : ∀ j : Fin 4, s.ren.slots[j].Bounded s.ren.weights
  stages : ∀ c, Stage.contexts c ∈ s.ren.stages → ∀ j : Fin 4, c.slots[j].Bounded s.ren.weights

/-- A rendering in slot k keeps them bounded: the slot is in use under the diffusion method. -/
structure State.RenderingBounded (k : Fin 4) (s : State) : Prop extends s.RowsBounded where
  used : s.ren.slots[k].state ≠ .free
  method : s.ren.slots[k].params.method = .diffusion

section
variable {k : Fin 4} {s t : State}

theorem State.RowsBounded.of_eq (h : s.RowsBounded) (hw : t.ren.weights = s.ren.weights) (hs : t.ren.slots = s.ren.slots)
    (hg : ∀ c, Stage.contexts c ∈ t.ren.stages → Stage.contexts c ∈ s.ren.stages) : t.RowsBounded :=
  ⟨hw ▸ h.weights, hw ▸ hs ▸ h.slots, fun c hc => hw ▸ h.stages c (hg c hc)⟩

theorem State.RowsBounded.latchIf (h : s.RowsBounded) (c : Bool) (e : EdgeEvent) : (s.latchIf c e).RowsBounded := by
  cases c with
  | false => exact h
  | true => exact h.of_eq rfl rfl fun _ => id

theorem State.RowsBounded.setSlot (h : s.RowsBounded) {c : Slot} (hc : c.Bounded s.ren.weights) :
    State.RowsBounded { s with ren := s.ren.setSlot k c } := ⟨h.weights, bounded_setSlot h.slots hc, h.stages⟩

theorem State.RowsBounded.stageContexts (h : s.RowsBounded) : s.stageContexts.RowsBounded := by
  refine ⟨h.weights, h.slots, fun c hc => ?_⟩
  obtain hc | hc := List.mem_append.mp hc
  · exact h.stages c hc
  · cases List.mem_singleton.mp hc
    exact h.slots

theorem State.RowsBounded.freeSlot (h : s.RowsBounded) (k : Fin 4) : State.RowsBounded { s with ren := s.ren.freeSlot k } :=
  ⟨h.weights, bounded_setSlot h.slots ((h.slots k).of_err rfl fun hf => absurd rfl hf), h.stages⟩

theorem State.RowsBounded.freeIfDone (h : s.RowsBounded) (k : Fin 4) : (s.freeIfDone k).RowsBounded := by
  unfold State.freeIfDone
  split
  · exact h.freeSlot k
  · exact h

theorem State.RowsBounded.promote (h : s.RowsBounded) (k : Fin 4) : (s.promote k).RowsBounded := by
  unfold State.promote
  dsimp only
  split
  · exact h.of_eq rfl rfl fun _ => id
  · exact h

theorem State.RowsBounded.deferContexts (h : s.RowsBounded) {plan : State → State} (hplan : (plan s).RowsBounded)
    (hw : (plan s).ren.weights = s.ren.weights) : (s.deferContexts plan).RowsBounded := by
  unfold State.deferContexts
  dsimp only
  split
  · exact hplan
  · have hstaged := hplan.stageContexts
    exact ⟨hstaged.weights, fun j => hw ▸ h.slots j, hstaged.stages⟩

theorem State.RenderingBounded.of_slot (h : s.RenderingBounded k) (ht : t.RowsBounded) {c : Slot}
    (hslots : t.ren.slots = s.ren.slots.set k c) (hstate : c.state = s.ren.slots[k].state)
    (hparams : c.params = s.ren.slots[k].params) : t.RenderingBounded k := by
  have hk : t.ren.slots[k] = c := by rw [hslots, getElem_set_slot, if_pos rfl]
  exact ⟨ht, by rw [hk, hstate]; exact h.used, by rw [hk, hparams]; exact h.method⟩

theorem State.RenderingBounded.of_eq (h : s.RenderingBounded k) (hw : t.ren.weights = s.ren.weights)
    (hs : t.ren.slots = s.ren.slots) (hg : ∀ c, Stage.contexts c ∈ t.ren.stages → Stage.contexts c ∈ s.ren.stages) :
    t.RenderingBounded k := ⟨h.toRowsBounded.of_eq hw hs hg, hs ▸ h.used, hs ▸ h.method⟩

/-- A stripe rendered in order starts from the slot's entries and leaves such as the weights pass down (R48, R50). -/
theorem State.RenderingBounded.renderInOrder (h : s.RenderingBounded k) (g : HeldStripe) :
    (s.renderInOrder k g).RenderingBounded k := by
  have hdown := (h.slots k).down h.used h.method
  have hincoming : ∀ e ∈ incomingOf s.ren.slots[k].params s.ren.slots[k].err, PartOf s.ren.weights.down e :=
    fun e he => hdown e (List.mem_of_mem_take he)
  have hout := partOf_diffuseStripe (t := s.ren.tables) h.weights s.ren.slots[k].params
    (s.ren.windowRect s.ren.slots[k].params) (stripeCellRows s.ren.slots[k].params g.index g.levels) hincoming
  refine h.of_slot ⟨h.weights, bounded_setSlot h.slots (Slot.bounded_of_down h.weights ?_),
    fun c hc => h.stages c (contexts_mem_append_writes.mp hc)⟩ rfl rfl rfl
  dsimp only
  split
  · exact hdown
  · exact partOf_errorRowOf hout

theorem State.RenderingBounded.renderAfterGap (h : s.RenderingBounded k) (g : HeldStripe) :
    (s.renderAfterGap k g).RenderingBounded k := by
  refine State.RenderingBounded.renderInOrder ?_ g
  unfold State.skipGap
  split
  · next hgap =>
    have hskip : s.ren.slots[k].skipTo g.index = { s.ren.slots[k] with err := .replicate 512 0, next := g.index } :=
      if_pos hgap
    rw [hskip]
    refine h.of_slot (State.RowsBounded.stageContexts (h.setSlot ?_)) rfl rfl rfl
    exact Slot.bounded_of_zero rfl
  · exact h

theorem State.RenderingBounded.renderHeld (h : s.RenderingBounded k) (n : Byte) (p : HeldStripe → Bool) :
    (s.renderHeld k n p).RenderingBounded k := by
  unfold State.renderHeld
  refine List.foldlRecOn _ _ (motive := State.RenderingBounded k) (h.of_eq rfl rfl fun _ => id) fun t ht g _ => ?_
  have hdone := ht.renderAfterGap g
  exact ⟨hdone.stageContexts, hdone.used, hdone.method⟩

theorem State.RenderingBounded.diffusionStripe (h : s.RenderingBounded k) (g : HeldStripe) :
    (s.diffusionStripe k g).RowsBounded := by
  unfold State.diffusionStripe
  dsimp only
  split
  · exact ⟨h.weights, bounded_setSlot h.slots ((h.slots k).of_err rfl fun hs hm => ⟨hs, hm⟩),
      fun c hc => h.stages c (contexts_mem_append_writes.mp hc)⟩
  · split
    · exact (h.renderInOrder g).promote k
    · split
      · exact h.toRowsBounded.of_eq rfl rfl fun _ => id
      · exact ((h.renderHeld _ _).renderAfterGap g).promote k

theorem State.ImagesOnly.weights (h : s.ImagesOnly t) : t.ren.weights = s.ren.weights := by
  obtain ⟨_, _, _, _, _, rfl⟩ := h
  rfl

theorem State.RowsBounded.takeStripe (h : s.RowsBounded) {item : WorkItem} (hused : s.ren.slots[k].state ≠ .free) :
    (s.takeStripe k item).RowsBounded := by
  have hset : State.RowsBounded { s with ren := s.ren.setSlot k (s.ren.slots[k].refresh s.rx.lastCount) } :=
    h.setSlot ((h.slots k).of_err rfl fun hs hm => ⟨hs, hm⟩)
  have hslot : (s.ren.setSlot k (s.ren.slots[k].refresh s.rx.lastCount)).slots[k] = s.ren.slots[k].refresh s.rx.lastCount :=
    (getElem_set_slot _ _ _ _).trans (if_pos rfl)
  unfold State.takeStripe
  dsimp only
  split
  · exact hset
  · split
    · exact hset
    · refine ((hset.latchIf _ .stripeShort).latchIf _ .stripeLong).deferContexts ?_ ?_
      · split
        · refine State.RowsBounded.freeIfDone ?_ k
          have hfit := (hset.latchIf (decide ((decodeRuns (item.body.drop 3)).length <
            s.ren.slots[k].params.pixelsNeeded (wordAt item.body 1).toNat)) .stripeShort).latchIf
              (decide (s.ren.slots[k].params.pixelsNeeded (wordAt item.body 1).toNat <
                (decodeRuns (item.body.drop 3)).length)) .stripeLong
          exact ⟨hfit.weights, bounded_setSlot hfit.slots ((hfit.slots k).of_err rfl fun hs hm => ⟨hs, hm⟩),
            fun c hc => hfit.stages c (contexts_mem_append_writes.mp hc)⟩
        · next hmethod =>
          refine State.RowsBounded.freeIfDone (State.RenderingBounded.diffusionStripe
            ⟨(hset.latchIf _ .stripeShort).latchIf _ .stripeLong, ?_, ?_⟩ _) k
          all_goals simp only [State.latchIf_ren, hslot]
          · exact hused
          · exact hmethod
      · split
        · refine ((State.ImagesOnly.trans ?_ (State.imagesOnly_freeIfDone k _))).weights
          exact ⟨_, _, _, _, _, rfl⟩
        · exact ((State.imagesOnly_diffusionStripe k _ _).trans (State.imagesOnly_freeIfDone k _)).weights

/-- The ready stripe's slot is under the diffusion method, as the contexts are sound (R22). -/
theorem State.RowsBounded.renderReady (h : s.RowsBounded) (hs : s.Agree) {g : HeldStripe} (hready : s.ren.ready = some g) :
    (State.renderReady g { s with ren := { s.ren with ready := none, busy := true } }).RowsBounded := by
  have hnone : State.RowsBounded { s with ren := { s.ren with ready := none, busy := true } } := h.of_eq rfl rfl fun _ => id
  obtain ⟨j, hused, hawaits, _⟩ := hs.contexts.ready g hready
  unfold State.renderReady
  split
  · exact hnone
  · next k hfound =>
    obtain ⟨hk, himage⟩ := Render.findImage_some hfound
    have hjk : j = k := hs.contexts.images j k hused hk (hawaits.image.trans himage.symm)
    subst hjk
    refine hnone.deferContexts ?_ ?_
    · refine State.RowsBounded.freeIfDone (State.RowsBounded.promote ?_ j) j
      exact (State.RenderingBounded.renderInOrder ⟨hnone, hused, hawaits.method⟩ g).toRowsBounded
    · exact ((State.imagesOnly_renderInOrder j g _).trans
        ((State.imagesOnly_promote j _).trans (State.imagesOnly_freeIfDone j _))).weights

theorem State.RowsBounded.closeSlot (h : s.RowsBounded) (hopen : s.ren.slots[k].state = .opened) :
    (s.closeSlot k).RowsBounded := by
  have hend {u : State} (hu : u.RowsBounded) (hused : u.ren.slots[k].state ≠ .free) :
      State.RowsBounded (if u.ren.slots[k].complete then { u with ren := u.ren.freeSlot k }
        else { u with ren := u.ren.setSlot k { u.ren.slots[k] with state := .closing, closing := 0 } }) := by
    split
    · exact hu.freeSlot k
    · exact hu.setSlot ((hu.slots k).of_err rfl fun _ hm => ⟨hused, hm⟩)
  have hused : s.ren.slots[k].state ≠ .free := by
    rw [hopen]
    nofun
  unfold State.closeSlot
  cases hmethod : s.ren.slots[k].params.method with
  | diffusion =>
    have hdone := State.RenderingBounded.renderHeld ⟨h, hused, hmethod⟩ s.ren.slots[k].image (fun _ => true)
    exact hend hdone.toRowsBounded hdone.used
  | threshold => exact hend h hused

theorem State.RowsBounded.openImage (h : s.RowsBounded) (n : Byte) (p : ImageParams) : (s.openImage n p).RowsBounded := by
  have hopened (k : Fin 4) (r : Render) (hw : r.weights = s.ren.weights) (hr : r.slots = s.ren.slots)
      (hg : r.stages = s.ren.stages) : State.RowsBounded { s with ren := r.setSlot k (.openedWith n p s.rx.lastCount) } := by
    refine ⟨hw ▸ h.weights, ?_, fun c hc j => hw ▸ h.stages c (hg ▸ hc) j⟩
    exact bounded_setSlot (hr ▸ hw ▸ h.slots) (Slot.bounded_of_zero rfl)
  unfold State.openImage
  dsimp only
  split
  · split
    · exact h.setSlot ((h.slots _).of_err rfl fun hs hm => ⟨hs, hm⟩)
    · exact (hopened _ (s.ren.dropHeld _) rfl rfl rfl).latchIf true .imageNew
  · split
    · exact hopened _ s.ren rfl rfl rfl
    · exact (hopened _ (s.ren.dropHeld _) rfl rfl rfl).latchIf true .imageEvicted

theorem State.RowsBounded.cadenceAtSlot (h : s.RowsBounded) (k : Fin 4) : (s.cadenceAtSlot k).RowsBounded := by
  unfold State.cadenceAtSlot State.closingTimeout State.idleTimeout
  dsimp only
  split
  · exact h
  · have hset : State.RowsBounded
        { s with ren := s.ren.setSlot k { s.ren.slots[k] with closing := s.ren.slots[k].closing + 1 } } :=
      h.setSlot ((h.slots k).of_err rfl fun hf hm => ⟨hf, hm⟩)
    split
    · exact (hset.freeSlot k).latchIf true .imageIncomplete
    · exact hset
  · have hset : State.RowsBounded
        { s with ren := s.ren.setSlot k { s.ren.slots[k] with idle := s.ren.slots[k].idle + 1 } } :=
      h.setSlot ((h.slots k).of_err rfl fun hf hm => ⟨hf, hm⟩)
    split
    · exact (hset.freeSlot k).latchIf _ .imageIncomplete
    · exact hset

/-- New weights find every DIFFUSION slot in use with a zero error row (R54). -/
theorem Render.bounded_setWeights {r : Render} {w : Weights} (h : ∀ j : Fin 4, r.slots[j].Bounded r.weights) (j : Fin 4) :
    (r.setWeights w).slots[j].Bounded (r.setWeights w).weights := by
  unfold Render.setWeights
  split
  · exact h j
  · show (r.slots.map Slot.zeroError)[j.val].Bounded w
    rw [Vector.getElem_map]
    show (Slot.zeroError r.slots[j]).Bounded w
    unfold Slot.zeroError
    split
    · exact Slot.bounded_of_zero rfl
    · next hnot =>
      refine ⟨(h j).byte, fun hs hm => absurd ?_ hnot⟩
      rw [Bool.and_eq_true, bne_iff_ne, beq_iff_eq]
      exact ⟨hs, hm⟩

theorem Render.weights_setWeights (w : Weights) (r : Render) : (r.setWeights w).weights = w := by
  rw [Render.setWeights_eq]

theorem Render.bounded_reset (t : StoredTables) (j : Fin 4) : (Render.reset t).slots[j].Bounded t.weights := by
  have hslot : (Render.reset t).slots[j] = Slot.reset := Vector.getElem_replicate ..
  rw [hslot]
  exact Slot.bounded_of_zero rfl

end

/-! ### Steps -/

/-- The weights that a reset can load sum to at most 16 (R46, R168, R172). -/
def Store.WeightsBounded (st : Store) : Prop :=
  (st.image.good = true → st.image.tables.weights.sum ≤ 16) ∧ ∀ t, st.commit = .programming t → t.weights.sum ≤ 16

/-- All that `State.ErrorsBounded` says, with sound contexts. -/
structure State.ErrorsAgree (s : State) : Prop where
  sound : s.ContextsAgree
  rows : s.RowsBounded
  store : s.store.WeightsBounded

theorem State.errorsBounded_iff {s : State} : s.ErrorsBounded ↔ s.RowsBounded ∧ s.store.WeightsBounded := by
  unfold State.ErrorsBounded Store.WeightsBounded
  simp only [slotsBounded_iff]
  exact ⟨fun ⟨hw, himage, hcommit, hslots, hstages⟩ => ⟨⟨hw, hslots, hstages⟩, himage, hcommit⟩,
    fun ⟨⟨hw, hslots, hstages⟩, himage, hcommit⟩ => ⟨hw, himage, hcommit, hslots, hstages⟩⟩

theorem StoredImage.weights_reload_le {i : StoredImage} (h : i.good = true → i.tables.weights.sum ≤ 16) :
    i.reload.weights.sum ≤ 16 := by
  unfold StoredImage.reload
  split
  · next hgood => exact h hgood
  · exact factoryWeights_sum_le

theorem Store.WeightsBounded.terminalTables {st : Store} (h : st.WeightsBounded) : st.terminalTables.1.weights.sum ≤ 16 := by
  unfold Store.terminalTables
  split
  · dsimp only
    exact StoredImage.weights_reload_le h.1
  · next snapshot hcommit => exact h.2 snapshot hcommit

theorem Store.WeightsBounded.powerOn {st : Store} (h : st.WeightsBounded) : st.powerOn.WeightsBounded := by
  unfold Store.powerOn
  split
  · exact h
  · refine ⟨fun hgood => ?_, nofun⟩
    rw [Store.interrupted_not_good] at hgood
    cases hgood

theorem State.workingTables_weights_le {s : State} (h : s.ren.weights.sum ≤ 16) : s.workingTables.weights.sum ≤ 16 := by
  unfold State.workingTables
  dsimp only
  split
  · exact factoryWeights_sum_le
  · exact h

theorem State.rowsBounded_reset {s : State} {t : StoredTables} (hr : s.ren = Render.reset t) (hw : t.weights.sum ≤ 16) :
    s.RowsBounded := by
  constructor
  · rw [hr]
    exact hw
  · rw [hr]
    exact Render.bounded_reset t
  · rw [hr]
    exact fun _ hx => (List.not_mem_nil hx).elim

theorem State.keptAtContexts_errors : State.KeptAtContexts (fun s t => s.ErrorsAgree → t.ErrorsAgree) where
  refl _ := id
  trans h h' := h' ∘ h
  same {s t} h hs := by
    have hsound := State.keptAtContexts_agree.same h hs.sound
    obtain ⟨hcontexts, hweights, hstages, _, hstore⟩ := h
    exact ⟨hsound, hs.rows.of_eq hweights (congrArg Contexts.slots hcontexts :) fun c hc => hstages ▸ hc, hstore ▸ hs.store⟩
  storeCommit s hs := by
    refine ⟨State.keptAtContexts_agree.storeCommit s hs.sound, ?_, ?_⟩
    all_goals obtain ⟨h, _⟩ | ⟨_, _, h⟩ := s.storeCommit_cases <;> rw [h]
    · exact hs.rows.of_eq rfl rfl fun _ => id
    · exact hs.rows.of_eq rfl rfl fun _ => id
    · exact hs.store
    · refine ⟨hs.store.1, fun t ht => ?_⟩
      cases ht
      exact State.workingTables_weights_le hs.rows.weights
  programmingComplete {s t} h hs := by
    have hsound := State.keptAtContexts_agree.programmingComplete h hs.sound
    cases h
    dsimp only at hsound ⊢
    split at hsound
    · next snapshot hcommit => exact ⟨hsound, hs.rows.of_eq rfl rfl fun _ => id, fun _ => hs.store.2 snapshot hcommit, nofun⟩
    · exact hs
  cadenceAtSlot s k hs := by
    refine ⟨State.keptAtContexts_agree.cadenceAtSlot s k hs.sound, hs.rows.cadenceAtSlot k, ?_⟩
    rw [(s.imagesOnly_cadenceAtSlot k).store]
    exact hs.store
  factoryHalftone s hrest hs := by
    have hnone : s.ren.stages = [] := hrest.elim
      (fun hb => by_contra fun hne => Bool.false_ne_true (hb.symm.trans (hs.sound.busy hne))) id
    refine ⟨State.keptAtContexts_agree.factoryHalftone s hrest hs.sound, ⟨?_, ?_, ?_⟩, hs.store⟩
    · rw [Render.factoryHalftone_eq]
      exact factoryWeights_sum_le
    · exact Render.bounded_setWeights (r := { s.ren with transfer := factoryTransfer, threshold := factoryThreshold })
        hs.rows.slots
    · rw [Render.factoryHalftone_eq, hnone]
      exact fun _ hx => (List.not_mem_nil hx).elim
  stageDone {s g rest} h hs := ⟨State.keptAtContexts_agree.stageDone h hs.sound,
    hs.rows.of_eq rfl rfl fun c hc => h ▸ .tail _ hc, hs.store⟩
  contextsDone {s c rest} h hs := ⟨State.keptAtContexts_agree.contextsDone h hs.sound,
    ⟨hs.rows.weights, hs.rows.stages c (h ▸ .head _), fun x hx => hs.rows.stages x (h ▸ .tail _ hx)⟩, hs.store⟩
  notBusy {s t} h hstages hs := by
    have hsound := State.keptAtContexts_agree.notBusy h hstages hs.sound
    rw [h] at hsound ⊢
    exact ⟨hsound, hs.rows.of_eq rfl rfl fun _ => id, hs.store⟩
  stageDrawing {s gs} hb hgs hs := ⟨State.keptAtContexts_agree.stageDrawing hb hgs hs.sound,
    hs.rows.of_eq rfl rfl fun c hc => (List.mem_append.mp hc).resolve_right (hgs c), hs.store⟩
  openImage {s n p} hstages hp hs := by
    refine ⟨State.keptAtContexts_agree.openImage hstages hp hs.sound, hs.rows.openImage n p, ?_⟩
    rw [(s.imagesOnly_openImage n p).store]
    exact hs.store
  takeStripe {s k item} hstages hb hr hfound hi hs := by
    refine ⟨State.keptAtContexts_agree.takeStripe hstages hb hr hfound hi hs.sound,
      hs.rows.takeStripe (Render.findImage_some hfound).1, ?_⟩
    rw [(s.imagesOnly_takeStripe k item).store]
    exact hs.store
  renderReady {s h} hstages hr hs := by
    refine ⟨State.keptAtContexts_agree.renderReady hstages hr hs.sound, hs.rows.renderReady hs.sound.agree hr, ?_⟩
    rw [(State.imagesOnly_renderReady h _).store]
    exact hs.store
  closeSlot {s k} hstages hb hr hopen hs := by
    refine ⟨State.keptAtContexts_agree.closeSlot hstages hb hr hopen hs.sound,
      hs.rows.deferContexts (hs.rows.closeSlot hopen) (State.imagesOnly_closeSlot k s).weights, ?_⟩
    rw [(s.imagesOnly_deferContexts (State.imagesOnly_closeSlot k)).store]
    exact hs.store
  freeSlot k hstages hs := ⟨State.keptAtContexts_agree.freeSlot k hstages hs.sound, hs.rows.freeSlot k, hs.store⟩
  setWeights {s w} hstages hw hs := by
    refine ⟨State.keptAtContexts_agree.setWeights hstages hw hs.sound, ⟨?_, Render.bounded_setWeights hs.rows.slots, ?_⟩, hs.store⟩
    · rw [Render.weights_setWeights]
      exact hw
    · rw [(Render.setWeights_stages w s.ren).1, hstages]
      exact fun _ hx => (List.not_mem_nil hx).elim
  terminalReset s hs := by
    refine ⟨State.keptAtContexts_agree.terminalReset s hs.sound, ?_, ?_⟩
    · refine State.rowsBounded_reset (t := s.store.terminalTables.1) ?_ hs.store.terminalTables
      unfold State.terminalReset
      rw [State.latchIf_ren]
    · unfold State.terminalReset
      rw [State.latchIf_store]
      exact hs.store
  powerOn p s hs := by
    refine ⟨State.keptAtContexts_agree.powerOn p s hs.sound, ?_, ?_⟩
    · refine State.rowsBounded_reset (t := s.store.powerOn.image.reload) ?_ (StoredImage.weights_reload_le hs.store.powerOn.1)
      unfold State.powerOn
      rw [State.latchIf_ren]
    · unfold State.powerOn
      rw [State.latchIf_store]
      exact hs.store.powerOn

/-- Settles O58: a rendering leaves entries within what the weights pass down, and new weights find zero error rows. -/
theorem stepKeepsErrorsBounded : Obligations.StepKeepsErrorsBounded := by
  intro s t hsound hs hstep
  rw [State.contextsSound_iff] at hsound
  rw [State.errorsBounded_iff] at hs ⊢
  have ht := State.keptAtContexts_errors.steps.step hstep ⟨hsound, hs.1, hs.2⟩
  exact ⟨ht.rows, ht.store⟩

end Sys2Proof.Machine
end

