-- ==== Sys2Proof/Proofs/RowLedger.lean ====
section
/-! The row engine's account of a panel that it serves: every row waits, is in service, or shows its composite. Each of its
operations keeps this (R74, R77 to R89). -/

namespace Sys2Proof.Machine

/-- Row y waits in a list, or a service of it in flight has its composite as target, or no service of it is in flight and its
mirror is its composite: `State.RowAccounted`, for given composites. -/
def RowEngine.Accounted (composite : RowNo → RowBits) (r : RowEngine) (y : RowNo) : Prop :=
  y ∈ r.urgent ∨ y ∈ r.bulk ∨ (∃ v ∈ r.sense, v.row = y ∧ v.target = composite y) ∨
    ((∀ v ∈ r.sense, v.row ≠ y) ∧ r.mirror[y] = some (composite y))

/-- Rows wait once, the mirror is known, and every row is accounted for. -/
structure RowEngine.Ledger (composite : RowNo → RowBits) (r : RowEngine) : Prop where
  once : r.RowsOnce
  known : r.mirrorKnown = true
  rows : ∀ y, r.Accounted composite y

theorem RowEngine.mirrorKnown_iff {r : RowEngine} : r.mirrorKnown = true ↔ ∀ y : RowNo, (r.mirror[y]).isSome = true := by
  unfold RowEngine.mirrorKnown
  rw [List.all_eq_true]
  constructor
  · exact fun h y => h _ (by simp)
  · intro h x hx
    obtain ⟨n, hn, rfl⟩ := List.getElem_of_mem hx
    have hn' : n < 512 := by simpa using hn
    simpa using h ⟨n, hn'⟩

/-- A known row of the mirror. -/
theorem RowEngine.mirror_of_known {r : RowEngine} (h : r.mirrorKnown = true) (y : RowNo) :
    r.mirror[y] = some (r.mirrorRow y) := by
  obtain ⟨b, hb⟩ := Option.isSome_iff_exists.mp (RowEngine.mirrorKnown_iff.mp h y)
  simp only [RowEngine.mirrorRow, hb, Option.getD_some]

theorem getElem_set_row {α : Type} (v : Vector α 512) (y z : RowNo) (a : α) : (v.set y a)[z] = if z = y then a else v[z] := by
  simp only [Fin.getElem_fin, Vector.getElem_set, Fin.ext_iff, eq_comm (a := y.val)]

section
variable {composite : RowNo → RowBits} {r r' : RowEngine} {y : RowNo}

/-- What is accounted for stays so where nothing stops waiting and services, mirror and composite of the row stay. -/
theorem RowEngine.Accounted.of_waiting (h : r.Accounted composite y)
    (hw : y ∈ r.urgent ∨ y ∈ r.bulk → y ∈ r'.urgent ∨ y ∈ r'.bulk) (hs : r'.sense = r.sense)
    (hm : r'.mirror = r.mirror) : r'.Accounted composite y := by
  obtain hu | hb | hrest := h
  · exact (hw (.inl hu)).imp id .inl
  · exact (hw (.inr hb)).imp id .inl
  · exact .inr (.inr (by rw [hs, hm]; exact hrest))

theorem RowEngine.Accounted.waits (h : y ∈ r.urgent ∨ y ∈ r.bulk) : r.Accounted composite y := h.imp id .inl

/-- A row that is marked waits, and the others are as they were (R72). -/
theorem RowEngine.Accounted.markAll {composite' : RowNo → RowBits} (h : r.Accounted composite y) (c : MarkClass)
    {ys : List RowNo} (hc : y ∉ ys → composite' y = composite y) : (r.markAll c ys).Accounted composite' y := by
  by_cases hy : y ∈ ys
  · exact .waits (RowEngine.mem_markAll.mpr (.inl hy))
  · obtain ⟨_, hsense, _, hmirror, _⟩ := r.markAll_frame c ys
    have h' : r.Accounted composite' y := by
      unfold RowEngine.Accounted at h ⊢
      rw [hc hy]
      exact h
    exact h'.of_waiting (fun hw => RowEngine.mem_markAll.mpr (.inr hw)) hsense hmirror

/-- Services rewritten in place keep rows and targets. -/
theorem RowEngine.Accounted.rewrite (h : r.Accounted composite y) {f : Service → Service}
    (hf : ∀ v, (f v).row = v.row ∧ (f v).target = v.target) (hu : r'.urgent = r.urgent) (hb : r'.bulk = r.bulk)
    (hs : r'.sense = r.sense.map f) (hm : r'.mirror = r.mirror) : r'.Accounted composite y := by
  unfold RowEngine.Accounted
  rw [hu, hb, hs, hm]
  obtain hw | hw | ⟨v, hv, hrow, htarget⟩ | ⟨hnone, hmirror⟩ := h
  · exact .inl hw
  · exact .inr (.inl hw)
  · exact .inr (.inr (.inl ⟨f v, List.mem_map_of_mem hv, (hf v).1.trans hrow, (hf v).2.trans htarget⟩))
  · refine .inr (.inr (.inr ⟨fun w hw => ?_, hmirror⟩))
    obtain ⟨v, hv, rfl⟩ := List.mem_map.mp hw
    rw [(hf v).1]
    exact hnone v hv

/-! ### Operations in RUNNING -/

theorem RowEngine.Ledger.aside (h : r.Ledger composite) (hr : r' = { r with
    run := r'.run, retry := r'.retry, slotOp := r'.slotOp, prevOp := r'.prevOp, sensed := r'.sensed
    attempting := r'.attempting }) : r'.Ledger composite := by
  rw [hr]
  exact ⟨h.once, h.known, h.rows⟩

theorem RowEngine.Ledger.rewrite (h : r.Ledger composite) {f : Service → Service}
    (hf : ∀ v, (f v).row = v.row ∧ (f v).target = v.target) :
    RowEngine.Ledger composite { r with sense := r.sense.map f } :=
  ⟨RowEngine.keptByParts_rowsOnce.rewrite r (fun v => (hf v).1) h.once, h.known, fun y => (h.rows y).rewrite hf rfl rfl rfl rfl⟩

theorem RowEngine.Ledger.updateService (h : r.Ledger composite) (y : RowNo) {f : Service → Service}
    (hf : ∀ v, (f v).row = v.row ∧ (f v).target = v.target) : (r.updateService y f).Ledger composite := by
  refine h.rewrite fun v => ?_
  split
  · exact hf v
  · exact ⟨rfl, rfl⟩

theorem onSet_offSet_eq_zero {a b : RowBits} (hlit : onSet a b = 0) (hdark : offSet a b = 0) : a = b := by
  unfold onSet at hlit
  unfold offSet at hdark
  ext i hi
  have h1 := congrArg (fun x : RowBits => x[i]) hlit
  have h2 := congrArg (fun x : RowBits => x[i]) hdark
  simp at h1 h2
  cases ha : a[i] <;> cases hb : b[i] <;> simp_all

theorem RowEngine.sense_arbitrate (limit : Nat) (r : RowEngine) : (r.arbitrate limit).1.sense = r.sense := by
  cases h : (r.arbitrate limit).2 with
  | none => rw [RowEngine.arbitrate_none h]
  | some y => obtain ⟨_, ⟨_, heq⟩ | ⟨_, heq⟩⟩ := RowEngine.arbitrate_some h <;> rw [heq]

/-- Start attempts add services at the end of the sense queue. -/
theorem RowEngine.sense_attempt (limit : Nat) (composite : RowNo → RowBits) (r : RowEngine) :
    r.sense <+: (r.attempt limit composite).sense := by
  cases hmay : r.mayStart with
  | false => rw [RowEngine.attempt_of_not hmay]
  | true =>
    rw [← r.sense_arbitrate limit]
    obtain ⟨_, heq⟩ | ⟨y, _, ⟨_, _, heq⟩ | ⟨_, heq⟩⟩ :=
      RowEngine.attempt_cases (limit := limit) (composite := composite) hmay <;> rw [heq]
    show (r.arbitrate limit).1.sense <+: ((r.arbitrate limit).1.startService y (composite y) _ _).sense
    unfold RowEngine.startService
    dsimp only
    split
    · exact List.prefix_append _ _
    · split <;> exact List.prefix_append _ _

theorem RowEngine.sense_attempts (limit : Nat) (composite : RowNo → RowBits) (fuel : Nat) (r : RowEngine) :
    r.sense <+: (r.attempts limit composite fuel).sense := by
  induction fuel generalizing r with
  | zero => exact List.prefix_rfl
  | succ fuel ih =>
    unfold RowEngine.attempts
    split
    · exact (r.sense_attempt limit composite).trans (ih _)
    · exact List.prefix_rfl

theorem State.sense_endSlot (s : State) : s.row.sense <+: s.endSlot.row.sense := by
  unfold State.endSlot
  dsimp only
  split
  · exact RowEngine.sense_attempts _ _ _ _
  · exact List.prefix_rfl

/-- The row that the arbiter takes stops waiting; no other does. -/
theorem RowEngine.Ledger.arbitrate (h : r.Ledger composite) {limit : Nat} {y : RowNo} (hy : (r.arbitrate limit).2 = some y) :
    (r.arbitrate limit).1.inFlight y = false ∧ (r.arbitrate limit).1.RowsOnce ∧
      (r.arbitrate limit).1.mirrorKnown = true ∧ ∀ z, z ≠ y → (r.arbitrate limit).1.Accounted composite z := by
  have honce := RowEngine.keptByParts_rowsOnce.arbitrate limit r h.once
  obtain ⟨hfree, ⟨_, heq⟩ | ⟨_, heq⟩⟩ := RowEngine.arbitrate_some hy
  all_goals
    rw [heq] at honce ⊢
    refine ⟨hfree, honce, h.known, fun z hz => (h.rows z).of_waiting ?_ rfl rfl⟩
  · exact Or.imp (List.mem_erase_of_ne hz).mpr id
  · exact Or.imp id (List.mem_erase_of_ne hz).mpr

/-- A service that enters the sense queue accounts for its row (R81). -/
theorem RowEngine.ledger_enter {v : Service} (hfree : r.inFlight v.row = false) (honce : r.RowsOnce)
    (hknown : r.mirrorKnown = true) (htarget : v.target = composite v.row)
    (hrows : ∀ z, z ≠ v.row → r.Accounted composite z) : RowEngine.Ledger composite { r with sense := r.sense ++ [v] } := by
  refine ⟨RowEngine.keptByParts_rowsOnce.enter hfree honce, hknown, fun z => ?_⟩
  by_cases hz : z = v.row
  · exact .inr (.inr (.inl ⟨v, List.mem_append_right _ (.head _), hz.symm, hz ▸ htarget⟩))
  · obtain hw | hw | ⟨w, hw, hrow⟩ | ⟨hnone, hmirror⟩ := hrows z hz
    · exact .inl hw
    · exact .inr (.inl hw)
    · exact .inr (.inr (.inl ⟨w, List.mem_append_left _ hw, hrow⟩))
    · refine .inr (.inr (.inr ⟨fun w hw => ?_, hmirror⟩))
      obtain hw | hw := List.mem_append.mp hw
      · exact hnone w hw
      · cases List.mem_singleton.mp hw
        exact Ne.symm hz

theorem RowEngine.ledger_startService {y : RowNo} (hfree : r.inFlight y = false) (honce : r.RowsOnce)
    (hknown : r.mirrorKnown = true) (hrows : ∀ z, z ≠ y → r.Accounted composite z) (lit dark : RowBits) :
    (r.startService y (composite y) lit dark).Ledger composite := by
  have henter (p : Phase) (op : AddressOp) : RowEngine.Ledger composite
      (RowEngine.issue op { r with sense := r.sense ++ [⟨y, composite y, litCount (composite y), 0, p⟩] }) :=
    (RowEngine.ledger_enter (v := ⟨y, composite y, litCount (composite y), 0, p⟩) hfree honce hknown rfl hrows).aside rfl
  unfold RowEngine.startService
  dsimp only
  split
  · exact henter _ _
  · split
    · exact henter _ _
    · exact henter _ _

/-- A start attempt: the row taken shows its composite already, or its service starts (R77, R80). -/
theorem RowEngine.Ledger.attempt (h : r.Ledger composite) (limit : Nat) : (r.attempt limit composite).Ledger composite := by
  cases hmay : r.mayStart with
  | false =>
    rw [RowEngine.attempt_of_not hmay]
    exact h.aside rfl
  | true =>
    obtain ⟨hnone, heq⟩ | ⟨y, hy, hrest⟩ := RowEngine.attempt_cases (limit := limit) (composite := composite) hmay
    · rw [heq, RowEngine.arbitrate_none hnone]
      exact h.aside rfl
    · obtain ⟨hfree, honce, hknown, hrows⟩ := h.arbitrate hy
      obtain ⟨hlit, hdark, heq⟩ | ⟨_, heq⟩ := hrest <;> rw [heq]
      · have hshown := onSet_offSet_eq_zero hlit hdark
        refine RowEngine.Ledger.aside (r := (r.arbitrate limit).1) ⟨honce, hknown, fun z => ?_⟩ rfl
        by_cases hz : z = y
        · subst hz
          refine .inr (.inr (.inr ⟨RowEngine.inFlight_false_iff.mp hfree, ?_⟩))
          rw [RowEngine.mirror_of_known hknown, hshown]
        · exact hrows z hz
      · exact (RowEngine.ledger_startService hfree honce hknown hrows _ _).aside rfl

theorem RowEngine.Ledger.attempts (h : r.Ledger composite) (limit fuel : Nat) :
    (r.attempts limit composite fuel).Ledger composite := by
  induction fuel generalizing r with
  | zero => exact h
  | succ fuel ih =>
    unfold RowEngine.attempts
    split
    · exact ih (h.attempt limit)
    · exact h

theorem Service.endOfCycle_frame (settle : Nat) (v : Service) :
    (v.endOfCycle settle).row = v.row ∧ (v.endOfCycle settle).target = v.target := by
  unfold Service.endOfCycle
  split <;> exact ⟨rfl, rfl⟩

theorem RowEngine.Ledger.beginCycle (h : r.Ledger composite) (settle : Nat) : (r.beginCycle settle).Ledger composite :=
  (h.rewrite (Service.endOfCycle_frame settle)).aside rfl

theorem RowEngine.Ledger.serveSlot (h : r.Ledger composite) (starts : Bool) (limit : Nat) :
    (r.serveSlot starts limit composite).Ledger composite := by
  have hsettle {q : RowEngine} (hq : q.Ledger composite) (y : RowNo) :
      (q.updateService y fun v => { v with phase := .settling none }).Ledger composite :=
    hq.updateService y fun _ => ⟨rfl, rfl⟩
  unfold RowEngine.serveSlot
  split
  · next op rest _ =>
    have hissue : (RowEngine.issue op { r with retry := rest }).Ledger composite := h.aside rfl
    unfold RowEngine.issueRetry
    dsimp only
    split
    · exact hissue
    · exact hsettle hissue _
  · split
    · exact (hsettle h _).aside rfl
    · split
      · exact h.attempt limit
      · exact h

/-- A service that ends leaves its row's mirror at its target, which is the row's composite unless the row waits (R84). -/
theorem RowEngine.Ledger.endService (h : r.Ledger composite) {v : Service} (hv : v ∈ r.sense) :
    (r.endService v).Ledger composite := by
  refine ⟨RowEngine.keptByParts_rowsOnce.endService v r h.once, RowEngine.mirrorKnown_iff.mpr fun y => ?_, fun y => ?_⟩
  · show ((r.mirror.set v.row (some v.target))[y]).isSome = true
    rw [getElem_set_row]
    split
    · rfl
    · exact RowEngine.mirrorKnown_iff.mp h.known y
  · have hleft {w : Service} : w ∈ (r.endService v).sense ↔ w ∈ r.sense ∧ w.row ≠ v.row := by
      simp [RowEngine.endService, List.mem_filter]
    have hmirror : (r.endService v).mirror[y] = if y = v.row then some v.target else r.mirror[y] := getElem_set_row ..
    obtain hw | hw | ⟨w, hw, hrow, htarget⟩ | ⟨hnone, hshown⟩ := h.rows y
    · exact .inl hw
    · exact .inr (.inl hw)
    · by_cases hy : y = v.row
      · have hwv : w = v := List.inj_on_of_nodup_map h.once.2 hw hv (hrow.trans hy)
        subst hwv
        refine .inr (.inr (.inr ⟨fun u hu => hy ▸ (hleft.mp hu).2, ?_⟩))
        rw [hmirror, if_pos hy, htarget]
      · exact .inr (.inr (.inl ⟨w, hleft.mpr ⟨hw, fun hwv => hy (hrow.symm.trans hwv)⟩, hrow, htarget⟩))
    · have hy : y ≠ v.row := fun hy => hnone v hv hy.symm
      refine .inr (.inr (.inr ⟨fun u hu => hnone u (hleft.mp hu).1, ?_⟩))
      rw [hmirror, if_neg hy]
      exact hshown

theorem RowEngine.Ledger.refresh (h : r.Ledger composite) (v : Service) : (r.refresh v).Ledger composite :=
  (h.updateService v.row (f := fun w => { w with retries := w.retries + 1, phase := .refreshing }) fun _ => ⟨rfl, rfl⟩).aside rfl

theorem RowEngine.Ledger.offerFault (h : r.Ledger composite) (y : RowNo) : (r.offerFault y).1.Ledger composite := by
  unfold RowEngine.offerFault
  split
  · exact h
  · split
    · exact ⟨h.once, h.known, h.rows⟩
    · exact h

/-- The services that end together are of rows that differ. -/
theorem RowEngine.Ledger.endServices {vs : List Service} (h : r.Ledger composite) (hvs : ∀ v ∈ vs, v ∈ r.sense)
    (hd : (vs.map Service.row).Nodup) : (vs.foldl (fun r v => r.endService v) r).Ledger composite := by
  induction vs generalizing r with
  | nil => exact h
  | cons v vs ih =>
    rw [List.map_cons, List.nodup_cons] at hd
    refine ih (h.endService (hvs v (.head _))) (fun w hw => ?_) hd.2
    refine List.mem_filter.mpr ⟨hvs w (.tail _ hw), ?_⟩
    rw [bne_iff_ne]
    exact fun hrow => hd.1 (hrow ▸ List.mem_map_of_mem hw)

theorem RowEngine.Ledger.beginDrain (h : r.Ledger composite) : r.beginDrain.Ledger composite := by
  refine RowEngine.Ledger.aside (h.endServices (vs := r.sense.filter fun v => v.phase == .refreshing) ?_ ?_) rfl
  · exact fun v hv => (List.mem_filter.mp hv).1
  · exact h.once.2.sublist (List.filter_sublist.map _)

end

end Sys2Proof.Machine
end

