-- ==== Sys2Proof/Proofs/Mirror.lean ====
section
/-! What the panel mirror is worth in each panel state, under every step. -/

namespace Sys2Proof.Machine

/-! ### When a row's composite stays -/

theorem Render.composite_congr {r r' : Render} {y : RowNo} (hw : r'.windows = r.windows) (hi : r'.image[y] = r.image[y])
    (ht : r'.text[y] = r.text[y]) (hm : r'.mark[y] = r.mark[y]) : r'.composite y = r.composite y := by
  unfold Render.composite
  rw [hw, hi, ht, hm]

theorem Render.composite_setPlaneRow {p : PlaneId} {y z : RowNo} {bits : RowBits} {r : Render} (h : z ≠ y) :
    (r.setPlaneRow p y bits).composite z = r.composite z := by
  cases p
  all_goals refine Render.composite_congr rfl ?_ ?_ ?_
  all_goals first
    | rfl
    | exact (getElem_set_row ..).trans (if_neg h)

/-- In a fold over a list an element may be exchanged for another, where neither does anything. -/
theorem foldl_set_of_idle {α β : Type} {f : β → α → β} {l : List α} {n : Nat} {a : α} (ha : ∀ b, f b a = b)
    (hn : ∀ x, l[n]? = some x → ∀ b, f b x = b) (b : β) : (l.set n a).foldl f b = l.foldl f b := by
  induction l generalizing n b with
  | nil => rfl
  | cons x l ih =>
    cases n with
    | zero => rw [List.set_cons_zero, List.foldl_cons, List.foldl_cons, ha, hn x rfl]
    | succ n => rw [List.set_cons_succ, List.foldl_cons, List.foldl_cons, ih fun x hx => hn x hx]

/-- A window that does not cross a row leaves its composite (R8). -/
theorem Render.composite_setWindow {k : Fin 8} {w : Window} {y : RowNo} {r : Render}
    (hold : r.windows[k].rect.spansRow y.val = false) (hnew : w.rect.spansRow y.val = false) :
    ({ r with windows := r.windows.set k w } : Render).composite y = r.composite y := by
  have hidle {u : Window} (hu : u.rect.spansRow y.val = false) (acc : RowBits) :
      (acc &&& ~~~(u.covered y.val)) ||| (u.shows r.image[y] r.text[y] r.mark[y] &&& u.covered y.val) = acc := by
    have hcovered : u.covered y.val = 0#512 := by simp [Window.covered, hu]
    rw [hcovered, BitVec.not_zero, BitVec.and_allOnes, BitVec.and_zero, BitVec.or_zero]
  unfold Render.composite
  dsimp only
  rw [Vector.toList_set]
  refine foldl_set_of_idle (f := fun (acc : RowBits) (u : Window) => (acc &&& ~~~(u.covered y.val)) |||
    (u.shows r.image[y] r.text[y] r.mark[y] &&& u.covered y.val)) (hidle hnew) (fun x hx => ?_) 0
  have hx' : r.windows[k] = x := by simpa using hx
  exact hidle (hx' ▸ hold)

/-! ### The mirror's worth, state by state -/

/-- Rows wait once, and the mirror is worth what the panel state gives. -/
structure State.MirrorKept (s : State) : Prop where
  once : s.row.RowsOnce
  sound : s.MirrorSound

/-- The row engine serves the panel: in RUNNING, or in BLANKING before its sweep. -/
def State.Serves (s : State) : Prop := s.seq.sweeping = false ∧ (s.seq.state = .running ∨ s.seq.state = .blanking)

section
variable {s t : State}

theorem State.MirrorKept.ledger (h : s.MirrorKept) (hs : s.Serves) : s.row.Ledger s.ren.composite := by
  obtain ⟨honce, hsound⟩ := h
  obtain ⟨hsweep, hst | hst⟩ := hs
  all_goals
    unfold State.MirrorSound at hsound
    rw [hst] at hsound
  · exact ⟨honce, hsound.2.1, hsound.2.2⟩
  · exact ⟨honce, hsound.1, hsound.2.1 hsweep⟩

theorem State.mirrorKept_of_ledger (h : s.row.Ledger s.ren.composite) (hs : s.Serves) : s.MirrorKept := by
  refine ⟨h.once, ?_⟩
  obtain ⟨hsweep, hst | hst⟩ := hs
  all_goals
    unfold State.MirrorSound
    rw [hst]
  · exact ⟨hsweep, h.known, h.rows⟩
  · exact ⟨h.known, fun _ => h.rows, fun hsweeping => absurd (hsweep.symm.trans hsweeping) Bool.false_ne_true⟩

theorem State.MirrorKept.serves_of_running (h : s.MirrorKept) (hst : s.seq.state = .running) : s.Serves := by
  have hsound := h.sound
  unfold State.MirrorSound at hsound
  rw [hst] at hsound
  exact ⟨hsound.1, .inl hst⟩

/-- A row engine that does not serve the panel has no service in flight and no operation pending. -/
theorem State.MirrorKept.empty (h : s.MirrorKept) (hs : ¬ s.Serves) : s.row.Empty := by
  have hsound := h.sound
  unfold State.MirrorSound at hsound
  cases hst : s.seq.state with
  | off => exact (hst ▸ hsound).1
  | starting => exact (hst ▸ hsound).1
  | running => exact absurd (h.serves_of_running hst) hs
  | blanking =>
    rw [hst] at hsound
    cases hsweep : s.seq.sweeping with
    | false => exact absurd ⟨hsweep, .inr hst⟩ hs
    | true => exact (hsound.2.2 hsweep).1
  | blanked => exact (hst ▸ hsound).1

/-- A sweep goes on in STARTING and BLANKING alone. -/
theorem State.MirrorKept.sweeping (h : s.MirrorKept) (hs : s.seq.sweeping = true) :
    s.seq.state = .starting ∨ s.seq.state = .blanking := by
  have hsound := h.sound
  unfold State.MirrorSound at hsound
  cases hst : s.seq.state with
  | starting => exact .inl rfl
  | blanking => exact .inr rfl
  | off =>
    rw [hst] at hsound
    exact absurd (hsound.2.symm.trans hs) Bool.false_ne_true
  | running =>
    rw [hst] at hsound
    exact absurd (hsound.1.symm.trans hs) Bool.false_ne_true
  | blanked =>
    rw [hst] at hsound
    exact absurd (hsound.2.1.symm.trans hs) Bool.false_ne_true

/-- The panel state and the sweep are as they were. -/
structure State.SameSweep (s t : State) : Prop where
  state : t.seq.state = s.seq.state
  sweeping : t.seq.sweeping = s.seq.sweeping
  sweepPos : t.seq.sweepPos = s.seq.sweepPos

theorem State.SameSweep.of_eq (h : t.seq = s.seq) : s.SameSweep t := by
  constructor <;> rw [h]

theorem State.SameSweep.serves (h : s.SameSweep t) (hs : s.Serves) : t.Serves := by
  unfold State.Serves
  rw [h.state, h.sweeping]
  exact hs

/-- The mirror stays worth what it was where services and mirror stay, and what was accounted for is so still. -/
theorem State.MirrorKept.of_accounted (h : s.MirrorKept) (hq : s.SameSweep t) (honce : t.row.RowsOnce)
    (hsense : t.row.sense = s.row.sense) (hretry : t.row.retry = s.row.retry) (hmirror : t.row.mirror = s.row.mirror)
    (hrows : ∀ y, s.RowAccounted y → t.RowAccounted y) : t.MirrorKept := by
  refine ⟨honce, ?_⟩
  have hsound := h.sound
  have hempty : s.row.Empty → t.row.Empty := fun he => ⟨hsense.trans he.1, hretry.trans he.2⟩
  have hknown : t.row.mirrorKnown = s.row.mirrorKnown := by simp only [RowEngine.mirrorKnown, hmirror]
  unfold State.MirrorSound at hsound ⊢
  rw [hq.state, hq.sweeping, hq.sweepPos, hmirror, hknown]
  cases hst : s.seq.state <;> rw [hst] at hsound
  · exact ⟨hempty hsound.1, hsound.2⟩
  · exact ⟨hempty hsound.1, hsound.2⟩
  · exact ⟨hsound.1, hsound.2.1, fun y => hrows y (hsound.2.2 y)⟩
  · refine ⟨hsound.1, fun hs y => hrows y (hsound.2.1 hs y), fun hs => ?_⟩
    obtain ⟨he, hswept⟩ := hsound.2.2 hs
    refine ⟨hempty he, fun y => ?_⟩
    have hy := hswept y
    split
    · next hlt =>
      rw [if_pos hlt] at hy
      exact hy
    · next hge =>
      rw [if_neg hge] at hy
      exact hrows y hy
  · exact ⟨hempty hsound.1, hsound.2⟩

/-- Nothing that the mirror is worth depends on has changed. -/
theorem State.MirrorKept.same (h : s.MirrorKept) (hq : s.SameSweep t) (hr : t.row = s.row)
    (hc : ∀ y, t.ren.composite y = s.ren.composite y) : t.MirrorKept := by
  refine h.of_accounted hq (hr ▸ h.once) (by rw [hr]) (by rw [hr]) (by rw [hr]) fun y hy => ?_
  unfold State.RowAccounted at hy ⊢
  rw [hr, hc y]
  exact hy

/-- The rows whose composite may have changed have been marked. -/
theorem State.MirrorKept.marked (h : s.MirrorKept) (hq : s.SameSweep t) {c : MarkClass} {ys : List RowNo}
    (hr : t.row = s.row.markAll c ys) (hc : ∀ y, y ∉ ys → t.ren.composite y = s.ren.composite y) : t.MirrorKept := by
  obtain ⟨_, hsense, hretry, hmirror, _⟩ := s.row.markAll_frame c ys
  refine h.of_accounted hq ?_ (by rw [hr, hsense]) (by rw [hr, hretry]) (by rw [hr, hmirror]) fun y hy => ?_
  · rw [hr]
    exact RowEngine.keptByParts_rowsOnce.markAll c ys s.row h.once
  · have hmarked : (s.row.markAll c ys).Accounted t.ren.composite y :=
      RowEngine.Accounted.markAll (composite := s.ren.composite) hy c (hc y)
    unfold State.RowAccounted
    rw [hr]
    exact hmarked

theorem State.MirrorKept.imagesOnly (h : s.MirrorKept) (hst : s.ImagesOnly t) : t.MirrorKept := by
  obtain ⟨_, _, _, _, _, rfl⟩ := hst
  exact h.same (.of_eq rfl) rfl fun _ => rfl

/-- A row write is marked at once where it changes its row (R3, R14). -/
theorem State.MirrorKept.performStage (h : s.MirrorKept) (g : Stage) : (s.performStage g).MirrorKept := by
  cases g with
  | contexts c => exact h.same (.of_eq rfl) rfl fun _ => rfl
  | textClipped => exact h.same (.of_eq rfl) rfl fun _ => rfl
  | write c w =>
    show (s.rowWrite c w).MirrorKept
    by_cases hw : w.op.apply (s.ren.planeRow w.plane w.row) = s.ren.planeRow w.plane w.row
    · rw [State.rowWrite_same hw]
      exact h
    · rw [State.rowWrite_change hw]
      refine h.marked (c := c) (ys := [w.row]) (.of_eq rfl) rfl fun y hy => ?_
      exact Render.composite_setPlaneRow (List.ne_of_not_mem_cons hy)

theorem State.MirrorKept.setWindow (h : s.MirrorKept) (k : Fin 8) (w : Window) : (s.setWindow k w).MirrorKept := by
  unfold State.setWindow
  split
  · exact h
  · refine h.marked (c := .bulk) (ys := windowRows s.ren.windows[k].rect w.rect) (.of_eq rfl) (by dsimp only) fun y hy => ?_
    have hspan : s.ren.windows[k].rect.spansRow y.val = false ∧ w.rect.spansRow y.val = false := by
      have hnot : ¬ ((s.ren.windows[k].rect.spansRow y.val || w.rect.spansRow y.val) = true) :=
        fun hspan => hy (List.mem_filter.mpr ⟨List.mem_finRange y, hspan⟩)
      rwa [Bool.not_eq_true, Bool.or_eq_false_iff] at hnot
    exact Render.composite_setWindow hspan.1 hspan.2

theorem State.MirrorKept.eraseAll (h : s.MirrorKept) (item : WorkItem) : (eraseAllWork item s).MirrorKept := by
  unfold eraseAllWork
  exact h.marked (c := .bulk) (ys := allRows) (.of_eq rfl) (by dsimp only) fun y hy => absurd (List.mem_finRange y) hy

/-! ### The row engine's own operations -/

/-- The notes of a cycle and the urgent-run count changed. -/
theorem State.MirrorKept.rowAside (h : s.MirrorKept) (hq : s.SameSweep t) (hr : t.row = { s.row with
    run := t.row.run, slotOp := t.row.slotOp, prevOp := t.row.prevOp, sensed := t.row.sensed
    attempting := t.row.attempting }) (hc : t.ren = s.ren) : t.MirrorKept := by
  refine h.of_accounted hq ?_ (by rw [hr]) (by rw [hr]) (by rw [hr]) fun y hy => ?_
  · rw [hr]
    exact h.once
  · unfold State.RowAccounted at hy ⊢
    rw [hr, hc]
    exact hy

theorem State.MirrorKept.nextAttempt (h : s.MirrorKept) : s.nextAttempt.MirrorKept := by
  unfold State.nextAttempt
  split
  · split
    · next hrun =>
      have hserves := h.serves_of_running hrun
      exact State.mirrorKept_of_ledger ((h.ledger hserves).attempt _) hserves
    · exact h.rowAside (.of_eq rfl) rfl rfl
  · exact h

theorem State.MirrorKept.endSlot (h : s.MirrorKept) : s.endSlot.MirrorKept := by
  unfold State.endSlot
  split
  · next hrun =>
    have hserves := h.serves_of_running hrun
    exact State.mirrorKept_of_ledger ((h.ledger hserves).attempts _ _) hserves
  · exact h.rowAside (.of_eq rfl) rfl rfl

/-- A cycle begins: the settle waits are counted (R83). -/
theorem State.MirrorKept.beginCycle (h : s.MirrorKept) (hq : s.SameSweep t)
    (hr : t.row = s.row.beginCycle s.seq.panel.settle) (hc : t.ren = s.ren) : t.MirrorKept := by
  by_cases hs : s.Serves
  · refine State.mirrorKept_of_ledger ?_ (hq.serves hs)
    rw [hr, hc]
    exact (h.ledger hs).beginCycle _
  · obtain ⟨hsense, _⟩ := h.empty hs
    refine h.rowAside hq ?_ hc
    rw [hr]
    unfold RowEngine.beginCycle
    dsimp only
    rw [hsense, List.map_nil, ← hsense]

/-- One row swept: it is all off (R94). -/
theorem State.MirrorKept.sweepRow (h : s.MirrorKept) (hsweep : s.seq.sweeping = true) (hpos : s.seq.sweepPos < 512)
    (hstate : t.seq.state = s.seq.state) (hsweeping : t.seq.sweeping = true) (hnext : t.seq.sweepPos = s.seq.sweepPos + 1)
    (hr : t.row = s.row.sweepRow ⟨s.seq.sweepPos, hpos⟩) (hc : t.ren = s.ren) : t.MirrorKept := by
  have hmirror (y : RowNo) : t.row.mirror[y] = if y = ⟨s.seq.sweepPos, hpos⟩ then some 0 else s.row.mirror[y] := by
    rw [hr]
    exact getElem_set_row ..
  have hlow {y : RowNo} (hy : y.val < s.seq.sweepPos + 1) : y = ⟨s.seq.sweepPos, hpos⟩ ∨ y.val < s.seq.sweepPos := by
    rw [Fin.ext_iff]
    show y.val = s.seq.sweepPos ∨ _
    omega
  have hempty : s.row.Empty → t.row.Empty := fun he => ⟨by rw [hr]; exact he.1, by rw [hr]; exact he.2⟩
  refine ⟨by rw [hr]; exact h.once, ?_⟩
  have hsound := h.sound
  unfold State.MirrorSound at hsound ⊢
  rw [hstate, hsweeping, hnext]
  obtain hst | hst := h.sweeping hsweep <;> rw [hst] at hsound ⊢
  · obtain ⟨he, _, hswept⟩ := hsound
    refine ⟨hempty he, rfl, fun y hy => ?_⟩
    rw [hmirror]
    split
    · rfl
    · next hne => exact hswept y ((hlow hy).resolve_left hne)
  · obtain ⟨hknown, _, hrest⟩ := hsound
    obtain ⟨he, hswept⟩ := hrest hsweep
    refine ⟨RowEngine.mirrorKnown_iff.mpr fun y => ?_, nofun, fun _ => ⟨hempty he, fun y => ?_⟩⟩
    · rw [hmirror]
      split
      · rfl
      · exact RowEngine.mirrorKnown_iff.mp hknown y
    · have hy := hswept y
      split
      · next hlt =>
        rw [hmirror]
        split
        · rfl
        · next hne =>
          rw [if_pos ((hlow hlt).resolve_left hne)] at hy
          exact hy
      · next hge =>
        rw [if_neg (by omega)] at hy
        have hne : y ≠ ⟨s.seq.sweepPos, hpos⟩ := by
          rintro rfl
          exact hge (Nat.lt_succ_self _)
        unfold State.RowAccounted at hy ⊢
        rw [hmirror, if_neg hne, hr, hc]
        exact hy

theorem State.MirrorKept.addressSlot (h : s.MirrorKept) (hst : execAddressSlot s = .next t) : t.MirrorKept := by
  have hbegin (seq : Sequencer) (hq : s.SameSweep { s with seq := seq }) :
      State.MirrorKept { s with row := s.endSlot.row.beginCycle s.seq.panel.settle, seq := seq } :=
    h.endSlot.beginCycle ⟨hq.state, hq.sweeping, hq.sweepPos⟩ rfl rfl
  have hcycle : s.SameSweep { s with seq := { s.seq with cycle := some s.seq.panel.period } } := ⟨rfl, rfl, rfl⟩
  obtain ⟨_, heq⟩ | ⟨_, ⟨hsweep, hpos, heq⟩ | ⟨_, _, heq⟩ | ⟨hsweep, hstate, heq⟩ | ⟨_, _, heq⟩⟩ := s.execAddressSlot_cases
  all_goals cases heq.symm.trans hst
  · exact h
  · exact (hbegin _ hcycle).sweepRow hsweep hpos rfl hsweep rfl rfl rfl
  · exact hbegin _ hcycle
  · have hserves : State.Serves { s with
        row := s.endSlot.row.beginCycle s.seq.panel.settle, seq := { s.seq with cycle := some s.seq.panel.period } } :=
      ⟨hsweep, hstate⟩
    exact State.mirrorKept_of_ledger (((hbegin _ hcycle).ledger hserves).serveSlot _ _) hserves
  · exact hbegin _ hcycle

/-- A service that ends after the slot's attempts; only a row engine that serves the panel has one due (R83 to R89). -/
theorem State.MirrorKept.senseCompletion (h : s.MirrorKept) {count : Fin 513} (hst : execSenseCompletion count s = .next t) :
    t.MirrorKept := by
  cases hst
  dsimp only
  split
  · exact h
  · split
    · exact h
    · next v hdue =>
      have hv := List.mem_of_find?_eq_some hdue
      have hserves : s.Serves := by
        by_contra hnot
        rw [(h.empty hnot).1] at hv
        cases hv
      have hledger : RowEngine.Ledger s.ren.composite { s.endSlot.row with sensed := true } :=
        (h.endSlot.ledger (s := s.endSlot) hserves).aside rfl
      have hv' : v ∈ ({ s.endSlot.row with sensed := true } : RowEngine).sense := by
        show v ∈ s.endSlot.row.sense
        exact s.sense_endSlot.subset hv
      split
      · split
        · exact State.mirrorKept_of_ledger (hledger.endService hv') hserves
        · split
          · exact State.mirrorKept_of_ledger (hledger.refresh v) hserves
          · unfold State.rowFault
            refine State.mirrorKept_of_ledger ?_ ?_
            · simp only [State.latchIf_row, State.latch_row, State.latchIf_ren, State.latch_ren]
              exact (hledger.endService hv').offerFault _
            · unfold State.Serves
              simp only [State.latchIf_seq, State.latch_seq]
              exact hserves
      all_goals exact State.mirrorKept_of_ledger (hledger.endService hv') hserves

end

end Sys2Proof.Machine
end

