-- ==== Sys2Proof/Proofs/MirrorStep.lean ====
section
/-! The panel's transitions, and every step, keep what the mirror is worth. -/

namespace Sys2Proof.Machine

section
variable {s t : State}

/-- A row with no lit cell that is dark, or a lit row, is accounted for once the lit rows are marked (R95, R100, R101). -/
theorem RowEngine.accounted_markLit {r : RowEngine} {ren : Render} {y : RowNo}
    (h : r.Accounted ren.composite y ∨ (r.sense = [] ∧ r.mirror[y] = some 0)) :
    (r.markAll .bulk ren.litRows).Accounted ren.composite y := by
  obtain h | ⟨hsense, hdark⟩ := h
  · exact h.markAll .bulk fun _ => rfl
  · by_cases hlit : ren.composite y = 0
    · refine RowEngine.Accounted.markAll (composite := ren.composite) ?_ .bulk fun _ => rfl
      refine .inr (.inr (.inr ⟨fun v hv => ?_, hlit ▸ hdark⟩))
      rw [hsense] at hv
      cases hv
    · refine .waits (RowEngine.mem_markAll.mpr (.inl (List.mem_filter.mpr ⟨List.mem_finRange y, ?_⟩)))
      rw [bne_iff_ne]
      exact hlit

theorem State.row_markLit (s : State) : s.markLit.row = s.row.markAll .bulk s.ren.litRows := by
  unfold State.markLit
  dsimp only

/-- The panel enters RUNNING with the lit rows marked, where every other row is accounted for or dark. -/
theorem State.mirrorKept_running {q : Sequencer} (honce : s.row.RowsOnce) (hknown : s.row.mirrorKnown = true)
    (hrows : ∀ y, s.row.Accounted s.ren.composite y ∨ (s.row.sense = [] ∧ s.row.mirror[y] = some 0)) :
    State.MirrorKept { s.markLit with seq := q.enterRunning } := by
  obtain ⟨_, _, _, hmirror, _⟩ := s.row.markAll_frame .bulk s.ren.litRows
  have hledger : s.markLit.row.Ledger s.markLit.ren.composite := by
    rw [State.markLit_ren, State.row_markLit]
    refine ⟨RowEngine.keptByParts_rowsOnce.markAll _ _ s.row honce, ?_, fun y => RowEngine.accounted_markLit (hrows y)⟩
    simpa only [RowEngine.mirrorKnown, hmirror] using hknown
  generalize s.markLit = u at hledger
  exact State.mirrorKept_of_ledger hledger ⟨rfl, .inl rfl⟩

theorem RowEngine.mirrorKnown_of_dark {r : RowEngine} (h : ∀ y : RowNo, r.mirror[y] = some 0) : r.mirrorKnown = true :=
  RowEngine.mirrorKnown_iff.mpr fun y => by rw [h y]; rfl

theorem State.MirrorKept.blank (h : s.MirrorKept) : s.blank.MirrorKept := by
  unfold State.blank
  split
  · next hrun => exact State.mirrorKept_of_ledger (h.ledger (h.serves_of_running hrun)).beginDrain ⟨rfl, .inr rfl⟩
  all_goals exact h

theorem State.MirrorKept.unblank (h : s.MirrorKept) : s.unblank.MirrorKept := by
  have hsound := h.sound
  unfold State.MirrorSound at hsound
  unfold State.unblank
  split
  · next hst =>
    rw [hst] at hsound
    obtain ⟨hempty, _, hdark⟩ := hsound
    exact State.mirrorKept_running (s := { s with row := { s.row with urgent := [], bulk := [] } })
      ⟨List.nodup_nil, h.once.2⟩ (RowEngine.mirrorKnown_of_dark hdark) fun y => .inr ⟨hempty.1, hdark y⟩
  · next hst =>
    rw [hst] at hsound
    obtain ⟨hknown, hbefore, hduring⟩ := hsound
    refine State.mirrorKept_running (s := s) h.once hknown fun y => ?_
    cases hsweep : s.seq.sweeping with
    | false => exact .inl (hbefore hsweep y)
    | true =>
      obtain ⟨hempty, hswept⟩ := hduring hsweep
      have hy := hswept y
      split at hy
      · exact .inr ⟨hempty.1, hy⟩
      · exact .inl hy
  all_goals exact h

theorem RowEngine.drained_iff {r : RowEngine} : r.drained = true ↔ r.Empty := by
  simp [RowEngine.drained, RowEngine.Empty]

theorem State.MirrorKept.drainComplete (h : s.MirrorKept) (hst : execDrainComplete s = .next t) : t.MirrorKept := by
  cases hst
  dsimp only
  split
  · next hblanking =>
    split
    · next hdrained =>
      rw [Bool.and_eq_true, Bool.not_eq_true'] at hdrained
      obtain ⟨hknown, hbefore, _⟩ : s.row.mirrorKnown = true ∧ (s.seq.sweeping = false → ∀ y, s.RowAccounted y) ∧ _ := by
        have hsound := h.sound
        unfold State.MirrorSound at hsound
        rw [hblanking] at hsound
        exact hsound
      refine ⟨h.once, ?_⟩
      unfold State.MirrorSound
      simp only [hblanking]
      refine ⟨hknown, nofun, fun _ => ⟨RowEngine.drained_iff.mp hdrained.1, fun y => ?_⟩⟩
      rw [if_neg (Nat.not_lt_zero _)]
      exact hbefore hdrained.2 y
    · exact h
  all_goals exact h

theorem State.MirrorKept.startingSweepComplete (h : s.MirrorKept) (hst : execStartingSweepComplete s = .next t) :
    t.MirrorKept := by
  cases hst
  dsimp only
  split
  · next hstarting =>
    split
    · next hpos =>
      have hsound := h.sound
      unfold State.MirrorSound at hsound
      rw [hstarting] at hsound
      obtain ⟨hempty, _, hswept⟩ := hsound
      have hdark (y : RowNo) : s.row.mirror[y] = some 0 := hswept y (by rw [hpos]; exact y.isLt)
      exact State.mirrorKept_running (s := s) h.once (RowEngine.mirrorKnown_of_dark hdark)
        fun y => .inr ⟨hempty.1, hdark y⟩
    · exact h
  all_goals exact h

theorem State.MirrorKept.blankingSweepComplete (h : s.MirrorKept) (hst : execBlankingSweepComplete s = .next t) :
    t.MirrorKept := by
  cases hst
  dsimp only
  split
  · next hblanking =>
    split
    · next hswept =>
      rw [Bool.and_eq_true, decide_eq_true_eq] at hswept
      have hsound := h.sound
      unfold State.MirrorSound at hsound
      rw [hblanking] at hsound
      obtain ⟨hempty, hdark⟩ := hsound.2.2 hswept.1
      refine ⟨h.once, hempty, rfl, fun y => ?_⟩
      have hy := hdark y
      rw [if_pos (by rw [hswept.2]; exact y.isLt)] at hy
      exact hy
    · exact h
  all_goals exact h

/-- A row engine at its reset values, with the panel OFF or at the start of its STARTING sweep (R70, R96, R97, R105). -/
theorem State.mirrorKept_of_abandoned (honce : s.row.RowsOnce) (hempty : s.row.Empty)
    (hseq : (s.seq.state = .off ∧ s.seq.sweeping = false) ∨
      (s.seq.state = .starting ∧ s.seq.sweeping = true ∧ s.seq.sweepPos = 0)) : s.MirrorKept := by
  refine ⟨honce, ?_⟩
  unfold State.MirrorSound
  obtain ⟨hstate, hsweep⟩ | ⟨hstate, hsweep, hpos⟩ := hseq <;> rw [hstate]
  · exact ⟨hempty, hsweep⟩
  · exact ⟨hempty, hsweep, fun y hy => absurd (hpos ▸ hy) (Nat.not_lt_zero _)⟩

theorem State.MirrorKept.powerGoodRise (h : s.MirrorKept) (hst : execPowerGoodRise s = .next t) : t.MirrorKept := by
  cases hst
  dsimp only
  split
  · exact h
  · split
    · next hoff =>
      have hnot : ¬ s.Serves := by
        rintro ⟨_, hrun | hrun⟩
        · exact nomatch (show s.seq.state = .off from hoff).symm.trans hrun
        · exact nomatch (show s.seq.state = .off from hoff).symm.trans hrun
      exact State.mirrorKept_of_abandoned h.once (h.empty hnot) (.inr ⟨rfl, rfl, rfl⟩)
    all_goals exact h.same ⟨rfl, rfl, rfl⟩ rfl fun _ => rfl

theorem State.MirrorKept.powerGoodFall (h : s.MirrorKept) (hst : execPowerGoodFall s = .next t) : t.MirrorKept := by
  cases hst
  dsimp only
  split
  · exact State.mirrorKept_of_abandoned ⟨List.nodup_nil, List.nodup_nil⟩ ⟨rfl, rfl⟩ (.inl ⟨rfl, rfl⟩)
  · exact h

theorem State.mirrorKept_terminalReset (s : State) : s.terminalReset.MirrorKept := by
  unfold State.terminalReset
  refine State.mirrorKept_of_abandoned ?_ ?_ ?_
  · rw [State.latchIf_row]
    exact RowEngine.rowsOnce_reset
  · rw [State.latchIf_row]
    exact ⟨rfl, rfl⟩
  · rw [State.latchIf_seq]
    unfold Sequencer.terminalReset
    dsimp only
    split
    · next hoff => exact .inl ⟨hoff, rfl⟩
    all_goals exact .inr ⟨rfl, rfl, rfl⟩

theorem State.mirrorKept_powerOn (p : PowerOnPins) (s : State) : (s.powerOn p).MirrorKept := by
  unfold State.powerOn
  refine State.mirrorKept_of_abandoned ?_ ?_ ?_
  · rw [State.latchIf_row]
    exact RowEngine.rowsOnce_reset
  · rw [State.latchIf_row]
    exact ⟨rfl, rfl⟩
  · rw [State.latchIf_seq]
    cases hpower : p.powerGood with
    | false => exact .inl ⟨rfl, rfl⟩
    | true => exact .inr ⟨rfl, rfl, rfl⟩

theorem Render.composite_factoryHalftone (r : Render) (y : RowNo) : r.factoryHalftone.composite y = r.composite y := by
  rw [Render.factoryHalftone_eq]
  rfl

end

theorem State.keptBySteps_mirror : State.KeptBySteps (fun s t => s.MirrorKept → t.MirrorKept) where
  refl _ := id
  trans h h' := h' ∘ h
  aside {s t} h hs := by
    rw [h]
    exact hs.same ⟨rfl, rfl, rfl⟩ rfl fun _ => rfl
  cls {s t} h _ hs := by
    rw [h]
    exact hs.same ⟨rfl, rfl, rfl⟩ rfl fun _ => rfl
  touch {s t} h _ hs := by
    rw [h]
    exact hs.same ⟨rfl, rfl, rfl⟩ rfl fun _ => rfl
  storeCommit s hs := by
    obtain ⟨h, _⟩ | ⟨_, _, h⟩ := s.storeCommit_cases <;> rw [h] <;> exact hs.same ⟨rfl, rfl, rfl⟩ rfl fun _ => rfl
  panel {s t} h _ hs := by
    rw [h]
    exact hs.same ⟨rfl, rfl, rfl⟩ rfl fun _ => rfl
  blank _ hs := hs.blank
  unblank _ hs := hs.unblank
  queues {s t} h hs := by
    rw [h]
    exact hs.same ⟨rfl, rfl, rfl⟩ rfl fun _ => rfl
  cadenceAtSlot s k hs := hs.imagesOnly (s.imagesOnly_cadenceAtSlot k)
  factoryHalftone s _ hs := hs.same ⟨rfl, rfl, rfl⟩ rfl s.ren.composite_factoryHalftone
  holdNotice s _ _ hs := hs.same ⟨rfl, rfl, rfl⟩ rfl fun _ => rfl
  performNext {s g rest} _ hs :=
    State.MirrorKept.performStage (s := s.withStages rest) (hs.same ⟨rfl, rfl, rfl⟩ rfl fun _ => rfl) g
  pieceDone _ hs := hs.same ⟨rfl, rfl, rfl⟩ rfl fun _ => rfl
  popNotice _ _ hs := hs.same ⟨rfl, rfl, rfl⟩ rfl fun _ => rfl
  setBusy s hs := hs.same ⟨rfl, rfl, rfl⟩ rfl fun _ => rfl
  stageDrawing _ _ hs := hs.same ⟨rfl, rfl, rfl⟩ rfl fun _ => rfl
  openImage {s n p} _ _ hs := hs.imagesOnly (s.imagesOnly_openImage n p)
  takeStripe {s k item} _ _ _ _ _ hs := hs.imagesOnly (s.imagesOnly_takeStripe k item)
  renderReady {s h} _ _ hs := by
    refine State.MirrorKept.imagesOnly ?_ (State.imagesOnly_renderReady h _)
    exact hs.same ⟨rfl, rfl, rfl⟩ rfl fun _ => rfl
  closeSlot {s k} _ _ _ _ hs := hs.imagesOnly (s.imagesOnly_deferContexts (State.imagesOnly_closeSlot k))
  freeSlot _ _ hs := hs.same ⟨rfl, rfl, rfl⟩ rfl fun _ => rfl
  setWindow _ k w hs := hs.setWindow k w
  eraseAll _ item hs := hs.eraseAll item
  patterns {s t} h hs := by
    rw [h]
    exact hs.same ⟨rfl, rfl, rfl⟩ rfl fun _ => rfl
  threshold {s t} h _ hs := by
    rw [h]
    exact hs.same ⟨rfl, rfl, rfl⟩ rfl fun _ => rfl
  setWeights {s w} _ _ hs := by
    rw [Render.setWeights_eq]
    exact hs.same ⟨rfl, rfl, rfl⟩ rfl fun _ => rfl
  nextAttempt _ hs := hs.nextAttempt
  addressSlot h hs := hs.addressSlot h
  senseCompletion h hs := hs.senseCompletion h
  drainComplete h hs := hs.drainComplete h
  startingSweepComplete h hs := hs.startingSweepComplete h
  blankingSweepComplete h hs := hs.blankingSweepComplete h
  powerGoodRise h hs := hs.powerGoodRise h
  powerGoodFall h hs := hs.powerGoodFall h
  programmingComplete {s t} h hs := by
    cases h
    dsimp only
    split
    · exact hs.same ⟨rfl, rfl, rfl⟩ rfl fun _ => rfl
    · exact hs
  terminalReset s _ := s.mirrorKept_terminalReset
  powerOn p s _ := s.mirrorKept_powerOn p
  clearFaults s hs := by
    refine hs.of_accounted ⟨rfl, rfl, rfl⟩ hs.once rfl rfl rfl fun _ => id

/-- Settles O59: every step keeps the row engine's account of the panel, and a quiet row engine accounts for a row by its
mirror alone. -/
theorem mirrorEqualsCompositeWhenQuiet : Obligations.MirrorEqualsCompositeWhenQuiet := by
  refine ⟨fun s t honce hsound hstep => (State.keptBySteps_mirror.step hstep ⟨honce, hsound⟩).sound,
    fun s hsound hrun hquiet y => ?_⟩
  obtain ⟨hurgent, hbulk, hempty⟩ := hquiet
  unfold State.MirrorSound at hsound
  rw [hrun] at hsound
  obtain hw | hw | ⟨v, hv, _⟩ | ⟨_, hmirror⟩ := hsound.2.2 y
  · rw [hurgent] at hw
    cases hw
  · rw [hbulk] at hw
    cases hw
  · rw [hempty.1] at hv
    cases hv
  · exact hmirror

end Sys2Proof.Machine
end

