-- ==== Sys2Proof/Proofs/PlaneWriters.lean ====
section
/-! Which commands write the planes, and which leave something to be written. -/

namespace Sys2Proof.Machine

/-- The three planes are the same. -/
structure State.SamePlanes (s t : State) : Prop where
  image : t.ren.image = s.ren.image
  text : t.ren.text = s.ren.text
  mark : t.ren.mark = s.ren.mark

/-- The planes are the same, and so is what is left to do. -/
structure State.Undrawn (s t : State) : Prop extends State.SamePlanes s t where
  stages : t.ren.stages = s.ren.stages

/-- Nothing is drawn, or what was left to do has been done and nothing more. -/
def State.DrawsNoMore (s t : State) : Prop := s.Undrawn t ∨ (s.perform.SamePlanes t ∧ t.ren.stages = [])

section
variable {s t u : State}

theorem State.SamePlanes.refl (s : State) : s.SamePlanes s := ⟨rfl, rfl, rfl⟩

theorem State.SamePlanes.trans (h : s.SamePlanes t) (h' : t.SamePlanes u) : s.SamePlanes u :=
  ⟨h'.image.trans h.image, h'.text.trans h.text, h'.mark.trans h.mark⟩

theorem State.Undrawn.refl (s : State) : s.Undrawn s := ⟨.refl s, rfl⟩

theorem State.Undrawn.trans (h : s.Undrawn t) (h' : t.Undrawn u) : s.Undrawn u :=
  ⟨h.toSamePlanes.trans h'.toSamePlanes, h'.stages.trans h.stages⟩

theorem State.Undrawn.of_ren (h : t.ren = s.ren) : s.Undrawn t := by
  refine ⟨⟨?_, ?_, ?_⟩, ?_⟩ <;> rw [h]

theorem State.PanelOnly.undrawn (h : s.PanelOnly t) : s.Undrawn t := by
  obtain ⟨_, _, _, rfl, _⟩ := h
  exact .of_ren rfl

theorem State.ImagesOnly.samePlanes (h : s.ImagesOnly t) : s.SamePlanes t := by
  obtain ⟨_, _, _, _, _, rfl⟩ := h
  exact ⟨rfl, rfl, rfl⟩

theorem State.undrawn_cadenceAtSlot (s : State) (k : Fin 4) : s.Undrawn (s.cadenceAtSlot k) :=
  ⟨(s.imagesOnly_cadenceAtSlot k).samePlanes, (s.cadenceAtSlot_stages k).1⟩

theorem State.undrawn_factoryHalftone (s : State) : s.Undrawn { s with ren := s.ren.factoryHalftone } := by
  rw [Render.factoryHalftone_eq]
  exact ⟨⟨rfl, rfl, rfl⟩, rfl⟩

/-- What arrives on the lesson line, scans, frames and the handshake draw nothing. -/
theorem State.keptByArrivals_undrawn : State.KeptByArrivals State.Undrawn where
  refl := .refl
  trans := .trans
  aside h := by
    rw [h]
    exact .of_ren rfl
  cls h _ := by
    rw [h]
    exact .of_ren rfl
  touch h _ := by
    rw [h]
    exact .of_ren rfl
  storeCommit s := by
    obtain ⟨h, _⟩ | ⟨_, _, h⟩ := s.storeCommit_cases <;> rw [h] <;> exact .of_ren rfl
  panel h _ := by
    rw [h]
    exact .of_ren rfl
  blank s := s.panelOnly_blank.undrawn
  unblank s := s.panelOnly_unblank.undrawn
  queues h := by
    rw [h]
    exact ⟨⟨rfl, rfl, rfl⟩, rfl⟩
  cadenceAtSlot := State.undrawn_cadenceAtSlot
  factoryHalftone s _ := s.undrawn_factoryHalftone
  holdNotice _ _ _ := ⟨⟨rfl, rfl, rfl⟩, rfl⟩

theorem State.undrawn_applyNotice (s : State) (n : Notice) : s.Undrawn (s.applyNotice n) := by
  cases n with
  | cadence => exact State.keptByArrivals_undrawn.foldl State.undrawn_cadenceAtSlot _ s
  | factory => exact s.undrawn_factoryHalftone

/-- The end of a piece of work has done what was left to do, and its notices draw nothing (R24). -/
theorem State.undrawn_endPiece (s : State) : s.perform.SamePlanes s.endPiece ∧ s.endPiece.ren.stages = [] := by
  have hpiece : s.perform.Undrawn { s.perform with ren := { s.perform.ren with busy := false, notices := [] } } :=
    ⟨⟨rfl, rfl, rfl⟩, rfl⟩
  have hend : s.perform.Undrawn s.endPiece :=
    hpiece.trans (State.keptByArrivals_undrawn.foldl State.undrawn_applyNotice s.perform.ren.notices _)
  exact ⟨hend.toSamePlanes, hend.stages.trans s.perform_stages⟩

theorem State.drawsNoMore_applyHeld (n : Notice) (s : State) : s.DrawsNoMore (s.applyHeld n) := by
  unfold State.applyHeld
  split
  · next m rest _ =>
    split
    · have hpop : s.perform.Undrawn
          { s.perform with ren := { s.perform.ren with notices := rest, busy := !rest.isEmpty } } := ⟨⟨rfl, rfl, rfl⟩, rfl⟩
      have happlied := hpop.trans (State.undrawn_applyNotice _ n)
      exact .inr ⟨happlied.toSamePlanes, happlied.stages.trans s.perform_stages⟩
    · exact .inl (.refl s)
  · exact .inl (.refl s)

/-- An item is taken from the state in which the piece before it has ended; its work then writes no plane at once. -/
theorem State.runItem_cases (w : WorkKind) (work : WorkItem → State → State) (s : State) :
    s.runItem w work = s ∨ ∃ item u, s.runItem w work = work item u ∧ s.perform.SamePlanes u ∧ u.ren.stages = [] := by
  obtain ⟨hplanes, hstages⟩ := s.undrawn_endPiece
  unfold State.runItem State.takeItem
  dsimp only
  generalize s.endPiece = t at hplanes hstages
  split
  · next item u htake =>
    split at htake
    · split at htake
      · cases htake
        exact .inr ⟨_, _, rfl, ⟨hplanes.image, hplanes.text, hplanes.mark⟩, hstages⟩
      · cases htake
    · cases htake
  · exact .inl rfl

theorem State.samePlanes_runItem {w : WorkKind} {work : WorkItem → State → State}
    (h : ∀ item s, State.SamePlanes s (work item s)) (s : State) :
    s.SamePlanes (s.runItem w work) ∨ s.perform.SamePlanes (s.runItem w work) := by
  obtain heq | ⟨item, u, heq, hplanes, _⟩ := s.runItem_cases w work <;> rw [heq]
  · exact .inl (.refl s)
  · exact .inr (hplanes.trans (h item u))

theorem State.drawsNoMore_runItem {w : WorkKind} {work : WorkItem → State → State}
    (h : ∀ item s, State.Undrawn s (work item s)) (s : State) : s.DrawsNoMore (s.runItem w work) := by
  obtain heq | ⟨item, u, heq, hplanes, hstages⟩ := s.runItem_cases w work <;> rw [heq]
  · exact .inl (.refl s)
  · have hwork := h item u
    exact .inr ⟨hplanes.trans hwork.toSamePlanes, hwork.stages.trans hstages⟩

/-! ### The works of the render engine -/

theorem State.undrawn_openImage (n : Byte) (p : ImageParams) (s : State) : s.Undrawn (s.openImage n p) := by
  refine ⟨(s.imagesOnly_openImage n p).samePlanes, ?_⟩
  unfold State.openImage
  dsimp only
  split
  · split <;> rfl
  · split <;> rfl

theorem State.undrawn_setWeights (w : Weights) (s : State) : s.Undrawn { s with ren := s.ren.setWeights w } := by
  refine ⟨⟨?_, ?_, ?_⟩, (Render.setWeights_stages w s.ren).1⟩
  all_goals rw [Render.setWeights_eq]

/-- The works that are no writers of planes. -/
theorem undrawn_work (item : WorkItem) (s : State) :
    s.Undrawn (imageOpenWork item s) ∧ s.Undrawn (imageAbortWork item s) ∧ s.Undrawn (windowSetWork item s) ∧
      s.Undrawn (transferWork item s) ∧ s.Undrawn (thresholdWork item s) ∧ s.Undrawn (weightsWork item s) ∧
      s.Undrawn (glyphsWork item s) := by
  have k := State.keptByArrivals_undrawn
  refine ⟨?_, ?_, ?_, ?_, ?_, ?_, ?_⟩
  · unfold imageOpenWork
    split
    · exact k.latch _ s
    · exact s.undrawn_openImage _ _
  · unfold imageAbortWork
    split
    · exact .refl s
    · exact ⟨⟨rfl, rfl, rfl⟩, rfl⟩
  · unfold windowSetWork
    split
    · exact k.latch _ s
    · unfold State.setWindow
      split
      · exact .refl s
      · exact ⟨⟨rfl, rfl, rfl⟩, rfl⟩
  · refine k.applyLoad _ (fun entries s => ?_) s
    exact ⟨⟨rfl, rfl, rfl⟩, rfl⟩
  · refine k.applyLoad _ (fun entries s => ?_) s
    exact ⟨⟨rfl, rfl, rfl⟩, rfl⟩
  · exact k.applyLoad _ (fun entries s => s.undrawn_setWeights _) s
  · refine k.applyLoad _ (fun entries s => ?_) s
    exact ⟨⟨rfl, rfl, rfl⟩, rfl⟩

/-- The works that leave row writes to do. -/
theorem samePlanes_work (item : WorkItem) (s : State) :
    s.SamePlanes (imageStripeWork item s) ∧ s.SamePlanes (imageCloseWork item s) ∧ s.SamePlanes (textWork item s) ∧
      s.SamePlanes (fillWork item s) := by
  have k := State.keptByArrivals_undrawn
  refine ⟨?_, ?_, ?_, ?_⟩
  · unfold imageStripeWork
    split
    · exact ⟨rfl, rfl, rfl⟩
    · split
      · exact (s.imagesOnly_takeStripe _ item).samePlanes
      · exact ⟨rfl, rfl, rfl⟩
  · unfold imageCloseWork
    split
    · exact .refl s
    · split
      · exact (s.imagesOnly_deferContexts (State.imagesOnly_closeSlot _)).samePlanes
      · exact .refl s
  · unfold textWork
    split
    · exact ⟨rfl, rfl, rfl⟩
    · dsimp only
      split
      · exact ⟨rfl, rfl, rfl⟩
      · exact (k.latchIf (decide (200 < (textCodes item.body).length)) .formatError s).toSamePlanes.trans ⟨rfl, rfl, rfl⟩
  · unfold fillWork
    split <;> exact ⟨rfl, rfl, rfl⟩

theorem State.samePlanes_readyStripe (h : execReadyStripe s = .next t) : s.SamePlanes t ∨ s.perform.SamePlanes t := by
  cases h
  dsimp only
  split
  · next h _ _ =>
    have hready := (State.imagesOnly_renderReady h
      { s.endPiece with ren := { s.endPiece.ren with ready := none, busy := true } }).samePlanes
    exact .inr (s.undrawn_endPiece.1.trans ⟨hready.image, hready.text, hready.mark⟩)
  · exact .inl (.refl s)

theorem State.samePlanes_echoRequest (h : execEchoRequest s = .next t) : s.SamePlanes t ∨ s.perform.SamePlanes t := by
  cases h
  dsimp only
  split
  · exact .inr (s.undrawn_endPiece.1.trans ⟨rfl, rfl, rfl⟩)
  · exact .inl (.refl s)

theorem State.drawsNoMore_timeouts {n : Fin 4} (h : execClosingTimeout n s = .next t ∨ execIdleTimeout n s = .next t) :
    s.DrawsNoMore t := by
  have k := State.keptByArrivals_undrawn
  have hfree : s.perform.Undrawn { s.perform with ren := s.perform.ren.freeSlot n } := ⟨⟨rfl, rfl, rfl⟩, rfl⟩
  have hdone {u : State} (hu : s.perform.Undrawn u) : s.DrawsNoMore u := .inr ⟨hu.toSamePlanes, hu.stages.trans s.perform_stages⟩
  obtain h | h := h
  all_goals
    cases h
    dsimp only
    split
  · exact hdone (hfree.trans (k.latch _ _))
  · exact .inl (.refl s)
  · exact hdone (hfree.trans (k.latchIf _ _ _))
  · exact .inl (.refl s)

theorem State.undrawn_programmingComplete (h : execProgrammingComplete s = .next t) : s.Undrawn t := by
  cases h
  dsimp only
  split <;> exact .of_ren rfl

end

/-! ### Commands -/

/-- The commands that give the render engine something to write, or write at once (R1). -/
def DrawingCommand (i : Instr) : Prop :=
  i ∈ [Instr.imageStripe, .readyStripe, .imageClose, .text, .fill, .echoRequest, .eraseAll]

/-- A command of the part itself that is no writer. -/
theorem State.drawsNoMore_ownStep {i : Instr} {s t : State} (hl : lineBytes s i = none) (hp : ∀ p, i ≠ .powerOnReset p)
    (hd : ¬ DrawingCommand i) (h : exec i s = .next t) : s.DrawsNoMore t := by
  have k := State.keptByArrivals_undrawn
  have hnext {u : State} (hu : s.DrawsNoMore u) (h : Host.Outcome.next u = (.next t : Host.Outcome State Fault Refusal)) :
      s.DrawsNoMore t := by
    cases h
    exact hu
  cases i with
  | powerOnReset p => exact absurd rfl (hp p)
  | lineSilenceTimeout => exact .inl (k.lineSilenceTimeout h)
  | channelLapse ch => exact .inl (k.channelLapse h)
  | imageOpen => exact hnext (State.drawsNoMore_runItem (fun item s => (undrawn_work item s).1) s) h
  | imageAbort => exact hnext (State.drawsNoMore_runItem (fun item s => (undrawn_work item s).2.1) s) h
  | windowSet => exact hnext (State.drawsNoMore_runItem (fun item s => (undrawn_work item s).2.2.1) s) h
  | transferLoad => exact hnext (State.drawsNoMore_runItem (fun item s => (undrawn_work item s).2.2.2.1) s) h
  | thresholdLoad => exact hnext (State.drawsNoMore_runItem (fun item s => (undrawn_work item s).2.2.2.2.1) s) h
  | weightsLoad => exact hnext (State.drawsNoMore_runItem (fun item s => (undrawn_work item s).2.2.2.2.2.1) s) h
  | glyphsLoad => exact hnext (State.drawsNoMore_runItem (fun item s => (undrawn_work item s).2.2.2.2.2.2) s) h
  | applyHeldCadenceNotice => exact hnext (s.drawsNoMore_applyHeld .cadence) h
  | factoryHalftoneNotice => exact hnext (s.drawsNoMore_applyHeld .factory) h
  | closingTimeout n => exact State.drawsNoMore_timeouts (.inl h)
  | idleTimeout n => exact State.drawsNoMore_timeouts (.inr h)
  | programmingComplete => exact .inl (State.undrawn_programmingComplete h)
  | addressSlot => exact .inl (State.panelOnly_addressSlot h).undrawn
  | senseCompletion count => exact .inl (State.panelOnly_senseCompletion h).undrawn
  | drainComplete => exact .inl (State.panelOnly_transitions (.inl h)).undrawn
  | startingSweepComplete => exact .inl (State.panelOnly_transitions (.inr (.inl h))).undrawn
  | blankingSweepComplete => exact .inl (State.panelOnly_transitions (.inr (.inr (.inl h)))).undrawn
  | powerGoodRise => exact .inl (State.panelOnly_transitions (.inr (.inr (.inr (.inl h))))).undrawn
  | powerGoodFall => exact .inl (State.panelOnly_transitions (.inr (.inr (.inr (.inr h))))).undrawn
  | scan x => exact .inl (k.scan h)
  | grantAsserted => exact .inl (k.transmitter (.inl h))
  | frameBegin => exact .inl (k.transmitter (.inr (.inl h)))
  | frameComplete => exact .inl (k.transmitter (.inr (.inr (.inl h))))
  | grantWithdrawn => exact .inl (k.transmitter (.inr (.inr (.inr h))))
  | acknowledge => exact .inl (k.handshake (.inl h))
  | busyAsserted => exact .inl (k.handshake (.inr (.inl h)))
  | busyReleased => exact .inl (k.handshake (.inr (.inr (.inl h))))
  | ackTimeout => exact .inl (k.handshake (.inr (.inr (.inr h))))
  | imageStripe | readyStripe | imageClose | text | fill | eraseAll | echoRequest => exact absurd (by simp [DrawingCommand]) hd
  | _ => cases hl

/-- A writer's command leaves its writes to do; ERASE-ALL alone writes at once (R14, R15; log 5). -/
theorem State.samePlanes_writer {i : Instr} {s t : State} (hd : DrawingCommand i) (he : i ≠ .eraseAll) (h : exec i s = .next t) :
    s.SamePlanes t ∨ s.perform.SamePlanes t := by
  have hnext {u : State} (hu : s.SamePlanes u ∨ s.perform.SamePlanes u)
      (h : Host.Outcome.next u = (.next t : Host.Outcome State Fault Refusal)) : s.SamePlanes t ∨ s.perform.SamePlanes t := by
    cases h
    exact hu
  simp only [DrawingCommand, List.mem_cons, List.not_mem_nil, or_false] at hd
  obtain rfl | rfl | rfl | rfl | rfl | rfl | rfl := hd
  · exact hnext (State.samePlanes_runItem (fun item s => (samePlanes_work item s).1) s) h
  · exact State.samePlanes_readyStripe h
  · exact hnext (State.samePlanes_runItem (fun item s => (samePlanes_work item s).2.1) s) h
  · exact hnext (State.samePlanes_runItem (fun item s => (samePlanes_work item s).2.2.1) s) h
  · exact hnext (State.samePlanes_runItem (fun item s => (samePlanes_work item s).2.2.2) s) h
  · exact State.samePlanes_echoRequest h
  · exact absurd rfl he

/-- A command of the lesson line draws nothing. -/
theorem State.undrawn_arrival {i : Instr} {s t : State} {bytes : List Byte} (hwf : i.wf = true) (hs : s.rx.state = .hunting)
    (hr : ∀ h body levels, i ≠ .terminalReset h body levels) (hl : lineBytes s i = some bytes) (h : exec i s = .next t) :
    s.Undrawn t := by
  have k := State.keptByArrivals_undrawn
  by_cases hf : ∃ header body, i = .faultClear header body
  · obtain ⟨header, body, rfl⟩ := hf
    cases h
    exact k.receive hs header (of_decide_eq_true hwf) ⟨fun h18 => absurd h18 (by decide : (19 : Byte).toNat ≠ 18), fun _ _ => .of_ren rfl⟩
  · exact k.arrival hwf hs hr (fun header body hi => hf ⟨header, body, hi⟩) hl h

/-- Settles O29: what arrives draws nothing, the part's own steps that are no writers draw at most what was left to do, and
the writers but ERASE-ALL leave their writes to do. -/
theorem planesWrittenOnlyByTheirWriters : Obligations.PlanesWrittenOnlyByTheirWriters := by
  intro i s t hwf hs hexec hp hr
  have hquiet (hd : ¬ DrawingCommand i) : s.DrawsNoMore t := by
    cases hl : lineBytes s i with
    | some bytes => exact .inl (State.undrawn_arrival hwf hs hr hl hexec)
    | none => exact State.drawsNoMore_ownStep hl hp hd hexec
  refine ⟨fun he => ?_, fun hd => ?_⟩
  · have hplanes : s.SamePlanes t ∨ s.perform.SamePlanes t := by
      by_cases hd : DrawingCommand i
      · exact State.samePlanes_writer hd he hexec
      · exact (hquiet hd).imp State.Undrawn.toSamePlanes And.left
    exact hplanes.imp (fun h => ⟨h.image, h.text, h.mark⟩) (fun h => ⟨h.image, h.text, h.mark⟩)
  · obtain h | ⟨h, hstages⟩ := hquiet hd
    · exact ⟨fun _ => ⟨h.image, h.text, h.mark⟩, .inl h.stages⟩
    · refine ⟨fun hnone => ?_, .inr hstages⟩
      rw [State.perform_nil hnone] at h
      exact ⟨h.image, h.text, h.mark⟩

end Sys2Proof.Machine
end

