-- ==== Sys2Proof/Proofs/LineTraffic.lean ====
section
/-! Steps and events: what a step takes, what a level event's change and an edge event's occurrence come to bit by bit,
and what the line receiver leaves of traffic that it discards. -/

namespace Sys2Proof.Machine

/-! ### Steps -/

/-- A part with nothing to end and no start attempt to make idles. -/
theorem State.idle_atRest {s : State} (hr : s.ren.AtRest) (ha : s.row.attempting = false) : s.idle = s := by
  rw [State.idle_closed ha, State.continuePiece]
  obtain ⟨_, hstages, _⟩ := id hr
  rw [hstages]
  exact State.endPiece_atRest hr

/-- Settles O1: the front command is executed, and a part at rest idles. -/
theorem stepTakesFrontCommand : Obligations.StepTakesFrontCommand := by
  refine ⟨fun s c rest => rfl, fun s hp hr ha => ?_⟩
  rw [step, hp]
  exact congrArg Host.Outcome.next (State.idle_atRest hr ha)

/-! ### Events (R145, R146) -/

theorem LevelEvent.num_lt (e : LevelEvent) : e.num < 8 := by
  cases e with
  | lineIn n => exact Nat.add_lt_add_left n.isLt 4
  | _ => decide

/-- Bit n of a set of events in which event m has been written. -/
theorem getLsbD_withEventBit (l : BitVec 32) (m : Nat) (v : Bool) {n : Nat} (hn : n < 32) :
    (withEventBit l m v).getLsbD n = if n = m then v else l.getLsbD n := by
  cases v with
  | true =>
    rw [withEventBit, if_pos rfl, getLsbD_or_eventBit l hn]
    by_cases h : n = m <;> simp [h]
  | false =>
    rw [withEventBit, if_neg Bool.false_ne_true, eventBit, BitVec.getLsbD_and, BitVec.getLsbD_not,
      BitVec.getLsbD_twoPow]
    by_cases h : n = m
    · simp [← h, hn]
    · simp [h, Ne.symm h, hn]

/-- Bit n of the latched set to which event m has been added if `c` holds. -/
theorem getLsbD_latched (l : BitVec 32) (m : Nat) (c : Bool) {n : Nat} (hn : n < 32) :
    (if c then l ||| eventBit m else l).getLsbD n = (l.getLsbD n || (n == m && c)) := by
  cases c with
  | true =>
    rw [if_pos rfl, getLsbD_or_eventBit l hn, Bool.and_true, Bool.or_comm]
  | false => simp

/-- A level event whose condition is as its raw value says: nothing changes. -/
theorem EventUnit.setLevel_same {e : LevelEvent} {v : Bool} {u : EventUnit} (h : u.raw.getLsbD e.num = v) :
    u.setLevel e v = u := if_pos h

/-- A level event whose condition has changed. -/
theorem EventUnit.setLevel_change {e : LevelEvent} {v : Bool} {u : EventUnit} (h : u.raw.getLsbD e.num ≠ v) :
    u.setLevel e v = { u with raw := withEventBit u.raw e.num v }.withLatched
      (if u.covers e v then u.latched ||| eventBit e.num else u.latched) := if_neg h

/-- The raw values after a level event's condition has become v. -/
theorem EventUnit.getLsbD_setLevel_raw (e : LevelEvent) (v : Bool) (u : EventUnit) {n : Nat} (hn : n < 32) :
    (u.setLevel e v).raw.getLsbD n = if n = e.num then v else u.raw.getLsbD n := by
  by_cases h : u.raw.getLsbD e.num = v
  · rw [EventUnit.setLevel_same h]
    split
    · next hn => rw [hn, h]
    · rfl
  · rw [EventUnit.setLevel_change h]
    exact getLsbD_withEventBit u.raw e.num v hn

/-- The latched statuses after a level event's condition has become v. -/
theorem EventUnit.getLsbD_setLevel_latched (e : LevelEvent) (v : Bool) (u : EventUnit) {n : Nat} (hn : n < 32) :
    (u.setLevel e v).latched.getLsbD n =
      (u.latched.getLsbD n ||
        (n == e.num && u.raw.getLsbD n != v && u.table.mask.getLsbD n &&
          (v || u.table.edges.getD e.num .both == .both))) := by
  by_cases h : u.raw.getLsbD e.num = v
  · rw [EventUnit.setLevel_same h]
    by_cases hn : n = e.num
    · simp [hn, h]
    · simp [hn]
  · rw [EventUnit.setLevel_change h, EventUnit.withLatched_latched, getLsbD_latched u.latched e.num (u.covers e v) hn]
    by_cases hne : n = e.num
    · have hdiff : (u.raw.getLsbD e.num != v) = true := bne_iff_ne.mpr h
      rw [hne, hdiff, EventUnit.covers, beq_self_eq_true, Bool.true_and, Bool.true_and, Bool.true_and]
    · rw [beq_false_of_ne hne, Bool.false_and, Bool.false_and, Bool.false_and, Bool.false_and]

/-- A level event's change leaves attention exact. -/
theorem EventUnit.setLevel_attention_iff (e : LevelEvent) (v : Bool) {u : EventUnit}
    (ha : u.attention = true ↔ u.latched ≠ 0) : (u.setLevel e v).attention = true ↔ (u.setLevel e v).latched ≠ 0 := by
  by_cases h : u.raw.getLsbD e.num = v
  · rwa [EventUnit.setLevel_same h]
  · rw [EventUnit.setLevel_change h]
    exact EventUnit.withLatched_attention_iff _ _

/-- The model's change of a level event is the one of R145. -/
theorem EventUnit.levelBecame_setLevel (e : LevelEvent) (v : Bool) {u : EventUnit}
    (ha : u.attention = true ↔ u.latched ≠ 0) : EventUnit.LevelBecame e v u (u.setLevel e v) :=
  ⟨fun _ => u.getLsbD_setLevel_raw e v, fun _ => u.getLsbD_setLevel_latched e v, EventUnit.setLevel_table e v u,
    EventUnit.setLevel_lastWatch e v u, EventUnit.setLevel_attention_iff e v ha⟩

/-- Settles O2. -/
theorem eventsLatchAsTheTablesSay : Obligations.EventsLatchAsTheTablesSay :=
  ⟨fun e v _ => EventUnit.levelBecame_setLevel e v, EventUnit.occurred_occur⟩

/-! ### Discarded traffic and silence (R138, R140, R141, R142) -/

/-- A good CADENCE block has been heard, and its notice is given or it is discarded. -/
theorem receive_cadence {s : State} (hs : s.rx.state = .hunting) (h : Header) {body : List Byte}
    (hb : body.length ≤ 240) : s.receive h 0 body = s.heard.takeCadence (blockOf h 0 body) := by
  rw [receive_good hs h 0 hb, State.takeGood]
  exact if_pos rfl

/-- A CADENCE of a form other than ALL is discarded silently (R142). -/
theorem State.takeCadence_of_form {s : State} {b : Block} (h : b.form ≠ .all) : s.takeCadence b = s := by
  unfold State.takeCadence
  split
  · next hall => exact absurd hall h
  all_goals rfl

/-- A CADENCE to ALL with fewer than two body bytes is discarded with FORMAT-ERROR (R142). -/
theorem State.takeCadence_short {s : State} {b : Block} (h : b.form = .all) (hl : b.body.length < 2) :
    s.takeCadence b = s.latch .formatError := by
  rw [State.takeCadence, h]
  exact if_pos hl

/-- A CADENCE to ALL with its count is recorded and noticed (R142, R143). -/
theorem State.takeCadence_all {s : State} {b : Block} (h : b.form = .all) (hl : ¬ b.body.length < 2) :
    s.takeCadence b = ({ s with rx := { s.rx with lastCount := wordAt b.body 0 } } : State).cadenceNotice := by
  rw [State.takeCadence, h]
  exact if_neg hl

/-- Settles O4: the four kinds of discarded traffic, each by the receiver's law for it. -/
theorem discardedLineTraffic : Obligations.DiscardedLineTraffic := by
  intro s h body hs
  refine ⟨fun kind crc hb hc => ?_, fun kind length hn => ?_, fun hb hform => ?_, fun hb hform => ?_⟩
  · exact congrArg Host.Outcome.next (deliver_bad hs h kind hb hc)
  · exact congrArg Host.Outcome.next (deliver_long hs _ _ _ _ length hn)
  · exact congrArg Host.Outcome.next ((receive_cadence hs h hb).trans (State.takeCadence_of_form hform))
  · exact congrArg Host.Outcome.next
      ((receive_cadence hs h (by omega)).trans (State.takeCadence_short hform hb))

/-- Settles O6: a timer that runs expires, and one that stands does not. -/
theorem lineSilenceEndsPresence : Obligations.LineSilenceEndsPresence := by
  intro s
  refine ⟨fun hstands => ?_, fun hruns ha => ⟨_, rfl, ?_, ?_⟩⟩
  · show Host.Outcome.next _ = _
    rw [hstands]
  · rw [hruns]
    rfl
  · rw [hruns]
    exact EventUnit.levelBecame_setLevel .linePresent false ha

end Sys2Proof.Machine
end

