-- ==== Sys2Proof/Proofs/Classification.lean ====
section
/-! What the six steps of classification make of a block: the outcomes of steps 2 to 4 one by one, for a block that meets
no watch entry and for one that does. -/

namespace Sys2Proof.Machine

/-! ### Steps 2 to 6 -/

/-- A block through steps 2 to 6 (R127 to R135). -/
def State.afterWatch (b : Block) (s : State) : State :=
  match s.cls.kindStep b with
  | .error e => s.latch e
  | .ok e =>
    match s.cls.channelStep e b with
    | .silent => s
    | .filtered => s.latch .filtered
    | .pass => s.recordAndDispatch e b

/-- An addressed block goes through step 1, then through the others. -/
theorem State.classify_addressed {s : State} {b : Block} (h : s.cls.matchesAddress b = true) :
    s.classify b = (s.watchStep b).afterWatch b := by
  rw [State.classify, h]
  exact if_neg Bool.false_ne_true

/-- A block whose address does not match is ignored (R123). -/
theorem State.classify_unaddressed {s : State} {b : Block} (h : s.cls.matchesAddress b = false) : s.classify b = s := by
  rw [State.classify, h]
  exact if_pos rfl

section
variable {s : State} {b : Block} {e : KindEntry}

/-- What step 2 makes of a kind below 32 (R127). -/
theorem Classifier.kindStep_known (hk : s.KindIs b e) :
    s.cls.kindStep b =
      if !e.forms.has b.form then .error .filtered else if tooShort e b then .error .formatError else .ok e := by
  obtain ⟨hlt, hget⟩ := List.getElem?_eq_some_iff.mp hk
  have hlt' : b.kind.toNat < 32 := by simpa using hlt
  have he : s.cls.kindsInUse[b.kind.toNat] = e := by simpa using hget
  rw [Classifier.kindStep, dif_pos hlt', he]

theorem State.afterWatch_unknown (h : 32 ≤ b.kind.toNat) : s.afterWatch b = s.latch .unknownKind := by
  have hstep : s.cls.kindStep b = .error .unknownKind := dif_neg (Nat.not_lt.mpr h)
  rw [State.afterWatch, hstep]

theorem State.afterWatch_form (hk : s.KindIs b e) (hf : e.forms.has b.form = false) :
    s.afterWatch b = s.latch .filtered := by
  rw [State.afterWatch, Classifier.kindStep_known hk, hf]
  rfl

theorem State.afterWatch_short (hk : s.KindIs b e) (hf : e.forms.has b.form = true) (hl : tooShort e b = true) :
    s.afterWatch b = s.latch .formatError := by
  rw [State.afterWatch, Classifier.kindStep_known hk, hf, hl]
  rfl

/-- A block that passes step 2 meets the channel check (R129). -/
theorem State.afterWatch_channel (hk : s.KindIs b e) (hf : e.forms.has b.form = true) (hl : tooShort e b = false) :
    s.afterWatch b =
      match s.cls.channelStep e b with
      | .silent => s
      | .filtered => s.latch .filtered
      | .pass => s.recordAndDispatch e b := by
  rw [State.afterWatch, Classifier.kindStep_ok hk hf hl]

theorem State.afterWatch_silent (hk : s.KindIs b e) (hf : e.forms.has b.form = true) (hl : tooShort e b = false)
    (hc : s.cls.channelStep e b = .silent) : s.afterWatch b = s := by
  rw [State.afterWatch_channel hk hf hl, hc]

theorem State.afterWatch_filtered (hk : s.KindIs b e) (hf : e.forms.has b.form = true) (hl : tooShort e b = false)
    (hc : s.cls.channelStep e b = .filtered) : s.afterWatch b = s.latch .filtered := by
  rw [State.afterWatch_channel hk hf hl, hc]

theorem State.afterWatch_repeat (hk : s.KindIs b e) (hf : e.forms.has b.form = true) (hl : tooShort e b = false)
    (hc : s.cls.channelStep e b = .pass) (hr : s.cls.repeats b = true) : s.afterWatch b = s := by
  rw [State.afterWatch_channel hk hf hl, hc]
  exact if_pos hr

theorem State.afterWatch_pass (hk : s.KindIs b e) (hf : e.forms.has b.form = true) (hl : tooShort e b = false)
    (hc : s.cls.channelStep e b = .pass) (hr : s.cls.repeats b = false) :
    s.afterWatch b = ({ s with cls := s.cls.record b } : State).dispatch e.disposition b := by
  rw [State.afterWatch_channel hk hf hl, hc]
  exact if_neg (by rw [hr]; exact Bool.false_ne_true)

/-! ### The channel check (R129) and de-duplication (R131) -/

theorem Classifier.channelStep_silent {c : Classifier} (hb : e.bypass = false)
    (hm : c.channels[b.channel].member = false) : c.channelStep e b = .silent := by
  rw [Classifier.channelStep, hb, hm]
  rfl

theorem Classifier.channelStep_form {c : Classifier} (hb : e.bypass = false)
    (hm : c.channels[b.channel].member = true) (hf : c.channels[b.channel].forms.has b.form = false) :
    c.channelStep e b = .filtered := by
  rw [Classifier.channelStep, hb, hm, hf]
  rfl

theorem Classifier.channelStep_window {c : Classifier} (hb : e.bypass = false)
    (hm : c.channels[b.channel].member = true) (hf : c.channels[b.channel].forms.has b.form = true)
    (hw : c.channels[b.channel].windowRefused e.disposition b = true) : c.channelStep e b = .filtered := by
  rw [Classifier.channelStep, hb, hm, hf, hw]
  rfl

/-- A window above 7, or one that the channel may not draw on, is refused. -/
theorem ChannelEntry.windowRefused_of {c : ChannelEntry} {d : Disposition} {w : Nat} (hd : d.acts = true)
    (hn : windowNumber b.kind.toNat b.body = some w) (hw : 7 < w ∨ c.windows.getLsbD w = false) :
    c.windowRefused d b = true := by
  rw [ChannelEntry.windowRefused, hd, hn]
  rcases hw with hw | hw <;> simp [hw]

theorem Classifier.repeats_of {c : Classifier} (hk : b.kind.toNat ≠ 2) (hd : c.channels[b.channel].dedupe = true)
    (hq : c.chanState[b.channel].lastSeq = some b.seq) : c.repeats b = true := by
  rw [Classifier.repeats, bne_iff_ne.mpr hk, hd, hq, beq_self_eq_true]
  rfl

/-- A body shorter than the fixed part of a kind with an owner is too short (R127). -/
theorem tooShort_of (hd : e.disposition.acts = true) (h0 : b.kind ≠ 0) (h19 : b.kind.toNat ≤ 19)
    (hl : b.body.length < fixedPart b.kind.toNat) : tooShort e b = true := by
  have hpos : 1 ≤ b.kind.toNat := Nat.pos_of_ne_zero fun h => h0 (BitVec.eq_of_toNat_eq h)
  simp [tooShort, hd, hpos, h19, hl]

/-! ### Blocks sent -/

/-- A command that sends a block is the classification of the block, on the state that has heard it. -/
theorem exec_of_sends {i : Instr} {u : State} (h : s.Sends i b u) (hs : s.rx.state = .hunting)
    (hb : b.body.length ≤ 240) (hk : b.kind ≠ 0) : exec i s = .next (u.heard.classify b) := by
  rcases h with ⟨hsent, rfl⟩ | ⟨h, body, levels, rfl, rfl, rfl⟩
  · rw [exec_of_sentBlock hsent]
    exact congrArg Host.Outcome.next (receive_classify hs _ hb hk)
  · exact congrArg Host.Outcome.next
      (receive_classify (s := { s with pins := levels }) hs h (kind := 18) hb hk)

/-- Sending a block tells of no more than the input lines. -/
theorem State.Sends.eq_pins {i : Instr} {u : State} (h : s.Sends i b u) : ∃ pins, u = { s with pins := pins } := by
  rcases h with ⟨_, rfl⟩ | ⟨_, _, levels, _, _, rfl⟩
  · exact ⟨_, rfl⟩
  · exact ⟨levels, rfl⟩

/-- The forms and numbers of R123 do not match. -/
theorem Classifier.matchesAddress_eq_false {c : Classifier}
    (h : (b.form = .individual ∧ b.number.val ≠ c.number.val) ∨ (b.form = .group ∧ b.number ∉ c.groups) ∨
      b.form = .fourth) : c.matchesAddress b = false := by
  rw [Classifier.matchesAddress]
  rcases h with ⟨hf, hn⟩ | ⟨hf, hn⟩ | hf <;> rw [hf]
  · exact beq_false_of_ne hn
  · simpa using hn

/-- Settles O7. -/
theorem unaddressedBlockIgnored : Obligations.UnaddressedBlockIgnored := by
  intro s b hs hb haddr
  have hno : s.cls.matchesAddress b = false := Classifier.matchesAddress_eq_false haddr
  refine ⟨fun i hi hk => ?_, fun h levels hblock => ?_⟩
  · rw [exec_of_sends (.inl ⟨hi, rfl⟩) hs hb hk]
    exact congrArg Host.Outcome.next (State.classify_unaddressed hno)
  · rw [exec_of_sends (.inr ⟨h, b.body, levels, rfl, hblock.symm, rfl⟩) hs hb (by rw [← hblock]; exact (by decide : (18 : Byte) ≠ 0))]
    exact congrArg Host.Outcome.next (State.classify_unaddressed hno)

/-- Settles O8: a block that meets no watch entry is refused by the first step that finds something. -/
theorem refusedBlockLeavesItsEvent : Obligations.RefusedBlockLeavesItsEvent := by
  intro s u i b e hsends hs hb hk hmatch hunwatched
  obtain ⟨pins, rfl⟩ := hsends.eq_pins
  have refused {t : State} (h : State.afterWatch b (State.heard { s with pins := pins }) = t) : exec i s = .next t := by
    rw [exec_of_sends hsends hs hb hk, State.classify_addressed (s := State.heard { s with pins := pins }) hmatch,
      State.watchStep_unwatched (s := State.heard { s with pins := pins }) hunwatched, h]
  refine ⟨fun h32 => ?_, fun hkind hf => ?_, fun hkind hf hd h19 hl => ?_, fun hkind hf hl hbypass => ⟨fun hm => ?_,
    fun hm hcf => ?_, fun hm hcf hd ⟨w, hw, hno⟩ => ?_⟩, fun hkind hf hl hc h2 hdedupe hseq => ?_⟩
  · exact refused (State.afterWatch_unknown h32)
  · exact refused (State.afterWatch_form hkind hf)
  · exact refused (State.afterWatch_short hkind hf (tooShort_of hd hk h19 hl))
  · exact refused (State.afterWatch_silent hkind hf hl (Classifier.channelStep_silent hbypass hm))
  · exact refused (State.afterWatch_filtered hkind hf hl (Classifier.channelStep_form hbypass hm hcf))
  · exact refused (State.afterWatch_filtered hkind hf hl
      (Classifier.channelStep_window hbypass hm hcf (ChannelEntry.windowRefused_of hd hw hno)))
  · exact refused (State.afterWatch_repeat hkind hf hl hc (Classifier.repeats_of h2 hdedupe hseq))

end

/-! ### The watch list (R125, R102) -/

/-- The last entry of a list in increasing order is its greatest. -/
theorem getLast?_of_greatest {α : Type} [Preorder α] {l : List α} {k : α} (hs : l.Pairwise (· < ·)) (hk : k ∈ l)
    (hle : ∀ j ∈ l, j ≤ k) : l.getLast? = some k := by
  rcases List.eq_nil_or_concat l with rfl | ⟨init, x, rfl⟩
  · exact absurd hk List.not_mem_nil
  · rw [List.concat_eq_append] at hs hk hle ⊢
    have hlt : ∀ j ∈ init, j < x := fun j hj => (List.pairwise_append.mp hs).2.2 j hj x (List.mem_singleton_self x)
    rcases List.mem_append.mp hk with hinit | hlast
    · exact absurd (hlt k hinit) (not_lt_of_ge (hle x (List.mem_append_right _ (List.mem_singleton_self x))))
    · rw [List.mem_singleton.mp hlast]
      exact List.getLast?_concat

theorem Classifier.mem_watchHits {c : Classifier} {kind : Byte} {j : Fin 8} :
    j ∈ c.watchHits kind ↔ c.watch[j].hits kind = true := by
  simp [Classifier.watchHits]

/-- The highest-numbered entry that matches is the last one found. -/
theorem Classifier.getLast?_watchHits {c : Classifier} {kind : Byte} {k : Fin 8} (hk : c.watch[k].hits kind = true)
    (hmax : ∀ j : Fin 8, c.watch[j].hits kind = true → j ≤ k) : (c.watchHits kind).getLast? = some k :=
  getLast?_of_greatest ((List.pairwise_lt_finRange 8).filter _) (Classifier.mem_watchHits.mpr hk)
    fun j hj => hmax j (Classifier.mem_watchHits.mp hj)

/-- A block that the watch list holds: WATCH-HIT, the entry recorded, and the wake. -/
theorem State.watchStep_hit {s : State} {b : Block} {k : Fin 8} (hk : s.cls.watch[k].hits b.kind = true)
    (hmax : ∀ j : Fin 8, s.cls.watch[j].hits b.kind = true → j ≤ k) :
    s.watchStep b =
      if (s.cls.watchHits b.kind).any (fun k => s.cls.watch[k].unblank) then
        State.unblank { s with ev := { s.ev.occur .watchHit with lastWatch := some k } }
      else { s with ev := { s.ev.occur .watchHit with lastWatch := some k } } := by
  rw [State.watchStep, Classifier.getLast?_watchHits hk hmax]
  rfl

theorem Classifier.any_watchHits {c : Classifier} {kind : Byte} :
    (c.watchHits kind).any (fun k => c.watch[k].unblank) = true ↔
      ∃ j : Fin 8, c.watch[j].hits kind = true ∧ c.watch[j].unblank = true := by
  simp only [List.any_eq_true, Classifier.mem_watchHits]

/-! ### Unblanking (R100, R101) -/

/-- The rows with a lit composite come once each. -/
theorem Render.litRows_nodup (r : Render) : r.litRows.Nodup := (List.nodup_finRange 512).filter _

/-- The lit rows that do not wait join BULK in row order. -/
theorem State.markLit_eq (s : State) :
    s.markLit = { s with row := { s.row with
      bulk := s.row.bulk ++ s.ren.litRows.filter (fun y => decide (y ∉ s.row.urgent ∧ y ∉ s.row.bulk)) } } := by
  rw [State.markLit, RowEngine.markAll_bulk s.ren.litRows_nodup]

/-- Unblanked from BLANKED: the lists are emptied and the lit rows wait in BULK. -/
theorem State.unblank_blanked {s : State} (h : s.seq.state = .blanked) :
    s.unblank = { s with
      seq := { s.seq with state := .running, sweeping := false, blankTimer := 0 }
      row := { s.row with urgent := [], bulk := s.ren.litRows } } := by
  have hall : s.ren.litRows.filter (fun y => decide (y ∉ ([] : List RowNo) ∧ y ∉ ([] : List RowNo))) = s.ren.litRows :=
    List.filter_eq_self.mpr (by simp)
  rw [State.unblank, h]
  dsimp only
  rw [State.markLit_eq]
  dsimp only [Sequencer.enterRunning]
  rw [hall, List.nil_append]

/-- Unblanked from BLANKING: the lists are kept and the lit rows that do not wait join BULK. -/
theorem State.unblank_blanking {s : State} (h : s.seq.state = .blanking) :
    s.unblank = { s with
      seq := { s.seq with state := .running, sweeping := false, blankTimer := 0 }
      row := { s.row with
        bulk := s.row.bulk ++ s.ren.litRows.filter (fun y => decide (y ∉ s.row.urgent ∧ y ∉ s.row.bulk)) } } := by
  rw [State.unblank, h]
  dsimp only
  rw [State.markLit_eq]
  rfl

/-- In the other panel states an unblank is ignored. -/
theorem State.unblank_ignored {s : State} (h : s.seq.state ≠ .blanked) (h' : s.seq.state ≠ .blanking) :
    s.unblank = s := by
  unfold State.unblank
  split
  · next hs => exact absurd hs h
  · next hs => exact absurd hs h'
  all_goals rfl

/-- What an unblank does to the panel and to the lists, and that it leaves the rest. -/
theorem State.unblank_frame (s : State) : s.unblank = { s with seq := s.unblank.seq, row := s.unblank.row } := by
  unfold State.unblank
  split
  · dsimp only
    rw [State.markLit_eq]
  · dsimp only
    rw [State.markLit_eq]
  all_goals rfl

/-- A matching entry with its unblank flag set (R125). -/
def Classifier.Wakes (c : Classifier) (kind : Byte) : Prop :=
  ∃ j : Fin 8, c.watch[j].hits kind = true ∧ c.watch[j].unblank = true

section
variable {s : State} {b : Block} {k : Fin 8}

/-- The state in which WATCH-HIT has occurred by entry k. -/
def State.watched (k : Fin 8) (s : State) : State :=
  { s with ev := { s.ev.occur .watchHit with lastWatch := some k } }

theorem State.watchStep_wakes (hk : s.cls.watch[k].hits b.kind = true)
    (hmax : ∀ j : Fin 8, s.cls.watch[j].hits b.kind = true → j ≤ k) (h : s.cls.Wakes b.kind) :
    s.watchStep b = (s.watched k).unblank := by
  rw [State.watchStep_hit hk hmax]
  exact if_pos (Classifier.any_watchHits.mpr h)

theorem State.watchStep_stays (hk : s.cls.watch[k].hits b.kind = true)
    (hmax : ∀ j : Fin 8, s.cls.watch[j].hits b.kind = true → j ≤ k) (h : ¬ s.cls.Wakes b.kind) :
    s.watchStep b = s.watched k := by
  rw [State.watchStep_hit hk hmax]
  exact if_neg (mt Classifier.any_watchHits.mp h)

/-- A watch hit writes the event unit, and where it wakes the panel the sequencer and the lists. -/
theorem State.watchStep_frame (hk : s.cls.watch[k].hits b.kind = true)
    (hmax : ∀ j : Fin 8, s.cls.watch[j].hits b.kind = true → j ≤ k) :
    s.watchStep b = { s with
      ev := { s.ev.occur .watchHit with lastWatch := some k }
      seq := (s.watchStep b).seq, row := (s.watchStep b).row } := by
  by_cases h : s.cls.Wakes b.kind
  · rw [State.watchStep_wakes hk hmax h]
    exact (s.watched k).unblank_frame
  · rw [State.watchStep_stays hk hmax h]
    rfl

end

/-- Settles O9: step 1 gives the state that the block goes on from, and the other steps are those of a block that meets no
watch entry. -/
theorem watchHitIsRecordedAndWakes : Obligations.WatchHitIsRecordedAndWakes := by
  intro s u i b e hsends
  obtain ⟨pins, rfl⟩ := hsends.eq_pins
  refine ⟨fun ⟨hs, hb, hk, hm, hw, hp⟩ => ?_, fun k hs hb hk hm hhit hmax hkind => ?_⟩
  · rw [exec_of_sends hsends hs hb hk]
    exact congrArg Host.Outcome.next (State.classify_passes (s := State.heard { s with pins := pins }) hm hw hp)
  · let t : State := State.heard { s with pins := pins }
    have hframe := State.watchStep_frame (s := t) hhit hmax
    have hcls : (t.watchStep b).cls = s.cls := by rw [hframe]; rfl
    have hkind' : (t.watchStep b).KindIs b e := by rw [State.KindIs, hcls]; exact hkind
    have goesOn {v : State} (h : (t.watchStep b).afterWatch b = v) : exec i s = .next v := by
      rw [exec_of_sends hsends hs hb hk, State.classify_addressed (s := t) hm, h]
    refine ⟨t.watchStep b, hframe, ⟨fun hstays => ?_, fun hwakes hstate => ?_, fun hwakes hstate => ?_⟩,
      fun hf => goesOn (State.afterWatch_form hkind' hf), fun hf hl => goesOn (State.afterWatch_short hkind' hf hl),
      fun hf hl => ⟨fun hc => ?_, fun hc => ?_, fun hc h2 hd hq => ?_, fun hc hr => ?_⟩⟩
    · by_cases hwakes : t.cls.Wakes b.kind
      · obtain ⟨hne, hne'⟩ := hstays.resolve_left (not_not_intro hwakes)
        rw [State.watchStep_wakes (s := t) hhit hmax hwakes, State.unblank_ignored (s := t.watched k) hne hne']
        exact ⟨rfl, rfl⟩
      · rw [State.watchStep_stays (s := t) hhit hmax hwakes]
        exact ⟨rfl, rfl⟩
    · rw [State.watchStep_wakes (s := t) hhit hmax hwakes, State.unblank_blanked (s := t.watched k) hstate]
      exact ⟨rfl, rfl⟩
    · rw [State.watchStep_wakes (s := t) hhit hmax hwakes, State.unblank_blanking (s := t.watched k) hstate]
      exact ⟨rfl, rfl⟩
    · exact goesOn (State.afterWatch_silent hkind' hf hl (by rw [hcls]; exact hc))
    · exact goesOn (State.afterWatch_filtered hkind' hf hl (by rw [hcls]; exact hc))
    · exact goesOn (State.afterWatch_repeat hkind' hf hl (by rw [hcls]; exact hc)
        (by rw [hcls]; exact Classifier.repeats_of h2 hd hq))
    · refine (goesOn (State.afterWatch_pass hkind' hf hl (by rw [hcls]; exact hc) (by rw [hcls]; exact hr))).trans ?_
      rw [hcls]

end Sys2Proof.Machine
end

