-- ==== Sys2Proof/Proofs/Dispatch.lean ====
section
/-! What dispatch does with an admitted block: its owner, the hand-off copy, the render queue. -/

namespace Sys2Proof.Machine

/-! ### Owners leave the accessory port as it is -/

section
variable (s : State)

theorem State.queueItem_acc (k : WorkKind) (b : Block) : (s.queueItem k b).acc = s.acc := by
  unfold State.queueItem
  split <;> rfl

theorem State.applyLoad_acc {range : LoadRange} {write : List (Nat × List Byte) → State → State}
    (h : ∀ entries (t : State), (write entries t).acc = t.acc) : (s.applyLoad range write).acc = s.acc := by
  unfold State.applyLoad
  dsimp only
  split
  · rw [h, State.latchIf_acc]
  · rw [State.latch_acc, State.latchIf_acc]

/-- A line configured anew: its record, and LINE-IN where it was an input (R164). -/
theorem State.configureLine_frame (n : Fin 4) (e : LineEntry) :
    s.configureLine n e = { s with lines := (s.configureLine n e).lines, ev := (s.configureLine n e).ev } := by
  unfold State.configureLine
  dsimp only
  split
  · rfl
  · split
    · rfl
    all_goals split <;> rfl

theorem State.configureLine_acc (n : Fin 4) (e : LineEntry) : (s.configureLine n e).acc = s.acc := by
  rw [State.configureLine_frame]

theorem State.foldl_acc {α : Type} {f : State → α → State} (h : ∀ t a, (f t a).acc = t.acc) (as : List α) :
    (as.foldl f s).acc = s.acc := by
  induction as generalizing s with
  | nil => rfl
  | cons a as ih => exact (ih (f s a)).trans (h s a)

theorem State.panelOnly_acc {t : State} (h : s.PanelOnly t) : t.acc = s.acc := by
  obtain ⟨_, _, _, rfl, _⟩ := h
  rfl

theorem State.imagesOnly_acc {t : State} (h : s.ImagesOnly t) : t.acc = s.acc := by
  obtain ⟨_, _, _, _, _, rfl⟩ := h
  rfl

theorem State.applyNotice_acc (n : Notice) : (s.applyNotice n).acc = s.acc := by
  cases n with
  | cadence => exact s.imagesOnly_acc (State.imagesOnly_foldl State.imagesOnly_cadenceAtSlot _ s)
  | factory => rfl

theorem State.notice_acc (n : Notice) : (s.notice n).acc = s.acc := by
  cases hb : s.ren.busy with
  | true => rw [State.notice_busy hb]
  | false => rw [State.notice_idle hb, State.applyNotice_acc]

theorem State.storeCommit_acc : s.storeCommit.acc = s.acc := by
  unfold State.storeCommit
  split
  · split <;> rfl
  · rfl

theorem State.storeFactory_acc : s.storeFactory.acc = s.acc := by
  unfold State.storeFactory State.configureLines
  dsimp only
  rw [State.notice_acc, State.foldl_acc _ (fun t n => t.configureLine_acc n _)]

theorem State.zoneSet_acc (body : List Byte) : (s.zoneSet body).acc = s.acc := by
  unfold State.zoneSet
  split
  · rfl
  · split
    · split <;> rfl
    · rfl

theorem State.panelControl_acc (b : Block) : (s.panelControl b).acc = s.acc := by
  unfold State.panelControl
  split
  · exact s.queueItem_acc _ b
  · exact s.panelOnly_acc s.panelOnly_blank
  · exact s.panelOnly_acc s.panelOnly_unblank
  · rfl

theorem State.writeLine_acc (e : Nat × List Byte) : (s.writeLine e).acc = s.acc := by
  unfold State.writeLine
  split
  · exact s.configureLine_acc _ _
  · rfl

theorem State.tableLoad_acc (b : Block) : (s.tableLoad b).acc = s.acc := by
  unfold State.tableLoad
  split
  · exact s.applyLoad_acc fun _ _ => rfl
  · unfold State.loadGroups
    dsimp only
    split
    · rfl
    · exact State.latchIf_acc _ _ _
  · exact s.applyLoad_acc fun _ _ => rfl
  · exact s.applyLoad_acc fun _ _ => State.latchIf_acc _ _ _
  · exact s.applyLoad_acc fun _ _ => rfl
  · exact s.queueItem_acc _ b
  · exact s.queueItem_acc _ b
  · exact s.queueItem_acc _ b
  · exact s.queueItem_acc _ b
  · exact s.applyLoad_acc fun _ _ => rfl
  · exact s.applyLoad_acc fun _ _ => rfl
  · exact s.applyLoad_acc fun _ _ => rfl
  · exact s.applyLoad_acc fun entries t => t.foldl_acc (fun t e => t.writeLine_acc e) entries
  · rfl

/-- No owner but the terminal reset touches the accessory port. -/
theorem State.act_acc {b : Block} (h : b.kind.toNat ≠ 18) : (s.act b).acc = s.acc := by
  unfold State.act
  split
  · exact s.queueItem_acc _ b
  · exact s.queueItem_acc _ b
  · exact s.queueItem_acc _ b
  · exact s.queueItem_acc _ b
  · exact s.queueItem_acc _ b
  · exact s.queueItem_acc _ b
  · exact s.queueItem_acc _ b
  · exact s.zoneSet_acc _
  · exact s.panelControl_acc b
  · exact s.tableLoad_acc b
  · exact State.offer_acc _ s
  · rfl
  · rfl
  · rfl
  · exact s.storeCommit_acc
  · exact s.storeFactory_acc
  · next h18 => exact absurd h18 h
  · rfl
  · rfl

/-- A kind with no owner is acted on by nobody (R134). -/
theorem State.act_ownerless {b : Block} (h : ownerlessKind b.kind = true) : s.act b = s := by
  have hkind := toNat_of_ownerlessKind h
  unfold State.act
  split
  case h_19 => rfl
  all_goals omega

end

/-! ### The hand-off (R158, R159) -/

/-- The port after bytes that fit have joined its buffer: from IDLE the head byte is offered or held back. -/
theorem AccessoryPort.join_eq {body : List Byte} (hb : body ≠ []) (a : AccessoryPort) :
    a.join body =
      if a.state = .idle then
        { a with
          buffer := a.buffer ++ body
          state := if a.busy then .holding else .strobed
          ackTimer := if a.busy then .stands else .running
          stalled := false }
      else { a with buffer := a.buffer ++ body } := by
  have hne : (a.buffer ++ body).isEmpty = false := by simp [hb]
  unfold AccessoryPort.join
  split
  · next hs =>
    rw [if_pos hs, AccessoryPort.next, if_neg (by rw [hne]; exact Bool.false_ne_true)]
    cases a.busy <;> rfl
  all_goals next hs => rw [if_neg (by rw [hs]; decide)]

/-- The three outcomes of a hand-off copy. -/
theorem State.handOff_cases (s : State) (body : List Byte) :
    (s.acc.fitted = false ∨ body = [] → s.handOff body = s) ∧
      (s.acc.fitted = true → body ≠ [] → 256 < s.acc.buffer.length + body.length →
        s.handOff body = s.latch .accessoryOverflow) ∧
      (s.acc.fitted = true → body ≠ [] → s.acc.buffer.length + body.length ≤ 256 →
        s.handOff body = { s with acc := s.acc.join body }) := by
  refine ⟨?_, fun hf hb hl => ?_, fun hf hb hl => State.handOff_fits hf hb (by omega)⟩
  · rintro (hf | rfl)
    · exact State.handOff_unfitted hf
    · exact State.handOff_empty
  · have hpos := List.length_pos_of_ne_nil hb
    exact State.handOff_overflow hf hb (by omega)

/-- Settles O10: dispatch by the four dispositions; the hand-off copy is judged by the port that the owner leaves. -/
theorem handedBlockJoinsAccessoryBuffer : Obligations.HandedBlockJoinsAccessoryBuffer := by
  intro s i b e hsent hadmits
  have hexec : exec i s = .next ((s.taken b).dispatch e.disposition b) := by
    rw [exec_of_sentBlock hsent]
    exact congrArg Host.Outcome.next (receive_admitted hadmits)
  have handed {t : State} (h : (s.taken b).dispatch e.disposition b = t.handOff b.body) :
      exec i s = .next (t.handOff b.body) := by rw [hexec, h]
  dsimp only
  refine ⟨fun hd => ?_, fun hd ho => ?_, fun hd => ?_, fun hd => ?_, fun hd => ?_⟩
  · rw [hexec, hd]
    rfl
  · rw [hexec, hd]
    exact congrArg Host.Outcome.next (State.act_ownerless _ ho)
  · have hhand : (s.taken b).dispatch e.disposition b = (s.taken b).handOff b.body := by
      rcases hd with hd | ⟨hd, ho⟩
      · rw [hd]
        rfl
      · rw [hd]
        exact congrArg (State.handOff b.body) (State.act_ownerless _ ho)
    obtain ⟨hnone, hover, hfits⟩ := (s.taken b).handOff_cases b.body
    rw [hexec, hhand]
    refine ⟨fun h => congrArg _ (hnone h), fun hf hb hl => congrArg _ (hover hf hb hl), fun hf hb hl => ?_⟩
    rw [hfits hf hb hl, AccessoryPort.join_eq hb]
    rfl
  · rw [hexec, hd]
    rfl
  · have hhand : (s.taken b).dispatch e.disposition b = ((s.taken b).act b).handOff b.body := by
      rw [hd]
      rfl
    obtain ⟨hnone, hover, hfits⟩ := ((s.taken b).act b).handOff_cases b.body
    rw [hexec, hhand]
    refine ⟨fun h => congrArg _ (hnone h), fun hf hb hl => congrArg _ (hover hf hb hl), fun hf hb hl => ?_, fun h18 => ?_⟩
    · rw [hfits hf hb hl, AccessoryPort.join_eq hb]
    · exact (s.taken b).act_acc fun h => h18 (BitVec.eq_of_toNat_eq h)

/-! ### The render queue (R19, R20, R104) -/

/-- A block of the render path is queued as the work item of its kind. -/
theorem State.act_queues {b : Block} {k : WorkKind} (h : workKindOf b.kind b.body = some k) (s : State) :
    (b.kind.toNat ≤ 6 → s.act b = (s.queueItem k b).restartBlankTimer) ∧
      (6 < b.kind.toNat → s.act b = s.queueItem k b) := by
  unfold workKindOf at h
  split at h
  case h_8 action rest hn hbody =>
    have hact : s.act b = s.panelControl b := by rw [State.act, hn]; rfl
    split at h
    · next h0 =>
      cases h
      refine ⟨by omega, fun _ => ?_⟩
      rw [hact, State.panelControl, hbody, h0]
      rfl
    · cases h
  case h_9 id rest hn hbody =>
    have hact : s.act b = s.tableLoad b := by rw [State.act, hn]; rfl
    have hid : byteAt b.body 0 = id := by rw [hbody]; rfl
    refine ⟨by omega, fun _ => ?_⟩
    rw [hact, State.tableLoad, hid]
    split at h
    · next h5 => cases h; rw [h5]; rfl
    · split at h
      · next h6 => cases h; rw [h6]; rfl
      · split at h
        · next h7 => cases h; rw [h7]; rfl
        · split at h
          · next h8 => cases h; rw [h8]; rfl
          · cases h
  case h_7 hn =>
    cases h
    exact ⟨by omega, fun _ => by rw [State.act, hn]; rfl⟩
  case h_10 => cases h
  all_goals
    next hn =>
      cases h
      exact ⟨fun _ => by rw [State.act, hn]; rfl, by omega⟩

/-- No block of kind 0 is of the render path. -/
theorem one_le_of_workKindOf {kind : Byte} {body : List Byte} {k : WorkKind} (h : workKindOf kind body = some k) :
    1 ≤ kind.toNat := by
  by_contra h0
  have hzero : kind.toNat = 0 := by omega
  unfold workKindOf at h
  split at h
  case h_10 => cases h
  all_goals omega

/-- Settles O11: the work item joins a queue with room, and a full queue loses it. -/
theorem renderBlockQueuedWithItsClass : Obligations.RenderBlockQueuedWithItsClass := by
  intro s h kind body k hk hacts
  have hexec : exec (.blockQueuedForRender h kind body) s =
      .next ((s.taken (blockOf h kind body)).act (blockOf h kind body)) :=
    congrArg Host.Outcome.next (receive_acts hacts)
  have hlo : 1 ≤ kind.toNat := one_le_of_workKindOf hk
  obtain ⟨hdraws, hother⟩ := (s.taken (blockOf h kind body)).act_queues (b := blockOf h kind body) hk
  rw [hexec]
  refine congrArg Host.Outcome.next ?_
  dsimp only
  by_cases hroom : s.ren.queue.length < 8
  · have hitem := State.queueItem_room (k := k) (b := blockOf h kind body) (s := s.taken (blockOf h kind body)) hroom
    rw [if_pos hroom]
    by_cases h6 : kind.toNat ≤ 6
    · rw [hdraws h6, if_pos ⟨hlo, h6⟩, hitem]
      rfl
    · rw [hother (Nat.lt_of_not_le h6), if_neg fun hboth => h6 hboth.2, hitem]
      rfl
  · have hitem := State.queueItem_full (k := k) (b := blockOf h kind body) (s := s.taken (blockOf h kind body)) hroom
    rw [if_neg hroom]
    by_cases h6 : kind.toNat ≤ 6
    · rw [hdraws h6, if_pos ⟨hlo, h6⟩, hitem]
      rfl
    · rw [hother (Nat.lt_of_not_le h6), if_neg fun hboth => h6 hboth.2, hitem]
      rfl

end Sys2Proof.Machine
end

