-- ==== Sys2Proof/Proofs/TableLoads.lean ====
section
/-! A TABLE-LOAD's range and the entries that it writes (R166), and the loads of ADDRESS, GROUPS, CHANNELS, KINDS and
WATCH. -/

namespace Sys2Proof.Machine

/-! ### The range of a load (R166, R175) -/

section
variable (id count : Byte) (first : BitVec 16) (bytes : List Byte)

theorem wordAt_load : wordAt (id :: loadRest first count bytes) 1 = first := wordBytes_append first

/-- A load's range judged: whether it goes beyond the table end, and the entries below the end. -/
theorem judgeLoad_eq (stop size : Nat) :
    judgeLoad stop size (id :: loadRest first count bytes) =
      { clipped := decide (min (first.toNat + count.toNat) stop - first.toNat < count.toNat)
        entries :=
          if bytes.length < (min (first.toNat + count.toNat) stop - first.toNat) * size then none
          else some (entriesFrom size (min (first.toNat + count.toNat) stop - first.toNat) first.toNat bytes) } := by
  rw [judgeLoad, wordAt_load]
  rfl

/-- A range that lies in the table and is carried by its body. -/
theorem judgeLoad_within {stop size : Nat} (hr : first.toNat + count.toNat ≤ stop)
    (hb : size * count.toNat ≤ bytes.length) :
    judgeLoad stop size (id :: loadRest first count bytes) =
      { clipped := false, entries := some (entriesFrom size count.toNat first.toNat bytes) } := by
  have hw : min (first.toNat + count.toNat) stop - first.toNat = count.toNat := by omega
  rw [judgeLoad_eq, hw, if_neg (by rw [Nat.mul_comm]; omega), decide_eq_false (Nat.lt_irrefl _)]

end

/-- A load in range is given its entries. -/
theorem State.applyLoad_within {id count : Byte} {first : BitVec 16} {bytes : List Byte} {stop size : Nat}
    (hr : first.toNat + count.toNat ≤ stop) (hb : size * count.toNat ≤ bytes.length)
    (write : List (Nat × List Byte) → State → State) (s : State) :
    s.applyLoad (judgeLoad stop size (id :: loadRest first count bytes)) write =
      write (entriesFrom size count.toNat first.toNat bytes) s := by
  rw [judgeLoad_within id count first bytes hr hb]
  rfl

/-! ### The entries that a load writes -/

/-- What a load leaves at place n of a table: where its entries are written one by one, each changing its own place alone,
the place's entry has been written if the place is in the range. -/
theorem foldl_entriesFrom {T V : Type} {write : T → Nat × List Byte → T} {get : T → V} {upd : List Byte → V → V}
    {n : Nat} (same : ∀ t bytes, get (write t (n, bytes)) = upd bytes (get t))
    (other : ∀ t m bytes, m ≠ n → get (write t (m, bytes)) = get t) (size count first : Nat) (bytes : List Byte) (t : T) :
    get ((entriesFrom size count first bytes).foldl write t) =
      if first ≤ n ∧ n < first + count then upd (entryBytes size first n bytes) (get t) else get t := by
  induction count generalizing first bytes t with
  | zero => exact (if_neg (by omega)).symm
  | succ c ih =>
    rw [entriesFrom, List.foldl_cons, ih]
    by_cases hn : first = n
    · subst hn
      rw [if_neg (by omega), if_pos (by omega), same, entryBytes, Nat.sub_self, Nat.mul_zero, List.drop_zero]
    · rw [other _ _ _ hn]
      by_cases hin : first + 1 ≤ n ∧ n < first + 1 + c
      · have hdrop : size + size * (n - (first + 1)) = size * (n - first) := by
          rw [show n - first = (n - (first + 1)) + 1 by omega, Nat.mul_succ, Nat.add_comm]
        rw [if_pos hin, if_pos (by omega), entryBytes, entryBytes, List.drop_drop, hdrop]
      · rw [if_neg hin, if_neg (by omega)]

/-- The places that a load writes. -/
theorem mem_entriesFrom {size count first : Nat} {bytes : List Byte} {n : Nat} :
    (∃ e ∈ entriesFrom size count first bytes, e.1 = n) ↔ first ≤ n ∧ n < first + count := by
  induction count generalizing first bytes with
  | zero =>
    simp only [entriesFrom, List.not_mem_nil, false_and, exists_false, false_iff]
    omega
  | succ c ih =>
    rw [entriesFrom, List.exists_mem_cons_iff, ih]
    dsimp only
    omega

/-- Entries written into a table of vectors: the places in the range are written, and no other. -/
theorem getElem_writeEntries {α : Type} {k : Nat} (rule : List Byte → α) (size count first : Nat) (bytes : List Byte)
    (t : Vector α k) (n : Fin k) :
    ((entriesFrom size count first bytes).foldl (fun t e => t.setIfInBounds e.1 (rule e.2)) t)[n] =
      if first ≤ n.val ∧ n.val < first + count then rule (entryBytes size first n.val bytes) else t[n] :=
  foldl_entriesFrom (get := fun u : Vector α k => u[n]) (upd := fun bytes _ => rule bytes)
    (fun u _ => Vector.getElem_setIfInBounds_self n.isLt)
    (fun u _ _ hm => Vector.getElem_setIfInBounds_ne n.isLt hm) size count first bytes t

/-! ### Table loads that are admitted -/

section
variable {s : State} {h : Header} {rest : List Byte} {id : Byte}

/-- An admitted TABLE-LOAD goes to the load of its table. -/
theorem receive_load (ha : s.Acts (blockOf h 11 (id :: rest))) :
    s.receive h 11 (id :: rest) =
      (s.taken (blockOf h 11 (id :: rest))).tableLoad (blockOf h 11 (id :: rest)) := receive_acts ha

end

/-! ### ADDRESS and GROUPS (R122, R124) -/

/-- The number formed anew: 0 under the service line, else the override where it is valid, else the straps (R120). -/
theorem Classifier.formNumber_eq (c : Classifier) :
    c.formNumber = { c with
      number := if c.serviceAccepted then 0 else if c.address.valid then c.address.number else c.strap
      source := if c.serviceAccepted then .service else if c.address.valid then .override else .straps } := by
  unfold Classifier.formNumber
  cases c.serviceAccepted
  · cases c.address.valid <;> rfl
  · rfl

/-- A list without its repeats, one element longer. -/
theorem eraseDups_concat {α : Type} [DecidableEq α] (l : List α) (a : α) :
    (l ++ [a]).eraseDups = if a ∈ l then l.eraseDups else l.eraseDups ++ [a] := by
  rw [List.eraseDups_append]
  by_cases h : a ∈ l <;> simp [List.removeAll, h, List.eraseDups_cons]

/-- The list of the numbers 0..63 among some bytes, in order, each once. -/
def groupNumbers (bytes : List Byte) : List (Fin 64) :=
  (bytes.filterMap fun b => if hb : b.toNat < 64 then some (⟨b.toNat, hb⟩ : Fin 64) else none).eraseDups

theorem groupNumbers_concat_large {bytes : List Byte} {b : Byte} (h : ¬ b.toNat < 64) :
    groupNumbers (bytes ++ [b]) = groupNumbers bytes := by
  rw [groupNumbers, List.filterMap_append, List.filterMap_cons_none (dif_neg h), List.filterMap_nil, List.append_nil]
  rfl

theorem groupNumbers_concat {bytes : List Byte} {b : Byte} (h : b.toNat < 64) :
    groupNumbers (bytes ++ [b]) =
      if (⟨b.toNat, h⟩ : Fin 64) ∈ groupNumbers bytes then groupNumbers bytes
      else groupNumbers bytes ++ [⟨b.toNat, h⟩] := by
  rw [groupNumbers, List.filterMap_append, List.filterMap_cons_some (dif_pos h), List.filterMap_nil, eraseDups_concat]
  exact if_congr List.mem_eraseDups.symm rfl rfl

/-- The group list that a load gives: the distinct numbers in order, eight at most, and whether there were more. -/
theorem groupsOf_eq (bytes : List Byte) :
    groupsOf bytes = ((groupNumbers bytes).take 8, decide (8 < (groupNumbers bytes).length)) := by
  induction bytes using List.reverseRecOn with
  | nil => rfl
  | append_singleton bytes b ih =>
    rw [groupsOf] at ih ⊢
    rw [List.foldl_append, ih, List.foldl_cons, List.foldl_nil]
    by_cases hb : b.toNat < 64
    · rw [dif_pos hb, groupNumbers_concat hb]
      generalize groupNumbers bytes = ns
      dsimp only
      by_cases hfull : ns.length ≤ 7
      · have htake : ns.take 8 = ns := List.take_of_length_le (by omega)
        rw [htake]
        by_cases hm : (⟨b.toNat, hb⟩ : Fin 64) ∈ ns
        · rw [if_pos hm, if_pos hm, htake]
        · rw [if_neg hm, if_neg hm, if_pos (show ns.length < Config.groupListCap by exact Nat.lt_succ_of_le hfull),
            List.take_of_length_le (by simp; omega)]
          simp
          omega
      · have hlen : ¬ (ns.take 8).length < Config.groupListCap := by simp; omega
        by_cases hm : (⟨b.toNat, hb⟩ : Fin 64) ∈ ns.take 8
        · rw [if_pos hm, if_pos (List.mem_of_mem_take hm)]
        · rw [if_neg hm, if_neg hlen]
          by_cases hm' : (⟨b.toNat, hb⟩ : Fin 64) ∈ ns
          · have hmore : 8 < ns.length := by
              by_contra hle
              exact hm (by rwa [List.take_of_length_le (by omega)])
            rw [if_pos hm', decide_eq_true hmore]
          · rw [if_neg hm', List.take_append_of_le_length (by omega), decide_eq_true (by simp; omega)]
    · rw [dif_neg hb, groupNumbers_concat_large hb]

/-- An ADDRESS load of entry 0 (R122). -/
theorem State.loadAddress_entry (flag number : Byte) (more : List Byte) (s : State) :
    s.loadAddress (0 :: loadRest 0 1 (flag :: number :: more)) =
      { s with cls := Classifier.formNumber { s.cls with
          address := ⟨flag.getLsbD 0, ⟨min number.toNat 31, by omega⟩⟩ } } := by
  rw [State.loadAddress, State.applyLoad_within (by decide) (by simp)]
  rfl

/-- Settles O12: the address load forms the number from its entry, and the group list is the distinct numbers. -/
theorem addressAndGroupsLoads : Obligations.AddressAndGroupsLoads := by
  intro s h
  refine ⟨fun flag number more ha => ?_, fun first count bytes ha => ?_⟩
  · have hexec : exec (.addressLoad h (loadRest 0 1 (flag :: number :: more))) s = .next
        ((s.taken (blockOf h 11 (0 :: loadRest 0 1 (flag :: number :: more)))).loadAddress
          (0 :: loadRest 0 1 (flag :: number :: more))) := congrArg Host.Outcome.next (receive_load ha)
    rw [State.loadAddress_entry, Classifier.formNumber_eq] at hexec
    refine ⟨_, hexec, rfl, rfl, fun hs => ?_, fun hs hf => ?_, fun hs hf => ?_, _, rfl, rfl⟩
    · simp only [State.taken_cls, Classifier.record_serviceAccepted, hs, if_true, and_self]
    · simp only [State.taken_cls, Classifier.record_serviceAccepted, hs, hf, Bool.false_eq_true, if_false, if_true,
        and_self]
    · simp only [State.taken_cls, Classifier.record_serviceAccepted, Classifier.record_strap, hs, hf,
        Bool.false_eq_true, if_false, and_self]
  · have hexec : exec (.groupsLoad h (loadRest first count bytes)) s = .next
        ((s.taken (blockOf h 11 (1 :: loadRest first count bytes))).loadGroups
          (1 :: loadRest first count bytes)) := congrArg Host.Outcome.next (receive_load ha)
    rw [hexec, State.loadGroups]
    dsimp only
    rw [groupsOf_eq]
    rfl

end Sys2Proof.Machine
end

