-- ==== Sys2Proof/Proofs/ClassifierTables.lean ====
section
/-! The loads of CHANNELS, KINDS and WATCH, entry by entry (R125, R126, R128). -/

namespace Sys2Proof.Machine

/-! ### Fields of bytes (R175) -/

/-- A byte's low field as a number. -/
theorem extractLsb'_low_eq_iff (b : Byte) {k : Nat} (v : BitVec k) :
    b.extractLsb' 0 k = v ↔ b.toNat % 2 ^ k = v.toNat := by
  rw [← BitVec.toNat_inj, BitVec.extractLsb'_toNat, Nat.shiftRight_zero]

/-- The URGENT code in bits 3..2 (R128). -/
theorem urgentCode_iff (b : Byte) : b.extractLsb' 2 2 = 1 ↔ (b.getLsbD 2 && !b.getLsbD 3) = true := by
  rw [← BitVec.toNat_inj, BitVec.extractLsb'_toNat, Bool.and_eq_true, Bool.not_eq_true', ← Bool.not_eq_true,
    BitVec.getLsbD, BitVec.getLsbD, Nat.testBit_eq_decide_div_mod_eq, Nat.testBit_eq_decide_div_mod_eq,
    decide_eq_true_eq, decide_eq_true_eq, Nat.shiftRight_eq_div_pow]
  simp only [BitVec.ofNat_eq_ofNat, BitVec.toNat_ofNat]
  omega

/-- A CHANNELS entry, field by field (R128). -/
theorem channelOfBytes_eq (bytes : List Byte) :
    channelOfBytes bytes =
      { member := (byteAt bytes 0).getLsbD 0, dedupe := (byteAt bytes 0).getLsbD 1
        forms := ⟨(byteAt bytes 0).getLsbD 4, (byteAt bytes 0).getLsbD 5, (byteAt bytes 0).getLsbD 6⟩
        cls := if (byteAt bytes 0).getLsbD 2 && !(byteAt bytes 0).getLsbD 3 then .urgent else .bulk
        windows := byteAt bytes 1 } := by
  rw [channelOfBytes, if_congr (urgentCode_iff _) rfl rfl]
  rfl

/-- A KINDS entry, field by field (R126). -/
theorem kindOfByte_eq (f : Byte) :
    kindOfByte f =
      { disposition :=
          if f.toNat % 8 = 0 then .act else if f.toNat % 8 = 1 then .hand
          else if f.toNat % 8 = 2 then .actAndHand else .discard
        bypass := f.getLsbD 3, forms := ⟨f.getLsbD 4, f.getLsbD 5, f.getLsbD 6⟩ } := by
  rw [kindOfByte, if_congr (extractLsb'_low_eq_iff f (0 : BitVec 3)) rfl rfl,
    if_congr (extractLsb'_low_eq_iff f (1 : BitVec 3)) rfl rfl, if_congr (extractLsb'_low_eq_iff f (2 : BitVec 3)) rfl rfl]
  rfl

/-- A WATCH entry's kind: a code of 32 or above leaves it unused (R125). -/
theorem watchOfBytes_kind (bytes : List Byte) :
    (watchOfBytes bytes).kind.map Fin.val = if (byteAt bytes 0).toNat < 32 then some (byteAt bytes 0).toNat else none := by
  rw [watchOfBytes]
  dsimp only
  split <;> rfl

/-! ### KINDS (R126) -/

/-- The kinds whose entry no load changes. -/
def KeptKind (n : Nat) : Prop := n = 0 ∨ n = 11 ∨ n = 12 ∨ n = 18

theorem protectedKind_iff (n : Nat) : protectedKind n = true ↔ n = 11 ∨ n = 12 ∨ n = 18 := by
  simp [protectedKind, or_assoc]

theorem writeKind_of_kept {e : Nat × List Byte} (h : KeptKind e.1) (t : Vector KindEntry 32) : writeKind t e = t :=
  if_pos (h.imp_right (protectedKind_iff e.1).mpr)

theorem writeKind_of_free {e : Nat × List Byte} (h : ¬ KeptKind e.1) (t : Vector KindEntry 32) :
    writeKind t e = t.setIfInBounds e.1 (kindOfByte (byteAt e.2 0)) :=
  if_neg fun hk => h (hk.imp_right (protectedKind_iff e.1).mp)

/-- A kind's entry after one entry of a load for another kind. -/
theorem getElem_writeKind_ne (t : Vector KindEntry 32) {m : Nat} (bytes : List Byte) {n : Fin 32} (h : m ≠ n.val) :
    (writeKind t (m, bytes))[n] = t[n] := by
  by_cases hk : KeptKind m
  · rw [writeKind_of_kept hk]
  · rw [writeKind_of_free hk]
    exact Vector.getElem_setIfInBounds_ne n.isLt h

/-- The kind table after a load, kind by kind. -/
theorem getElem_writeKinds (count first : Nat) (bytes : List Byte) (t : Vector KindEntry 32) (n : Fin 32) :
    (KeptKind n.val → ((entriesFrom 1 count first bytes).foldl writeKind t)[n] = t[n]) ∧
      (¬ KeptKind n.val → ((entriesFrom 1 count first bytes).foldl writeKind t)[n] =
        if first ≤ n.val ∧ n.val < first + count then kindOfByte (byteAt (entryBytes 1 first n.val bytes) 0)
        else t[n]) := by
  refine ⟨fun hk => ?_, fun hk => ?_⟩
  · refine (foldl_entriesFrom (get := fun u : Vector KindEntry 32 => u[n]) (upd := fun _ v => v) (fun u bytes => ?_)
      (fun u _ bytes hm => getElem_writeKind_ne u bytes hm) 1 count first bytes t).trans (ite_self _)
    exact congrArg (fun v : Vector KindEntry 32 => v[n]) (writeKind_of_kept (e := (n.val, bytes)) hk u)
  · refine foldl_entriesFrom (get := fun u : Vector KindEntry 32 => u[n])
      (upd := fun bytes _ => kindOfByte (byteAt bytes 0)) (fun u bytes => ?_)
      (fun u _ bytes hm => getElem_writeKind_ne u bytes hm) 1 count first bytes t
    show (writeKind u (n.val, bytes))[n] = _
    rw [writeKind_of_free hk]
    exact Vector.getElem_setIfInBounds_self n.isLt

/-- A load's range holds a protected kind. -/
theorem any_protectedKind (size count first : Nat) (bytes : List Byte) :
    (entriesFrom size count first bytes).any (fun e => protectedKind e.1) = true ↔
      ∃ n, (first ≤ n ∧ n < first + count) ∧ (n = 11 ∨ n = 12 ∨ n = 18) := by
  rw [List.any_eq_true]
  constructor
  · rintro ⟨e, he, hp⟩
    exact ⟨e.1, mem_entriesFrom.mp ⟨e, he, rfl⟩, (protectedKind_iff e.1).mp hp⟩
  · rintro ⟨n, hn, hp⟩
    obtain ⟨e, he, rfl⟩ := mem_entriesFrom (size := size) (bytes := bytes).mpr hn
    exact ⟨e, he, (protectedKind_iff e.1).mpr hp⟩

/-! ### The loads -/

section
variable {s : State} {id count : Byte} {first : BitVec 16} {bytes : List Byte}

theorem State.loadChannels_within (hr : first.toNat + count.toNat ≤ 64) (hb : 2 * count.toNat ≤ bytes.length) :
    s.loadChannels (id :: loadRest first count bytes) = { s with cls := { s.cls with
      channels := (entriesFrom 2 count.toNat first.toNat bytes).foldl
        (fun t e => t.setIfInBounds e.1 (channelOfBytes e.2)) s.cls.channels } } := by
  rw [State.loadChannels, State.applyLoad_within hr hb]

theorem State.loadKinds_within (hr : first.toNat + count.toNat ≤ 32) (hb : count.toNat ≤ bytes.length) :
    s.loadKinds (id :: loadRest first count bytes) =
      ({ s with cls := { s.cls with
        kinds := (entriesFrom 1 count.toNat first.toNat bytes).foldl writeKind s.cls.kinds } } : State).latchIf
        ((entriesFrom 1 count.toNat first.toNat bytes).any fun e => protectedKind e.1) .tableClipped := by
  rw [State.loadKinds, State.applyLoad_within hr (by omega)]

theorem State.loadWatch_within (hr : first.toNat + count.toNat ≤ 8) (hb : 2 * count.toNat ≤ bytes.length) :
    s.loadWatch (id :: loadRest first count bytes) = { s with cls := { s.cls with
      watch := (entriesFrom 2 count.toNat first.toNat bytes).foldl
        (fun t e => t.setIfInBounds e.1 (watchOfBytes e.2)) s.cls.watch } } := by
  rw [State.loadWatch, State.applyLoad_within hr hb]

end

/-- Settles O13: the three tables entry by entry. -/
theorem channelsKindsWatchLoads : Obligations.ChannelsKindsWatchLoads := by
  intro s h first count bytes
  dsimp only
  refine ⟨fun ha hr hb => ?_, fun ha hr hb => ?_, fun ha hr hb => ?_⟩
  · have hexec : exec (.channelsLoad h (loadRest first count bytes)) s = .next _ :=
      congrArg Host.Outcome.next ((receive_load ha).trans (State.loadChannels_within hr hb))
    refine ⟨_, _, hexec, rfl, rfl, fun n => ?_⟩
    dsimp only
    rw [getElem_writeEntries]
    exact ⟨fun hin => (if_pos hin).trans (channelOfBytes_eq _), fun hout => if_neg hout⟩
  · have hexec : exec (.kindsLoad h (loadRest first count bytes)) s = .next _ :=
      congrArg Host.Outcome.next ((receive_load ha).trans (State.loadKinds_within hr hb))
    have hany := any_protectedKind 1 count.toNat first.toNat bytes
    refine ⟨_, _, hexec, rfl, ?_, fun n => ?_, fun hin => ?_, fun hout => ?_⟩
    · cases (entriesFrom 1 count.toNat first.toNat bytes).any fun e => protectedKind e.1 <;> rfl
    · obtain ⟨hkept, hfree⟩ := getElem_writeKinds count.toNat first.toNat bytes s.cls.kinds n
      rw [State.latchIf_cls]
      refine ⟨fun ⟨hin, h0, hg⟩ => ?_, fun hout => ?_⟩
      · exact ((hfree (not_or.mpr ⟨h0, hg⟩)).trans (if_pos hin)).trans (kindOfByte_eq _)
      · by_cases hk : KeptKind n.val
        · exact hkept hk
        · exact (hfree hk).trans (if_neg (hout.resolve_right hk))
    · rw [State.latchIf_ev, if_pos (hany.mpr hin)]
    · rw [State.latchIf_ev, if_neg (mt hany.mp fun ⟨n, hn, hg⟩ => hout n hn hg)]
  · have hexec : exec (.watchLoad h (loadRest first count bytes)) s = .next _ :=
      congrArg Host.Outcome.next ((receive_load ha).trans (State.loadWatch_within hr hb))
    refine ⟨_, _, hexec, rfl, rfl, fun n => ?_⟩
    dsimp only
    rw [getElem_writeEntries]
    refine ⟨fun hin => ?_, fun hout => if_neg hout⟩
    rw [if_pos (show _ ∧ _ from hin)]
    exact ⟨watchOfBytes_kind _, rfl⟩

end Sys2Proof.Machine
end

