-- ==== Sys2Proof/Proofs/OwnerTables.lean ====
section
/-! The loads of PANEL, TOUCH, EVENTS and LINES, entry by entry (R75, R93, R107, R108, R147, R164). -/

namespace Sys2Proof.Machine

/-! ### PANEL (R75, R93) -/

/-- An entry of PANEL leaves the fields of the others. -/
theorem PanelTable.write_other (p : PanelTable) (m v : Nat) :
    (m ≠ 0 → (p.write m v).period = p.period) ∧ (m ≠ 1 → (p.write m v).settle = p.settle) ∧
      (m ≠ 2 → (p.write m v).retries = p.retries) ∧ (m ≠ 3 → (p.write m v).urgentLimit = p.urgentLimit) ∧
      (m ≠ 4 → (p.write m v).blankTimeout = p.blankTimeout) := by
  match m with
  | 0 | 1 | 2 | 3 | 4 | _ + 5 => simp [PanelTable.write]

/-- The PANEL table after a load. -/
def PanelTable.load (p : PanelTable) (count first : Nat) (bytes : List Byte) : PanelTable :=
  (entriesFrom 1 count first bytes).foldl (fun p e => p.write e.1 (byteAt e.2 0).toNat) p

/-- A field of PANEL after a load: its entry's value, or as it was. -/
theorem PanelTable.load_field {get : PanelTable → Nat} {clamp : Nat → Nat} {n : Nat}
    (same : ∀ p v, get (PanelTable.write p n v) = clamp v)
    (other : ∀ p m v, m ≠ n → get (PanelTable.write p m v) = get p) (p : PanelTable) (count first : Nat)
    (bytes : List Byte) :
    get (p.load count first bytes) =
      if first ≤ n ∧ n < first + count then clamp (byteAt (entryBytes 1 first n bytes) 0).toNat else get p :=
  foldl_entriesFrom (upd := fun bytes _ => clamp (byteAt bytes 0).toNat) (fun p bytes => same p (byteAt bytes 0).toNat)
    (fun p m bytes hm => other p m (byteAt bytes 0).toNat hm) 1 count first bytes p

section
variable (p : PanelTable) (count first : Nat) (bytes : List Byte)

theorem PanelTable.load_period : (p.load count first bytes).period =
    if first ≤ 0 ∧ 0 < first + count then max 20 (min (byteAt (entryBytes 1 first 0 bytes) 0).toNat 80) else p.period :=
  PanelTable.load_field (clamp := fun v => max 20 (min v 80)) (fun _ _ => rfl)
    (fun p m v => (p.write_other m v).1) p count first bytes

theorem PanelTable.load_settle : (p.load count first bytes).settle =
    if first ≤ 1 ∧ 1 < first + count then max 1 (min (byteAt (entryBytes 1 first 1 bytes) 0).toNat 8) else p.settle :=
  PanelTable.load_field (clamp := fun v => max 1 (min v 8)) (fun _ _ => rfl)
    (fun p m v => (p.write_other m v).2.1) p count first bytes

theorem PanelTable.load_retries : (p.load count first bytes).retries =
    if first ≤ 2 ∧ 2 < first + count then min (byteAt (entryBytes 1 first 2 bytes) 0).toNat 3 else p.retries :=
  PanelTable.load_field (clamp := fun v => min v 3) (fun _ _ => rfl)
    (fun p m v => (p.write_other m v).2.2.1) p count first bytes

theorem PanelTable.load_urgentLimit : (p.load count first bytes).urgentLimit =
    if first ≤ 3 ∧ 3 < first + count then max 1 (min (byteAt (entryBytes 1 first 3 bytes) 0).toNat 15)
    else p.urgentLimit :=
  PanelTable.load_field (clamp := fun v => max 1 (min v 15)) (fun _ _ => rfl)
    (fun p m v => (p.write_other m v).2.2.2.1) p count first bytes

theorem PanelTable.load_blankTimeout : (p.load count first bytes).blankTimeout =
    if first ≤ 4 ∧ 4 < first + count then (byteAt (entryBytes 1 first 4 bytes) 0).toNat else p.blankTimeout :=
  PanelTable.load_field (clamp := fun v => v) (fun _ _ => rfl)
    (fun p m v => (p.write_other m v).2.2.2.2) p count first bytes

end

/-! ### TOUCH (R107, R108) -/

/-- An entry of TOUCH leaves the fields of the others. -/
theorem TouchTable.write_other (t : TouchTable) (m : Nat) (b : List Byte) :
    (m ≠ 0 → (t.write m b).fitX = t.fitX) ∧ (m ≠ 1 → (t.write m b).fitY = t.fitY) ∧
      (m ≠ 2 → (t.write m b).debounce = t.debounce) ∧ (m ≠ 3 → (t.write m b).strays = t.strays) := by
  match m with
  | 0 | 1 | 2 | 3 | _ + 4 => simp [TouchTable.write]

/-- The TOUCH table after a load. -/
def TouchTable.load (t : TouchTable) (count first : Nat) (bytes : List Byte) : TouchTable :=
  (entriesFrom 2 count first bytes).foldl (fun t e => t.write e.1 e.2) t

section
variable (t : TouchTable) (count first : Nat) (bytes : List Byte)

theorem TouchTable.load_fitX : (t.load count first bytes).fitX =
    if first ≤ 0 ∧ 0 < first + count then wordAt (entryBytes 2 first 0 bytes) 0 else t.fitX :=
  foldl_entriesFrom (upd := fun b _ => wordAt b 0) (fun _ _ => rfl) (fun t m b => (t.write_other m b).1) 2 count first
    bytes t

theorem TouchTable.load_fitY : (t.load count first bytes).fitY =
    if first ≤ 1 ∧ 1 < first + count then wordAt (entryBytes 2 first 1 bytes) 0 else t.fitY :=
  foldl_entriesFrom (upd := fun b _ => wordAt b 0) (fun _ _ => rfl) (fun t m b => (t.write_other m b).2.1) 2 count first
    bytes t

theorem TouchTable.load_debounce : (t.load count first bytes).debounce =
    if first ≤ 2 ∧ 2 < first + count then max 1 (min (byteAt (entryBytes 2 first 2 bytes) 1).toNat 15)
    else t.debounce :=
  foldl_entriesFrom (upd := fun b _ => max 1 (min (byteAt b 1).toNat 15)) (fun _ _ => rfl)
    (fun t m b => (t.write_other m b).2.2.1) 2 count first bytes t

theorem TouchTable.load_strays : (t.load count first bytes).strays =
    if first ≤ 3 ∧ 3 < first + count then (byteAt (entryBytes 2 first 3 bytes) 1).getLsbD 0 else t.strays :=
  foldl_entriesFrom (upd := fun b _ => (byteAt b 1).getLsbD 0) (fun _ _ => rfl)
    (fun t m b => (t.write_other m b).2.2.2) 2 count first bytes t

end

/-- A beam taken out of a mask becomes unbroken with count 0, and the others stay (R108). -/
theorem getElem_unfit (old new : BitVec 16) (beams : Vector Beam 16) (n : Fin 16) :
    (unfit old new beams)[n] =
      if old.getLsbD n.val = true ∧ new.getLsbD n.val = false then ⟨false, 0⟩ else beams[n] := by
  have hbeam : (unfit old new beams)[n] =
      if old.getLsbD n.val && !new.getLsbD n.val then ⟨false, 0⟩ else beams[n] := getElem_tabulate _ n.val n.isLt
  rw [hbeam]
  exact if_congr (by rw [Bool.and_eq_true, Bool.not_eq_true']) rfl rfl

section
variable {s : State} {id count : Byte} {first : BitVec 16} {bytes : List Byte}

theorem State.loadPanel_within (hr : first.toNat + count.toNat ≤ 5) (hb : count.toNat ≤ bytes.length) :
    s.loadPanel (id :: loadRest first count bytes) =
      { s with seq := { s.seq with panel := s.seq.panel.load count.toNat first.toNat bytes } } := by
  rw [State.loadPanel, State.applyLoad_within hr (by omega)]
  rfl

theorem State.loadTouch_within (hr : first.toNat + count.toNat ≤ 4) (hb : 2 * count.toNat ≤ bytes.length) :
    s.loadTouch (id :: loadRest first count bytes) =
      { s with touch := s.touch.setTable (s.touch.table.load count.toNat first.toNat bytes) } := by
  rw [State.loadTouch, State.applyLoad_within hr hb]
  rfl

end

/-- Settles O14: the two tables field by field. -/
theorem panelAndTouchLoads : Obligations.PanelAndTouchLoads := by
  intro s h first count bytes
  refine ⟨fun ha hr hb => ?_, fun ha hr hb => ?_⟩
  · have hexec : exec (.panelLoad h (loadRest first count bytes)) s = .next _ :=
      congrArg Host.Outcome.next ((receive_load ha).trans (State.loadPanel_within hr hb))
    refine ⟨_, _, hexec, rfl, rfl, fun n hin => ?_, fun hout => ?_, fun hout => ?_, fun hout => ?_, fun hout => ?_,
      fun hout => ?_⟩
    · refine ⟨?_, ?_, ?_, ?_, ?_⟩ <;> rintro rfl
      · exact (PanelTable.load_period ..).trans (if_pos hin)
      · exact (PanelTable.load_settle ..).trans (if_pos hin)
      · exact (PanelTable.load_retries ..).trans (if_pos hin)
      · exact (PanelTable.load_urgentLimit ..).trans (if_pos hin)
      · exact (PanelTable.load_blankTimeout ..).trans (if_pos hin)
    · exact (PanelTable.load_period ..).trans (if_neg hout)
    · exact (PanelTable.load_settle ..).trans (if_neg hout)
    · exact (PanelTable.load_retries ..).trans (if_neg hout)
    · exact (PanelTable.load_urgentLimit ..).trans (if_neg hout)
    · exact (PanelTable.load_blankTimeout ..).trans (if_neg hout)
  · have hexec : exec (.touchLoad h (loadRest first count bytes)) s = .next _ :=
      congrArg Host.Outcome.next ((receive_load ha).trans (State.loadTouch_within hr hb))
    refine ⟨_, _, hexec, rfl, rfl, fun n hin => ?_, fun hout => ?_, fun hout => ?_, fun hout => ?_, fun hout => ?_,
      fun n => ⟨getElem_unfit _ _ _ n, getElem_unfit _ _ _ n⟩⟩
    · refine ⟨?_, ?_, ?_, ?_⟩ <;> rintro rfl
      · exact (TouchTable.load_fitX ..).trans (if_pos hin)
      · exact (TouchTable.load_fitY ..).trans (if_pos hin)
      · exact (TouchTable.load_debounce ..).trans (if_pos hin)
      · exact (TouchTable.load_strays ..).trans (if_pos hin)
    · exact (TouchTable.load_fitX ..).trans (if_neg hout)
    · exact (TouchTable.load_fitY ..).trans (if_neg hout)
    · exact (TouchTable.load_debounce ..).trans (if_neg hout)
    · exact (TouchTable.load_strays ..).trans (if_neg hout)

/-! ### EVENTS (R147) -/

/-- The EVENTS table after a load. -/
def EventTable.load (t : EventTable) (count first : Nat) (bytes : List Byte) : EventTable :=
  (entriesFrom 1 count first bytes).foldl (fun t e => t.write e.1 (byteAt e.2 0)) t

theorem EventTable.write_mask (t : EventTable) {m : Nat} (b : Byte) {n : Nat} (hn : n < 32) :
    (t.write m b).mask.getLsbD n = if n = m then b.getLsbD 0 else t.mask.getLsbD n := by
  by_cases hm : m < 32
  · rw [EventTable.write, if_pos hm]
    exact getLsbD_withEventBit t.mask m _ hn
  · rw [EventTable.write, if_neg hm]
    exact (if_neg (by omega)).symm

theorem EventTable.write_edges (t : EventTable) {m : Nat} (b : Byte) (n : Fin 8) :
    (t.write m b).edges[n] = if m = 32 + n.val then (if b = 0 then .rise else .both) else t.edges[n] := by
  by_cases hm : m < 32
  · rw [EventTable.write, if_pos hm, if_neg (by omega)]
  · rw [EventTable.write, if_neg hm]
    by_cases hn : m = 32 + n.val
    · rw [if_pos hn, hn, Nat.add_sub_cancel_left]
      exact Vector.getElem_setIfInBounds_self n.isLt
    · rw [if_neg hn]
      exact Vector.getElem_setIfInBounds_ne n.isLt (by omega)

theorem EventTable.load_mask (t : EventTable) (count first : Nat) (bytes : List Byte) {n : Nat} (hn : n < 32) :
    (t.load count first bytes).mask.getLsbD n =
      if first ≤ n ∧ n < first + count then (byteAt (entryBytes 1 first n bytes) 0).getLsbD 0 else t.mask.getLsbD n := by
  have same (t : EventTable) (b : List Byte) : (t.write n (byteAt b 0)).mask.getLsbD n = (byteAt b 0).getLsbD 0 :=
    (t.write_mask _ hn).trans (if_pos rfl)
  have other (t : EventTable) (m : Nat) (b : List Byte) (hm : m ≠ n) :
      (t.write m (byteAt b 0)).mask.getLsbD n = t.mask.getLsbD n :=
    (t.write_mask _ hn).trans (if_neg (Ne.symm hm))
  exact foldl_entriesFrom (write := fun t e => t.write e.1 (byteAt e.2 0)) (get := fun t : EventTable => t.mask.getLsbD n)
    (upd := fun b _ => (byteAt b 0).getLsbD 0) same other 1 count first bytes t

theorem EventTable.load_edges (t : EventTable) (count first : Nat) (bytes : List Byte) (n : Fin 8) :
    (t.load count first bytes).edges[n] =
      if first ≤ 32 + n.val ∧ 32 + n.val < first + count then
        (if byteAt (entryBytes 1 first (32 + n.val) bytes) 0 = 0 then .rise else .both)
      else t.edges[n] := by
  have same (t : EventTable) (b : List Byte) : (t.write (32 + n.val) (byteAt b 0)).edges[n] =
      if byteAt b 0 = 0 then .rise else .both := (t.write_edges _ n).trans (if_pos rfl)
  have other (t : EventTable) (m : Nat) (b : List Byte) (hm : m ≠ 32 + n.val) :
      (t.write m (byteAt b 0)).edges[n] = t.edges[n] := (t.write_edges _ n).trans (if_neg hm)
  exact foldl_entriesFrom (write := fun t e => t.write e.1 (byteAt e.2 0)) (get := fun t : EventTable => t.edges[n])
    (upd := fun b _ => if byteAt b 0 = 0 then .rise else .both) same other 1 count first bytes t

theorem State.loadEvents_within {s : State} {id count : Byte} {first : BitVec 16} {bytes : List Byte}
    (hr : first.toNat + count.toNat ≤ 40) (hb : count.toNat ≤ bytes.length) :
    s.loadEvents (id :: loadRest first count bytes) =
      { s with ev := s.ev.setTable (s.ev.table.load count.toNat first.toNat bytes) } := by
  rw [State.loadEvents, State.applyLoad_within hr (by omega)]
  rfl

/-! ### LINES (R161, R164) -/

/-- A LINES entry, field by field (R164). -/
theorem lineOfByte_eq (n : Nat) (b : Byte) :
    lineOfByte n b =
      { config := if b.toNat % 4 = 1 then .output else if b.toNat % 4 = 2 ∧ n = 3 then .attention else .input
        report := b.getLsbD 2, latchDefault := b.getLsbD 3 } := by
  have hcode : (b.extractLsb' 0 2 = 2 && n == 3) = true ↔ b.toNat % 4 = 2 ∧ n = 3 := by
    rw [Bool.and_eq_true, decide_eq_true_eq, beq_iff_eq, extractLsb'_low_eq_iff b (2 : BitVec 2)]
    rfl
  rw [lineOfByte, if_congr (extractLsb'_low_eq_iff b (1 : BitVec 2)) rfl (if_congr hcode rfl rfl)]
  rfl

/-- A line with its LINES entry changed: from INPUT its accepted level becomes low, to INPUT its last sample is cleared
too. -/
def SignalLine.configured (e : LineEntry) (l : SignalLine) : SignalLine :=
  if l.entry.config = e.config then { l with entry := e }
  else if l.entry.config = .input then { l with entry := e, accepted := false }
  else if e.config = .input then { l with entry := e, accepted := false, lastSample := none }
  else { l with entry := e }

/-- A line configured anew: its record, and LINE-IN false where it leaves INPUT. -/
theorem State.configureLine_eq (n : Fin 4) (e : LineEntry) (s : State) :
    s.configureLine n e = { s with
      lines := s.lines.set n (s.lines[n].configured e)
      ev := if s.lines[n].entry.config = .input ∧ e.config ≠ .input then s.ev.setLevel (.lineIn n) false else s.ev } := by
  unfold State.configureLine SignalLine.configured
  dsimp only
  by_cases hsame : s.lines[n].entry.config = e.config
  · have hstays : ¬ (s.lines[n].entry.config = .input ∧ e.config ≠ .input) := fun h => h.2 (hsame ▸ h.1)
    rw [if_pos hsame, if_pos hsame, if_neg hstays]
    rfl
  · rw [if_neg hsame, if_neg hsame]
    split
    · next hin =>
      rw [if_pos hin, if_pos ⟨hin, fun he => hsame (hin.trans he.symm)⟩]
      rfl
    all_goals
      next hout =>
      have hne : s.lines[n].entry.config ≠ .input := by rw [hout]; decide
      rw [if_neg hne, if_neg fun h => hne h.1]
      split
      · next he => rw [if_pos he]; rfl
      all_goals next he => rw [if_neg (by rw [he]; decide)]; rfl

/-- What one line's configuration sees and writes: the line, its LINE-IN raw value and latched status, and the tables that
say what latches. -/
structure LineView where
  line : SignalLine
  raw : Bool
  latched : Bool
  table : EventTable

/-- What of the state belongs to line n. -/
def State.lineView (n : Fin 4) (s : State) : LineView :=
  ⟨s.lines[n], s.ev.raw.getLsbD (4 + n.val), s.ev.latched.getLsbD (4 + n.val), s.ev.table⟩

/-- Line n's view after its LINES entry has been written (R164, R145). -/
def LineView.configured (n : Fin 4) (e : LineEntry) (v : LineView) : LineView :=
  if v.line.entry.config = .input ∧ e.config ≠ .input then
    { line := v.line.configured e, raw := false
      latched := v.latched ||
        (v.raw && v.table.mask.getLsbD (4 + n.val) && v.table.edges.getD (4 + n.val) .both == .both)
      table := v.table }
  else { v with line := v.line.configured e }

theorem LineView.configured_line (n : Fin 4) (e : LineEntry) (v : LineView) :
    (v.configured n e).line = v.line.configured e := by
  unfold LineView.configured
  split <;> rfl

theorem LineView.configured_leaves {n : Fin 4} {e : LineEntry} {v : LineView}
    (h : v.line.entry.config = .input ∧ e.config ≠ .input) :
    (v.configured n e).raw = false ∧ (v.configured n e).latched = (v.latched ||
      (v.raw && v.table.mask.getLsbD (4 + n.val) && v.table.edges.getD (4 + n.val) .both == .both)) := by
  rw [LineView.configured, if_pos h]
  exact ⟨rfl, rfl⟩

theorem LineView.configured_stays {n : Fin 4} {e : LineEntry} {v : LineView}
    (h : ¬ (v.line.entry.config = .input ∧ e.config ≠ .input)) :
    (v.configured n e).raw = v.raw ∧ (v.configured n e).latched = v.latched := by
  rw [LineView.configured, if_neg h]
  exact ⟨rfl, rfl⟩

theorem State.lineView_configureLine (n : Fin 4) (e : LineEntry) (s : State) :
    (s.configureLine n e).lineView n = (s.lineView n).configured n e := by
  have hn : 4 + n.val < 32 := by omega
  have hline : (s.lines.set n (s.lines[n].configured e))[n] = s.lines[n].configured e := Vector.getElem_set_self n.isLt
  rw [State.configureLine_eq, State.lineView, LineView.configured, State.lineView]
  dsimp only
  rw [hline]
  split
  · rw [EventUnit.getLsbD_setLevel_raw _ _ _ hn, EventUnit.getLsbD_setLevel_latched _ _ _ hn]
    simp [LevelEvent.num]
  · rfl

theorem State.lineView_configureLine_ne {m n : Fin 4} (h : m ≠ n) (e : LineEntry) (s : State) :
    (s.configureLine m e).lineView n = s.lineView n := by
  have hn : 4 + n.val < 32 := by omega
  have hne : n.val ≠ m.val := fun hnm => h (Fin.ext hnm.symm)
  have hline : (s.lines.set m (s.lines[m].configured e))[n] = s.lines[n] := Vector.getElem_set_ne m.isLt n.isLt (by omega)
  rw [State.configureLine_eq, State.lineView, State.lineView]
  dsimp only
  rw [hline]
  split
  · rw [EventUnit.getLsbD_setLevel_raw _ _ _ hn, EventUnit.getLsbD_setLevel_latched _ _ _ hn]
    simp [LevelEvent.num, hne]
  · rfl

/-- Line n's view after a load of LINES. -/
theorem State.lineView_writeLines (n : Fin 4) (count first : Nat) (bytes : List Byte) (s : State) :
    ((entriesFrom 1 count first bytes).foldl State.writeLine s).lineView n =
      if first ≤ n.val ∧ n.val < first + count then
        (s.lineView n).configured n (lineOfByte n.val (byteAt (entryBytes 1 first n.val bytes) 0))
      else s.lineView n := by
  have same (t : State) (b : List Byte) : (t.writeLine (n.val, b)).lineView n =
      (t.lineView n).configured n (lineOfByte n.val (byteAt b 0)) := by
    rw [State.writeLine, dif_pos n.isLt]
    exact t.lineView_configureLine n _
  have other (t : State) (m : Nat) (b : List Byte) (hm : m ≠ n.val) : (t.writeLine (m, b)).lineView n = t.lineView n := by
    unfold State.writeLine
    split
    · exact State.lineView_configureLine_ne (fun h => hm (congrArg Fin.val h)) _ t
    · rfl
  exact foldl_entriesFrom (get := State.lineView n)
    (upd := fun b v => v.configured n (lineOfByte n.val (byteAt b 0))) same other 1 count first bytes s

/-- A LINES entry writes the lines and the events 4..7 alone. -/
theorem State.writeLine_frame (e : Nat × List Byte) (s : State) :
    s.writeLine e = { s with lines := (s.writeLine e).lines, ev := (s.writeLine e).ev } ∧
      (s.writeLine e).ev.table = s.ev.table ∧ (s.writeLine e).ev.lastWatch = s.ev.lastWatch ∧
      ∀ k, k < 32 → k < 4 ∨ 8 ≤ k → (s.writeLine e).ev.raw.getLsbD k = s.ev.raw.getLsbD k ∧
        (s.writeLine e).ev.latched.getLsbD k = s.ev.latched.getLsbD k := by
  unfold State.writeLine
  split
  · next hm =>
    rw [State.configureLine_eq]
    refine ⟨rfl, ?_⟩
    dsimp only
    split
    · refine ⟨EventUnit.setLevel_table .., EventUnit.setLevel_lastWatch .., fun k hk hout => ?_⟩
      have hne : k ≠ 4 + e.1 := by omega
      rw [EventUnit.getLsbD_setLevel_raw _ _ _ hk, EventUnit.getLsbD_setLevel_latched _ _ _ hk]
      simp [LevelEvent.num, hne]
    · exact ⟨rfl, rfl, fun _ _ _ => ⟨rfl, rfl⟩⟩
  · exact ⟨rfl, rfl, rfl, fun _ _ _ => ⟨rfl, rfl⟩⟩

/-- A load of LINES writes the lines and the events 4..7 alone. -/
theorem State.writeLines_frame (es : List (Nat × List Byte)) (s : State) :
    es.foldl State.writeLine s =
        { s with lines := (es.foldl State.writeLine s).lines, ev := (es.foldl State.writeLine s).ev } ∧
      (es.foldl State.writeLine s).ev.table = s.ev.table ∧
      (es.foldl State.writeLine s).ev.lastWatch = s.ev.lastWatch ∧
      ∀ k, k < 32 → k < 4 ∨ 8 ≤ k → (es.foldl State.writeLine s).ev.raw.getLsbD k = s.ev.raw.getLsbD k ∧
        (es.foldl State.writeLine s).ev.latched.getLsbD k = s.ev.latched.getLsbD k := by
  induction es generalizing s with
  | nil => exact ⟨rfl, rfl, rfl, fun _ _ _ => ⟨rfl, rfl⟩⟩
  | cons e es ih =>
    obtain ⟨hframe, htable, hlast, hbits⟩ := s.writeLine_frame e
    obtain ⟨hframe', htable', hlast', hbits'⟩ := ih (s.writeLine e)
    rw [List.foldl_cons]
    refine ⟨?_, htable'.trans htable, hlast'.trans hlast, fun k hk hout => ?_⟩
    · rw [hframe', hframe]
    · obtain ⟨hraw, hlatched⟩ := hbits k hk hout
      obtain ⟨hraw', hlatched'⟩ := hbits' k hk hout
      exact ⟨hraw'.trans hraw, hlatched'.trans hlatched⟩

theorem State.loadLines_within {s : State} {id count : Byte} {first : BitVec 16} {bytes : List Byte}
    (hr : first.toNat + count.toNat ≤ 4) (hb : count.toNat ≤ bytes.length) :
    s.loadLines (id :: loadRest first count bytes) =
      (entriesFrom 1 count.toNat first.toNat bytes).foldl State.writeLine s := by
  rw [State.loadLines, State.applyLoad_within hr (by omega)]

/-- Settles O15: the event tables entry by entry, and the lines with their events line by line. -/
theorem eventsAndLinesLoads : Obligations.EventsAndLinesLoads := by
  intro s h first count bytes
  refine ⟨fun ha hr hb => ?_, fun ha hr hb => ?_⟩
  · have hexec : exec (.eventsLoad h (loadRest first count bytes)) s = .next _ :=
      congrArg Host.Outcome.next ((receive_load ha).trans (State.loadEvents_within hr hb))
    have htable : (s.taken (blockOf h 11 (11 :: loadRest first count bytes))).ev.table = s.ev.table :=
      EventUnit.setLevel_table _ _ _
    refine ⟨_, _, hexec, rfl, rfl, fun n hn => ⟨fun hin => ?_, fun hout => ?_⟩, fun n => ⟨fun hin => ?_, fun hout => ?_⟩⟩
    · exact (EventTable.load_mask _ _ _ _ hn).trans (if_pos hin)
    · rw [← htable]
      exact (EventTable.load_mask _ _ _ _ hn).trans (if_neg hout)
    · exact (EventTable.load_edges _ _ _ _ n).trans (if_pos hin)
    · rw [← htable]
      exact (EventTable.load_edges _ _ _ _ n).trans (if_neg hout)
  · have hexec : exec (.linesLoad h (loadRest first count bytes)) s = .next _ :=
      congrArg Host.Outcome.next ((receive_load ha).trans (State.loadLines_within hr hb))
    obtain ⟨hframe, htable, hlast, hbits⟩ := State.writeLines_frame (entriesFrom 1 count.toNat first.toNat bytes)
      (s.taken (blockOf h 11 (12 :: loadRest first count bytes)))
    have hview (n : Fin 4) := State.lineView_writeLines n count.toNat first.toNat bytes
      (s.taken (blockOf h 11 (12 :: loadRest first count bytes)))
    have hattention (ha : s.AttentionExact) := ((nextClearsOnly_exec _ s).of_eq hexec).attention ha
    refine ⟨_, _, hexec, rfl, hframe, ?_⟩
    generalize (entriesFrom 1 count.toNat first.toNat bytes).foldl State.writeLine
      (s.taken (blockOf h 11 (12 :: loadRest first count bytes))) = t at *
    simp only [lineOfByte_eq] at hview
    refine ⟨fun n => ?_, fun m hm => ?_, htable, hlast, hattention⟩
    · have hline (e : LineEntry) (v : LineView) (hv : t.lineView n = v.configured n e) :
          t.lines[n] = v.line.configured e := (congrArg LineView.line hv).trans (v.configured_line n e)
      refine ⟨fun hout => ?_, fun hin he => ?_, fun hin he hi => ?_, fun hin he hi => ?_, fun hin he hl hi => ?_⟩
      · exact congrArg LineView.line ((hview n).trans (if_neg hout))
      · exact (hline _ _ ((hview n).trans (if_pos hin))).trans (if_pos he.symm)
      · exact (hline _ _ ((hview n).trans (if_pos hin))).trans ((if_neg (Ne.symm he)).trans (if_pos hi))
      · refine (hline _ _ ((hview n).trans (if_pos hin))).trans ((if_neg (Ne.symm he)).trans ?_)
        exact (if_neg fun hl => he (hi.trans hl.symm)).trans (if_pos hi)
      · refine (hline _ _ ((hview n).trans (if_pos hin))).trans ((if_neg (Ne.symm he)).trans ?_)
        exact (if_neg hl).trans (if_neg hi)
    · refine ⟨?_, fun hstays => ?_⟩
      · rintro ⟨n, rfl, hin, hl, he⟩
        obtain ⟨hraw, hlatched⟩ := LineView.configured_leaves (n := n)
          (v := State.lineView n (s.taken (blockOf h 11 (12 :: loadRest first count bytes)))) ⟨hl, he⟩
        have hv := (hview n).trans (if_pos hin)
        exact ⟨(congrArg LineView.raw hv).trans hraw, (congrArg LineView.latched hv).trans hlatched⟩
      · by_cases hline : 4 ≤ m ∧ m < 8
        · obtain ⟨n, rfl⟩ : ∃ n : Fin 4, m = 4 + n.val := ⟨⟨m - 4, by omega⟩, by dsimp only; omega⟩
          have hsame : t.lineView n = State.lineView n (s.taken (blockOf h 11 (12 :: loadRest first count bytes))) ∨
            ∃ e, t.lineView n = LineView.configured n e
              (State.lineView n (s.taken (blockOf h 11 (12 :: loadRest first count bytes)))) ∧
              ¬ (s.lines[n].entry.config = .input ∧ e.config ≠ .input) := by
            by_cases hin : Loaded first count n.val
            · exact .inr ⟨_, (hview n).trans (if_pos hin), fun hl => hstays ⟨n, rfl, hin, hl⟩⟩
            · exact .inl ((hview n).trans (if_neg hin))
          rcases hsame with hv | ⟨e, hv, hno⟩
          · exact ⟨congrArg LineView.raw hv, congrArg LineView.latched hv⟩
          · obtain ⟨hraw, hlatched⟩ := LineView.configured_stays (n := n) (e := e)
              (v := State.lineView n (s.taken (blockOf h 11 (12 :: loadRest first count bytes)))) hno
            exact ⟨(congrArg LineView.raw hv).trans hraw, (congrArg LineView.latched hv).trans hlatched⟩
        · exact hbits m hm (by omega)

end Sys2Proof.Machine
end

