-- ==== Sys2Proof/Proofs/LoadRange.lean ====
section
/-! The judgement of a load's range (R166): what is refused, what is cut at the table end, and the undefined ids. -/

namespace Sys2Proof.Machine

/-! ### A level event and an edge event do not disturb each other -/

theorem EdgeEvent.num_ge (e : EdgeEvent) : 8 ≤ e.num ∧ e.num < 32 := by
  cases e <;> decide

/-- An edge event leaves the raw values of the level events. -/
theorem EventUnit.occur_raw_level (e : EdgeEvent) (l : LevelEvent) (u : EventUnit) :
    (u.occur e).raw.getLsbD l.num = u.raw.getLsbD l.num := by
  have hne : l.num ≠ e.num := fun h => absurd l.num_lt (by have := e.num_ge; omega)
  have hlt : l.num < 32 := Nat.lt_trans l.num_lt (by decide)
  rw [EventUnit.occur_raw, getLsbD_or_eventBit _ hlt, beq_false_of_ne hne, Bool.false_or]

/-- An occurrence before a level event's change comes to the same as one after it. -/
theorem EventUnit.setLevel_occur (e : EdgeEvent) (l : LevelEvent) (v : Bool) (u : EventUnit) :
    (u.occur e).setLevel l v = (u.setLevel l v).occur e := by
  by_cases h : u.raw.getLsbD l.num = v
  · rw [EventUnit.setLevel_same h, EventUnit.setLevel_same ((u.occur_raw_level e l).trans h)]
  · rw [EventUnit.setLevel_change h, EventUnit.setLevel_change (by rwa [EventUnit.occur_raw_level])]
    have hraw : withEventBit (u.raw ||| eventBit e.num) l.num v = withEventBit u.raw l.num v ||| eventBit e.num := by
      refine BitVec.eq_of_getLsbD_eq fun n hn => ?_
      rw [getLsbD_withEventBit _ _ _ hn, getLsbD_or_eventBit _ hn, getLsbD_or_eventBit _ hn,
        getLsbD_withEventBit _ _ _ hn]
      have hl := l.num_lt
      have he := e.num_ge
      by_cases hnl : n = l.num
      · rw [if_pos hnl, if_pos hnl, beq_false_of_ne (by omega), Bool.false_or]
      · rw [if_neg hnl, if_neg hnl]
    have hlatched (c d : Bool) (x : BitVec 32) :
        (if c then (if d then x ||| eventBit e.num else x) ||| eventBit l.num
          else if d then x ||| eventBit e.num else x) =
        if d then (if c then x ||| eventBit l.num else x) ||| eventBit e.num
          else if c then x ||| eventBit l.num else x := by
      cases c <;> cases d <;> simp [BitVec.or_assoc, BitVec.or_comm (eventBit l.num)]
    calc
      _ = ({ u with raw := withEventBit (u.raw ||| eventBit e.num) l.num v } : EventUnit).withLatched
            (if u.covers l v then
              (if u.table.mask.getLsbD e.num then u.latched ||| eventBit e.num else u.latched) ||| eventBit l.num
            else if u.table.mask.getLsbD e.num then u.latched ||| eventBit e.num else u.latched) := rfl
      _ = ({ u with raw := withEventBit u.raw l.num v ||| eventBit e.num } : EventUnit).withLatched
            (if u.table.mask.getLsbD e.num then
              (if u.covers l v then u.latched ||| eventBit l.num else u.latched) ||| eventBit e.num
            else if u.covers l v then u.latched ||| eventBit l.num else u.latched) := by rw [hraw, hlatched]
      _ = _ := rfl

/-- A block taken after an edge event is the block taken, then the event. -/
theorem State.taken_latch (e : EdgeEvent) (b : Block) (s : State) : (s.latch e).taken b = (s.taken b).latch e := by
  have hev : (s.ev.occur e).setLevel .linePresent true = (s.ev.setLevel .linePresent true).occur e :=
    s.ev.setLevel_occur e .linePresent true
  show ({ s.taken b with ev := (s.ev.occur e).setLevel .linePresent true } : State) = _
  rw [hev]
  rfl

/-! ### The loads that are written entry by entry at arrival -/

/-- No beam is taken out of a mask that stays. -/
theorem unfit_self (m : BitVec 16) (beams : Vector Beam 16) : unfit m m beams = beams := by
  refine Vector.ext fun n hn => ?_
  have hbeam := getElem_unfit m m beams ⟨n, hn⟩
  rw [if_neg fun h => Bool.noConfusion (h.1.symm.trans h.2)] at hbeam
  exact hbeam

/-- Each of these tables is written by R166's judgement of the range, and a load with no entry writes nothing; an ADDRESS
load forms the number again in any case. -/
theorem tableLoad_arrival {id : Byte} {stop size : Nat} (h : arrivalTable id = some (stop, size)) :
    ∃ write : List (Nat × List Byte) → State → State,
      (∀ (s : State) (b : Block), byteAt b.body 0 = id →
        s.tableLoad b = s.applyLoad (judgeLoad stop size b.body) write) ∧
      (id ≠ 0 → ∀ s, write [] s = s) := by
  unfold arrivalTable at h
  split at h
  case h_9 => cases h
  case h_1 hid =>
    cases h
    exact ⟨_, fun s b hb => by rw [State.tableLoad, hb, hid]; rfl, fun h0 => absurd (BitVec.eq_of_toNat_eq hid) h0⟩
  case h_6 hid =>
    cases h
    refine ⟨_, fun s b hb => by rw [State.tableLoad, hb, hid]; rfl, fun _ s => ?_⟩
    show ({ s with touch := s.touch.setTable s.touch.table } : State) = s
    rw [Touch.setTable, unfit_self, unfit_self]
  all_goals
    next hid =>
    cases h
    exact ⟨_, fun s b hb => by rw [State.tableLoad, hb, hid]; rfl, fun _ _ => rfl⟩

/-! ### Cut and refused loads (R166) -/

section
variable {s : State} {id count : Byte} {first : BitVec 16} {bytes : List Byte} {stop size : Nat}
  {write : List (Nat × List Byte) → State → State}

/-- A body that does not carry the entries below the table end. -/
theorem State.applyLoad_refused
    (h : bytes.length < (min (first.toNat + count.toNat) stop - first.toNat) * size) :
    s.applyLoad (judgeLoad stop size (id :: loadRest first count bytes)) write =
      (s.latchIf (stop < first.toNat + count.toNat) .tableClipped).latch .formatError := by
  have hpos : 0 < min (first.toNat + count.toNat) stop - first.toNat :=
    Nat.pos_of_ne_zero fun h0 => by rw [h0, Nat.zero_mul] at h; exact absurd h (Nat.not_lt_zero _)
  have hclip : decide (min (first.toNat + count.toNat) stop - first.toNat < count.toNat) =
      decide (stop < first.toNat + count.toNat) := decide_eq_decide.mpr (by omega)
  rw [judgeLoad_eq, if_pos h, hclip]
  rfl

/-- A range with no entry below the table end. -/
theorem State.applyLoad_beyond (h : count = 0 ∨ stop ≤ first.toNat) :
    s.applyLoad (judgeLoad stop size (id :: loadRest first count bytes)) write =
      write [] (s.latchIf (count ≠ 0) .tableClipped) := by
  have hnone : min (first.toNat + count.toNat) stop - first.toNat = 0 := by
    rcases h with rfl | h
    · have hzero : (0 : Byte).toNat = 0 := rfl
      omega
    · omega
  have hclip : decide (0 < count.toNat) = decide (count ≠ 0) :=
    decide_eq_decide.mpr (Nat.pos_iff_ne_zero.trans (not_congr (BitVec.toNat_inj (y := 0))))
  rw [judgeLoad_eq, hnone, Nat.zero_mul, if_neg (Nat.not_lt_zero _), hclip]
  rfl

/-- A range that goes beyond the table end, of a body that carries the entries below it. -/
theorem State.applyLoad_cut {below : Byte} (hstop : first.toNat + below.toNat = stop) (hlt : below.toNat < count.toNat)
    (hb : below.toNat * size ≤ bytes.length) :
    s.applyLoad (judgeLoad stop size (id :: loadRest first count bytes)) write =
      (s.latch .tableClipped).applyLoad (judgeLoad stop size (id :: loadRest first below bytes)) write := by
  have hcut : min (first.toNat + count.toNat) stop - first.toNat = below.toNat := by omega
  rw [judgeLoad_eq, hcut, if_neg (Nat.not_lt.mpr hb), decide_eq_true hlt,
    State.applyLoad_within (Nat.le_of_eq hstop) (by rwa [Nat.mul_comm])]
  rfl

end

section
variable {s : State} {b : Block} {id below count : Byte} {first : BitVec 16} {bytes : List Byte}

/-- A TABLE-LOAD admitted with one count is admitted with another, whatever events have occurred. -/
theorem State.Acts.of_count (h : s.Acts b) (hk : b.kind = 11) (hb : b.body = id :: loadRest first count bytes)
    (e : EdgeEvent) : (s.latch e).Acts { b with body := id :: loadRest first below bytes } := by
  obtain ⟨k, ⟨hs, hlen, h0, hm, hw, hkind, hf, hl, hc, hr⟩, hd⟩ := h
  have hlength : (id :: loadRest first below bytes).length = b.body.length := by rw [hb]; rfl
  have hshort : tooShort k { b with body := id :: loadRest first below bytes } = tooShort k b := by
    unfold tooShort
    dsimp only
    rw [hlength]
  have hwindow (ch : ChannelEntry) (body : List Byte) : ch.windowRefused k.disposition { b with body := body } = false := by
    unfold ChannelEntry.windowRefused
    dsimp only
    rw [hk]
    exact Bool.and_false _
  have hchannel : s.cls.channelStep k { b with body := id :: loadRest first below bytes } = s.cls.channelStep k b := by
    have hwindows := (hwindow s.cls.channels[b.channel] (id :: loadRest first below bytes)).trans
      (hwindow s.cls.channels[b.channel] b.body).symm
    exact congrArg (fun refused => if k.bypass then ChannelVerdict.pass
      else if !s.cls.channels[b.channel].member then .silent
      else if !s.cls.channels[b.channel].forms.has b.form then .filtered
      else if refused then .filtered else .pass) hwindows
  exact ⟨k, ⟨hs, hlength.trans_le hlen, h0, hm, hw, hkind, hf, hshort.trans hl, hchannel.trans hc, hr⟩, hd⟩

/-- A command that sends an admitted TABLE-LOAD is the load. -/
theorem exec_load {i : Instr} (hi : i.sentBlock = some b) (hk : b.kind = 11) (h : s.Acts b) :
    exec i s = .next ((s.taken b).tableLoad b) := by
  have hact : (s.taken b).act b = (s.taken b).tableLoad b := by rw [State.act, hk]; rfl
  rw [exec_of_sentBlock hi, ← hact]
  exact congrArg Host.Outcome.next (receive_acts h)

end

/-- Settles O16: the judgement of the range, in its three cases. -/
theorem loadRangeIsJudged : Obligations.LoadRangeIsJudged := by
  intro s i b id count first bytes stop size hi hk hb htable ha
  obtain ⟨write, hwrite, hnone⟩ := tableLoad_arrival htable
  have hload : exec i s = .next ((s.taken b).applyLoad (judgeLoad stop size (id :: loadRest first count bytes)) write) := by
    rw [exec_load hi hk ha, hwrite _ _ (by rw [hb]; rfl), hb]
  refine ⟨fun hshort => ?_, fun h0 hout => ?_, fun j below hstop hlt hpos hcarried hj => ?_⟩
  · rw [hload, State.applyLoad_refused hshort]
  · rw [hload, State.applyLoad_beyond hout, hnone h0]
  · rw [hload, State.applyLoad_cut hstop hlt hcarried, exec_load hj hk (ha.of_count hk hb _),
      hwrite _ _ rfl, State.taken_latch]
    rfl

/-- Settles O17. -/
theorem undefinedIdOrActionIsFormatError : Obligations.UndefinedIdOrActionIsFormatError := by
  intro s h b rest
  refine ⟨fun hb ha => ?_, fun hb ha => ?_⟩
  · have hload (t : State) : t.tableLoad (blockOf h 11 (b :: rest)) = t.latch .formatError := by
      unfold State.tableLoad
      split
      case h_14 => rfl
      all_goals
        next hid =>
        have hid' : b.toNat = _ := hid
        omega
    exact congrArg Host.Outcome.next ((receive_load ha).trans (hload _))
  · have hcontrol (t : State) : t.panelControl (blockOf h 9 (b :: rest)) = t.latch .formatError := by
      unfold State.panelControl
      split
      case h_4 => rfl
      all_goals
        next hid =>
        have hid' : b.toNat = _ := hid
        omega
    exact congrArg Host.Outcome.next ((receive_acts ha).trans (hcontrol _))

end Sys2Proof.Machine
end

