-- ==== Sys2Proof/Proofs/Blanking.lean ====
section
/-! BLANK and UNBLANK (R98, R100, R101), and the drain that BLANKING begins with (R89). -/

namespace Sys2Proof.Machine

/-! ### Services ended one after another (R84, R89) -/

/-- The rows of some services. -/
def rowsOf (vs : List Service) : List RowNo := vs.map Service.row

/-- Services ended one after another leave the others, and all but the sense queue and the mirror. -/
theorem RowEngine.endServices_eq (vs : List Service) (r : RowEngine) :
    vs.foldl (fun r v => r.endService v) r =
      { r with
        sense := r.sense.filter (fun w => decide (w.row ∉ rowsOf vs))
        mirror := (vs.foldl (fun r v => r.endService v) r).mirror } := by
  induction vs generalizing r with
  | nil => simp [rowsOf]
  | cons v vs ih =>
    rw [List.foldl_cons, ih]
    simp only [RowEngine.endService, List.filter_filter]
    congr 1
    refine List.filter_congr fun w _ => ?_
    rw [Bool.eq_iff_iff]
    simp [rowsOf, and_comm]

/-- A row of none of the services keeps its mirror. -/
theorem RowEngine.endServices_mirror_other {vs : List Service} {y : RowNo} (h : y ∉ rowsOf vs) (r : RowEngine) :
    (vs.foldl (fun r v => r.endService v) r).mirror[y] = r.mirror[y] := by
  induction vs generalizing r with
  | nil => rfl
  | cons v vs ih =>
    obtain ⟨hv, hvs⟩ := not_or.mp (mt List.mem_cons.mpr h)
    rw [List.foldl_cons, ih hvs]
    exact (getElem_set_row ..).trans (if_neg hv)

/-- A service's row has its target as mirror, where no two of the services are of one row. -/
theorem RowEngine.endServices_mirror_of {vs : List Service} (hd : (rowsOf vs).Nodup) {v : Service} (hv : v ∈ vs)
    (r : RowEngine) : (vs.foldl (fun r v => r.endService v) r).mirror[v.row] = some v.target := by
  induction vs generalizing r with
  | nil => exact absurd hv List.not_mem_nil
  | cons w vs ih =>
    obtain ⟨hw, hvs⟩ := List.nodup_cons.mp hd
    rw [List.foldl_cons]
    rcases List.mem_cons.mp hv with rfl | hv
    · rw [RowEngine.endServices_mirror_other hw]
      exact (getElem_set_row ..).trans (if_pos rfl)
    · exact ih hvs hv _

/-- The drain begins as R89 gives it, where no two services in flight are of one row. -/
theorem RowEngine.beginsDrain_beginDrain {r : RowEngine} (h : (r.sense.map Service.row).Nodup) :
    r.BeginsDrain r.beginDrain := by
  have hd : (rowsOf (r.sense.filter fun v => v.phase == .refreshing)).Nodup := h.sublist (List.filter_sublist.map _)
  have hmem {y : RowNo} : y ∈ rowsOf (r.sense.filter fun v => v.phase == .refreshing) ↔
      ∃ v ∈ r.sense, v.phase = .refreshing ∧ v.row = y := by
    simp [rowsOf, and_assoc]
  refine ⟨?_, fun v hv hphase => ?_, fun y hy => ?_⟩
  · rw [RowEngine.beginDrain]
    dsimp only
    rw [RowEngine.endServices_eq]
    congr 1
    refine List.filter_congr fun w hw => decide_eq_decide.mpr ?_
    rw [hmem]
    refine ⟨fun hno hphase => hno ⟨w, hw, hphase, rfl⟩, fun hphase ⟨v, hv, hvphase, hrow⟩ => hphase ?_⟩
    rw [← List.inj_on_of_nodup_map h hv hw hrow]
    exact hvphase
  · exact RowEngine.endServices_mirror_of hd (List.mem_filter.mpr ⟨hv, beq_iff_eq.mpr hphase⟩) r
  · exact RowEngine.endServices_mirror_other (fun hin => by
      obtain ⟨v, hv, hphase, hrow⟩ := hmem.mp hin
      exact hy v hv hphase hrow) r

/-! ### BLANK and UNBLANK -/

/-- RUNNING is left for BLANKING (R98, R89). -/
theorem State.entersBlanking_blank {s : State} (h : s.seq.state = .running) (honce : s.RowsOnce) :
    s.EntersBlanking s.blank := by
  obtain ⟨_, hsense⟩ := honce
  rw [State.blank, h]
  exact ⟨rfl, RowEngine.beginsDrain_beginDrain hsense⟩

theorem State.blank_ignored {s : State} (h : s.seq.state ≠ .running) : s.blank = s := by
  unfold State.blank
  split
  · next hs => exact absurd hs h
  all_goals rfl

/-- Settles O18: BLANK by `entersBlanking_blank`, UNBLANK by its three laws. -/
theorem blankAndUnblank : Obligations.BlankAndUnblank := by
  intro s h rest honce
  refine ⟨fun ha => ?_, fun ha => ?_⟩
  · have hexec : exec (.blank h rest) s = .next (s.taken (blockOf h 9 (1 :: rest))).blank :=
      congrArg Host.Outcome.next (receive_acts ha)
    refine ⟨fun hs => ?_, fun hs => ⟨_, hexec, ?_⟩⟩
    · exact hexec.trans (congrArg Host.Outcome.next (State.blank_ignored (s := s.taken _) hs))
    · exact State.entersBlanking_blank (s := s.taken _) hs honce
  · have hexec : exec (.unblank h rest) s = .next (s.taken (blockOf h 9 (2 :: rest))).unblank :=
      congrArg Host.Outcome.next (receive_acts ha)
    refine ⟨fun hs => ?_, fun hs => ?_, fun hs hs' => ?_⟩
    · exact hexec.trans (congrArg Host.Outcome.next (State.unblank_blanked (s := s.taken _) hs))
    · exact hexec.trans (congrArg Host.Outcome.next (State.unblank_blanking (s := s.taken _) hs))
    · exact hexec.trans (congrArg Host.Outcome.next (State.unblank_ignored (s := s.taken _) hs hs'))

end Sys2Proof.Machine
end

