-- ==== Sys2Proof/Proofs/Management.lean ====
section
/-! ZONE-SET, STATUS-QUERY, EVENT-CLEAR, LINE-SET and STORE-COMMIT, each as its owner acts on it. -/

namespace Sys2Proof.Machine

/-! ### ZONE-SET (R115, R176) -/

/-- A two-byte field as a number, high byte first. -/
theorem toNat_word (hi lo : Byte) : (hi ++ lo : BitVec 16).toNat = 256 * hi.toNat + lo.toNat := by
  rw [BitVec.toNat_append, ← Nat.shiftLeft_add_eq_or_of_lt lo.isLt, Nat.shiftLeft_eq, Nat.mul_comm]

/-- The record of a whole body, field by field. -/
theorem zoneOfBody_fields (z fl a b c d code set echo xh xl yh yl : Byte) (more : List Byte) :
    let r := zoneOfBody (z :: fl :: a :: b :: c :: d :: code :: set :: echo :: xh :: xl :: yh :: yl :: more)
    r.armed = fl.getLsbD 0 ∧ r.oneShot = fl.getLsbD 1 ∧ r.code = code ∧
      r.tx0.val = min (min a.toNat 15) (min c.toNat 15) ∧ r.tx1.val = max (min a.toNat 15) (min c.toNat 15) ∧
      r.ty0.val = min (min b.toNat 15) (min d.toNat 15) ∧ r.ty1.val = max (min b.toNat 15) (min d.toNat 15) ∧
      (fl.getLsbD 2 = false → r.echo = none) ∧
      (fl.getLsbD 2 = true → ∃ e, r.echo = some e ∧ e.set.val = set.toNat % 4 ∧ e.code.val = echo.toNat % 128 ∧
        e.x.val = min (256 * xh.toNat + xl.toNat) 511 ∧ e.y.val = min (256 * yh.toNat + yl.toNat) 511) := by
  refine ⟨rfl, rfl, rfl, Fin.coe_min _ _, Fin.coe_max _ _, Fin.coe_min _ _, Fin.coe_max _ _, fun h => ?_,
    fun h => ⟨_, if_pos h, rfl, rfl, ?_, ?_⟩⟩
  · exact if_neg (ne_true_of_eq_false h)
  · rw [← toNat_word]
    rfl
  · rw [← toNat_word]
    rfl

section
variable {s : State} {body : List Byte}

theorem State.zoneSet_record (hz : (byteAt body 0).toNat < 16) (hlen : 13 ≤ body.length) :
    s.zoneSet body = s.setZone ⟨(byteAt body 0).toNat, hz⟩ (zoneOfBody body) := by
  have hff : byteAt body 0 ≠ 0xFF := fun h => absurd hz (by rw [h]; decide)
  rw [State.zoneSet, if_neg hff, dif_pos hz, if_neg (Nat.not_lt.mpr hlen)]

theorem State.zoneSet_refused (h : (16 ≤ (byteAt body 0).toNat ∧ (byteAt body 0).toNat ≤ 254) ∨
    ((byteAt body 0).toNat < 16 ∧ body.length < 13)) : s.zoneSet body = s.latch .formatError := by
  have hff : byteAt body 0 ≠ 0xFF := fun hb => by
    have h255 : (byteAt body 0).toNat = 255 := congrArg BitVec.toNat hb
    omega
  rw [State.zoneSet, if_neg hff]
  rcases h with ⟨hlo, _⟩ | ⟨hlt, hlen⟩
  · rw [dif_neg (Nat.not_lt.mpr hlo)]
  · rw [dif_pos hlt, if_pos hlen]

end

/-- Settles O19. -/
theorem zoneSetReplacesItsRecord : Obligations.ZoneSetReplacesItsRecord := by
  intro s h
  refine ⟨fun z fl a b c d code set echo xh xl yh yl more body hz hbody ha => ?_, fun z rest ha hz => ?_,
    fun rest ha => congrArg Host.Outcome.next (receive_acts ha)⟩
  · subst hbody
    have hexec : exec (.zoneSet h (z :: fl :: a :: b :: c :: d :: code :: set :: echo :: xh :: xl :: yh :: yl :: more)) s =
        .next _ := congrArg Host.Outcome.next ((receive_acts ha).trans (State.zoneSet_record
          (body := z :: fl :: a :: b :: c :: d :: code :: set :: echo :: xh :: xl :: yh :: yl :: more) hz
          (Nat.le_add_left 13 more.length)))
    have hself := Vector.getElem_set_self (xs := s.touch.zones) (i := z.toNat) hz
      (x := zoneOfBody (z :: fl :: a :: b :: c :: d :: code :: set :: echo :: xh :: xl :: yh :: yl :: more))
    refine ⟨_, hexec, ⟨_, rfl, rfl⟩, fun n hn => Vector.getElem_set_ne hz n.isLt (Ne.symm hn), ?_⟩
    have hfields := zoneOfBody_fields z fl a b c d code set echo xh xl yh yl more
    rw [← hself] at hfields
    exact hfields
  · refine congrArg Host.Outcome.next ((receive_acts ha).trans (State.zoneSet_refused ?_))
    exact hz.imp_right fun ⟨hlt, hlen⟩ => ⟨hlt, Nat.succ_lt_succ hlen⟩

/-! ### STATUS-QUERY (R152, R153) -/

/-- The report of the state that has taken the query. -/
theorem State.statusReport_taken (b : Block) (s : State) :
    (s.taken b).statusReport =
      { number := s.cls.number, source := s.cls.source, panel := s.seq.state
        raw := (s.taken b).ev.raw, latched := (s.taken b).ev.latched, mask := s.ev.table.mask
        lastWatch := s.ev.lastWatch
        slots := s.ren.slots.map (fun c => ⟨c.state, c.image, (List.range 512).countP (fun i => c.received.getLsbD i)⟩)
        renderDepth := s.ren.queue.length, upstreamDepth := s.tx.queue.length
        store := if s.store.commit = .idle then .idle else .programming
        commits := s.store.commits
        lineLevels := s.lines.map (SignalLine.level (s.taken b).ev.attention)
        count := s.rx.lastCount, faults := s.row.faults } := by
  have hstore : s.store.commit.reported = if s.store.commit = .idle then .idle else .programming := by
    cases s.store.commit <;> rfl
  have hmask : (s.taken b).ev.table.mask = s.ev.table.mask := congrArg EventTable.mask (EventUnit.setLevel_table _ _ _)
  have hlast : (s.taken b).ev.lastWatch = s.ev.lastWatch := EventUnit.setLevel_lastWatch _ _ _
  rw [← hstore, ← hmask, ← hlast]
  rfl

/-- Settles O20. -/
theorem statusQueryReportsTheState : Obligations.StatusQueryReportsTheState := by
  intro s h body ha
  have hexec : exec (.statusQuery h body) s = .next ((s.taken (blockOf h 12 body)).offer
      (.status (s.taken (blockOf h 12 body)).statusReport)) := congrArg Host.Outcome.next (receive_acts ha)
  rw [hexec, State.statusReport_taken]
  rfl

/-! ### EVENT-CLEAR (R149) -/

/-- The edge events are 8..31. -/
theorem getLsbD_edgeEventSet {n : Nat} (hn : n < 32) : edgeEventSet.getLsbD n = decide (8 ≤ n) := by
  revert n
  decide

/-- A four-byte field, byte by byte. -/
theorem longAt_eq (b3 b2 b1 b0 : Byte) (more : List Byte) :
    longAt (b3 :: b2 :: b1 :: b0 :: more) 0 = (b3 ++ b2 ++ b1 ++ b0 : BitVec 32) := by
  refine BitVec.eq_of_getLsbD_eq fun n _ => ?_
  show ((b3 ++ b2) ++ (b1 ++ b0) : BitVec 32).getLsbD n = _
  simp only [BitVec.getLsbD_append]
  by_cases h8 : n < 8
  · simp [h8, show n < 16 by omega]
  · by_cases h16 : n < 16
    · simp [h8, h16, show n - 8 < 8 by omega]
    · simp [h8, h16, show ¬ n - 8 < 8 by omega, show n - 8 - 8 = n - 16 by omega]

/-- Settles O21. -/
theorem eventClearClearsTheNamed : Obligations.EventClearClearsTheNamed := by
  intro s h b3 b2 b1 b0 more ha
  obtain ⟨named, hnamed⟩ : ∃ named, named = (b3 ++ b2 ++ b1 ++ b0 : BitVec 32) := ⟨_, rfl⟩
  have hexec : exec (.eventClear h (b3 :: b2 :: b1 :: b0 :: more)) s = .next
      (let u := s.taken (blockOf h 13 (b3 :: b2 :: b1 :: b0 :: more))
       { u with ev := u.ev.clear named }) := by
    rw [hnamed, ← longAt_eq b3 b2 b1 b0 more]
    exact congrArg Host.Outcome.next (receive_acts ha)
  rw [← hnamed]
  refine ⟨_, _, hexec, rfl, rfl, rfl, rfl, EventUnit.withLatched_attention_iff _ _, fun n hn => ?_⟩
  dsimp only
  rw [EventUnit.clear]
  refine ⟨?_, ?_⟩
  · rw [EventUnit.withLatched_latched, BitVec.getLsbD_and, BitVec.getLsbD_not]
    simp [hn]
  · rw [EventUnit.withLatched_raw, BitVec.getLsbD_and, BitVec.getLsbD_not, BitVec.getLsbD_and, getLsbD_edgeEventSet hn]
    by_cases h8 : n < 8
    · simp [h8, hn]
    · simp [h8, hn, Nat.not_lt.mp h8]

/-! ### LINE-SET (R163) -/

/-- Settles O23. -/
theorem lineSetWritesTheNamedLatches : Obligations.LineSetWritesTheNamedLatches := by
  intro s h b more ha
  have hline (n : Fin 4) : (tabulate fun n : Fin 4 => s.lines[n].setLatch (b :: more) n.val)[n] =
      { s.lines[n] with latch := if b.getLsbD n.val then b.getLsbD (4 + n.val) else s.lines[n].latch } := by
    refine (getElem_tabulate _ n.val n.isLt).trans ?_
    show SignalLine.setLatch (b :: more) n.val s.lines[n] = _
    unfold SignalLine.setLatch
    cases hb : b.getLsbD n.val with
    | true => exact if_pos hb
    | false => exact if_neg (ne_true_of_eq_false hb)
  refine ⟨_, _, congrArg Host.Outcome.next (receive_acts ha), rfl, rfl, fun n => ⟨hline n, fun hout => ?_⟩⟩
  have hdrives (l : SignalLine) (attention : Bool) (hl : l.entry.config = .output) : l.drives attention = some l.latch := by
    rw [SignalLine.drives, hl]
  exact hdrives _ _ ((congrArg (fun l => l.entry.config) (hline n)).trans hout)

/-! ### STORE-COMMIT (R169, R170) -/

/-- Taking a block changes no table. -/
theorem State.workingTables_taken (b : Block) (s : State) : (s.taken b).workingTables = s.workingTables := by
  have htable : (s.taken b).ev.table = s.ev.table := EventUnit.setLevel_table _ _ _
  rw [State.workingTables, htable]
  rfl

/-- Settles O24. -/
theorem commitAndItsCompletion : Obligations.CommitAndItsCompletion := by
  refine ⟨fun s h body ha => ?_, fun s => ⟨fun t ht => ?_, fun hidle => ?_⟩⟩
  · have hexec : exec (.storeCommit h body) s = .next (s.taken (blockOf h 16 body)).storeCommit :=
      congrArg Host.Outcome.next (receive_acts ha)
    rw [hexec, State.storeCommit]
    refine ⟨fun hidle hroom => ?_, fun hrefused => ?_⟩
    · rw [State.taken_store, hidle, State.workingTables_taken]
      exact congrArg Host.Outcome.next (if_pos hroom)
    · rw [State.taken_store]
      split
      · next hidle => exact congrArg Host.Outcome.next (if_neg (Nat.not_lt.mpr (hrefused.resolve_left (not_not_intro hidle))))
      · rfl
  · show Host.Outcome.next _ = _
    rw [ht]
    rfl
  · show Host.Outcome.next _ = _
    rw [hidle]

end Sys2Proof.Machine
end

