-- ==== Sys2Proof/Proofs/StoreFactory.lean ====
section
/-! STORE-FACTORY (R171): the factory values at every owner, and what it leaves. -/

namespace Sys2Proof.Machine

/-! ### Lines configured as inputs (R164) -/

/-- A line given an INPUT entry: no event is touched. -/
theorem State.configureLine_input {e : LineEntry} (h : e.config = .input) (n : Fin 4) (s : State) :
    s.configureLine n e = { s with lines := s.lines.set n (s.lines[n].configured e) } := by
  rw [State.configureLine_eq, if_neg fun hl => hl.2 h]

/-- Lines given one INPUT entry in turn. -/
theorem State.configureLines_input {e : LineEntry} (h : e.config = .input) {ns : List (Fin 4)} (hns : ns.Nodup) (s : State) :
    ns.foldl (fun s n => s.configureLine n e) s =
        { s with lines := (ns.foldl (fun s n => s.configureLine n e) s).lines } ∧
      ∀ k : Fin 4, (ns.foldl (fun s n => s.configureLine n e) s).lines[k] =
        if k ∈ ns then s.lines[k].configured e else s.lines[k] := by
  induction ns generalizing s with
  | nil => exact ⟨rfl, fun _ => rfl⟩
  | cons n ns ih =>
    obtain ⟨hn, hns⟩ := List.nodup_cons.mp hns
    obtain ⟨hframe, hlines⟩ := ih hns (s.configureLine n e)
    rw [List.foldl_cons]
    refine ⟨?_, fun k => ?_⟩
    · rw [hframe, State.configureLine_input h]
    · rw [hlines, State.configureLine_input h]
      by_cases hk : k = n
      · subst hk
        rw [if_neg hn, if_pos List.mem_cons_self]
        exact Vector.getElem_set_self k.isLt
      · have hset : (s.lines.set n (s.lines[n].configured e))[k] = s.lines[k] :=
          Vector.getElem_set_ne n.isLt k.isLt fun hnk => hk (Fin.ext hnk.symm)
        simp only [hset, List.mem_cons, hk, false_or]

/-- The LINES entry of every line by the factory defaults. -/
def factoryLine : LineEntry := ⟨.input, false, false⟩

/-- A line configured by the factory defaults. -/
theorem SignalLine.configured_factory (l : SignalLine) :
    l.configured factoryLine =
      if l.entry.config = .input then { l with entry := factoryLine }
      else { l with entry := factoryLine, accepted := false, lastSample := none } := by
  unfold SignalLine.configured
  by_cases h : l.entry.config = .input
  · rw [if_pos (show l.entry.config = factoryLine.config from h), if_pos h]
  · rw [if_neg (show ¬ l.entry.config = factoryLine.config from h), if_neg h, if_neg h]
    rfl

/-- The factory LINES table written line by line. -/
theorem State.configureLines_factory (s : State) :
    s.configureLines factoryTables.lines = { s with lines := s.lines.map (SignalLine.configured factoryLine) } := by
  have hentry : s.configureLines factoryTables.lines =
      (List.finRange 4).foldl (fun s n => s.configureLine n factoryLine) s :=
    congrArg (fun f => (List.finRange 4).foldl f s) (funext fun t => funext fun n =>
      congrArg (fun e => t.configureLine n e) (Vector.getElem_replicate n.isLt))
  obtain ⟨hframe, hlines⟩ := State.configureLines_input (e := factoryLine) rfl (List.nodup_finRange 4) s
  rw [hentry, hframe]
  refine congrArg (fun ls => ({ s with lines := ls } : State)) (Vector.ext fun k hk => ?_)
  have hline := (hlines ⟨k, hk⟩).trans (if_pos (List.mem_finRange _))
  rw [Vector.getElem_map]
  exact hline

/-! ### The beams (R108) -/

/-- With every beam fitted, none is taken out of a mask. -/
theorem unfit_all (old : BitVec 16) (beams : Vector Beam 16) : unfit old (BitVec.allOnes 16) beams = beams := by
  refine Vector.ext fun n hn => ?_
  have hbeam := getElem_unfit old (BitVec.allOnes 16) beams ⟨n, hn⟩
  have hfitted : (BitVec.allOnes 16).getLsbD n = true := by rw [BitVec.getLsbD_allOnes, decide_eq_true hn]
  rw [if_neg fun h => Bool.noConfusion (hfitted.symm.trans h.2)] at hbeam
  exact hbeam

theorem Touch.setTable_factory (u : Touch) : u.setTable factoryTouch = { u with table := factoryTouch } := by
  rw [Touch.setTable, factoryTouch, unfit_all, unfit_all]

/-! ### The owners -/

/-- The owners but for the render engine have their factory values. -/
def State.ownersFactory (s : State) : State :=
  { s with
    cls := Classifier.formNumber { s.cls with
      address := factoryTables.address, groups := [], channels := factoryChannels, kinds := factoryKinds
      watch := factoryTables.watch }
    seq := { s.seq with panel := factoryPanel }
    touch := { s.touch with table := factoryTouch }
    ev := { s.ev with table := factoryEvents }
    lines := s.lines.map (SignalLine.configured factoryLine) }

theorem State.storeFactory_eq (s : State) : s.storeFactory = s.ownersFactory.notice .factory := by
  unfold State.storeFactory
  dsimp only
  rw [State.configureLines_factory]
  refine congrArg (State.notice .factory) ?_
  rw [State.ownersFactory, ← Touch.setTable_factory]
  rfl

theorem SignalLine.configured_entry (e : LineEntry) (l : SignalLine) : (l.configured e).entry = e := by
  unfold SignalLine.configured
  split
  · rfl
  · split
    · rfl
    · split <;> rfl

/-- Where the halftone tables are the factory's, or a notice of them is held, the working tables are the factory's. -/
theorem State.workingTables_ownersFactory (s : State) (r : Render)
    (h : (r.notices.contains .factory = false ∧ r.transfer = factoryTransfer ∧ r.threshold = factoryThreshold ∧
      r.weights = factoryWeights) ∨ r.notices.contains .factory = true) :
    State.workingTables { s.ownersFactory with ren := r } = factoryTables := by
  have hlines : (s.lines.map (SignalLine.configured factoryLine)).map SignalLine.entry = factoryTables.lines := by
    refine Vector.ext fun n hn => ?_
    rw [Vector.getElem_map, Vector.getElem_map, SignalLine.configured_entry]
    exact (Vector.getElem_replicate hn).symm
  have htables : (if r.notices.contains .factory then factoryTransfer else r.transfer) = factoryTransfer ∧
      (if r.notices.contains .factory then factoryThreshold else r.threshold) = factoryThreshold ∧
      (if r.notices.contains .factory then factoryWeights else r.weights) = factoryWeights := by
    rcases h with ⟨hno, htransfer, hthreshold, hweights⟩ | hheld
    · rw [hno]
      exact ⟨htransfer, hthreshold, hweights⟩
    · rw [hheld]
      exact ⟨rfl, rfl, rfl⟩
  obtain ⟨htransfer, hthreshold, hweights⟩ := htables
  rw [State.workingTables]
  dsimp only [State.ownersFactory]
  rw [hlines, htransfer, hthreshold, hweights, Classifier.formNumber_address, Classifier.formNumber_groups,
    Classifier.formNumber_channels, Classifier.formNumber_kinds, Classifier.formNumber_watch]
  rfl

/-! ### The render engine's notice (R54, R55) -/

/-- A slot after the factory weights have been taken. -/
theorem Render.factoryHalftone_slot (r : Render) (k : Fin 4) :
    r.factoryHalftone.slots[k] =
      if r.weights ≠ factoryWeights ∧ r.slots[k].state ≠ .free ∧ r.slots[k].params.method = .diffusion then
        { r.slots[k] with err := Vector.replicate 512 0 }
      else r.slots[k] := by
  unfold Render.factoryHalftone Render.setWeights
  dsimp only
  by_cases hw : factoryWeights = r.weights
  · rw [if_pos hw, if_neg fun h => h.1 hw.symm]
  · rw [if_neg hw]
    have hmap : (r.slots.map Slot.zeroError)[k] = r.slots[k].zeroError := Vector.getElem_map ..
    dsimp only
    rw [hmap, Slot.zeroError]
    refine if_congr ?_ rfl rfl
    rw [Bool.and_eq_true, bne_iff_ne, beq_iff_eq]
    exact (and_iff_right (Ne.symm hw)).symm

/-- Settles O25: the owners' factory values, and the notice applied or held. -/
theorem storeFactoryRestoresDefaults : Obligations.StoreFactoryRestoresDefaults := by
  intro s h body ha hnotices
  have hexec : exec (.storeFactory h body) s = .next
      ((s.taken (blockOf h 17 body)).ownersFactory.notice .factory) :=
    congrArg Host.Outcome.next ((receive_acts ha).trans (State.storeFactory_eq _))
  obtain ⟨r, hren, hidle, hbusy, htables⟩ : ∃ r : Render,
      (s.taken (blockOf h 17 body)).ownersFactory.notice .factory =
        { (s.taken (blockOf h 17 body)).ownersFactory with ren := r } ∧
      (s.ren.busy = false → r = s.ren.factoryHalftone) ∧
      (s.ren.busy = true → r = { s.ren with notices := s.ren.notices ++ [.factory] }) ∧
      ((r.notices.contains .factory = false ∧ r.transfer = factoryTransfer ∧ r.threshold = factoryThreshold ∧
        r.weights = factoryWeights) ∨ r.notices.contains .factory = true) := by
    cases hb : s.ren.busy with
    | true =>
      refine ⟨_, State.notice_busy (s := (s.taken (blockOf h 17 body)).ownersFactory) hb, fun h => Bool.noConfusion h,
        fun _ => rfl, .inr ?_⟩
      exact List.contains_iff_mem.mpr (List.mem_append_right _ (List.mem_singleton_self _))
    | false =>
      refine ⟨_, State.notice_idle (s := (s.taken (blockOf h 17 body)).ownersFactory) hb, fun _ => rfl,
        fun h => Bool.noConfusion h, .inl ?_⟩
      have hr : s.ren.factoryHalftone.notices = s.ren.notices := by rw [Render.factoryHalftone_eq]
      refine ⟨?_, ?_⟩
      · exact (congrArg (fun ns => ns.contains Notice.factory) (hr.trans (hnotices hb))).trans rfl
      · show s.ren.factoryHalftone.transfer = _ ∧ s.ren.factoryHalftone.threshold = _ ∧ s.ren.factoryHalftone.weights = _
        rw [Render.factoryHalftone_eq]
        exact ⟨rfl, rfl, rfl⟩
  rw [hren] at hexec
  refine ⟨_, _, hexec, rfl, State.workingTables_ownersFactory _ r htables, fun hb => ?_, hbusy, ?_, ?_, fun n => ?_, rfl⟩
  · rw [hidle hb]
    exact ⟨s.ren.factoryHalftone_eq, s.ren.factoryHalftone_slot⟩
  · dsimp only [State.ownersFactory]
    rw [Classifier.formNumber_eq]
    show (if s.cls.serviceAccepted then (0 : Fin 32) else s.cls.strap,
      if s.cls.serviceAccepted then NumberSource.service else .straps) = _
    split <;> rfl
  · dsimp only [State.ownersFactory]
    rw [Classifier.formNumber_eq]
  · have hline : (s.lines.map (SignalLine.configured factoryLine))[n] = s.lines[n].configured factoryLine :=
      Vector.getElem_map ..
    exact hline.trans (SignalLine.configured_factory _)

end Sys2Proof.Machine
end

