-- ==== Sys2Proof/Proofs/Resets.lean ====
section
/-! The two resets (R168, R172): what both leave (`State.Fresh`, `State.EventsFresh`) is derived once, from the block
resets that they are made of. -/

namespace Sys2Proof.Machine

/-! ### The blocks after a reset -/

/-- A line after a reset, field by field (R161). -/
theorem resetLines_line (t : Vector LineEntry 4) (levels : BitVec 4) (n : Fin 4) :
    (resetLines t levels)[n] = SignalLine.reset t[n] (levels.getLsbD n.val) := getElem_tabulate _ n.val n.isLt

theorem SignalLine.reset_fields (e : LineEntry) (sample : Bool) :
    (SignalLine.reset e sample).entry = e ∧ (SignalLine.reset e sample).latch = e.latchDefault ∧
      (e.config = .input → (SignalLine.reset e sample).accepted = sample ∧
        (SignalLine.reset e sample).lastSample = some sample) ∧
      (e.config ≠ .input → (SignalLine.reset e sample).accepted = false) := by
  unfold SignalLine.reset
  split
  · next h => exact ⟨rfl, rfl, fun _ => ⟨rfl, rfl⟩, fun hne => absurd h hne⟩
  all_goals
    next h => exact ⟨rfl, rfl, fun hi => absurd (h.symm.trans hi) (by decide), fun _ => rfl⟩

theorem resetLines_entries (t : Vector LineEntry 4) (levels : BitVec 4) :
    (resetLines t levels).map SignalLine.entry = t := by
  refine Vector.ext fun n hn => ?_
  rw [Vector.getElem_map]
  exact (congrArg SignalLine.entry (resetLines_line t levels ⟨n, hn⟩)).trans (SignalLine.reset_fields _ _).1

/-- The raw values after a reset: the conditions of the level events, and no edge event (R151). -/
theorem EventUnit.reset_raw (t : EventTable) (levels : LevelEvent → Bool) {n : Nat} (hn : n < 32) :
    (EventUnit.reset t levels).raw.getLsbD n =
      if n = 0 then levels .linePresent else if n = 1 then levels .panelPower else if n = 2 then levels .serviceLine
      else if n = 3 then levels .accessoryFault else if n = 4 then levels (.lineIn 0) else if n = 5 then levels (.lineIn 1)
      else if n = 6 then levels (.lineIn 2) else if n = 7 then levels (.lineIn 3) else false := by
  simp only [EventUnit.reset, List.foldl_cons, List.foldl_nil, getLsbD_withEventBit _ _ _ hn, LevelEvent.num]
  match n with
  | 0 | 1 | 2 | 3 | 4 | 5 | 6 | 7 => rfl
  | n + 8 => simp

/-- The raw values after a reset, by the conditions that the levels then have (R151). -/
theorem EventUnit.reset_raw_levelsAfter (t : EventTable) (linePresent powerGood service : Bool) (acc : AccessoryPort)
    (lines : Vector SignalLine 4) {n : Nat} (hn : n < 32) :
    (EventUnit.reset t (levelsAfter linePresent powerGood service acc lines)).raw.getLsbD n =
      if n = 0 then linePresent else if n = 1 then powerGood else if n = 2 then service
      else if n = 3 then acc.faultCondition else if n = 4 then lines[0].accepted else if n = 5 then lines[1].accepted
      else if n = 6 then lines[2].accepted else if n = 7 then lines[3].accepted else false :=
  EventUnit.reset_raw t _ hn

/-- The classifier's number and source after a reset (R120). -/
theorem Classifier.reset_number (t : StoredTables) (strap : Fin 32) (service : Bool) :
    ((Classifier.reset t strap service).number, (Classifier.reset t strap service).source) =
      if service then (0, NumberSource.service)
      else if t.address.valid then (t.address.number, NumberSource.override)
      else (strap, NumberSource.straps) := by
  rw [Classifier.reset, Classifier.formNumber_eq]
  dsimp only
  cases service
  · cases t.address.valid <;> rfl
  · rfl

/-! ### What both resets leave -/

section
variable {s : State} {t : StoredTables} {strap : Fin 32} {service fitted fault busy grant corrupt linePresent : Bool}
  {levels : BitVec 4}

/-- The blocks of the part as both resets make them. -/
structure State.ResetBlocks (t : StoredTables) (strap : Fin 32) (service fitted fault busy grant : Bool)
    (levels : BitVec 4) (s : State) : Prop where
  cls : s.cls = Classifier.reset t strap service
  ren : s.ren = Render.reset t
  row : s.row = RowEngine.reset
  panel : s.seq.panel = t.panel
  touch : s.touch = Touch.reset t.touch
  tx : s.tx = Transmitter.reset grant
  acc : s.acc = AccessoryPort.reset fitted fault busy
  lines : s.lines = resetLines t.lines levels
  table : s.ev.table = t.events

theorem State.ResetBlocks.workingTables (h : s.ResetBlocks t strap service fitted fault busy grant levels) :
    s.workingTables = t := by
  rw [State.workingTables, h.cls, h.ren, h.panel, h.touch, h.lines, h.table, resetLines_entries, Classifier.reset,
    Classifier.formNumber_address, Classifier.formNumber_groups, Classifier.formNumber_channels,
    Classifier.formNumber_kinds, Classifier.formNumber_watch]
  rfl

theorem State.ResetBlocks.fresh (h : s.ResetBlocks t strap service fitted fault busy grant levels) : s.Fresh t := by
  have hchannels : s.cls.chanState = Vector.replicate 64 .reset := by
    rw [h.cls, Classifier.reset, Classifier.formNumber_chanState]
  rw [State.Fresh, hchannels, h.ren, h.row, h.touch, h.tx, h.acc, h.workingTables]
  have hslot (k : Fin 4) : (Render.reset t).slots[k] = Slot.reset := Vector.getElem_replicate k.isLt
  refine ⟨⟨rfl, rfl, rfl⟩, rfl, fun k => ?_, ⟨rfl, rfl, rfl, rfl⟩, ⟨rfl, rfl, rfl⟩, forall_mem_replicate rfl, rfl,
    ⟨forall_mem_replicate rfl, forall_mem_replicate rfl, rfl, forall_mem_replicate rfl⟩, forall_mem_replicate rfl,
    ⟨rfl, rfl⟩, ⟨rfl, rfl, rfl, rfl⟩, rfl⟩
  rw [hslot]
  exact ⟨rfl, rfl, rfl, rfl, rfl, rfl, rfl, rfl⟩

/-- The event unit after a reset that has found a CRC that fails, if `corrupt`; the factory masks let STORE-CORRUPT
latch. -/
theorem State.ResetBlocks.eventsFresh {powerGood : Bool} (h : s.ResetBlocks t strap service fitted fault busy grant levels)
    (hpower : s.seq.powerGood = powerGood) (hcorrupt : corrupt = true → t.events.mask.getLsbD 29 = true)
    (hev : s.ev =
      let u := EventUnit.reset t.events (levelsAfter linePresent powerGood service
        (AccessoryPort.reset fitted fault busy) (resetLines t.lines levels))
      if corrupt then u.occur .storeCorrupt else u) : s.EventsFresh corrupt linePresent := by
  have hservice : s.cls.serviceAccepted = service := by rw [h.cls, Classifier.reset, Classifier.formNumber_serviceAccepted]
  have hfault : (AccessoryPort.reset fitted fault busy).faultCondition =
      (fitted && (AccessoryPort.reset fitted fault busy).faultAccepted) :=
    congrArg (fitted && ·) (Bool.or_false _)
  obtain ⟨u, hu⟩ : ∃ u, u = EventUnit.reset t.events (levelsAfter linePresent powerGood service
    (AccessoryPort.reset fitted fault busy) (resetLines t.lines levels)) := ⟨_, rfl⟩
  have hraw {n : Nat} (hn : n < 32) := EventUnit.reset_raw_levelsAfter (n := n) t.events linePresent powerGood service
    (AccessoryPort.reset fitted fault busy) (resetLines t.lines levels) hn
  rw [← hu, hfault] at hraw
  have hlatched : u.latched = 0 := by rw [hu]; rfl
  have hmask : u.table = t.events := by rw [hu]; rfl
  have hattention : u.attention = false := by rw [hu]; rfl
  have hlast : u.lastWatch = none := by rw [hu]; rfl
  rw [State.EventsFresh, hev, hpower, hservice, h.acc, h.lines]
  dsimp only
  rw [← hu]
  cases corrupt with
  | false =>
    refine ⟨hlast, hattention, fun n hn => ⟨?_, ?_⟩⟩
    · rw [if_neg Bool.false_ne_true, hlatched]
      exact BitVec.getLsbD_zero
    · rw [if_neg Bool.false_ne_true]
      exact hraw hn
  | true =>
    have hbit : (u.occur .storeCorrupt).latched = 0 ||| eventBit EdgeEvent.storeCorrupt.num := by
      rw [EventUnit.occur_latched, hmask, hlatched]
      exact if_pos (hcorrupt rfl)
    rw [if_pos rfl]
    refine ⟨hlast, ?_, fun n hn => ⟨?_, ?_⟩⟩
    · refine (congrArg (· != 0) hbit).trans ?_
      decide
    · rw [hbit, getLsbD_or_eventBit _ hn, BitVec.ofNat_eq_ofNat, BitVec.getLsbD_zero, Bool.or_false, Bool.true_and]
      rfl
    · rw [EventUnit.occur_raw, getLsbD_or_eventBit _ hn, hraw hn]
      match n with
      | 0 | 1 | 2 | 3 | 4 | 5 | 6 | 7 => rfl
      | n + 8 => simp [EdgeEvent.num]

/-- The lines after a reset (R161). -/
theorem State.ResetBlocks.line (h : s.ResetBlocks t strap service fitted fault busy grant levels) (n : Fin 4) :
    s.lines[n].latch = t.lines[n].latchDefault ∧
      (t.lines[n].config = .input → s.lines[n].accepted = levels.getLsbD n.val ∧
        s.lines[n].lastSample = some (levels.getLsbD n.val)) ∧
      (t.lines[n].config ≠ .input → s.lines[n].accepted = false) := by
  rw [h.lines, resetLines_line]
  exact (SignalLine.reset_fields _ _).2

/-- The classifier after a reset (R120, R121). -/
theorem State.ResetBlocks.classifier (h : s.ResetBlocks t strap service fitted fault busy grant levels) :
    s.cls.strap = strap ∧ s.cls.serviceAccepted = service ∧ s.cls.serviceLast = service ∧
      (s.cls.number, s.cls.source) =
        (if service then (0, NumberSource.service)
         else if t.address.valid then (t.address.number, NumberSource.override)
         else (strap, NumberSource.straps)) := by
  rw [h.cls]
  refine ⟨?_, ?_, ?_, Classifier.reset_number t strap service⟩
  · rw [Classifier.reset, Classifier.formNumber_strap]
  · rw [Classifier.reset, Classifier.formNumber_serviceAccepted]
  · rw [Classifier.reset, Classifier.formNumber_serviceLast]

/-- The fault line is sampled where an accessory is fitted (R157). -/
theorem State.ResetBlocks.accessory (h : s.ResetBlocks t strap service fitted fault busy grant levels) :
    s.acc.fitted = fitted ∧ (fitted = true → s.acc.faultAccepted = fault ∧ s.acc.faultLast = fault) := by
  rw [h.acc]
  refine ⟨rfl, fun hf => ?_⟩
  subst hf
  exact ⟨rfl, rfl⟩

end

/-! ### The tables that a reset loads -/

/-- The tables of a stored image, and whether its CRC fails (R168). -/
theorem StoredImage.reload_cases (i : StoredImage) :
    (i.good = true → i.reload = i.tables) ∧ (i.good = false → i.reload = factoryTables) :=
  ⟨fun h => if_pos h, fun h => if_neg (ne_true_of_eq_false h)⟩

/-- The factory masks let STORE-CORRUPT latch. -/
theorem factoryTables_storeCorrupt : factoryTables.events.mask.getLsbD 29 = true := by decide

/-- The blocks after a power-on reset. -/
theorem State.resetBlocks_powerOn (p : PowerOnPins) (s : State) :
    (s.powerOn p).ResetBlocks s.store.powerOn.image.reload p.terminal p.levels.service p.fitted p.levels.fault p.busy
      p.levels.grant p.levels.lines := by
  unfold State.powerOn
  dsimp only
  generalize s.store.powerOn.image.reload = t
  constructor
  · rw [State.latchIf_cls]
  · rw [State.latchIf_ren]
  · rw [State.latchIf_row]
  · rw [State.latchIf_seq]
    rfl
  · rw [State.latchIf_touch]
  · rw [State.latchIf_tx]
  · rw [State.latchIf_acc]
  · rw [State.latchIf_lines]
  · rw [State.latchIf_ev]
    split <;> rfl

/-- The events after a power-on reset. -/
theorem State.eventsFresh_powerOn (p : PowerOnPins) (s : State) :
    (s.powerOn p).EventsFresh (!s.store.powerOn.image.good) false := by
  refine (s.resetBlocks_powerOn p).eventsFresh (powerGood := p.powerGood) ?_ (fun hc => ?_) ?_
  · unfold State.powerOn
    dsimp only
    rw [State.latchIf_seq]
    rfl
  · rw [(StoredImage.reload_cases _).2 (by simpa using hc)]
    exact factoryTables_storeCorrupt
  · unfold State.powerOn
    dsimp only
    rw [State.latchIf_ev]

/-- The store at a power-on reset. -/
theorem Store.powerOn_cases (st : Store) :
    (st.commit = .idle → st.powerOn = st) ∧
      (st.commit ≠ .idle → st.powerOn.commit = .idle ∧ st.powerOn.commits = st.commits ∧
        st.powerOn.image.good = false) := by
  unfold Store.powerOn
  split
  · next hidle => exact ⟨fun _ => rfl, fun hne => absurd hidle hne⟩
  · next hprog => exact ⟨fun hidle => by simp [hidle] at hprog, fun _ => ⟨rfl, rfl, st.interrupted_not_good⟩⟩

/-- Settles O26. -/
theorem powerOnResetLeavesResetValues : Obligations.PowerOnResetLeavesResetValues := by
  intro s p
  have hblocks := s.resetBlocks_powerOn p
  obtain ⟨hstrap, haccepted, hlast, hnumber⟩ := hblocks.classifier
  obtain ⟨hfitted, hfault⟩ := hblocks.accessory
  obtain ⟨hidle, hprogramming⟩ := s.store.powerOn_cases
  obtain ⟨hgood, hbad⟩ := s.store.powerOn.image.reload_cases
  have hstore : (s.powerOn p).store = s.store.powerOn := State.latchIf_store _ _ _
  have hseq : (s.powerOn p).seq = Sequencer.powerOn s.store.powerOn.image.reload.panel p.powerGood :=
    State.latchIf_seq _ _ _
  refine ⟨s.powerOn p, s.store.powerOn.image.reload, !s.store.powerOn.image.good, rfl, fun hc hg => ?_, fun hc hg => ?_,
    fun hc => ?_, hblocks.fresh, s.eventsFresh_powerOn p, State.latchIf_rx _ _ _, hstrap, haccepted, hlast, hnumber,
    ?_, ?_, ?_, ?_, ?_, ?_, hfitted, hfault, hblocks.line⟩
  · rw [hidle hc] at hgood hstore ⊢
    exact ⟨hgood hg, by rw [hg]; rfl, hstore⟩
  · rw [hidle hc] at hbad hstore ⊢
    exact ⟨hbad hg, by rw [hg]; rfl, hstore⟩
  · obtain ⟨hcommit, hcommits, hnot⟩ := hprogramming hc
    rw [hstore]
    exact ⟨hbad hnot, by rw [hnot]; rfl, hcommit, hcommits, hnot⟩
  · rw [hseq]; rfl
  · rw [hseq]; rfl
  · rw [hseq]; rfl
  · rw [hseq]; rfl
  · rw [hseq]; rfl
  · rw [hblocks.tx]; rfl

/-! ### TERMINAL-RESET (R172) -/

/-- The blocks after a terminal reset. -/
theorem State.resetBlocks_terminalReset (s : State) :
    s.terminalReset.ResetBlocks s.store.terminalTables.1 s.cls.strap s.pins.service s.acc.fitted s.pins.fault s.acc.busy
      s.pins.grant s.pins.lines := by
  unfold State.terminalReset
  obtain ⟨t, corrupt⟩ := s.store.terminalTables
  dsimp only
  constructor
  · rw [State.latchIf_cls]
  · rw [State.latchIf_ren]
  · rw [State.latchIf_row]
  · rw [State.latchIf_seq]
    unfold Sequencer.terminalReset
    split <;> rfl
  · rw [State.latchIf_touch]
  · rw [State.latchIf_tx]
  · rw [State.latchIf_acc]
  · rw [State.latchIf_lines]
  · rw [State.latchIf_ev]
    split <;> rfl

/-- The sequencer after a terminal reset (R105). -/
theorem Sequencer.terminalReset_fields (t : PanelTable) (q : Sequencer) :
    (q.terminalReset t).powerGood = q.powerGood ∧
      (q.terminalReset t).state = (if q.state = .off then PanelState.off else .starting) ∧
      (q.terminalReset t).sweepPos = 0 ∧ (q.terminalReset t).sweeping = decide (q.state ≠ .off) ∧
      (q.terminalReset t).blankTimer = 0 := by
  unfold Sequencer.terminalReset
  split
  all_goals
    next h =>
    rw [h]
    exact ⟨rfl, rfl, rfl, rfl, rfl⟩

theorem State.terminalReset_seq (s : State) :
    s.terminalReset.seq = s.seq.terminalReset s.store.terminalTables.1.panel := State.latchIf_seq _ _ _

/-- The tables of a terminal reset, by the commit state. -/
theorem Store.terminalTables_cases (st : Store) :
    (∀ t, st.commit = .programming t → st.terminalTables = (t, false)) ∧
      (st.commit = .idle → st.terminalTables = (st.image.reload, !st.image.good)) := by
  unfold Store.terminalTables
  split
  · next hidle => exact ⟨fun t ht => by simp [ht] at hidle, fun _ => rfl⟩
  · next u hu => exact ⟨fun t ht => by cases hu.symm.trans ht; rfl, fun hidle => by simp [hidle] at hu⟩

/-- The events after a terminal reset. -/
theorem State.eventsFresh_terminalReset (s : State) :
    s.terminalReset.EventsFresh s.store.terminalTables.2 s.rx.linePresent := by
  refine s.resetBlocks_terminalReset.eventsFresh (powerGood := s.seq.powerGood) ?_ (fun hc => ?_) ?_
  · rw [State.terminalReset_seq]
    exact (Sequencer.terminalReset_fields _ _).1
  · obtain ⟨hprogramming, hidle⟩ := s.store.terminalTables_cases
    cases hcommit : s.store.commit with
    | idle =>
      rw [hidle hcommit] at hc ⊢
      rw [(StoredImage.reload_cases _).2 (by simpa using hc)]
      exact factoryTables_storeCorrupt
    | programming t =>
      rw [hprogramming t hcommit] at hc
      exact Bool.noConfusion hc
  · unfold State.terminalReset
    obtain ⟨t, corrupt⟩ := s.store.terminalTables
    dsimp only
    rw [State.latchIf_ev]

/-- Settles O27. -/
theorem terminalResetLeavesResetValues : Obligations.TerminalResetLeavesResetValues := by
  intro s h body levels ha
  let u : State := State.taken (blockOf h 18 body) { s with pins := levels }
  have hexec : exec (.terminalReset h body levels) s = .next u.terminalReset :=
    congrArg Host.Outcome.next (receive_acts (s := { s with pins := levels }) ha)
  have hblocks := u.resetBlocks_terminalReset
  obtain ⟨hstrap, haccepted, hlast, hnumber⟩ := hblocks.classifier
  obtain ⟨hfitted, hfault⟩ := hblocks.accessory
  obtain ⟨hprogramming, hidle⟩ := s.store.terminalTables_cases
  obtain ⟨hgood, hbad⟩ := s.store.image.reload_cases
  obtain ⟨hpower, hstate, hpos, hsweeping, htimer⟩ := Sequencer.terminalReset_fields s.store.terminalTables.1.panel s.seq
  have hseq : u.terminalReset.seq = s.seq.terminalReset s.store.terminalTables.1.panel := u.terminalReset_seq
  refine ⟨u.terminalReset, s.store.terminalTables.1, s.store.terminalTables.2, hexec, fun t ht => ?_, fun hc hg => ?_,
    fun hc hg => ?_, hblocks.fresh, u.eventsFresh_terminalReset, State.latchIf_rx _ _ _, State.latchIf_store _ _ _,
    hstrap, haccepted, hlast, hnumber, ?_, ?_, ?_, ?_, ?_, ?_, hfitted, hfault, hblocks.line⟩
  · rw [hprogramming t ht]
    exact ⟨rfl, rfl⟩
  · rw [hidle hc, hg]
    dsimp only
    rw [hgood hg]
    exact ⟨rfl, rfl⟩
  · rw [hidle hc, hg]
    dsimp only
    rw [hbad hg]
    exact ⟨rfl, rfl⟩
  · rw [hseq]; exact hpower
  · rw [hseq]; exact hstate
  · rw [hseq]; exact hpos
  · rw [hseq]; exact hsweeping
  · rw [hseq]; exact htimer
  · rw [hblocks.tx]; rfl

end Sys2Proof.Machine
end

