-- ==== Sys2Proof/Proofs/Cadence.lean ====
section
/-! A CADENCE notice at its three owners (R143): the channels, the image contexts, the blank timer. For the channels and
the contexts, one lemma says what the notice does at one entry, and one what it does at several in turn. -/

namespace Sys2Proof.Machine

/-- A condition of the members of a list may be replaced by an equal one. -/
theorem any_congr_mem {α : Type} {l : List α} {p q : α → Bool} (h : ∀ a ∈ l, p a = q a) : l.any p = l.any q := by
  rw [Bool.eq_iff_iff, List.any_eq_true, List.any_eq_true]
  exact exists_congr fun a => and_congr_right fun ha => by rw [h a ha]

/-! ### Repeated occurrences -/

/-- An event that occurs twice leaves what it leaves once. -/
theorem EventUnit.occur_occur (e : EdgeEvent) (u : EventUnit) : (u.occur e).occur e = u.occur e := by
  have hor (x : BitVec 32) : x ||| eventBit e.num ||| eventBit e.num = x ||| eventBit e.num := by
    rw [BitVec.or_assoc, BitVec.or_self]
  have hlatched : (u.occur e).latched = if u.table.mask.getLsbD e.num then u.latched ||| eventBit e.num else u.latched :=
    rfl
  have hmask : (u.occur e).table.mask.getLsbD e.num = u.table.mask.getLsbD e.num := rfl
  conv_lhs => rw [EventUnit.occur]
  conv_rhs => rw [EventUnit.occur]
  rw [EventUnit.occur_raw, hor, hmask, hlatched]
  cases u.table.mask.getLsbD e.num
  · rfl
  · simp only [if_true, hor]
    rfl

/-- An event that occurs if one of two conditions holds. -/
theorem EventUnit.occur_or (e : EdgeEvent) (a b : Bool) (u : EventUnit) :
    (if b then (if a then u.occur e else u).occur e else if a then u.occur e else u) =
      if a || b then u.occur e else u := by
  cases a <;> cases b <;> simp [EventUnit.occur_occur]

/-! ### Channels (R132) -/

/-- A CADENCE notice finds the channel's lapse count at its end. -/
def ChannelState.lapses (c : ChannelState) : Bool := c.present && decide (8 ≤ c.lapse + 1)

/-- A channel's record after a CADENCE notice. -/
def ChannelState.cadenced (c : ChannelState) : ChannelState :=
  if c.present then { c with lapse := c.lapse + 1, present := decide (c.lapse + 1 < 8) } else c

theorem State.cadenceAtChannel_eq (s : State) (ch : Fin 64) :
    s.cadenceAtChannel ch = { s with
      cls := { s.cls with chanState := s.cls.chanState.set ch s.cls.chanState[ch].cadenced }
      ev := if s.cls.chanState[ch].lapses then s.ev.occur .lessonLapse else s.ev } := by
  unfold State.cadenceAtChannel ChannelState.lapses ChannelState.cadenced
  dsimp only
  cases hp : s.cls.chanState[ch].present with
  | false =>
    have hset : s.cls.chanState.set ch s.cls.chanState[ch] = s.cls.chanState := Vector.set_getElem_self ch.isLt
    simp only [Bool.false_eq_true, if_false, Bool.false_and, hset]
  | true =>
    by_cases h8 : 8 ≤ s.cls.chanState[ch].lapse + 1
    · have hself (c : ChannelState) : (s.cls.chanState.set ch c)[ch] = c := Vector.getElem_set_self ch.isLt
      have hset (c d : ChannelState) : (s.cls.chanState.set ch c).set ch d = s.cls.chanState.set ch d :=
        Vector.set_set _ ch.isLt
      rw [if_pos rfl, if_pos rfl, if_pos (show Config.lapseLimit ≤ _ from h8), Bool.true_and, decide_eq_true h8,
        if_pos rfl, State.lapse]
      dsimp only
      rw [hself, hset, decide_eq_false (Nat.not_lt.mpr h8)]
      rfl
    · rw [if_pos rfl, if_pos rfl, if_neg (show ¬ Config.lapseLimit ≤ _ from h8), Bool.true_and, decide_eq_false h8,
        if_neg Bool.false_ne_true, decide_eq_true (Nat.lt_of_not_le h8), ← hp]

/-- A CADENCE notice at several channels in turn. -/
theorem State.cadenceAtChannels_eq {chs : List (Fin 64)} (hd : chs.Nodup) (s : State) :
    chs.foldl State.cadenceAtChannel s = { s with
        cls := { s.cls with chanState := (chs.foldl State.cadenceAtChannel s).cls.chanState }
        ev := if chs.any fun ch => s.cls.chanState[ch].lapses then s.ev.occur .lessonLapse else s.ev } ∧
      ∀ ch : Fin 64, (chs.foldl State.cadenceAtChannel s).cls.chanState[ch] =
        if ch ∈ chs then s.cls.chanState[ch].cadenced else s.cls.chanState[ch] := by
  induction chs generalizing s with
  | nil => exact ⟨rfl, fun _ => rfl⟩
  | cons c chs ih =>
    obtain ⟨hc, hd⟩ := List.nodup_cons.mp hd
    obtain ⟨hframe, hchan⟩ := ih hd (s.cadenceAtChannel c)
    have hother {ch : Fin 64} (h : ch ≠ c) : (s.cadenceAtChannel c).cls.chanState[ch] = s.cls.chanState[ch] := by
      rw [State.cadenceAtChannel_eq]
      exact Vector.getElem_set_ne c.isLt ch.isLt fun hcc => h (Fin.ext hcc.symm)
    have hany : (chs.any fun ch => (s.cadenceAtChannel c).cls.chanState[ch].lapses) =
        chs.any fun ch => s.cls.chanState[ch].lapses :=
      any_congr_mem fun ch hch => congrArg ChannelState.lapses (hother fun h => hc (h ▸ hch))
    rw [List.foldl_cons]
    refine ⟨?_, fun ch => ?_⟩
    · rw [hframe, hany, List.any_cons, State.cadenceAtChannel_eq]
      dsimp only
      rw [EventUnit.occur_or]
    · rw [hchan]
      by_cases h : ch = c
      · subst h
        rw [if_neg hc, if_pos List.mem_cons_self, State.cadenceAtChannel_eq]
        exact Vector.getElem_set_self ch.isLt
      · rw [hother h]
        simp only [List.mem_cons, h, false_or]

/-! ### Contexts (R36, R37) -/

/-- A CADENCE notice frees the slot: its count reaches its end. -/
def Slot.freedByCadence (c : Slot) : Bool :=
  match c.state with
  | .free => false
  | .closing => decide (8 ≤ c.closing + 1)
  | .opened => decide (50 ≤ c.idle + 1)

/-- A CADENCE notice frees the slot with IMAGE-INCOMPLETE. -/
def Slot.lostByCadence (c : Slot) : Bool := c.freedByCadence && (c.state == .closing || !c.complete)

/-- The slot after a CADENCE notice. -/
def Slot.cadenced (c : Slot) : Slot :=
  match c.state with
  | .free => c
  | .closing => { c with closing := c.closing + 1, state := if 8 ≤ c.closing + 1 then .free else .closing }
  | .opened => { c with idle := c.idle + 1, state := if 50 ≤ c.idle + 1 then .free else .opened }

/-- The held stripes that stay when the slot has had a CADENCE notice. -/
def Slot.keepsHeld (c : Slot) (h : HeldStripe) : Bool := !(c.freedByCadence && h.image == c.image)

/-- A slot written and then freed: it is written once, FREE. -/
theorem Render.freeSlot_setSlot (k : Fin 4) (c : Slot) (r : Render) :
    (r.setSlot k c).freeSlot k =
      { r with
        slots := r.slots.set k { c with state := .free }
        held := r.held.filter (fun h => h.image != c.image)
        ready := r.ready.filter (fun h => h.image != c.image) } := by
  have hself : (r.slots.set k c)[k] = c := Vector.getElem_set_self k.isLt
  have hset (d : Slot) : (r.slots.set k c).set k d = r.slots.set k d := Vector.set_set _ k.isLt
  unfold Render.freeSlot Render.setSlot Render.dropHeld
  dsimp only
  rw [hself, hset]

section
variable {c : Slot}

theorem Slot.cadenced_closing (h : c.state = .closing) :
    c.cadenced = { c with closing := c.closing + 1, state := if 8 ≤ c.closing + 1 then .free else .closing } := by
  rw [Slot.cadenced, h]

theorem Slot.cadenced_opened (h : c.state = .opened) :
    c.cadenced = { c with idle := c.idle + 1, state := if 50 ≤ c.idle + 1 then .free else .opened } := by
  rw [Slot.cadenced, h]

theorem Slot.keepsHeld_freed (h : c.freedByCadence = true) : c.keepsHeld = fun g => g.image != c.image := by
  funext g
  rw [Slot.keepsHeld, h]
  rfl

theorem Slot.keepsHeld_stays (h : c.freedByCadence = false) : c.keepsHeld = fun _ => true := by
  funext g
  rw [Slot.keepsHeld, h]
  rfl

/-- The slot's held stripes where it is not freed. -/
theorem Slot.filter_stays (h : c.freedByCadence = false) (gs : List HeldStripe) (g : Option HeldStripe) :
    gs.filter c.keepsHeld = gs ∧ g.filter c.keepsHeld = g := by
  rw [Slot.keepsHeld_stays h]
  refine ⟨List.filter_eq_self.mpr fun _ _ => rfl, ?_⟩
  cases g <;> rfl

end

/-- What a CADENCE notice makes of the state at slot k. -/
def State.slotCadenced (s : State) (k : Fin 4) : State :=
  { s with
    ren := { s.ren with
      slots := s.ren.slots.set k s.ren.slots[k].cadenced
      held := s.ren.held.filter s.ren.slots[k].keepsHeld
      ready := s.ren.ready.filter s.ren.slots[k].keepsHeld }
    ev := if s.ren.slots[k].lostByCadence then s.ev.occur .imageIncomplete else s.ev }

/-- A slot whose count does not reach its end is written, and nothing else changes. -/
theorem State.slotCadenced_stays {s : State} {k : Fin 4} (h : s.ren.slots[k].freedByCadence = false) :
    s.slotCadenced k = { s with ren := s.ren.setSlot k s.ren.slots[k].cadenced } := by
  obtain ⟨hheld, hready⟩ := Slot.filter_stays h s.ren.held s.ren.ready
  have hlost : s.ren.slots[k].lostByCadence = false := by rw [Slot.lostByCadence, h]; rfl
  rw [State.slotCadenced, hheld, hready, hlost]
  rfl

/-- A slot whose count reaches its end becomes FREE. -/
theorem State.slotCadenced_freed {s : State} {k : Fin 4} (h : s.ren.slots[k].freedByCadence = true) (c : Slot)
    (hc : { c with state := .free } = s.ren.slots[k].cadenced) (himage : c.image = s.ren.slots[k].image) :
    s.slotCadenced k = { s with
      ren := (s.ren.setSlot k c).freeSlot k
      ev := if s.ren.slots[k].lostByCadence then s.ev.occur .imageIncomplete else s.ev } := by
  rw [State.slotCadenced, Slot.keepsHeld_freed h, Render.freeSlot_setSlot, hc, himage]

theorem State.cadenceAtSlot_eq (s : State) (k : Fin 4) : s.cadenceAtSlot k = s.slotCadenced k := by
  unfold State.cadenceAtSlot
  dsimp only
  split
  · next hs =>
    have hfree : s.ren.slots[k].cadenced = s.ren.slots[k] := by rw [Slot.cadenced, hs]
    have hset : s.ren.slots.set k s.ren.slots[k] = s.ren.slots := Vector.set_getElem_self k.isLt
    rw [State.slotCadenced_stays (by rw [Slot.freedByCadence, hs]), hfree, Render.setSlot, hset]
  · next hs =>
    by_cases h8 : 8 ≤ s.ren.slots[k].closing + 1
    · rw [if_pos (show Config.lapseLimit ≤ _ from h8), State.slotCadenced_freed (by rw [Slot.freedByCadence, hs, decide_eq_true h8])
        { s.ren.slots[k] with closing := s.ren.slots[k].closing + 1 } (by rw [Slot.cadenced_closing hs, if_pos h8]) rfl]
      have hlost : s.ren.slots[k].lostByCadence = true := by
        rw [Slot.lostByCadence, Slot.freedByCadence, hs, decide_eq_true h8]
        rfl
      rw [hlost]
      rfl
    · rw [if_neg (show ¬ Config.lapseLimit ≤ _ from h8), State.slotCadenced_stays (by rw [Slot.freedByCadence, hs, decide_eq_false h8]),
        Slot.cadenced_closing hs, if_neg h8, ← hs]
  · next hs =>
    by_cases h50 : 50 ≤ s.ren.slots[k].idle + 1
    · rw [if_pos (show Config.idleLimit ≤ _ from h50), State.slotCadenced_freed (by rw [Slot.freedByCadence, hs, decide_eq_true h50])
        { s.ren.slots[k] with idle := s.ren.slots[k].idle + 1 } (by rw [Slot.cadenced_opened hs, if_pos h50]) rfl]
      have hself (c : Slot) : (s.ren.setSlot k c).slots[k] = c := Vector.getElem_set_self k.isLt
      have hlost : s.ren.slots[k].lostByCadence = !s.ren.slots[k].complete := by
        rw [Slot.lostByCadence, Slot.freedByCadence, hs, decide_eq_true h50]
        rfl
      have hcomplete : Slot.complete { s.ren.slots[k] with idle := s.ren.slots[k].idle + 1 } = s.ren.slots[k].complete :=
        rfl
      unfold State.idleTimeout
      dsimp only
      rw [hself, hlost, hcomplete]
      cases s.ren.slots[k].complete <;> rfl
    · rw [if_neg (show ¬ Config.idleLimit ≤ _ from h50), State.slotCadenced_stays (by rw [Slot.freedByCadence, hs, decide_eq_false h50]),
        Slot.cadenced_opened hs, if_neg h50, ← hs]

/-- A CADENCE notice at several slots in turn. -/
theorem State.cadenceAtSlots_eq {ks : List (Fin 4)} (hd : ks.Nodup) (s : State) :
    ks.foldl State.cadenceAtSlot s = { s with
        ren := { s.ren with
          slots := (ks.foldl State.cadenceAtSlot s).ren.slots
          held := s.ren.held.filter fun h => ks.all fun k => s.ren.slots[k].keepsHeld h
          ready := s.ren.ready.filter fun h => ks.all fun k => s.ren.slots[k].keepsHeld h }
        ev := if ks.any fun k => s.ren.slots[k].lostByCadence then s.ev.occur .imageIncomplete else s.ev } ∧
      ∀ k : Fin 4, (ks.foldl State.cadenceAtSlot s).ren.slots[k] =
        if k ∈ ks then s.ren.slots[k].cadenced else s.ren.slots[k] := by
  induction ks generalizing s with
  | nil =>
    refine ⟨?_, fun _ => rfl⟩
    have hall : s.ren.held.filter (fun _ => true) = s.ren.held := List.filter_eq_self.mpr fun _ _ => rfl
    have hready : s.ren.ready.filter (fun _ => true) = s.ren.ready := by cases s.ren.ready <;> rfl
    simp only [List.foldl_nil, List.all_nil, List.any_nil, hall, hready, Bool.false_eq_true, if_false]
  | cons k ks ih =>
    obtain ⟨hk, hd⟩ := List.nodup_cons.mp hd
    obtain ⟨hframe, hslots⟩ := ih hd (s.cadenceAtSlot k)
    rw [State.cadenceAtSlot_eq] at hframe hslots
    have hother {j : Fin 4} (h : j ≠ k) : (s.slotCadenced k).ren.slots[j] = s.ren.slots[j] :=
      Vector.getElem_set_ne k.isLt j.isLt fun hkj => h (Fin.ext hkj.symm)
    have hany : (ks.any fun j => (s.slotCadenced k).ren.slots[j].lostByCadence) =
        ks.any fun j => s.ren.slots[j].lostByCadence :=
      any_congr_mem fun j hj => congrArg Slot.lostByCadence (hother fun h => hk (h ▸ hj))
    have hall (g : HeldStripe) : (ks.all fun j => (s.slotCadenced k).ren.slots[j].keepsHeld g) =
        ks.all fun j => s.ren.slots[j].keepsHeld g := by
      rw [← Bool.not_inj_iff, List.not_all_eq_any_not, List.not_all_eq_any_not]
      exact any_congr_mem fun j hj => congrArg (fun c => !Slot.keepsHeld c g) (hother fun h => hk (h ▸ hj))
    rw [List.foldl_cons, State.cadenceAtSlot_eq]
    refine ⟨?_, fun j => ?_⟩
    · generalize ks.foldl State.cadenceAtSlot (s.slotCadenced k) = u at hframe ⊢
      refine hframe.trans ?_
      rw [hany]
      simp only [hall, List.all_cons, List.any_cons]
      rw [State.slotCadenced]
      dsimp only
      rw [EventUnit.occur_or, List.filter_filter, Option.filter_filter]
      simp only [Bool.and_comm]
      rfl
    · rw [hslots]
      by_cases h : j = k
      · subst h
        rw [if_neg hk, if_pos List.mem_cons_self]
        exact Vector.getElem_set_self j.isLt
      · rw [hother h]
        simp only [List.mem_cons, h, false_or]

theorem Slot.freedByCadence_iff (c : Slot) : c.freedByCadence = true ↔
    (c.state = .closing ∧ 8 ≤ c.closing + 1) ∨ (c.state = .opened ∧ 50 ≤ c.idle + 1) := by
  unfold Slot.freedByCadence
  split
  all_goals
    next h =>
    simp [h]

theorem Slot.lostByCadence_iff (c : Slot) : c.lostByCadence = true ↔
    c.freedByCadence = true ∧ (c.state = .opened → c.complete = false) := by
  unfold Slot.lostByCadence
  rw [Bool.and_eq_true]
  refine and_congr_right fun hfreed => ?_
  rcases (c.freedByCadence_iff).mp hfreed with ⟨hs, _⟩ | ⟨hs, _⟩ <;> simp [hs]

theorem Slot.keepsHeld_iff (c : Slot) (h : HeldStripe) :
    c.keepsHeld h = true ↔ (c.freedByCadence = true → h.image ≠ c.image) := by
  unfold Slot.keepsHeld
  cases c.freedByCadence <;> simp

/-- A CADENCE notice applied by the engine is the one of R36 and R37. -/
theorem State.cadenceApplied_cadenceAtContexts (s : State) :
    s.cadenceAtContexts = { s with ren := s.cadenceAtContexts.ren, ev := s.cadenceAtContexts.ev } ∧
      s.ren.CadenceApplied s.cadenceAtContexts.ren ∧
      EventUnit.OccurredIf s.ren.CadenceLosesImage .imageIncomplete s.ev s.cadenceAtContexts.ev := by
  obtain ⟨hframe, hslots⟩ := State.cadenceAtSlots_eq (List.nodup_finRange 4) s
  have hloses : (((List.finRange 4).any fun k => s.ren.slots[k].lostByCadence) = true) ↔ s.ren.CadenceLosesImage := by
    rw [List.any_eq_true]
    refine exists_congr fun k => ?_
    rw [Slot.lostByCadence_iff, Slot.freedByCadence_iff]
    exact and_iff_right (List.mem_finRange k)
  have hkeeps (keep : HeldStripe → Bool)
      (hkeep : ∀ h, keep h = true ↔ ∀ k : Fin 4, s.ren.CadenceFrees k → h.image ≠ s.ren.slots[k].image) :
      keep = fun h => (List.finRange 4).all fun k => s.ren.slots[k].keepsHeld h := by
    funext h
    rw [Bool.eq_iff_iff, hkeep, List.all_eq_true]
    refine forall_congr' fun k => ?_
    rw [Slot.keepsHeld_iff, Slot.freedByCadence_iff]
    exact ⟨fun hno _ => hno, fun hno => hno (List.mem_finRange k)⟩
  have hren : s.cadenceAtContexts.ren = { s.ren with
      slots := s.cadenceAtContexts.ren.slots
      held := s.ren.held.filter fun h => (List.finRange 4).all fun k => s.ren.slots[k].keepsHeld h
      ready := s.ren.ready.filter fun h => (List.finRange 4).all fun k => s.ren.slots[k].keepsHeld h } :=
    congrArg State.ren hframe
  have hev : s.cadenceAtContexts.ev = if (List.finRange 4).any fun k => s.ren.slots[k].lostByCadence then
      s.ev.occur .imageIncomplete else s.ev := congrArg State.ev hframe
  refine ⟨?_, ⟨?_, fun k => ?_, fun keep hkeep => ?_⟩, fun hp => ?_, fun hp => ?_⟩
  · rw [hren, hev]
    exact hframe
  · rw [hren]
  · exact (hslots k).trans (if_pos (List.mem_finRange k))
  · rw [hkeeps keep hkeep, hren]
    exact ⟨rfl, rfl⟩
  · rw [hev, if_pos (hloses.mpr hp)]
  · rw [hev, if_neg (mt hloses.mp hp)]

/-! ### The blank timer (R103) -/

/-- The blank timer after a CADENCE notice in RUNNING. -/
def Sequencer.timerAfter (q : Sequencer) : Nat := if q.blankTimer = 153000 then 153000 else q.blankTimer + 1

theorem State.cadenceAtPanel_running {s : State} (h : s.seq.state = .running) :
    s.cadenceAtPanel =
      if s.seq.panel.blankTimeout ≠ 0 ∧ s.seq.panel.blankTimeout * 600 ≤ s.seq.timerAfter then
        State.blank { s with seq := { s.seq with blankTimer := s.seq.timerAfter } }
      else { s with seq := { s.seq with blankTimer := s.seq.timerAfter } } := by
  have htimer : (if s.seq.blankTimer = Config.blankTimerMax then s.seq.blankTimer else s.seq.blankTimer + 1) =
      s.seq.timerAfter := by
    unfold Sequencer.timerAfter
    split
    · next hmax => exact hmax
    · rfl
  rw [State.cadenceAtPanel, h]
  dsimp only
  rw [htimer]
  refine if_congr ?_ rfl rfl
  rw [Sequencer.blankDue, Bool.and_eq_true, bne_iff_ne, decide_eq_true_eq]

theorem State.cadenceAtPanel_ignored {s : State} (h : s.seq.state ≠ .running) : s.cadenceAtPanel = s := by
  unfold State.cadenceAtPanel
  split
  · next hs => exact absurd hs h
  all_goals rfl

/-- The notice at the panel writes the sequencer and, where the panel is blanked, the row engine. -/
theorem State.cadenceAtPanel_frame (s : State) :
    s.cadenceAtPanel = { s with seq := s.cadenceAtPanel.seq, row := s.cadenceAtPanel.row } := by
  by_cases h : s.seq.state = .running
  · rw [State.cadenceAtPanel_running h]
    split
    · rw [State.blank]
      dsimp only
      rw [h]
    · rfl
  · rw [State.cadenceAtPanel_ignored h]

/-- Below its timeout, or with none, the timer goes up and nothing else changes. -/
theorem State.cadenceAtPanel_below {s : State} (h : s.seq.state = .running)
    (hlow : s.seq.panel.blankTimeout = 0 ∨ s.seq.timerAfter < s.seq.panel.blankTimeout * 600) :
    s.cadenceAtPanel = { s with seq := { s.seq with blankTimer := s.seq.timerAfter } } := by
  rw [State.cadenceAtPanel_running h, if_neg]
  rintro ⟨hne, hle⟩
  omega

/-- At its timeout the panel is blanked. -/
theorem State.cadenceAtPanel_due {s : State} (h : s.seq.state = .running) (hne : s.seq.panel.blankTimeout ≠ 0)
    (hdue : s.seq.panel.blankTimeout * 600 ≤ s.seq.timerAfter) :
    s.cadenceAtPanel = { s with
      seq := { s.seq with state := .blanking, sweeping := false, sweepPos := 0, blankTimer := s.seq.timerAfter }
      row := s.row.beginDrain } := by
  rw [State.cadenceAtPanel_running h, if_pos ⟨hne, hdue⟩, State.blank]
  dsimp only
  rw [h]

/-! ### The notice as a whole (R143) -/

/-- The part after a CADENCE notice has reached the channels, which is the first of its three owners. -/
def State.channelsNoticed (s : State) (count : BitVec 16) : State :=
  State.cadenceAtChannels { s.heard with rx := { s.heard.rx with lastCount := count } }

/-- The channels' part of the notice. -/
theorem State.channelsNoticed_eq (s : State) (count : BitVec 16) :
    s.channelsNoticed count = { s.heard with
        rx := { s.heard.rx with lastCount := count }
        cls := { s.cls with chanState := (s.channelsNoticed count).cls.chanState }
        ev := (s.channelsNoticed count).ev } ∧
      (∀ c : Fin 64, (s.channelsNoticed count).cls.chanState[c] = s.cls.chanState[c].cadenced) ∧
      EventUnit.OccurredIf (∃ c : Fin 64, s.cls.chanState[c].present = true ∧ 8 ≤ s.cls.chanState[c].lapse + 1)
        .lessonLapse s.heard.ev (s.channelsNoticed count).ev := by
  obtain ⟨hframe, hchan⟩ := State.cadenceAtChannels_eq (List.nodup_finRange 64)
    { s.heard with rx := { s.heard.rx with lastCount := count } }
  have hfold : (List.finRange 64).foldl State.cadenceAtChannel { s.heard with rx := { s.heard.rx with lastCount := count } } =
      s.channelsNoticed count := rfl
  rw [hfold] at hframe hchan
  have hev : (s.channelsNoticed count).ev =
      if (List.finRange 64).any fun c => s.cls.chanState[c].lapses then s.heard.ev.occur .lessonLapse else s.heard.ev :=
    congrArg State.ev hframe
  have hlapses : ((List.finRange 64).any fun c => s.cls.chanState[c].lapses) = true ↔
      ∃ c : Fin 64, s.cls.chanState[c].present = true ∧ 8 ≤ s.cls.chanState[c].lapse + 1 := by
    rw [List.any_eq_true]
    refine exists_congr fun c => (and_iff_right (List.mem_finRange c)).trans ?_
    rw [ChannelState.lapses, Bool.and_eq_true, decide_eq_true_eq]
  refine ⟨?_, fun c => ?_, fun hp => ?_, fun hp => ?_⟩
  · rw [hev]
    exact hframe
  · rw [hchan, if_pos (List.mem_finRange c)]
    rfl
  · rw [hev, if_pos (hlapses.mpr hp)]
  · rw [hev, if_neg (mt hlapses.mp hp)]

theorem exec_cadence {s : State} {h : Header} {b0 b1 : Byte} {more : List Byte} (hs : s.rx.state = .hunting)
    (hl : more.length ≤ 238) (hall : (blockOf h 0 (b0 :: b1 :: more)).form = .all) :
    exec (.cadence h (b0 :: b1 :: more)) s =
      .next ((s.channelsNoticed (b0 ++ b1)).notice .cadence).cadenceAtPanel := by
  have hshort : ¬ (b0 :: b1 :: more).length < 2 := by simp
  have hlen : (b0 :: b1 :: more).length ≤ 240 := by simp only [List.length_cons]; omega
  have hcount : wordAt (blockOf h 0 (b0 :: b1 :: more)).body 0 = b0 ++ b1 := rfl
  have htake := (receive_cadence hs h hlen).trans (State.takeCadence_all hall hshort)
  rw [hcount] at htake
  show Host.Outcome.next _ = _
  rw [htake]
  rfl

/-- The notice to the render engine writes that engine and the events. -/
theorem State.notice_cadence_frame (s : State) :
    s.notice .cadence = { s with ren := (s.notice .cadence).ren, ev := (s.notice .cadence).ev } := by
  cases hb : s.ren.busy with
  | true => rw [State.notice_busy hb]
  | false =>
    rw [State.notice_idle hb]
    exact (State.cadenceApplied_cadenceAtContexts s).1

/-- Settles O5: the three owners in turn, by their lemmas. -/
theorem cadenceAdvancesItsOwners : Obligations.CadenceAdvancesItsOwners := by
  intro s h b0 b1 more hs hl hall
  obtain ⟨hchannels, hchan, hlapse⟩ := s.channelsNoticed_eq (b0 ++ b1)
  refine ⟨_, (s.channelsNoticed (b0 ++ b1)).ev, exec_cadence hs hl hall, ?_⟩
  generalize s.channelsNoticed (b0 ++ b1) = v at hchannels hchan hlapse ⊢
  have hcontexts := v.notice_cadence_frame
  have hbusy (hb : v.ren.busy = true) : (v.notice .cadence).ren = { v.ren with notices := v.ren.notices ++ [Notice.cadence] } ∧
      (v.notice .cadence).ev = v.ev := by
    rw [State.notice_busy hb]
    exact ⟨rfl, rfl⟩
  have hidle : v.ren.busy = false → v.notice .cadence = v.cadenceAtContexts := State.notice_idle
  obtain ⟨_, happlied, hlost⟩ := v.cadenceApplied_cadenceAtContexts
  generalize v.notice .cadence = w at hcontexts hbusy hidle ⊢
  have hpanel := w.cadenceAtPanel_frame
  have hseq : w.seq = s.seq := by rw [hcontexts, hchannels]; rfl
  have hrow : w.row = s.row := by rw [hcontexts, hchannels]; rfl
  have hren : v.ren = s.ren := by rw [hchannels]; rfl
  rw [hren] at hbusy hidle happlied hlost
  have hframe : w.cadenceAtPanel = { s.heard with
      rx := { s.heard.rx with lastCount := b0 ++ b1 }
      cls := { s.cls with chanState := v.cls.chanState }
      ren := w.ren, ev := w.ev, seq := w.cadenceAtPanel.seq, row := w.cadenceAtPanel.row } := by
    refine hpanel.trans ?_
    generalize w.cadenceAtPanel = t
    rw [hcontexts, hchannels]
  rw [hframe]
  refine ⟨rfl, rfl, hchan, hlapse, fun hb => ?_, fun hb => ?_, fun hstate => ?_, fun hstate => ?_,
    rfl, rfl, rfl, rfl, rfl, rfl, rfl⟩
  · exact hbusy hb
  · rw [hidle hb]
    exact ⟨happlied, hlost⟩
  · rw [State.cadenceAtPanel_ignored (s := w) (by rwa [hseq])]
    exact ⟨hseq, hrow⟩
  · have hrun : w.seq.state = .running := by rwa [hseq]
    refine ⟨fun hlow => ?_, fun hne hdue => ?_⟩
    · rw [State.cadenceAtPanel_below hrun (by rw [hseq]; exact hlow), hseq]
      exact ⟨rfl, hrow⟩
    · rw [State.cadenceAtPanel_due hrun (by rwa [hseq]) (by rw [hseq]; exact hdue), hseq, hrow]
      exact ⟨rfl, fun honce => RowEngine.beginsDrain_beginDrain honce.2⟩

end Sys2Proof.Machine
end

