-- ==== Sys2Proof/Proofs/Transitions.lean ====
section
/-! The commands that find a count at its end (R36, R37, R132), and the panel's transitions by power, sweeps, drain and
blank timer (R95 to R99, R103). -/

namespace Sys2Proof.Machine

/-- A slot made FREE. -/
theorem Render.freeSlot_eq (k : Fin 4) (r : Render) :
    r.freeSlot k = { r.setSlot k { r.slots[k] with state := .free } with
      held := r.held.filter (fun g => decide (g.image ≠ r.slots[k].image))
      ready := r.ready.filter (fun g => decide (g.image ≠ r.slots[k].image)) } := by
  have hkeeps : (fun g : HeldStripe => g.image != r.slots[k].image) =
      fun g : HeldStripe => decide (g.image ≠ r.slots[k].image) := by
    funext g
    rw [Bool.eq_iff_iff, bne_iff_ne, decide_eq_true_eq]
  rw [Render.freeSlot, Render.dropHeld, hkeeps]
  rfl

/-- Settles O43: each command compares its count, and its effect is the freed slot's or the lapsed channel's. -/
theorem expiredCountsFreeAndLapse : Obligations.ExpiredCountsFreeAndLapse := by
  intro s
  refine ⟨fun k => ⟨fun hs hc => ?_, fun hno => ?_, fun hs hc => ?_, fun hno => ?_⟩, fun ch => ⟨fun hp hl => ?_, fun hno => ?_⟩⟩
  · show Host.Outcome.next _ = _
    rw [if_pos ⟨hs, hc⟩, State.closingTimeout, Render.freeSlot_eq]
  · show Host.Outcome.next _ = _
    rw [if_neg fun ⟨hs, hc⟩ => hno.elim (absurd hs) (Nat.not_lt.mpr hc)]
  · show Host.Outcome.next _ = _
    rw [if_pos ⟨hs, hc⟩, State.idleTimeout, Render.freeSlot_eq]
    cases s.perform.ren.slots[k].complete <;> rfl
  · show Host.Outcome.next _ = _
    rw [if_neg fun ⟨hs, hc⟩ => hno.elim (absurd hs) (Nat.not_lt.mpr hc)]
  · show Host.Outcome.next _ = _
    rw [if_pos ⟨hp, hl⟩, State.lapse]
  · show Host.Outcome.next _ = _
    rw [if_neg fun ⟨hp, hl⟩ => hno.elim (fun hf => Bool.noConfusion (hp.symm.trans hf)) (Nat.not_lt.mpr hl)]

/-! ### The panel -/

/-- BLANK_TIMEOUT is the arrival of the next CADENCE to ALL. -/
theorem exec_blankTimeout (s : State) :
    exec .blankTimeout s = exec (.cadence ⟨0x80, 0, 0⟩
      [(s.rx.lastCount + 1).extractLsb' 8 8, (s.rx.lastCount + 1).extractLsb' 0 8]) s := rfl

/-- A word is its two bytes. -/
theorem append_wordBytes (w : BitVec 16) : w.extractLsb' 8 8 ++ w.extractLsb' 0 8 = w := by
  apply BitVec.eq_of_getLsbD_eq
  intro i hi
  rw [BitVec.getLsbD_append, BitVec.getLsbD_extractLsb', BitVec.getLsbD_extractLsb']
  by_cases h : i < 8
  · simp [h]
  · have : i - 8 < 8 := by omega
    have : 8 + (i - 8) = i := by omega
    simp [*]

/-- The timer of R103 is the least of the count and its end, where it has not passed its end. -/
theorem Sequencer.timerAfter_eq_min {q : Sequencer} (h : q.blankTimer ≤ 153000) :
    q.timerAfter = min (q.blankTimer + 1) 153000 := by
  unfold Sequencer.timerAfter
  split <;> omega

theorem blockOf_form_all (chan seq : Byte) (kind : Byte) (body : List Byte) :
    (blockOf ⟨0x80, chan, seq⟩ kind body).form = .all := by
  simp [Block.form, blockOf]

/-- The CADENCE that brings the blank timer to the timeout. -/
theorem blankTimeout_blanks {s : State} (hrx : s.rx.state = .hunting) (hrun : s.seq.state = .running)
    (hne : s.seq.panel.blankTimeout ≠ 0)
    (hdue : s.seq.panel.blankTimeout * 600 ≤ min (s.seq.blankTimer + 1) 153000) (hmax : s.seq.blankTimer ≤ 153000)
    (honce : s.RowsOnce) :
    ∃ t, exec .blankTimeout s = .next t ∧ t.rx.lastCount = s.rx.lastCount + 1 ∧
      t.seq = { s.seq with
        state := .blanking, sweeping := false, sweepPos := t.seq.sweepPos, blankTimer := min (s.seq.blankTimer + 1) 153000 } ∧
      s.row.BeginsDrain t.row := by
  obtain ⟨t, u, hexec, hrx', _, _, _, _, _, _, hpanel, _⟩ := cadenceAdvancesItsOwners s ⟨0x80, 0, 0⟩
    ((s.rx.lastCount + 1).extractLsb' 8 8) ((s.rx.lastCount + 1).extractLsb' 0 8) [] hrx (by decide) (blockOf_form_all _ _ _ _)
  obtain ⟨_, hblank⟩ := hpanel hrun
  have htimer : s.seq.timerAfter = min (s.seq.blankTimer + 1) 153000 := Sequencer.timerAfter_eq_min hmax
  obtain ⟨hseq, hrow⟩ := hblank hne (hdue.trans_eq htimer.symm)
  refine ⟨t, (exec_blankTimeout s).trans hexec, ?_, ?_, hrow honce⟩
  · rw [hrx']
    exact append_wordBytes _
  · rw [← htimer]
    exact hseq

theorem exec_powerGoodRise {s : State} (hg : s.seq.powerGood = false) (hs : s.seq.state = .off) :
    exec .powerGoodRise s = .next { s with
      ev := s.ev.setLevel .panelPower true
      seq := { s.seq with powerGood := true, state := .starting, sweeping := true, sweepPos := 0 } } := by
  show Host.Outcome.next _ = _
  rw [if_neg (by rw [hg]; exact Bool.false_ne_true)]
  dsimp only
  rw [State.setLevel_seq, hs]
  rfl

theorem exec_powerGoodFall {s : State} (hg : s.seq.powerGood = true) :
    exec .powerGoodFall s = .next { s with
      ev := s.ev.setLevel .panelPower false
      seq := { s.seq with powerGood := false, state := .off, sweeping := false, cycle := none }
      row := s.row.abandon } := by
  show Host.Outcome.next _ = _
  rw [if_pos hg]
  rfl

/-- Settles O48: the transitions are the commands' own; the marks of the STARTING sweep by `markLit_eq`, and BLANK_TIMEOUT
by O5. -/
theorem panelFollowsPowerSweepsAndTimer : Obligations.PanelFollowsPowerSweepsAndTimer := by
  intro s
  refine ⟨fun hg => ?_, fun hg hs ha => ⟨_, exec_powerGoodRise hg hs, ?_, rfl⟩, fun hg => ?_,
    fun hg ha => ⟨_, exec_powerGoodFall hg, ?_, rfl⟩, fun hs hp => ?_, fun hno => ?_, fun hs hw he => ?_, fun hno => ?_,
    fun hs hw hp => ?_, fun hno => ?_, exec_blankTimeout s, blankTimeout_blanks⟩
  · show Host.Outcome.next _ = _
    rw [if_pos hg]
  · exact EventUnit.levelBecame_setLevel _ _ ha
  · show Host.Outcome.next _ = _
    rw [if_neg (by rw [hg]; exact Bool.false_ne_true)]
  · exact EventUnit.levelBecame_setLevel _ _ ha
  · show Host.Outcome.next _ = _
    rw [hs]
    dsimp only
    rw [if_pos hp, State.markLit_eq]
    rfl
  · show Host.Outcome.next _ = _
    split
    · next hs => rw [if_neg (hno.resolve_left fun h => h hs)]
    all_goals rfl
  · show Host.Outcome.next _ = _
    rw [hs]
    dsimp only
    rw [RowEngine.drained_iff.mpr he, hw]
    rfl
  · show Host.Outcome.next _ = _
    split
    · next hs =>
      rw [if_neg]
      rw [Bool.and_eq_true, Bool.not_eq_true', RowEngine.drained_iff]
      rintro ⟨he, hw⟩
      rcases hno with h | h | h
      · exact h hs
      · exact Bool.noConfusion (hw.symm.trans h)
      · exact h he
    all_goals rfl
  · show Host.Outcome.next _ = _
    rw [hs]
    dsimp only
    rw [hw, if_pos (by rw [Bool.true_and, decide_eq_true hp])]
  · show Host.Outcome.next _ = _
    split
    · next hs =>
      rw [if_neg]
      rw [Bool.and_eq_true, decide_eq_true_eq]
      rintro ⟨hw, hp⟩
      rcases hno with h | h | h
      · exact h hs
      · exact Bool.noConfusion (hw.symm.trans h)
      · exact h hp
    all_goals rfl

end Sys2Proof.Machine
end

