-- ==== Sys2Proof/Proofs/ReturnLine.lean ====
section
/-! The frames of the return line (R154, R155, R177, R178) and the handshake of the accessory port (R159, R160). -/

namespace Sys2Proof.Machine

/-! ### Frames -/

/-- A frame of a kind and a body: lead, number with attention in bit 7, kind, length, body and CRC. -/
def frameOf (number : Fin 32) (attention : Bool) (kind : Byte) (body : List Byte) : List Byte :=
  let covered := [byteOf number.val ||| (if attention then 0x80 else 0), kind, byteOf body.length] ++ body
  0xC3 :: (covered ++ wordBytes (crc16 covered))

theorem flagBit_seven (b : Bool) : flagBit b 7 = if b then 0x80 else 0 := by cases b <;> rfl

theorem frameBytes_none (number : Fin 32) (attention : Bool) :
    frameBytes number attention none = frameOf number attention 0 [] := by
  rw [frameBytes, frameOf, flagBit_seven, leadByte]

theorem frameBytes_some (number : Fin 32) (attention : Bool) (r : Report) :
    frameBytes number attention (some r) = frameOf number attention r.kind r.body := by
  rw [frameBytes, frameOf, flagBit_seven, leadByte]

theorem flatMap_summaries (v : Vector SlotSummary 4) :
    v.toList.flatMap SlotSummary.bytes = v[0].bytes ++ v[1].bytes ++ v[2].bytes ++ v[3].bytes := by
  have hlist : v.toList = [v[0], v[1], v[2], v[3]] := by
    apply List.ext_getElem
    · simp
    · intro i h _
      have hi : i < 4 := by simpa using h
      interval_cases i <;> simp
  rw [hlist]
  simp

/-- What a grant on the second bit time begins. -/
theorem State.beginFrame_eq (s : State) :
    s.beginFrame = { s with tx := { s.tx with
      state := .sending
      frame := some ⟨frameBytes s.cls.number s.ev.attention s.tx.queue.head?, !s.tx.queue.isEmpty⟩ } } := rfl

/-- The body of a STATUS report, field by field. -/
theorem Report.body_status (f : StatusFields) :
    (Report.status f).body =
      [byteOf f.number.val, f.source.code, f.panel.code] ++ longBytes f.raw ++ longBytes f.latched ++ longBytes f.mask ++
        [byteOrNone f.lastWatch] ++ f.slots[0].bytes ++ f.slots[1].bytes ++ f.slots[2].bytes ++ f.slots[3].bytes ++
        [byteOf f.renderDepth, byteOf f.upstreamDepth, f.store.code] ++ wordBytes (BitVec.ofNat 16 f.commits) ++
        [flagBit f.lineLevels[0] 0 ||| flagBit f.lineLevels[1] 1 ||| flagBit f.lineLevels[2] 2 |||
          flagBit f.lineLevels[3] 3] ++
        wordBytes f.count ++ [byteOf f.faults.length] ++ f.faults.flatMap (fun y => wordBytes (BitVec.ofNat 16 y.val)) := by
  rw [Report.body, flatMap_summaries]
  simp only [List.append_assoc]

theorem append_congr {a b c d : List Byte} (h : a = b) (h' : c = d) : a ++ c = b ++ d := by rw [h, h']

/-- Settles O52: the transmitter's transitions are the commands' own, and the frame's bytes are those of its report. -/
theorem framesFollowTheGrant : Obligations.FramesFollowTheGrant := by
  intro s up frame summary bytes begun
  have hframe : frame = frameOf s.cls.number s.ev.attention := rfl
  have hsummary : summary = SlotSummary.bytes := by
    funext c
    cases hc : c.state <;> simp only [summary, hc, SlotSummary.bytes, SlotState.code]
  have hbytes : frameBytes s.cls.number s.ev.attention s.tx.queue.head? = bytes := by
    dsimp only [bytes]
    clear_value frame summary
    subst hframe hsummary
    split
    · next hq =>
      rw [hq]
      exact frameBytes_none _ _
    · next hq =>
      rename_i zone _ _ _ _ _
      rw [hq, List.head?_cons, frameBytes_some, Report.body]
      cases zone <;> rfl
    · next hq =>
      rw [hq]
      exact frameBytes_some _ _ _
    · next hq =>
      rename_i f _
      rw [hq, List.head?_cons, frameBytes_some, Report.body_status]
      refine congrArg (frameOf _ _ 3) (append_congr (append_congr (append_congr (append_congr (append_congr (append_congr
        (append_congr (append_congr (append_congr (append_congr (append_congr ?head ?watch) rfl) rfl) rfl) rfl) ?store) rfl)
        ?lines) rfl) rfl) rfl)
      case head => rfl
      case watch => cases f.lastWatch <;> rfl
      case store => rfl
      case lines =>
        generalize f.lineLevels[0] = a, f.lineLevels[1] = b, f.lineLevels[2] = c, f.lineLevels[3] = d
        revert a b c d
        decide
  have hbegun : up.beginFrame = begun := by
    refine up.beginFrame_eq.trans ?_
    dsimp only [up, begun]
    rw [hbytes]
  refine ⟨fun h => ?_, fun h => ⟨?_, ?_⟩, fun h => ?_, fun h => ?_, fun f h hf => ?_, fun h => ?_, rfl⟩
  · show Host.Outcome.next _ = _
    dsimp only
    rw [h]
  · show Host.Outcome.next _ = _
    dsimp only
    rw [h]
    exact congrArg Host.Outcome.next hbegun
  · show Host.Outcome.next _ = _
    rw [h]
    exact congrArg Host.Outcome.next hbegun
  · show Host.Outcome.next _ = _
    dsimp only
    rcases h with h | h <;> rw [h]
  · show Host.Outcome.next _ = _
    split
    · next hq => exact absurd hq h
    all_goals rfl
  · show Host.Outcome.next _ = _
    rw [h]
    dsimp only
    rw [hf, List.drop_one]
  · show Host.Outcome.next _ = _
    split
    · next hq => exact absurd hq h
    all_goals rfl

/-! ### The accessory port -/

theorem AccessoryPort.next_eq (a : AccessoryPort) :
    a.next = { a with
      stalled := false
      state := if a.buffer = [] then .idle else if a.busy then .holding else .strobed
      ackTimer := if a.buffer = [] then .stands else if a.busy then .stands else .running } := by
  unfold AccessoryPort.next AccessoryPort.offerByte
  cases a.buffer <;> cases a.busy <;> rfl

/-- The events after ACCESSORY-FAULT has followed the port. -/
theorem levelBecame_followAccessory {s : State} (ha : s.AttentionExact) (a : AccessoryPort) :
    EventUnit.LevelBecame .accessoryFault a.faultCondition s.ev (State.followAccessory { s with acc := a }).ev :=
  EventUnit.levelBecame_setLevel _ _ ha

theorem State.followAccessory_eq (s : State) :
    s.followAccessory = { s with ev := s.followAccessory.ev } := rfl

/-- A port that has not stalled meets the condition of ACCESSORY-FAULT by its fault line alone. -/
theorem AccessoryPort.faultCondition_running {a : AccessoryPort} (h : a.stalled = false) :
    a.faultCondition = (a.fitted && a.faultAccepted) := by
  rw [AccessoryPort.faultCondition, h, Bool.or_false]

/-- Settles O53: each command by the port's state, and the level of ACCESSORY-FAULT by `levelBecame_followAccessory`. -/
theorem accessoryHandshakeFollowsItsTable : Obligations.AccessoryHandshakeFollowsItsTable := by
  intro s ha
  refine ⟨fun h => ?_, fun byte rest hb h => ?_, rfl, fun h => ?_, fun hbusy h => ?_, fun hbusy h => ?_, fun h => ?_,
    fun h => ?_⟩
  · show Host.Outcome.next _ = _
    rcases h with h | h <;> rw [h]
  · have hdeliver : s.acc.deliver = { s.acc with
        buffer := rest, stalled := false
        state := if rest = [] then .idle else if s.acc.busy then .holding else .strobed
        ackTimer := if rest = [] then .stands else if s.acc.busy then .stands else .running } := by
      rw [AccessoryPort.deliver, AccessoryPort.next_eq, hb]
      rfl
    have hexec : exec .acknowledge s = .next (State.followAccessory { s with acc := s.acc.deliver }) := by
      show Host.Outcome.next _ = _
      rcases h with h | h <;> rw [h]
    refine ⟨_, hexec, ?_, ?_⟩
    · rw [hdeliver]
      rfl
    · have hfault : s.acc.deliver.faultCondition = (s.acc.fitted && s.acc.faultAccepted) := by
        rw [hdeliver]
        exact AccessoryPort.faultCondition_running rfl
      rw [← hfault]
      exact levelBecame_followAccessory ha _
  · show Host.Outcome.next _ = _
    rw [h]
    rfl
  · show Host.Outcome.next _ = _
    rw [hbusy]
    rcases h with h | h <;> simp [h]
  · have hexec : exec .busyReleased s = .next (State.followAccessory { s with
        acc := { s.acc with busy := false, state := .strobed, ackTimer := .running, stalled := false } }) := by
      show Host.Outcome.next _ = _
      rw [hbusy]
      rcases h with h | h <;> simp [h, AccessoryPort.offerByte]
    refine ⟨_, hexec, rfl, ?_⟩
    have hfault := AccessoryPort.faultCondition_running
      (a := { s.acc with busy := false, state := .strobed, ackTimer := .running, stalled := false }) rfl
    have hlevel := levelBecame_followAccessory ha
      { s.acc with busy := false, state := .strobed, ackTimer := .running, stalled := false }
    rwa [hfault] at hlevel
  · have hexec : exec .ackTimeout s = .next (State.followAccessory { s with
        acc := { s.acc with state := .stalled, ackTimer := .stands, stalled := true } }) := by
      show Host.Outcome.next _ = _
      rw [h]
    refine ⟨_, hexec, rfl, ?_⟩
    have hlevel := levelBecame_followAccessory ha { s.acc with state := .stalled, ackTimer := .stands, stalled := true }
    rwa [AccessoryPort.faultCondition, Bool.or_true, Bool.and_true] at hlevel
  · show Host.Outcome.next _ = _
    split
    · next hq => exact absurd hq h
    all_goals rfl

end Sys2Proof.Machine
end

