-- ==== Sys2Proof/Proofs/Sampling.lean ====
section
/-! What a scan samples beside the beams: the service line (R121), the signal lines (R162, R164) and the accessory's fault
line (R160). Each is written out once; the events that a sample is not about are kept. -/

namespace Sys2Proof.Machine

/-! ### Events that stay -/

/-- Event m has kept its raw value, and its latched status where it was set; the EVENTS table stands. -/
def EventUnit.KeepsEvent (m : Nat) (u u' : EventUnit) : Prop :=
  u'.raw.getLsbD m = u.raw.getLsbD m ∧ (u.latched.getLsbD m = true → u'.latched.getLsbD m = true) ∧ u'.table = u.table

section
variable {m : Nat} {u v w : EventUnit}

theorem EventUnit.KeepsEvent.refl (u : EventUnit) : u.KeepsEvent m u := ⟨rfl, id, rfl⟩

theorem EventUnit.KeepsEvent.trans (h : u.KeepsEvent m v) (h' : v.KeepsEvent m w) : u.KeepsEvent m w := by
  obtain ⟨hraw, hlatched, htable⟩ := h
  obtain ⟨hraw', hlatched', htable'⟩ := h'
  exact ⟨hraw'.trans hraw, hlatched' ∘ hlatched, htable'.trans htable⟩

/-- A level change keeps every other event. -/
theorem EventUnit.keepsEvent_setLevel {e : LevelEvent} (hm : m < 32) (hne : m ≠ e.num) (v : Bool) (u : EventUnit) :
    u.KeepsEvent m (u.setLevel e v) := by
  refine ⟨?_, fun hl => ?_, EventUnit.setLevel_table e v u⟩
  · rw [EventUnit.getLsbD_setLevel_raw e v u hm, if_neg hne]
  · rw [EventUnit.getLsbD_setLevel_latched e v u hm, hl, Bool.true_or]

/-- An occurrence keeps every other event. -/
theorem EventUnit.keepsEvent_occur {e : EdgeEvent} (hm : m < 32) (hne : m ≠ e.num) (u : EventUnit) :
    u.KeepsEvent m (u.occur e) := by
  obtain ⟨hraw, hlatched, htable, _⟩ := EventUnit.occurred_occur e u
  refine ⟨?_, fun hl => ?_, htable⟩
  · rw [hraw m hm, beq_false_of_ne hne, Bool.false_or]
  · rw [hlatched m hm, hl, Bool.true_or]

end

/-! ### Reports offered in turn (R153) -/

/-- A report offered to the upstream queue: it joins the tail where there is room, and events but REPORT-OVERFLOW are
kept. -/
theorem State.offer_frame (r : Report) (s : State) :
    s.offer r = { s with
        tx := { s.tx with queue := s.tx.queue ++ [r].take (16 - s.tx.queue.length) }, ev := (s.offer r).ev } ∧
      ∀ m, m < 32 → m ≠ 26 → s.ev.KeepsEvent m (s.offer r).ev := by
  by_cases h : s.tx.queue.length < 16
  · have htake : [r].take (16 - s.tx.queue.length) = [r] := List.take_of_length_le (by simp only [List.length_singleton]; omega)
    rw [State.offer_room h, htake]
    exact ⟨rfl, fun m _ _ => .refl _⟩
  · have htake : 16 - s.tx.queue.length = 0 := by omega
    rw [State.offer_full h, htake, List.take_zero, List.append_nil]
    exact ⟨rfl, fun m hm hne => EventUnit.keepsEvent_occur (e := .reportOverflow) hm hne _⟩

/-- Reports offered in turn fill the room that is left. -/
theorem append_take_room {α : Type} (q rs rs' : List α) (n : Nat) :
    (q ++ rs.take (n - q.length)) ++ rs'.take (n - (q ++ rs.take (n - q.length)).length) =
      q ++ (rs ++ rs').take (n - q.length) := by
  rw [List.append_assoc, List.take_append, List.length_append, List.length_take]
  congr 3
  omega

/-! ### One signal line (R162, R164) -/

/-- A sampled level is accepted, and LINE-IN follows it: the first sample of an INPUT line, or a change that a second equal
sample confirms. -/
def SignalLine.accepts (v : Bool) (l : SignalLine) : Bool :=
  decide (l.entry.config = .input) &&
    (decide (l.lastSample = none) || decide (l.lastSample = some v) && decide (v ≠ l.accepted))

/-- A sampled level makes a LINE report. -/
def SignalLine.reports (v : Bool) (l : SignalLine) : Bool :=
  decide (l.entry.config = .input) && l.entry.report && decide (l.lastSample = some v) && decide (v ≠ l.accepted)

/-- A line after its level has been sampled. -/
def SignalLine.sampled (v : Bool) (l : SignalLine) : SignalLine :=
  if l.entry.config = .input then
    if l.accepts v then { l with lastSample := some v, accepted := v } else { l with lastSample := some v }
  else l

/-- The state at line n after its level has been sampled, before a report. -/
def State.lineSampled (levels : BitVec 4) (n : Fin 4) (s : State) : State :=
  { s with
    lines := s.lines.set n (s.lines[n].sampled (levels.getLsbD n.val))
    ev := if s.lines[n].accepts (levels.getLsbD n.val) then s.ev.setLevel (.lineIn n) (levels.getLsbD n.val) else s.ev }

section
variable {l : SignalLine} {v : Bool}

theorem SignalLine.sampled_eq_self (h : l.entry.config ≠ .input) :
    l.sampled v = l ∧ l.accepts v = false ∧ l.reports v = false := by
  refine ⟨if_neg h, ?_, ?_⟩
  · rw [SignalLine.accepts, decide_eq_false h, Bool.false_and]
  · rw [SignalLine.reports, decide_eq_false h, Bool.false_and, Bool.false_and, Bool.false_and]

/-- The first sample after the line became INPUT. -/
theorem SignalLine.sampled_first (h : l.entry.config = .input) (hl : l.lastSample = none) :
    l.sampled v = { l with lastSample := some v, accepted := v } ∧ l.accepts v = true ∧ l.reports v = false := by
  have haccepts : l.accepts v = true := by simp [SignalLine.accepts, h, hl]
  refine ⟨?_, haccepts, by simp [SignalLine.reports, hl]⟩
  rw [SignalLine.sampled, if_pos h, if_pos haccepts]

/-- A sample that equals the last one. -/
theorem SignalLine.sampled_again (h : l.entry.config = .input) (hl : l.lastSample = some v) :
    l.sampled v = { l with lastSample := some v, accepted := v } ∧ l.accepts v = decide (v ≠ l.accepted) ∧
      l.reports v = (l.entry.report && decide (v ≠ l.accepted)) := by
  have haccepts : l.accepts v = decide (v ≠ l.accepted) := by simp [SignalLine.accepts, h, hl]
  refine ⟨?_, haccepts, by simp [SignalLine.reports, h, hl]⟩
  rw [SignalLine.sampled, if_pos h, haccepts]
  by_cases hv : v = l.accepted
  · rw [decide_eq_false (not_not_intro hv), if_neg Bool.false_ne_true, hv]
  · rw [decide_eq_true hv, if_pos rfl]

/-- A sample that differs from the last one. -/
theorem SignalLine.sampled_changed (h : l.entry.config = .input) (hl : l.lastSample = some (!v)) :
    l.sampled v = { l with lastSample := some v } ∧ l.accepts v = false ∧ l.reports v = false := by
  have hne : ¬ l.lastSample = some v := by rw [hl]; cases v <;> simp
  have haccepts : l.accepts v = false := by simp [SignalLine.accepts, hl]
  refine ⟨?_, haccepts, by simp [SignalLine.reports, hl]⟩
  rw [SignalLine.sampled, if_pos h, if_neg (by rw [haccepts]; exact Bool.false_ne_true)]

end

theorem State.sampleLine_eq (levels : BitVec 4) (s : State) (n : Fin 4) :
    s.sampleLine levels n =
      if s.lines[n].reports (levels.getLsbD n.val) then
        (s.lineSampled levels n).offer (.line n (levels.getLsbD n.val) s.rx.lastCount)
      else s.lineSampled levels n := by
  have hself (h : s.lines[n].sampled (levels.getLsbD n.val) = s.lines[n])
      (ha : s.lines[n].accepts (levels.getLsbD n.val) = false) : s.lineSampled levels n = s := by
    have hset : s.lines.set n s.lines[n] = s.lines := Vector.set_getElem_self n.isLt
    rw [State.lineSampled, h, ha, hset]
    rfl
  unfold State.sampleLine
  dsimp only
  by_cases hc : s.lines[n].entry.config = .input
  · rw [hc]
    dsimp only
    cases hl : s.lines[n].lastSample with
    | none =>
      obtain ⟨hs, ha, hr⟩ := SignalLine.sampled_first (v := levels.getLsbD n.val) hc hl
      rw [hr, State.lineSampled, hs, ha]
      rfl
    | some last =>
      dsimp only
      by_cases hv : levels.getLsbD n.val = last
      · obtain ⟨hs, ha, hr⟩ := SignalLine.sampled_again (v := levels.getLsbD n.val) hc (by rw [hl, hv])
        rw [hr, State.lineSampled, hs, ha]
        by_cases hnew : levels.getLsbD n.val = s.lines[n].accepted
        · rw [if_neg fun h => h.2 hnew, decide_eq_false (not_not_intro hnew), Bool.and_false]
          simp only [Bool.false_eq_true, if_false]
          rw [State.setLine, hnew]
        · rw [if_pos ⟨hv, hnew⟩, decide_eq_true hnew, Bool.and_true]
          rfl
      · have hlast : s.lines[n].lastSample = some (!levels.getLsbD n.val) := by
          rw [hl, Bool.eq_not_of_ne fun h => hv h.symm]
        obtain ⟨hs, ha, hr⟩ := SignalLine.sampled_changed (v := levels.getLsbD n.val) hc hlast
        rw [if_neg fun h => hv h.1, hr, State.lineSampled, hs, ha]
        rfl
  · obtain ⟨hs, ha, hr⟩ := SignalLine.sampled_eq_self (v := levels.getLsbD n.val) hc
    rw [hr, hself hs ha]
    cases h : s.lines[n].entry.config with
    | input => exact absurd h hc
    | output => rfl
    | attention => rfl

/-- What one line's sample writes, and the events it keeps. -/
theorem State.sampleLine_frame (levels : BitVec 4) (s : State) (n : Fin 4) :
    s.sampleLine levels n = { s with
        lines := s.lines.set n (s.lines[n].sampled (levels.getLsbD n.val))
        ev := (s.sampleLine levels n).ev
        tx := { s.tx with queue := s.tx.queue ++
          ([n].filter (fun n => s.lines[n].reports (levels.getLsbD n.val)) |>.map fun n =>
            Report.line n (levels.getLsbD n.val) s.rx.lastCount).take (16 - s.tx.queue.length) } } ∧
      (s.sampleLine levels n).ev.raw.getLsbD (4 + n.val) =
        (if s.lines[n].accepts (levels.getLsbD n.val) then levels.getLsbD n.val else s.ev.raw.getLsbD (4 + n.val)) ∧
      ∀ m, m < 32 → m ≠ 4 + n.val → (m = 26 → s.lines[n].reports (levels.getLsbD n.val) = false) →
        s.ev.KeepsEvent m (s.sampleLine levels n).ev := by
  have hraw : (s.lineSampled levels n).ev.raw.getLsbD (4 + n.val) =
      if s.lines[n].accepts (levels.getLsbD n.val) then levels.getLsbD n.val else s.ev.raw.getLsbD (4 + n.val) := by
    rw [State.lineSampled]
    cases s.lines[n].accepts (levels.getLsbD n.val)
    · rfl
    · exact (EventUnit.getLsbD_setLevel_raw _ _ _ (by omega)).trans (if_pos rfl)
  have hkeeps {m : Nat} (hm : m < 32) (hne : m ≠ 4 + n.val) : s.ev.KeepsEvent m (s.lineSampled levels n).ev := by
    rw [State.lineSampled]
    cases s.lines[n].accepts (levels.getLsbD n.val)
    · exact .refl _
    · exact EventUnit.keepsEvent_setLevel (e := .lineIn n) hm hne _ _
  rw [State.sampleLine_eq]
  cases hr : s.lines[n].reports (levels.getLsbD n.val) with
  | false =>
    have hnone : [n].filter (fun n => s.lines[n].reports (levels.getLsbD n.val)) = [] :=
      List.filter_cons_of_neg (by rw [hr]; exact Bool.false_ne_true)
    rw [hnone]
    refine ⟨?_, hraw, fun m hm hne _ => hkeeps hm hne⟩
    simp only [Bool.false_eq_true, if_false, List.map_nil, List.take_nil, List.append_nil]
    rfl
  | true =>
    have hone : [n].filter (fun n => s.lines[n].reports (levels.getLsbD n.val)) = [n] :=
      List.filter_cons_of_pos hr
    obtain ⟨hframe, hoffer⟩ := State.offer_frame (.line n (levels.getLsbD n.val) s.rx.lastCount) (s.lineSampled levels n)
    rw [hone, if_pos rfl, List.map_singleton]
    refine ⟨hframe, ?_, fun m hm hne h26 => ?_⟩
    · have h := hoffer (4 + n.val) (by omega) (by omega)
      exact h.1.trans hraw
    · exact (hkeeps hm hne).trans (hoffer m hm fun h => Bool.noConfusion (h26 h))

/-! ### The four lines in turn -/

/-- The LINE reports of several lines. -/
def State.lineReports (s : State) (levels : BitVec 4) (ns : List (Fin 4)) : List Report :=
  (ns.filter fun n => s.lines[n].reports (levels.getLsbD n.val)).map fun n =>
    Report.line n (levels.getLsbD n.val) s.rx.lastCount

/-- The state after several lines, each of them once, have been sampled in turn. -/
theorem State.sampleLines_frame (levels : BitVec 4) {ns : List (Fin 4)} (hd : ns.Nodup) (s : State) :
    ns.foldl (State.sampleLine levels) s = { s with
        lines := (ns.foldl (State.sampleLine levels) s).lines
        ev := (ns.foldl (State.sampleLine levels) s).ev
        tx := { s.tx with queue := s.tx.queue ++ (s.lineReports levels ns).take (16 - s.tx.queue.length) } } ∧
      (∀ n : Fin 4, (ns.foldl (State.sampleLine levels) s).lines[n] =
        if n ∈ ns then s.lines[n].sampled (levels.getLsbD n.val) else s.lines[n]) ∧
      (∀ n ∈ ns, (ns.foldl (State.sampleLine levels) s).ev.raw.getLsbD (4 + n.val) =
        if s.lines[n].accepts (levels.getLsbD n.val) then levels.getLsbD n.val else s.ev.raw.getLsbD (4 + n.val)) ∧
      ∀ m, m < 32 → (∀ n ∈ ns, m ≠ 4 + n.val) → (m = 26 → s.lineReports levels ns = []) →
        s.ev.KeepsEvent m (ns.foldl (State.sampleLine levels) s).ev := by
  induction ns generalizing s with
  | nil =>
    refine ⟨?_, fun _ => rfl, nofun, fun _ _ _ _ => .refl _⟩
    rw [State.lineReports, List.filter_nil, List.map_nil, List.take_nil, List.append_nil]
    rfl
  | cons k ns ih =>
    obtain ⟨hk, hd⟩ := List.nodup_cons.mp hd
    obtain ⟨hframe, hraw, hkeeps⟩ := s.sampleLine_frame levels k
    obtain ⟨ihframe, ihlines, ihraw, ihkeeps⟩ := ih hd (s.sampleLine levels k)
    have hother {n : Fin 4} (h : n ≠ k) : (s.sampleLine levels k).lines[n] = s.lines[n] := by
      rw [hframe]
      exact Vector.getElem_set_ne k.isLt n.isLt fun hkn => h (Fin.ext hkn.symm)
    have hreports : (s.sampleLine levels k).lineReports levels ns = s.lineReports levels ns := by
      have hcount : (s.sampleLine levels k).rx.lastCount = s.rx.lastCount := by rw [hframe]
      rw [State.lineReports, State.lineReports, hcount]
      refine congrArg (List.map _) (List.filter_congr fun n hn => ?_)
      rw [hother fun h => hk (h ▸ hn)]
    have hsplit : s.lineReports levels (k :: ns) = s.lineReports levels [k] ++ s.lineReports levels ns := by
      rw [State.lineReports, ← List.singleton_append, List.filter_append, List.map_append]
      rfl
    rw [List.foldl_cons]
    generalize ns.foldl (State.sampleLine levels) (s.sampleLine levels k) = t at ihframe ihlines ihraw ihkeeps ⊢
    rw [hreports] at ihframe ihkeeps
    refine ⟨?_, fun n => ?_, fun n hn => ?_, fun m hm hne h26 => ?_⟩
    · refine ihframe.trans ?_
      rw [hframe]
      dsimp only
      rw [hsplit, ← append_take_room]
      rfl
    · rw [ihlines]
      by_cases h : n = k
      · subst h
        rw [if_neg hk, if_pos List.mem_cons_self, hframe]
        exact Vector.getElem_set_self n.isLt
      · rw [hother h]
        simp only [List.mem_cons, h, false_or]
    · rcases List.mem_cons.mp hn with rfl | hn
      · have hlt : 4 + n.val < 32 := by omega
        have hothers : ∀ k ∈ ns, 4 + n.val ≠ 4 + k.val := fun k hkn h => hk ((Fin.ext (by omega) : n = k) ▸ hkn)
        obtain ⟨hkept, _⟩ := ihkeeps (4 + n.val) hlt hothers (by omega)
        exact hkept.trans hraw
      · have hne : n ≠ k := fun h => hk (h ▸ hn)
        have hvne : n.val ≠ k.val := fun h => hne (Fin.ext h)
        obtain ⟨hkept, _⟩ := hkeeps (4 + n.val) (by omega) (by omega) (by omega)
        rw [ihraw n hn, hother hne, hkept]
    · have hnone : m = 26 → s.lineReports levels [k] = [] ∧ s.lineReports levels ns = [] := fun h => by
        have := h26 h
        rw [hsplit] at this
        exact List.append_eq_nil_iff.mp this
      refine (hkeeps m hm (hne k List.mem_cons_self) fun h => ?_).trans
        (ihkeeps m hm (fun n hn => hne n (List.mem_cons_of_mem _ hn)) fun h => (hnone h).2)
      have hk := (hnone h).1
      rw [State.lineReports, List.map_eq_nil_iff, List.filter_eq_nil_iff] at hk
      exact Bool.eq_false_of_not_eq_true (hk k List.mem_cons_self)

/-! ### The three samplings of a scan -/

/-- The accepted level of the service line after a sample (R121). -/
def Classifier.serviceLevel (level : Bool) (c : Classifier) : Bool := acceptSample c.serviceAccepted c.serviceLast level

theorem State.sampleService_eq (level : Bool) (s : State) :
    s.sampleService level = { s with
      cls := { s.cls with
        serviceLast := level, serviceAccepted := s.cls.serviceLevel level
        number := (s.sampleService level).cls.number, source := (s.sampleService level).cls.source }
      ev := s.ev.setLevel .serviceLine (s.cls.serviceLevel level) } := by
  have hform (c : Classifier) : c.formNumber = { c with number := c.formNumber.number, source := c.formNumber.source } := by
    unfold Classifier.formNumber
    split
    · rfl
    · split <;> rfl
  rw [State.sampleService, Classifier.serviceLevel]
  split
  · rfl
  · rw [hform]
    rfl

/-- The number that is in force after the service line has been sampled. -/
theorem State.sampleService_number (level : Bool) (s : State) :
    ((s.sampleService level).cls.number, (s.sampleService level).cls.source) =
      if s.cls.serviceLevel level = s.cls.serviceAccepted then (s.cls.number, s.cls.source)
      else if s.cls.serviceLevel level = true then (0, NumberSource.service)
      else if s.cls.address.valid = true then (s.cls.address.number, NumberSource.override)
      else (s.cls.strap, NumberSource.straps) := by
  rw [State.sampleService, Classifier.serviceLevel]
  dsimp only
  split
  · rfl
  · rw [State.setLevel_cls, Classifier.formNumber]
    dsimp only
    split
    · rfl
    · split <;> rfl

/-- The accepted level of the fault line after a sample (R160). -/
def AccessoryPort.faultLevel (level : Bool) (a : AccessoryPort) : Bool := acceptSample a.faultAccepted a.faultLast level

theorem State.sampleFault_unfitted {level : Bool} {s : State} (h : s.acc.fitted = false) : s.sampleFault level = s := by
  rw [State.sampleFault, if_neg (by rw [h]; exact Bool.false_ne_true)]

theorem State.sampleFault_fitted {level : Bool} {s : State} (h : s.acc.fitted = true) :
    s.sampleFault level = { s with
      acc := { s.acc with faultLast := level, faultAccepted := s.acc.faultLevel level }
      ev := s.ev.setLevel .accessoryFault (s.acc.faultLevel level || s.acc.stalled) } := by
  rw [State.sampleFault, if_pos h, State.followAccessory, AccessoryPort.faultCondition, AccessoryPort.faultLevel]
  dsimp only
  rw [h, Bool.true_and]
  rfl

theorem State.sampleFault_frame (level : Bool) (s : State) :
    s.sampleFault level = { s with acc := (s.sampleFault level).acc, ev := (s.sampleFault level).ev } ∧
      ∀ m, m < 32 → m ≠ 3 → s.ev.KeepsEvent m (s.sampleFault level).ev := by
  cases h : s.acc.fitted with
  | false =>
    rw [State.sampleFault_unfitted h]
    exact ⟨rfl, fun _ _ _ => .refl _⟩
  | true =>
    rw [State.sampleFault_fitted h]
    exact ⟨rfl, fun m hm hne => EventUnit.keepsEvent_setLevel (e := .accessoryFault) hm hne _ _⟩

/-- The samplings of a scan after its beams have been examined. -/
def State.sampleInputs (x : ScanSample) (s : State) : State :=
  ((s.sampleService x.service).sampleLines x.lines).sampleFault x.fault

/-- What the samplings of a scan write, and the events they keep. -/
theorem State.sampleInputs_frame (x : ScanSample) (s : State) :
    s.sampleInputs x = { s with
        cls := (s.sampleService x.service).cls
        lines := (s.sampleInputs x).lines
        acc := (s.sampleInputs x).acc
        ev := (s.sampleInputs x).ev
        tx := { s.tx with
          queue := s.tx.queue ++ (s.lineReports x.lines (List.finRange 4)).take (16 - s.tx.queue.length) } } ∧
      (∀ n : Fin 4, (s.sampleInputs x).lines[n] = s.lines[n].sampled (x.lines.getLsbD n.val)) ∧
      (∀ n : Fin 4, (s.sampleInputs x).ev.raw.getLsbD (4 + n.val) =
        if s.lines[n].accepts (x.lines.getLsbD n.val) then x.lines.getLsbD n.val else s.ev.raw.getLsbD (4 + n.val)) ∧
      (s.sampleInputs x).ev.raw.getLsbD 2 = s.cls.serviceLevel x.service ∧
      (s.acc.fitted = false → (s.sampleInputs x).acc = s.acc ∧
        (s.sampleInputs x).ev.raw.getLsbD 3 = s.ev.raw.getLsbD 3) ∧
      (s.acc.fitted = true →
        (s.sampleInputs x).acc = { s.acc with faultLast := x.fault, faultAccepted := s.acc.faultLevel x.fault } ∧
        (s.sampleInputs x).ev.raw.getLsbD 3 = (s.acc.faultLevel x.fault || s.acc.stalled)) ∧
      ∀ m, 8 ≤ m → m < 32 → (m = 26 → s.lineReports x.lines (List.finRange 4) = []) →
        s.ev.KeepsEvent m (s.sampleInputs x).ev := by
  have hservice := s.sampleService_eq x.service
  obtain ⟨hlines, hsampled, hraw, hlinesKeep⟩ :=
    State.sampleLines_frame x.lines (List.nodup_finRange 4) (s.sampleService x.service)
  have hserviceKeep {m : Nat} (hm : m < 32) (hne : m ≠ 2) : s.ev.KeepsEvent m (s.sampleService x.service).ev := by
    rw [hservice]
    exact EventUnit.keepsEvent_setLevel (e := .serviceLine) hm hne _ _
  have hreports : (s.sampleService x.service).lineReports x.lines (List.finRange 4) =
      s.lineReports x.lines (List.finRange 4) := by
    rw [hservice]
    rfl
  have hfold : (s.sampleService x.service).sampleLines x.lines =
      (List.finRange 4).foldl (State.sampleLine x.lines) (s.sampleService x.service) := rfl
  rw [hreports] at hlines hlinesKeep
  rw [← hfold] at hlines hsampled hraw hlinesKeep
  rw [State.sampleInputs]
  generalize (s.sampleService x.service).sampleLines x.lines = u at hlines hsampled hraw hlinesKeep ⊢
  obtain ⟨hfault, hfaultKeep⟩ := u.sampleFault_frame x.fault
  have hacc : u.acc = s.acc := by rw [hlines, hservice]
  have hlist : ∀ n : Fin 4, n ∈ List.finRange 4 := List.mem_finRange
  have hlow {m : Nat} (h : m < 4) : ∀ n ∈ List.finRange 4, m ≠ 4 + n.val := fun n _ => by omega
  have hthree : u.ev.raw.getLsbD 3 = s.ev.raw.getLsbD 3 :=
    ((hserviceKeep (by decide) (by decide)).trans (hlinesKeep 3 (by decide) (hlow (by decide)) nofun)).1
  refine ⟨?_, fun n => ?_, fun n => ?_, ?_, fun h => ?_, fun h => ?_, fun m h8 hm h26 => ?_⟩
  · generalize u.sampleFault x.fault = t at hfault ⊢
    have hkept : t.lines = u.lines := by rw [hfault]
    rw [hkept]
    refine hfault.trans ?_
    rw [hlines, hservice]
  · rw [hfault]
    dsimp only
    rw [hsampled n, if_pos (hlist n), hservice]
  · obtain ⟨hkept, _⟩ := hfaultKeep (4 + n.val) (by omega) (by omega)
    obtain ⟨hkept', _⟩ := hserviceKeep (m := 4 + n.val) (by omega) (by omega)
    rw [hkept, hraw n (hlist n), hkept', hservice]
  · obtain ⟨hkept, _⟩ := hfaultKeep 2 (by decide) (by decide)
    obtain ⟨hkept', _⟩ := hlinesKeep 2 (by decide) (hlow (by decide)) nofun
    rw [hkept, hkept', hservice]
    exact (EventUnit.getLsbD_setLevel_raw _ _ _ (by decide)).trans (if_pos rfl)
  · rw [State.sampleFault_unfitted (by rwa [hacc])]
    exact ⟨hacc, hthree⟩
  · rw [State.sampleFault_fitted (by rwa [hacc]), hacc]
    exact ⟨rfl, (EventUnit.getLsbD_setLevel_raw _ _ _ (by decide)).trans (if_pos rfl)⟩
  · exact ((hserviceKeep hm (by omega)).trans (hlinesKeep m hm (fun n _ => by omega) h26)).trans
      (hfaultKeep m hm (by omega))

end Sys2Proof.Machine
end

