-- ==== Sys2Proof/Proofs/Touch.lean ====
section
/-! The touch frame at a scan: debounce (R109), runs and positions (R110), the press-held flag (R111) and the answer to a
press (R112, R116 to R119). -/

namespace Sys2Proof.Machine

/-! ### Beams and runs -/

theorem scanAxis_getElem (debounce : Nat) (fitted broken : BitVec 16) (beams : Vector Beam 16) (n : Fin 16) :
    (scanAxis debounce fitted broken beams)[n] =
      if fitted.getLsbD n.val = false then ⟨false, 0⟩
      else if broken.getLsbD n.val = beams[n].broken then ⟨beams[n].broken, 0⟩
      else if beams[n].count + 1 < debounce then ⟨beams[n].broken, beams[n].count + 1⟩
      else ⟨broken.getLsbD n.val, 0⟩ := by
  refine (getElem_tabulate _ n.val n.isLt).trans ?_
  cases fitted.getLsbD n.val <;> rfl

theorem axisBroken_iff (beams : Vector Beam 16) : axisBroken beams = true ↔ ∃ n : Fin 16, beams[n].broken = true := by
  rw [axisBroken, List.any_eq_true]
  constructor
  · rintro ⟨b, hb, hbroken⟩
    obtain ⟨i, hi, rfl⟩ := List.getElem_of_mem hb
    exact ⟨⟨i, by simpa using hi⟩, by simpa using hbroken⟩
  · rintro ⟨n, hbroken⟩
    exact ⟨beams[n], by simp, hbroken⟩

/-- The run that is under way ends at the beam before k or later. -/
theorem runsFrom_underway (a k : Nat) (bs : List Bool) : ∃ q, k ≤ q + 1 ∧ (a, q) ∈ runsFrom k (some a) bs := by
  induction bs generalizing k with
  | nil => exact ⟨k - 1, by omega, List.mem_cons_self⟩
  | cons b bs ih =>
    cases b with
    | false => exact ⟨k - 1, by omega, List.mem_cons_self⟩
    | true =>
      obtain ⟨q, hq, hmem⟩ := ih (k + 1)
      exact ⟨q, by omega, hmem⟩

/-- With no run under way, every run begins at beam k or later. -/
theorem le_of_mem_runsFrom {r : Nat × Nat} (k : Nat) (start : Option Nat) (bs : List Bool) (h : r ∈ runsFrom k start bs) :
    k ≤ r.1 ∨ start = some r.1 := by
  induction bs generalizing k start with
  | nil =>
    cases start with
    | none => cases h
    | some a => exact .inr (by rw [List.mem_singleton.mp h])
  | cons b bs ih =>
    match start, b, h with
    | none, true, h =>
      rcases ih (k + 1) (some k) h with h | h
      · exact .inl (by omega)
      · exact .inl (Option.some.inj h).le
    | none, false, h =>
      rcases ih (k + 1) none h with h | h
      · exact .inl (by omega)
      · cases h
    | some a, true, h =>
      rcases ih (k + 1) (some a) h with h | h
      · exact .inl (by omega)
      · exact .inr h
    | some a, false, h =>
      rcases List.mem_cons.mp h with rfl | h
      · exact .inr rfl
      · rcases ih (k + 1) none h with h | h
        · exact .inl (by omega)
        · cases h

/-- Every broken beam lies in a run. -/
theorem exists_mem_runsFrom (k : Nat) (start : Option Nat) (bs : List Bool) (hstart : ∀ a, start = some a → a ≤ k) {i : Nat}
    (hi : bs[i]? = some true) : ∃ r ∈ runsFrom k start bs, r.1 ≤ k + i ∧ k + i ≤ r.2 := by
  induction bs generalizing k start i with
  | nil => cases hi
  | cons b bs ih =>
    cases i with
    | zero =>
      obtain rfl : b = true := Option.some.inj hi
      cases start with
      | none =>
        obtain ⟨q, hq, hmem⟩ := runsFrom_underway k (k + 1) bs
        exact ⟨(k, q), hmem, Nat.le_refl _, by omega⟩
      | some a =>
        obtain ⟨q, hq, hmem⟩ := runsFrom_underway a (k + 1) bs
        exact ⟨(a, q), hmem, hstart a rfl, by omega⟩
    | succ i =>
      have hnext : bs[i]? = some true := hi
      have hsum : k + (i + 1) = k + 1 + i := by omega
      rw [hsum]
      match start, b, hstart with
      | none, true, _ => exact ih (k + 1) (some k) (fun a ha => by cases ha; omega) hnext
      | none, false, _ => exact ih (k + 1) none nofun hnext
      | some a, true, hstart => exact ih (k + 1) (some a) (fun c hc => (hstart c hc).trans (Nat.le_succ k)) hnext
      | some a, false, _ =>
        obtain ⟨r, hr, hin⟩ := ih (k + 1) none nofun hnext
        exact ⟨r, List.mem_cons_of_mem _ hr, hin⟩

/-- No unbroken beam lies in a run. -/
theorem not_mem_run (k : Nat) (start : Option Nat) (bs : List Bool) (hstart : ∀ a, start = some a → 0 < k) {i : Nat}
    (hi : bs[i]? = some false) {r : Nat × Nat} (hr : r ∈ runsFrom k start bs) : r.2 < k + i ∨ k + i < r.1 := by
  induction bs generalizing k start i with
  | nil => cases hi
  | cons b bs ih =>
    cases i with
    | zero =>
      obtain rfl : b = false := Option.some.inj hi
      cases start with
      | none =>
        rcases le_of_mem_runsFrom (k + 1) none bs hr with h | h
        · exact .inr (by omega)
        · cases h
      | some a =>
        have hpos := hstart a rfl
        rcases List.mem_cons.mp hr with rfl | hr
        · exact .inl (by dsimp only; omega)
        · rcases le_of_mem_runsFrom (k + 1) none bs hr with h | h
          · exact .inr (by omega)
          · cases h
    | succ i =>
      have hnext : bs[i]? = some false := hi
      have hsum : k + (i + 1) = k + 1 + i := by omega
      rw [hsum]
      match start, b, hstart, hr with
      | none, true, _, hr => exact ih (k + 1) (some k) (fun _ _ => Nat.succ_pos k) hnext hr
      | none, false, _, hr => exact ih (k + 1) none nofun hnext hr
      | some a, true, _, hr => exact ih (k + 1) (some a) (fun _ _ => Nat.succ_pos k) hnext hr
      | some a, false, hstart, hr =>
        have hpos := hstart a rfl
        rcases List.mem_cons.mp hr with rfl | hr
        · exact .inl (by dsimp only; omega)
        · exact ih (k + 1) none nofun hnext hr

/-- Beam n of an axis, in the list that the runs are read from. -/
theorem getElem?_broken (beams : Vector Beam 16) (n : Fin 16) :
    (beams.toList.map Beam.broken)[n.val]? = some beams[n].broken := by
  simp

/-- An axis in two runs has no position. -/
theorem axisPosition_split {beams : Vector Beam 16} {i j k : Fin 16} (hij : i < j) (hjk : j < k)
    (hi : beams[i].broken = true) (hj : beams[j].broken = false) (hk : beams[k].broken = true) :
    axisPosition beams = none := by
  have hbi : (beams.toList.map Beam.broken)[i.val]? = some true := by rw [getElem?_broken, hi]
  have hbj : (beams.toList.map Beam.broken)[j.val]? = some false := by rw [getElem?_broken, hj]
  have hbk : (beams.toList.map Beam.broken)[k.val]? = some true := by rw [getElem?_broken, hk]
  unfold axisPosition
  split
  · next first last hruns =>
    obtain ⟨r, hr, hri, _⟩ := exists_mem_runsFrom 0 none _ nofun hbi
    obtain ⟨q, hq, _, hqk⟩ := exists_mem_runsFrom 0 none _ nofun hbk
    have hsingle {p : Nat × Nat} (hp : p ∈ axisRuns beams) : p = (first, last) := by
      rw [hruns] at hp
      exact List.mem_singleton.mp hp
    obtain rfl := hsingle hr
    obtain rfl := hsingle hq
    have hout := not_mem_run 0 none _ nofun hbj hr
    have : i.val < j.val := hij
    have : j.val < k.val := hjk
    omega
  · rfl

theorem runsFrom_unbroken (k m : Nat) (bs : List Bool) :
    runsFrom k none (List.replicate m false ++ bs) = runsFrom (k + m) none bs := by
  induction m generalizing k with
  | zero => rfl
  | succ m ih =>
    have hsum : k + (m + 1) = k + 1 + m := by omega
    rw [hsum, ← ih (k + 1)]
    rfl

theorem runsFrom_broken (a k m : Nat) (bs : List Bool) :
    runsFrom k (some a) (List.replicate m true ++ bs) = runsFrom (k + m) (some a) bs := by
  induction m generalizing k with
  | zero => rfl
  | succ m ih =>
    have hsum : k + (m + 1) = k + 1 + m := by omega
    rw [hsum, ← ih (k + 1)]
    rfl

/-- A run that is under way with no broken beam to come. -/
theorem runsFrom_last (a k m : Nat) : runsFrom k (some a) (List.replicate m false) = [(a, k - 1)] := by
  cases m with
  | zero => rfl
  | succ m =>
    have hrest := runsFrom_unbroken (k + 1) m []
    rw [List.append_nil] at hrest
    show (a, k - 1) :: runsFrom (k + 1) none (List.replicate m false) = _
    rw [hrest]
    rfl

/-- An axis whose broken beams are those from a to b is in that one run. -/
theorem axisRuns_run {beams : Vector Beam 16} {a b : Fin 16} (hab : a ≤ b)
    (h : ∀ n : Fin 16, beams[n].broken = true ↔ a ≤ n ∧ n ≤ b) : axisRuns beams = [(a.val, b.val)] := by
  have hab' : a.val ≤ b.val := hab
  have hlist : beams.toList.map Beam.broken =
      List.replicate a.val false ++ (true :: List.replicate (b.val - a.val) true ++ List.replicate (15 - b.val) false) := by
    apply List.ext_getElem?
    intro n
    by_cases hn : n < 16
    · have hbeam := h ⟨n, hn⟩
      rw [getElem?_broken beams ⟨n, hn⟩]
      rw [← List.replicate_succ, List.getElem?_append, List.getElem?_append, List.length_replicate, List.length_replicate,
        List.getElem?_replicate, List.getElem?_replicate, List.getElem?_replicate]
      cases hb : beams[(⟨n, hn⟩ : Fin 16)].broken with
      | true =>
        obtain ⟨ha, hb⟩ : a.val ≤ n ∧ n ≤ b.val := hbeam.mp hb
        rw [if_neg (by omega), if_pos (by omega), if_pos (by omega)]
      | false =>
        have hout : n < a.val ∨ b.val < n := by
          by_contra hin
          have hin' : a.val ≤ n ∧ n ≤ b.val := by omega
          exact Bool.noConfusion (hb.symm.trans (hbeam.mpr hin'))
        rcases hout with hlow | hhigh
        · rw [if_pos hlow, if_pos hlow]
        · rw [if_neg (by omega), if_neg (by omega), if_pos (by omega)]
    · rw [List.getElem?_eq_none (by simp; omega), List.getElem?_eq_none (by simp; omega)]
  have hend : a.val + 1 + (b.val - a.val) - 1 = b.val := by omega
  rw [axisRuns, hlist, runsFrom_unbroken, Nat.zero_add]
  show runsFrom (a.val + 1) (some a.val) (List.replicate (b.val - a.val) true ++ _) = _
  rw [runsFrom_broken, runsFrom_last, hend]

/-- Its position is the middle of the run, rounded down. -/
theorem axisPosition_run {beams : Vector Beam 16} {a b : Fin 16} (hab : a ≤ b)
    (h : ∀ n : Fin 16, beams[n].broken = true ↔ a ≤ n ∧ n ≤ b) {p : Fin 16} (hp : p.val = (a.val + b.val) / 2) :
    axisPosition beams = some p := by
  rw [axisPosition, axisRuns_run hab h]
  refine congrArg some (Fin.ext ?_)
  rw [hp]
  exact Nat.min_eq_left (by omega)

/-! ### The zone that a press hits (R116) -/

/-- The lowest index of a table that meets a condition. -/
theorem find?_finRange_eq_some {n : Nat} {p : Fin n → Bool} {k : Fin n} (hk : p k = true) (hlow : ∀ j, j < k → p j = false) :
    (List.finRange n).find? p = some k := by
  refine List.find?_eq_some_iff_getElem.mpr ⟨hk, k.val, by simp, by simp, fun j hj => ?_⟩
  have := hlow ⟨j, hj.trans k.isLt⟩ hj
  simp [this]

theorem find?_finRange_eq_none {n : Nat} {p : Fin n → Bool} (h : ∀ j, p j = false) : (List.finRange n).find? p = none :=
  List.find?_eq_none.mpr fun j _ hj => Bool.noConfusion ((h j).symm.trans hj)

theorem Zone.claims_iff (z : Zone) (tx ty : Fin 16) :
    z.claims tx ty = true ↔ z.armed = true ∧ z.tx0 ≤ tx ∧ tx ≤ z.tx1 ∧ z.ty0 ≤ ty ∧ ty ≤ z.ty1 := by
  simp only [Zone.claims, Bool.and_eq_true, decide_eq_true_eq, and_assoc]

end Sys2Proof.Machine
end

