-- ==== Sys2Proof/Proofs/Scan.lean ====
section
/-! SCAN (R109): a press examined and answered, and the three obligations about what a scan leaves. -/

namespace Sys2Proof.Machine

/-! ### The answer to a press -/

/-- The render engine after an echo request has been offered to it (R119). -/
def Render.offered (e : Option EchoPart) (r : Render) : Render :=
  match e with
  | some e => if r.echoes.length < 4 then { r with echoes := r.echoes ++ [⟨e.set, e.code, e.x, e.y⟩] } else r
  | none => r

theorem Render.offered_room {e : EchoPart} {r : Render} (h : r.echoes.length < 4) :
    r.offered (some e) = { r with echoes := r.echoes ++ [⟨e.set, e.code, e.x, e.y⟩] } := if_pos h

theorem Render.offered_dropped {e : Option EchoPart} {r : Render} (h : e = none ∨ 4 ≤ r.echoes.length) :
    r.offered e = r := by
  cases e with
  | none => rfl
  | some e => exact if_neg (Nat.not_lt.mpr (h.resolve_left nofun))

theorem Render.offered_frame (e : Option EchoPart) (r : Render) : r.offered e = { r with echoes := (r.offered e).echoes } := by
  unfold Render.offered
  split
  · split <;> rfl
  · rfl

/-- What a hit on a zone writes (R116). -/
theorem State.hitZone_eq (k tx ty : Fin 16) (s : State) :
    s.hitZone k tx ty = { s.offer (.touch (some k) s.touch.zones[k].code tx ty s.rx.lastCount) with
      ren := s.ren.offered s.touch.zones[k].echo
      touch := { s.touch with
        zones := if s.touch.zones[k].oneShot then s.touch.zones.set k { s.touch.zones[k] with armed := false }
          else s.touch.zones } } := by
  obtain ⟨hframe, _⟩ := s.offer_frame (.touch (some k) s.touch.zones[k].code tx ty s.rx.lastCount)
  have hoffer (u : State) (e : EchoPart) : u.offerEcho e = { u with ren := u.ren.offered (some e) } := by
    unfold State.offerEcho Render.offered
    dsimp only
    show (if u.ren.echoes.length < 4 then _ else _) = _
    split <;> rfl
  unfold State.hitZone
  dsimp only
  generalize s.offer (.touch (some k) s.touch.zones[k].code tx ty s.rx.lastCount) = u at hframe ⊢
  have htouch : u.touch = s.touch := by rw [hframe]
  have hren : u.ren = s.ren := by rw [hframe]
  cases s.touch.zones[k].echo with
  | none =>
    rw [← hren, ← htouch]
    cases u.touch.zones[k].oneShot <;> rfl
  | some e =>
    dsimp only
    rw [hoffer, ← hren, ← htouch]
    cases u.touch.zones[k].oneShot <;> rfl

/-- What an answer to a press may write, and the events it keeps: it offers one TOUCH report at most. -/
def State.Answered (s t : State) : Prop :=
  t = { s with
      touch := { s.touch with zones := t.touch.zones }, ev := t.ev, tx := t.tx
      ren := { s.ren with echoes := t.ren.echoes }, seq := t.seq, row := t.row } ∧
    (∃ press, t.tx = { s.tx with queue := s.tx.queue ++ press.take (16 - s.tx.queue.length) } ∧
      (press = [] ∨ ∃ zone code tx ty, press = [Report.touch zone code tx ty s.rx.lastCount])) ∧
    ∀ m, m < 8 → s.ev.KeepsEvent m t.ev

/-- The report queue with nothing offered. -/
theorem TxUnit.offer_nothing (s : State) :
    ∃ press, s.tx = { s.tx with queue := s.tx.queue ++ press.take (16 - s.tx.queue.length) } ∧
      (press = [] ∨ ∃ zone code tx ty, press = [Report.touch zone code tx ty s.rx.lastCount]) :=
  ⟨[], by rw [List.take_nil, List.append_nil], .inl rfl⟩

theorem State.answered_hitZone (k tx ty : Fin 16) (s : State) : s.Answered (s.hitZone k tx ty) := by
  rw [State.hitZone_eq]
  obtain ⟨hframe, hkeeps⟩ := s.offer_frame (.touch (some k) s.touch.zones[k].code tx ty s.rx.lastCount)
  have hechoes := s.ren.offered_frame s.touch.zones[k].echo
  generalize s.offer (.touch (some k) s.touch.zones[k].code tx ty s.rx.lastCount) = u at hframe hkeeps ⊢
  generalize s.ren.offered s.touch.zones[k].echo = r at hechoes ⊢
  have htx : u.tx = { s.tx with queue := s.tx.queue ++
      [Report.touch (some k) s.touch.zones[k].code tx ty s.rx.lastCount].take (16 - s.tx.queue.length) } := by rw [hframe]
  refine ⟨?_, ⟨_, htx, .inr ⟨_, _, _, _, rfl⟩⟩, fun m hm => hkeeps m (by omega) (by omega)⟩
  dsimp only
  rw [← hechoes, hframe]

theorem State.answered_stray (tx ty : Fin 16) (s : State) : s.Answered (s.stray tx ty) := by
  unfold State.stray
  split
  · obtain ⟨hframe, hkeeps⟩ := s.offer_frame (.touch none 0 tx ty s.rx.lastCount)
    generalize s.offer (.touch none 0 tx ty s.rx.lastCount) = u at hframe hkeeps ⊢
    have htx : u.tx = { s.tx with queue := s.tx.queue ++
        [Report.touch none 0 tx ty s.rx.lastCount].take (16 - s.tx.queue.length) } := by rw [hframe]
    refine ⟨?_, ⟨_, htx, .inr ⟨_, _, _, _, rfl⟩⟩, fun m hm => hkeeps m (by omega) (by omega)⟩
    rw [hframe]
  · exact ⟨rfl, TxUnit.offer_nothing s, fun _ _ => .refl _⟩

theorem State.answered_answerPress (s : State) : s.Answered s.answerPress := by
  unfold State.answerPress
  split
  · split
    · exact s.answered_hitZone _ _ _
    · exact s.answered_stray _ _
  · exact ⟨rfl, TxUnit.offer_nothing s, fun m hm =>
      EventUnit.keepsEvent_occur (e := .touchAmbiguous) (by omega) (show m ≠ 25 by omega) _⟩

/-! ### A press recognised, or none (R111, R112) -/

theorem State.press_blanked {s : State} (h : s.seq.state = .blanked) :
    s.press = { s with
      seq := { s.seq with state := .running, sweeping := false, blankTimer := 0 }
      row := { s.row with urgent := [], bulk := s.ren.litRows } } := by
  have hwake : s.restartBlankTimer.wakePress = (s.restartBlankTimer.unblank, true) := by
    rw [State.wakePress, State.restartBlankTimer, h]
  rw [State.press, hwake]
  exact State.unblank_blanked (s := s.restartBlankTimer) h

theorem State.press_unblanked {s : State} (h : s.seq.state ≠ .blanked) : s.press = s.restartBlankTimer.answerPress := by
  have hwake : s.restartBlankTimer.wakePress = (s.restartBlankTimer, false) := by
    unfold State.wakePress
    split
    · next hb => exact absurd hb h
    all_goals rfl
  rw [State.press, hwake]
  rfl

theorem State.answered_press (s : State) : s.Answered s.press := by
  by_cases h : s.seq.state = .blanked
  · rw [State.press_blanked h]
    exact ⟨rfl, TxUnit.offer_nothing s, fun _ _ => .refl _⟩
  · rw [State.press_unblanked h]
    obtain ⟨hframe, hpress, hkeeps⟩ := s.restartBlankTimer.answered_answerPress
    exact ⟨hframe, hpress, hkeeps⟩

/-- The press-held flag written. -/
def State.held (v : Bool) (s : State) : State := { s with touch := { s.touch with pressHeld := v } }

/-- No press is recognised: one is held, or an axis is unbroken. -/
theorem State.examineTouch_quiet {s : State}
    (h : s.touch.pressHeld = true ∨ (axisBroken s.touch.xBeams && axisBroken s.touch.yBeams) = false) :
    s.examineTouch = s.held (s.touch.pressHeld && (axisBroken s.touch.xBeams || axisBroken s.touch.yBeams)) := by
  have hsame {v : Bool} (hv : v = s.touch.pressHeld) : s.held v = s := by rw [hv]; rfl
  unfold State.examineTouch
  cases hheld : s.touch.pressHeld with
  | true =>
    rw [if_pos rfl, Bool.true_and]
    cases hb : axisBroken s.touch.xBeams || axisBroken s.touch.yBeams with
    | true => rw [if_pos rfl, hsame hheld.symm]
    | false => rfl
  | false =>
    have hb := h.resolve_left (by rw [hheld]; exact Bool.false_ne_true)
    rw [if_neg Bool.false_ne_true, hb, if_neg Bool.false_ne_true, Bool.false_and, hsame hheld.symm]

theorem State.examineTouch_press {s : State} (hheld : s.touch.pressHeld = false)
    (h : (axisBroken s.touch.xBeams && axisBroken s.touch.yBeams) = true) : s.examineTouch = (s.held true).press := by
  rw [State.examineTouch, hheld, if_neg Bool.false_ne_true, if_pos h]
  rfl

/-- What the examination of the debounced set leaves. -/
theorem State.examineTouch_frame (s : State) :
    (s.held s.examineTouch.touch.pressHeld).Answered s.examineTouch ∧
      s.examineTouch.touch.pressHeld =
        (if s.touch.pressHeld then axisBroken s.touch.xBeams || axisBroken s.touch.yBeams
        else axisBroken s.touch.xBeams && axisBroken s.touch.yBeams) ∧
      (s.touch.pressHeld = true ∨ s.examineTouch.touch.pressHeld = false →
        s.examineTouch = s.held s.examineTouch.touch.pressHeld) := by
  by_cases hquiet : s.touch.pressHeld = true ∨ (axisBroken s.touch.xBeams && axisBroken s.touch.yBeams) = false
  · have hexamined := State.examineTouch_quiet hquiet
    have hheld : s.examineTouch.touch.pressHeld =
        (s.touch.pressHeld && (axisBroken s.touch.xBeams || axisBroken s.touch.yBeams)) := by rw [hexamined]; rfl
    rw [hheld, ← hexamined]
    refine ⟨⟨rfl, TxUnit.offer_nothing _, fun _ _ => .refl _⟩, ?_, fun _ => rfl⟩
    rcases hquiet with h | h
    · rw [h]
      rfl
    · rw [h]
      cases s.touch.pressHeld <;> rfl
  · obtain ⟨hoff, hboth⟩ := not_or.mp hquiet
    have hoff := Bool.eq_false_of_not_eq_true hoff
    have hboth := Bool.eq_true_of_not_eq_false hboth
    have hexamined := State.examineTouch_press hoff hboth
    have hanswered := (s.held true).answered_press
    have hheld : s.examineTouch.touch.pressHeld = true := by
      rw [hexamined, hanswered.1]
      rfl
    rw [hheld, hexamined, hoff, hboth]
    exact ⟨hanswered, rfl, fun h => by simp at h⟩

/-! ### The scan as a whole -/

/-- The part with its beams sampled and the inputs noted. -/
def State.scanned (x : ScanSample) (s : State) : State :=
  { s with
    touch := s.touch.scan x
    pins := { s.pins with service := x.service, fault := x.fault, lines := x.lines } }

theorem exec_scan (x : ScanSample) (s : State) :
    exec (.scan x) s = .next (((s.scanned x).examineTouch).sampleInputs x) := rfl

/-- Settles O49: the beams by `scanAxis_getElem`, the flag and the frame by `examineTouch_frame`. -/
theorem scanDebouncesAndHoldsThePress : Obligations.ScanDebouncesAndHoldsThePress := by
  intro s x sampled
  obtain ⟨⟨hframe, _⟩, hheld, hquiet⟩ := (s.scanned x).examineTouch_frame
  refine ⟨_, exec_scan x s, ?_⟩
  generalize (s.scanned x).examineTouch = u at hframe hheld hquiet ⊢
  obtain ⟨hinputs, _⟩ := u.sampleInputs_frame x
  generalize u.sampleInputs x = t at hinputs ⊢
  have htouch : t.touch = u.touch := by rw [hinputs]
  have hbeams : u.touch.xBeams = (s.touch.scan x).xBeams ∧ u.touch.yBeams = (s.touch.scan x).yBeams := by
    rw [hframe]
    exact ⟨rfl, rfl⟩
  obtain ⟨hx, hy⟩ := hbeams
  rw [htouch, hx, hy]
  have hflag : u.touch.pressHeld = if s.touch.pressHeld then
      axisBroken (s.touch.scan x).xBeams || axisBroken (s.touch.scan x).yBeams
      else axisBroken (s.touch.scan x).xBeams && axisBroken (s.touch.scan x).yBeams := hheld
  refine ⟨fun n => ⟨scanAxis_getElem _ _ _ _ n, scanAxis_getElem _ _ _ _ n⟩, fun hoff => ?_, fun hon => ?_, fun hq => ?_,
    ?_, ?_, ?_, ?_⟩
  · rw [hflag, hoff, if_neg Bool.false_ne_true, Bool.and_eq_true, axisBroken_iff, axisBroken_iff]
  · rw [hflag, hon, if_pos rfl, Bool.or_eq_false_iff, Bool.eq_false_iff, Bool.eq_false_iff, Ne, Ne, axisBroken_iff,
      axisBroken_iff, not_exists, not_exists, ← forall_and]
    exact forall_congr' fun n => by rw [Bool.not_eq_true, Bool.not_eq_true]
  · have hu := hquiet hq
    rw [hinputs, hu]
    exact ⟨rfl, rfl, rfl, rfl⟩
  · rw [hframe]
    rfl
  · rw [hinputs, hframe]
    rfl
  · rw [hinputs, hframe]
    rfl
  · rw [hinputs, hframe]
    rfl

/-- The TOUCH report that a scan offers: none where it recognises no press. -/
theorem State.examineTouch_report (s : State) :
    ∃ press, s.examineTouch.tx = { s.tx with queue := s.tx.queue ++ press.take (16 - s.tx.queue.length) } ∧
      (s.touch.pressHeld = true ∨ s.examineTouch.touch.pressHeld = false → press = []) ∧
      (press = [] ∨ ∃ zone code tx ty, press = [Report.touch zone code tx ty s.rx.lastCount]) := by
  obtain ⟨⟨_, ⟨press, hpress, hone⟩, _⟩, _, hquiet⟩ := s.examineTouch_frame
  by_cases h : s.touch.pressHeld = true ∨ s.examineTouch.touch.pressHeld = false
  · refine ⟨[], ?_, fun _ => rfl, .inl rfl⟩
    rw [hquiet h, List.take_nil, List.append_nil]
    rfl
  · exact ⟨press, hpress, fun hq => absurd hq h, hone⟩

/-- Settles O51: the samplings of the scan, from the part as the press has left it. -/
theorem scanSamplesTheInputLines : Obligations.ScanSamplesTheInputLines := by
  intro s x
  obtain ⟨⟨hframe, _, hkeeps⟩, _⟩ := (s.scanned x).examineTouch_frame
  obtain ⟨press, hpress, hquiet, hone⟩ := (s.scanned x).examineTouch_report
  have hexec := exec_scan x s
  generalize (s.scanned x).examineTouch = u at hexec hframe hpress hkeeps hquiet
  obtain ⟨hinputs, hlines, hraw, hservice, hunfitted, hfitted, _⟩ := u.sampleInputs_frame x
  have hnumber := u.sampleService_number x.service
  have hserviceCls := u.sampleService_eq x.service
  have hcls : u.cls = s.cls := by rw [hframe]; rfl
  have hacc : u.acc = s.acc := by rw [hframe]; rfl
  have hlin : u.lines = s.lines := by rw [hframe]; rfl
  have hrx : u.rx = s.rx := by rw [hframe]; rfl
  have htx : u.tx = { s.tx with queue := s.tx.queue ++ press.take (16 - s.tx.queue.length) } := hpress
  have hkept {m : Nat} (hm : m < 8) : u.ev.raw.getLsbD m = s.ev.raw.getLsbD m := (hkeeps m hm).1
  have hreports : u.lineReports x.lines (List.finRange 4) =
      ((List.finRange 4).filter fun n => s.lines[n].reports (x.lines.getLsbD n.val)).map fun n =>
        Report.line n (x.lines.getLsbD n.val) s.rx.lastCount := by
    rw [State.lineReports, hlin, hrx]
  have hinCls : (u.sampleInputs x).cls = (u.sampleService x.service).cls := by rw [hinputs]
  have hinTouch : (u.sampleInputs x).touch = u.touch := by rw [hinputs]
  have hinTx : (u.sampleInputs x).tx = { u.tx with
      queue := u.tx.queue ++ (u.lineReports x.lines (List.finRange 4)).take (16 - u.tx.queue.length) } := by
    rw [hinputs]
  rw [hcls] at hnumber hservice
  rw [hacc] at hunfitted hfitted
  refine ⟨_, press, hexec, ⟨?_, hservice, ?_⟩, fun h => ?_, hfitted, fun n => ?_, ?_, fun hq => ?_, hone⟩
  · rw [hinCls]
    generalize u.sampleService x.service = v at hserviceCls ⊢
    have hv : v.cls = { u.cls with
        serviceLast := x.service, serviceAccepted := u.cls.serviceLevel x.service
        number := v.cls.number, source := v.cls.source } := by rw [hserviceCls]
    rwa [hcls] at hv
  · rw [hinCls]
    exact hnumber
  · obtain ⟨hport, hfault⟩ := hunfitted h
    exact ⟨hport, hfault.trans (hkept (by decide))⟩
  · have hline := hlines n
    have hlevel := hraw n
    rw [hlin] at hline hlevel
    rw [hkept (by omega)] at hlevel
    refine ⟨fun hc => ?_, fun hc hl => ?_, fun hc hl => ?_, fun hc hl => ?_⟩
    · obtain ⟨hs, ha, _⟩ := SignalLine.sampled_eq_self (v := x.lines.getLsbD n.val) hc
      rw [hs] at hline
      rw [ha, if_neg Bool.false_ne_true] at hlevel
      exact ⟨hline, hlevel⟩
    · obtain ⟨hs, ha, _⟩ := SignalLine.sampled_first (v := x.lines.getLsbD n.val) hc hl
      rw [hs] at hline
      rw [ha, if_pos rfl] at hlevel
      exact ⟨hline, hlevel⟩
    · obtain ⟨hs, ha, _⟩ := SignalLine.sampled_again (v := x.lines.getLsbD n.val) hc hl
      rw [hs, ← hl] at hline
      rw [ha] at hlevel
      refine ⟨hline, hlevel.trans ?_⟩
      by_cases hv : x.lines.getLsbD n.val = s.lines[n].accepted
      · rw [if_pos hv, decide_eq_false (not_not_intro hv), if_neg Bool.false_ne_true]
      · rw [if_neg hv, decide_eq_true hv, if_pos rfl]
    · obtain ⟨hs, ha, _⟩ := SignalLine.sampled_changed (v := x.lines.getLsbD n.val) hc hl
      rw [hs] at hline
      rw [ha, if_neg Bool.false_ne_true] at hlevel
      exact ⟨hline, hlevel⟩
  · rw [hinTx, hreports, htx]
    dsimp only
    rw [append_take_room]
    rfl
  · rw [hinTouch] at hq
    exact hquiet hq

/-! ### A press recognised -/

theorem State.examineTouch_recognised {s : State} (hoff : s.touch.pressHeld = false)
    (hheld : s.examineTouch.touch.pressHeld = true) : s.examineTouch = (s.held true).press := by
  obtain ⟨_, hflag, _⟩ := s.examineTouch_frame
  rw [hoff, if_neg Bool.false_ne_true] at hflag
  exact State.examineTouch_press hoff (hflag.symm.trans hheld)

theorem State.answerPress_ambiguous {s : State}
    (h : axisPosition s.touch.xBeams = none ∨ axisPosition s.touch.yBeams = none) :
    s.answerPress = s.latch .touchAmbiguous := by
  unfold State.answerPress
  split
  · next hx hy => rcases h with h | h <;> simp_all
  · rfl

theorem State.answerPress_hit {s : State} {tx ty k : Fin 16} (hx : axisPosition s.touch.xBeams = some tx)
    (hy : axisPosition s.touch.yBeams = some ty) (hzone : s.touch.findZone tx ty = some k) :
    s.answerPress = s.hitZone k tx ty := by
  rw [State.answerPress, hx, hy]
  dsimp only
  rw [hzone]

theorem State.answerPress_stray {s : State} {tx ty : Fin 16} (hx : axisPosition s.touch.xBeams = some tx)
    (hy : axisPosition s.touch.yBeams = some ty) (hzone : s.touch.findZone tx ty = none) :
    s.answerPress = s.stray tx ty := by
  rw [State.answerPress, hx, hy]
  dsimp only
  rw [hzone]

/-- An answer leaves the sequencer and the row engine. -/
theorem State.answerPress_seq_row (s : State) : s.answerPress.seq = s.seq ∧ s.answerPress.row = s.row := by
  unfold State.answerPress
  split
  · split
    · rw [State.hitZone_eq]
      exact ⟨State.offer_seq _ _, State.offer_row _ _⟩
    · unfold State.stray
      split
      · exact ⟨State.offer_seq _ _, State.offer_row _ _⟩
      · exact ⟨rfl, rfl⟩
  · exact ⟨rfl, rfl⟩

/-- Event e has occurred, as its mask gives. -/
theorem EventUnit.occur_sets (e : EdgeEvent) (u : EventUnit) :
    (u.occur e).raw.getLsbD e.num = true ∧
      (u.table.mask.getLsbD e.num = true → (u.occur e).latched.getLsbD e.num = true) := by
  obtain ⟨_, hlt⟩ := e.num_ge
  obtain ⟨hraw, hlatched, _⟩ := EventUnit.occurred_occur e u
  refine ⟨?_, fun hmask => ?_⟩
  · rw [hraw _ hlt, beq_self_eq_true, Bool.true_or]
  · rw [hlatched _ hlt, beq_self_eq_true, Bool.true_and, hmask, Bool.or_true]

/-- An occurrence that is kept. -/
theorem EventUnit.KeepsEvent.sets {u v : EventUnit} {m : Nat} (h : u.KeepsEvent m v) (hraw : u.raw.getLsbD m = true) {p : Prop}
    (hlatched : p → u.latched.getLsbD m = true) : v.raw.getLsbD m = true ∧ (p → v.latched.getLsbD m = true) := by
  obtain ⟨hr, hl, _⟩ := h
  exact ⟨hr.trans hraw, hl ∘ hlatched⟩

/-- A recognised press, and the samplings that follow it: with no line that reports, they write no report, and they keep the
edge events. -/
theorem scan_recognised {s : State} (x : ScanSample) (hoff : s.touch.pressHeld = false)
    (hquiet : ∀ n : Fin 4, s.lines[n].entry.report = false) :
    ∃ t, exec (.scan x) s = .next t ∧ (t.touch.pressHeld = true →
      let u := ((s.scanned x).held true).press
      t.touch = u.touch ∧ t.ren = u.ren ∧ t.row = u.row ∧ t.seq = u.seq ∧ t.tx = u.tx ∧
        ∀ m, 8 ≤ m → m < 32 → u.ev.KeepsEvent m t.ev) := by
  refine ⟨_, exec_scan x s, fun hheld => ?_⟩
  obtain ⟨⟨hframe, _⟩, _⟩ := (s.scanned x).examineTouch_frame
  have hlines : (s.scanned x).examineTouch.lines = s.lines := by rw [hframe]; rfl
  have hpress {v : State} (hv : v.touch.pressHeld = true) (hex : (s.scanned x).examineTouch = v) :
      v = ((s.scanned x).held true).press := by
    rw [← hex] at hv
    exact hex.symm.trans (State.examineTouch_recognised (s := s.scanned x) hoff hv)
  generalize (s.scanned x).examineTouch = u at hheld hlines hpress
  obtain ⟨hinputs, _, _, _, _, _, hkeeps⟩ := u.sampleInputs_frame x
  have hnone : u.lineReports x.lines (List.finRange 4) = [] := by
    rw [State.lineReports, hlines, List.map_eq_nil_iff, List.filter_eq_nil_iff]
    intro n _
    rw [SignalLine.reports, hquiet n, Bool.and_false]
    exact Bool.false_ne_true
  have htouch : (u.sampleInputs x).touch = u.touch := by rw [hinputs]
  obtain rfl := hpress (by rwa [htouch] at hheld) rfl
  rw [hnone, List.take_nil, List.append_nil] at hinputs
  refine ⟨htouch, ?_, ?_, ?_, ?_, fun m h8 hm => hkeeps m h8 hm fun _ => hnone⟩
  all_goals rw [hinputs]

/-- The reports of an answer, and what a full queue makes of one (R153). -/
theorem State.offer_sets (r : Report) (s : State) :
    (s.tx.queue.length < 16 → (s.offer r).tx = { s.tx with queue := s.tx.queue ++ [r] }) ∧
      (16 ≤ s.tx.queue.length → (s.offer r).tx = s.tx ∧ (s.offer r).ev.raw.getLsbD 26 = true ∧
        (s.ev.table.mask.getLsbD 26 = true → (s.offer r).ev.latched.getLsbD 26 = true)) := by
  refine ⟨fun h => ?_, fun h => ?_⟩
  · rw [State.offer_room h]
  · rw [State.offer_full (Nat.not_lt.mpr h)]
    exact ⟨rfl, EventUnit.occur_sets .reportOverflow s.ev⟩

/-- How a part that a press has found awake answers it (R110, R112, R116 to R119). -/
theorem State.answerPress_ambiguity {v : State} {i j k : Fin 16} (hij : i < j) (hjk : j < k)
    (h : (v.touch.xBeams[i].broken = true ∧ v.touch.xBeams[j].broken = false ∧ v.touch.xBeams[k].broken = true) ∨
      (v.touch.yBeams[i].broken = true ∧ v.touch.yBeams[j].broken = false ∧ v.touch.yBeams[k].broken = true)) :
    v.answerPress = v.latch .touchAmbiguous := by
  refine State.answerPress_ambiguous (h.imp ?_ ?_)
  · rintro ⟨hi, hj, hk⟩
    exact axisPosition_split hij hjk hi hj hk
  · rintro ⟨hi, hj, hk⟩
    exact axisPosition_split hij hjk hi hj hk

/-- What a hit leaves, read off `hitZone_eq`. -/
theorem State.hitZone_sets (k tx ty : Fin 16) (v : State) :
    let z := v.touch.zones[k]
    let t := v.hitZone k tx ty
    (v.tx.queue.length < 16 → t.tx = { v.tx with queue := v.tx.queue ++ [.touch (some k) z.code tx ty v.rx.lastCount] }) ∧
      (16 ≤ v.tx.queue.length → t.tx = v.tx ∧ t.ev.raw.getLsbD 26 = true ∧
        (v.ev.table.mask.getLsbD 26 = true → t.ev.latched.getLsbD 26 = true)) ∧
      t.ren = v.ren.offered z.echo ∧
      (t.touch.zones = if z.oneShot then v.touch.zones.set k { z with armed := false } else v.touch.zones) ∧
      v.ev.KeepsEvent 25 t.ev := by
  dsimp only
  rw [State.hitZone_eq]
  obtain ⟨hroom, hfull⟩ := v.offer_sets (.touch (some k) v.touch.zones[k].code tx ty v.rx.lastCount)
  obtain ⟨_, hkeeps⟩ := v.offer_frame (.touch (some k) v.touch.zones[k].code tx ty v.rx.lastCount)
  exact ⟨hroom, hfull, rfl, rfl, hkeeps 25 (by decide) (by decide)⟩

/-- What a stray leaves (R117). -/
theorem State.stray_sets (tx ty : Fin 16) (v : State) :
    let t := v.stray tx ty
    (v.touch.table.strays = false → t.tx = v.tx) ∧
      (v.touch.table.strays = true → v.tx.queue.length < 16 →
        t.tx = { v.tx with queue := v.tx.queue ++ [.touch none 0 tx ty v.rx.lastCount] }) ∧
      (v.touch.table.strays = true → 16 ≤ v.tx.queue.length → t.tx = v.tx ∧ t.ev.raw.getLsbD 26 = true ∧
        (v.ev.table.mask.getLsbD 26 = true → t.ev.latched.getLsbD 26 = true)) ∧
      t.ren = v.ren ∧ t.touch = v.touch ∧ v.ev.KeepsEvent 25 t.ev := by
  dsimp only
  unfold State.stray
  cases hs : v.touch.table.strays with
  | false => exact ⟨fun _ => rfl, nofun, nofun, rfl, rfl, .refl _⟩
  | true =>
    rw [if_pos rfl]
    obtain ⟨hroom, hfull⟩ := v.offer_sets (.touch none 0 tx ty v.rx.lastCount)
    obtain ⟨_, hkeeps⟩ := v.offer_frame (.touch none 0 tx ty v.rx.lastCount)
    exact ⟨nofun, fun _ => hroom, fun _ => hfull, State.offer_ren _ _, State.offer_touch _ _,
      hkeeps 25 (by decide) (by decide)⟩

/-- Settles O50: the press is the wake of `press_blanked`, or the answer that the two positions give. -/
theorem scanAnswersThePress : Obligations.ScanAnswersThePress := by
  intro s x hoff hquiet
  obtain ⟨t, hexec, ht⟩ := scan_recognised x hoff hquiet
  refine ⟨t, hexec, fun hheld => ?_⟩
  obtain ⟨htouch, hren, hrow, hseq, htx, hkeeps⟩ := ht hheld
  by_cases hb : s.seq.state = .blanked
  · have hpress := State.press_blanked (s := (s.scanned x).held true) hb
    rw [hpress] at htouch hren hrow hseq htx hkeeps
    obtain ⟨hraw, _⟩ := hkeeps 25 (by decide) (by decide)
    refine ⟨by rw [hseq], fun _ => ⟨hseq, hrow, htx, hren, by rw [htouch]; rfl, hraw⟩, fun h => absurd hb h⟩
  · have hpress := State.press_unblanked (s := (s.scanned x).held true) hb
    rw [hpress] at htouch hren hrow hseq htx hkeeps
    obtain ⟨hanswerSeq, hanswerRow⟩ := ((s.scanned x).held true).restartBlankTimer.answerPress_seq_row
    refine ⟨by rw [hseq, hanswerSeq]; rfl, fun h => absurd h hb, fun _ => ⟨hseq.trans hanswerSeq, hrow.trans hanswerRow, ?_⟩⟩
    obtain ⟨hframe, _⟩ := ((s.scanned x).held true).restartBlankTimer.answered_answerPress
    generalize hv : ((s.scanned x).held true).restartBlankTimer = v at htouch hren htx hkeeps hframe
    have hbeams : t.touch.xBeams = v.touch.xBeams ∧ t.touch.yBeams = v.touch.yBeams := by
      rw [htouch, hframe]
      exact ⟨rfl, rfl⟩
    obtain ⟨hxBeams, hyBeams⟩ := hbeams
    have hvev : v.ev = s.ev := by rw [← hv]; rfl
    have hvtx : v.tx = s.tx := by rw [← hv]; rfl
    have hvren : v.ren = s.ren := by rw [← hv]; rfl
    have hvrx : v.rx = s.rx := by rw [← hv]; rfl
    have hvzones : v.touch.zones = s.touch.zones := by rw [← hv]; rfl
    have hvtable : v.touch.table = s.touch.table := by rw [← hv]; rfl
    rw [hxBeams, hyBeams]
    refine ⟨fun i j k hij hjk hsplit => ?_, fun a b c d hab hcd hx hy tx ty hmx hmy => ?_⟩
    · rw [State.answerPress_ambiguity hij hjk hsplit] at htouch hren htx hkeeps
      obtain ⟨hraw, hlatched⟩ := EventUnit.occur_sets .touchAmbiguous v.ev
      obtain ⟨hraw, hlatched⟩ := (hkeeps 25 (by decide) (by decide)).sets hraw hlatched
      rw [hvev] at hlatched
      exact ⟨hraw, hlatched, htx.trans hvtx, hren.trans hvren, by rw [htouch]; exact hvzones⟩
    · have hxp := axisPosition_run hab hx hmx
      have hyp := axisPosition_run hcd hy hmy
      have hclaims (k : Fin 16) : v.touch.zones[k].claims tx ty = true ↔ s.touch.zones[k].armed = true ∧
          s.touch.zones[k].tx0 ≤ tx ∧ tx ≤ s.touch.zones[k].tx1 ∧ s.touch.zones[k].ty0 ≤ ty ∧ ty ≤ s.touch.zones[k].ty1 := by
        rw [hvzones, Zone.claims_iff]
      refine ⟨?_, fun k hin hlow => ?_, fun hnone => ?_⟩
      · have hanswer : v.ev.KeepsEvent 25 v.answerPress.ev := by
          cases hzone : v.touch.findZone tx ty with
          | none =>
            rw [State.answerPress_stray hxp hyp hzone]
            obtain ⟨_, _, _, _, _, hkept⟩ := State.stray_sets tx ty v
            exact hkept
          | some k =>
            rw [State.answerPress_hit hxp hyp hzone]
            obtain ⟨_, _, _, _, hkept⟩ := State.hitZone_sets k tx ty v
            exact hkept
        obtain ⟨hraw, _⟩ := hanswer.trans (hkeeps 25 (by decide) (by decide))
        rw [hraw, hvev]
      · have hzone : v.touch.findZone tx ty = some k := find?_finRange_eq_some ((hclaims k).mpr hin) fun j hj =>
          Bool.eq_false_of_not_eq_true fun hc => hlow j hj ((hclaims j).mp hc)
        rw [State.answerPress_hit hxp hyp hzone] at htouch hren htx hkeeps
        obtain ⟨hroom, hfull, hech, hzones, _⟩ := State.hitZone_sets k tx ty v
        rw [hvtx, hvzones, hvrx] at hroom
        rw [hvtx, hvev] at hfull
        rw [hvren, hvzones] at hech
        rw [hvzones] at hzones
        refine ⟨fun hl => htx.trans (hroom hl), fun hl => ?_, fun e he hl => ?_, fun he => ?_, by rw [htouch]; exact hzones⟩
        · obtain ⟨htx', hraw, hlatched⟩ := hfull hl
          exact ⟨htx.trans htx', (hkeeps 26 (by decide) (by decide)).sets hraw hlatched⟩
        · rw [hren, hech, he]
          exact Render.offered_room hl
        · rw [hren, hech]
          exact Render.offered_dropped he
      · have hzone : v.touch.findZone tx ty = none := find?_finRange_eq_none fun j =>
          Bool.eq_false_of_not_eq_true fun hc => hnone j ((hclaims j).mp hc)
        rw [State.answerPress_stray hxp hyp hzone] at htouch hren htx hkeeps
        obtain ⟨hoffNo, hroom, hfull, hrenKept, htouchKept, _⟩ := State.stray_sets tx ty v
        rw [hvtable] at hoffNo hroom hfull
        rw [hvtx] at hoffNo hroom hfull
        rw [hvrx] at hroom
        rw [hvev] at hfull
        refine ⟨fun h => htx.trans (hoffNo h), fun h hl => htx.trans (hroom h hl), fun h hl => ?_,
          hren.trans (hrenKept.trans hvren), by rw [htouch, htouchKept]; exact hvzones⟩
        obtain ⟨htx', hraw, hlatched⟩ := hfull h hl
        exact ⟨htx.trans htx', (hkeeps 26 (by decide) (by decide)).sets hraw hlatched⟩

end Sys2Proof.Machine
end

