-- ==== Sys2Proof/Proofs/Slots.lean ====
section
/-! Address slots and their start attempts (R76 to R83, R93, R94): the arbiter as the statements describe it, one attempt, the
attempts of a slot together, and where a slot goes. -/

namespace Sys2Proof.Machine

/-! ### The arbiter (R78, R79) -/

section
variable {r : RowEngine} {limit : Nat} {y : RowNo}

theorem RowEngine.firstFree_of_firstFree {rows : List RowNo} (h : r.FirstFree rows y) : r.firstFree rows = some y := by
  obtain ⟨before, behind, rfl, hbefore, hy⟩ := h
  have hfree : r.inFlight y = false := RowEngine.inFlight_false_iff.mpr hy
  refine List.find?_eq_some_iff_append.mpr ⟨by rw [hfree]; rfl, before, behind, rfl, fun z hz => ?_⟩
  rw [RowEngine.inFlight_iff.mpr (hbefore z hz)]
  rfl

theorem RowEngine.firstFree_of_allInFlight {rows : List RowNo} (h : r.AllInFlight rows) : r.firstFree rows = none :=
  List.find?_eq_none.mpr fun z hz => by rw [RowEngine.inFlight_iff.mpr (h z hz)]; exact Bool.false_ne_true

theorem RowEngine.choosesBulk_iff : r.choosesBulk limit = true ↔ r.BulkFirst limit := by
  simp [RowEngine.choosesBulk, RowEngine.BulkFirst]

/-- The arbiter takes the row that the rules give. -/
theorem RowEngine.pick_of_takes {list : MarkClass} (h : r.Takes limit list y) : r.pick limit = some (list, y) := by
  cases list with
  | urgent =>
    obtain ⟨hchosen, hfirst⟩ := h
    rw [RowEngine.pick, RowEngine.firstFree_of_firstFree hfirst]
    by_cases hb : r.BulkFirst limit
    · rw [if_pos (RowEngine.choosesBulk_iff.mpr hb), RowEngine.firstFree_of_allInFlight (hchosen.resolve_left (not_not_intro hb))]
      rfl
    · rw [if_neg (mt RowEngine.choosesBulk_iff.mp hb)]
      rfl
  | bulk =>
    obtain ⟨hchosen, hfirst⟩ := h
    rw [RowEngine.pick, RowEngine.firstFree_of_firstFree hfirst]
    by_cases hb : r.BulkFirst limit
    · rw [if_pos (RowEngine.choosesBulk_iff.mpr hb)]
      rfl
    · rw [if_neg (mt RowEngine.choosesBulk_iff.mp hb), RowEngine.firstFree_of_allInFlight (hchosen.resolve_left hb)]
      rfl

/-- With every waiting row in flight the arbiter takes none. -/
theorem RowEngine.pick_of_allInFlight (hu : r.AllInFlight r.urgent) (hb : r.AllInFlight r.bulk) : r.pick limit = none := by
  rw [RowEngine.pick, RowEngine.firstFree_of_allInFlight hu, RowEngine.firstFree_of_allInFlight hb]
  exact ite_self _

/-- What the arbiter makes of the lists and of the urgent-run count when it takes row y (R79). -/
def RowEngine.taken (list : MarkClass) (y : RowNo) (r : RowEngine) : RowEngine :=
  match list with
  | .urgent => { r with urgent := r.urgent.erase y, run := min (r.run + 1) 15 }
  | .bulk => { r with bulk := r.bulk.erase y, run := 0 }

theorem RowEngine.arbitrate_of_takes {list : MarkClass} (h : r.Takes limit list y) :
    r.arbitrate limit = (r.taken list y, some y) := by
  rw [RowEngine.arbitrate, RowEngine.pick_of_takes h]
  cases list <;> rfl

theorem RowEngine.arbitrate_of_allInFlight (hu : r.AllInFlight r.urgent) (hb : r.AllInFlight r.bulk) :
    r.arbitrate limit = ({ r with run := if r.urgent = [] then 0 else r.run }, none) := by
  rw [RowEngine.arbitrate, RowEngine.pick_of_allInFlight hu hb]
  dsimp only
  cases r.urgent <;> rfl

/-! ### One attempt (R77, R80 to R82) -/

/-- No service has a WRITE left to issue. -/
theorem RowEngine.issuing_eq_none_iff : r.issuing = none ↔ ∀ v ∈ r.sense, ∀ l, v.phase ≠ .issuing l := by
  rw [RowEngine.issuing, List.findSome?_eq_none_iff]
  refine forall₂_congr fun v _ => ?_
  cases v.phase with
  | issuing rest => simp
  | settling n => simp
  | refreshing => simp

theorem RowEngine.mayStart_iff : r.mayStart = true ↔
    r.retry = [] ∧ r.issuing = none ∧ r.sense.length < 4 ∧ r.mirrorKnown = true := by
  simp only [RowEngine.mayStart, Bool.and_eq_true, List.isEmpty_iff, Option.isNone_iff_eq_none, decide_eq_true_eq, and_assoc]

/-- A service that starts, and the operation that its slot carries (R80 to R82). -/
theorem RowEngine.startService_eq (y : RowNo) (target lit dark : RowBits) (r : RowEngine) :
    r.startService y target lit dark = { r with
      sense := r.sense ++ [⟨y, target, litCount target, 0, if dark = 0 ∨ lit = 0 then .settling none else .issuing lit⟩]
      slotOp := some (if dark = 0 then ⟨.write, y, lit⟩ else ⟨.erase, y, dark⟩) } := by
  unfold RowEngine.startService
  dsimp only
  by_cases hdark : dark = 0
  · rw [if_pos hdark, if_pos (.inl hdark), if_pos hdark]
    rfl
  · by_cases hlit : lit = 0
    · rw [if_neg hdark, if_pos hlit, if_pos (.inr hlit), if_neg hdark]
      rfl
    · rw [if_neg hdark, if_neg hlit, if_neg (not_or.mpr ⟨hdark, hlit⟩), if_neg hdark]
      rfl

/-- An attempt reads nothing of the note that one is due. -/
theorem RowEngine.attempt_attempting (b : Bool) (composite : RowNo → RowBits) (r : RowEngine) :
    RowEngine.attempt limit composite { r with attempting := b } = r.attempt limit composite := by
  cases hmay : r.mayStart with
  | false => rw [RowEngine.attempt_of_not hmay, RowEngine.attempt_of_not (r := { r with attempting := b }) hmay]
  | true =>
    have harb : RowEngine.arbitrate limit { r with attempting := b } =
        ({ (r.arbitrate limit).1 with attempting := b }, (r.arbitrate limit).2) := by
      have hpick : RowEngine.pick limit { r with attempting := b } = r.pick limit := rfl
      unfold RowEngine.arbitrate
      rw [hpick]
      cases r.pick limit with
      | none => rfl
      | some p => obtain ⟨_ | _, y⟩ := p <;> rfl
    have hmay' : RowEngine.mayStart { r with attempting := b } = true := hmay
    rw [RowEngine.attempt, RowEngine.attempt, if_pos hmay', if_pos hmay, harb]
    obtain ⟨r', o⟩ := r.arbitrate limit
    cases o with
    | none => rfl
    | some y =>
      have hmirror : RowEngine.mirrorRow { r' with attempting := b } y = r'.mirrorRow y := rfl
      dsimp only
      rw [hmirror, RowEngine.startService_eq, RowEngine.startService_eq]

/-- An attempt at a row that the arbiter takes. -/
theorem RowEngine.attempt_of_takes {composite : RowNo → RowBits} {list : MarkClass} {mirror : RowBits}
    (hmay : r.mayStart = true) (h : r.Takes limit list y) (hm : r.mirror[y] = some mirror) :
    r.attempt limit composite =
      if composite y = mirror then { r.taken list y with attempting := true }
      else { (r.taken list y).startService y (composite y) (onSet (composite y) mirror) (offSet (composite y) mirror) with
        attempting := false } := by
  have hmirror : (r.taken list y).mirrorRow y = mirror := by
    have hkept : (r.taken list y).mirror = r.mirror := by cases list <;> rfl
    rw [RowEngine.mirrorRow, hkept, hm]
    rfl
  rw [RowEngine.attempt, if_pos hmay, RowEngine.arbitrate_of_takes h]
  dsimp only
  rw [hmirror]
  refine if_congr ⟨fun ⟨hlit, hdark⟩ => onSet_offSet_eq_zero hlit hdark, fun heq => ?_⟩ rfl rfl
  rw [heq, onSet, offSet, BitVec.and_not_self]
  exact ⟨rfl, rfl⟩

/-- An attempt that finds no row. -/
theorem RowEngine.attempt_of_allInFlight {composite : RowNo → RowBits} (hmay : r.mayStart = true)
    (hu : r.AllInFlight r.urgent) (hb : r.AllInFlight r.bulk) :
    r.attempt limit composite = { r with attempting := false, run := if r.urgent = [] then 0 else r.run } := by
  rw [RowEngine.attempt, if_pos hmay, RowEngine.arbitrate_of_allInFlight hu hb]

/-- What an attempt leaves alone, and how it ends: with no attempt to follow, or with one row fewer in the lists. -/
theorem RowEngine.attempt_frame (composite : RowNo → RowBits) (r : RowEngine) :
    (r.attempt limit composite).sensed = r.sensed ∧ (r.attempt limit composite).prevOp = r.prevOp ∧
      ((r.attempt limit composite).attempting = true →
        (r.attempt limit composite).urgent.length + (r.attempt limit composite).bulk.length + 1 =
          r.urgent.length + r.bulk.length) := by
  cases hmay : r.mayStart with
  | false =>
    rw [RowEngine.attempt_of_not hmay]
    exact ⟨rfl, rfl, nofun⟩
  | true =>
    have harb : (r.arbitrate limit).1.sensed = r.sensed ∧ (r.arbitrate limit).1.prevOp = r.prevOp := by
      unfold RowEngine.arbitrate
      split <;> exact ⟨rfl, rfl⟩
    obtain ⟨hsensed, hprev⟩ := harb
    obtain ⟨_, heq⟩ | ⟨y, hy, ⟨_, _, heq⟩ | ⟨_, heq⟩⟩ :=
      RowEngine.attempt_cases (limit := limit) (composite := composite) hmay <;> rw [heq]
    · exact ⟨hsensed, hprev, nofun⟩
    · refine ⟨hsensed, hprev, fun _ => ?_⟩
      obtain ⟨_, ⟨hmem, heq⟩ | ⟨hmem, heq⟩⟩ := RowEngine.arbitrate_some hy <;> rw [heq]
      · have hpos := List.length_pos_of_mem hmem
        dsimp only
        rw [List.length_erase_of_mem hmem]
        omega
      · have hpos := List.length_pos_of_mem hmem
        dsimp only
        rw [List.length_erase_of_mem hmem]
        omega
    · rw [RowEngine.startService_eq]
      exact ⟨hsensed, hprev, nofun⟩

/-! ### The attempts of a slot (R77) -/

theorem RowEngine.attempts_of_done {composite : RowNo → RowBits} (h : r.attempting = false) (fuel : Nat) :
    r.attempts limit composite fuel = r := by
  cases fuel with
  | zero => rfl
  | succ fuel => rw [RowEngine.attempts, if_neg (by rw [h]; exact Bool.false_ne_true)]

/-- Enough attempts end the slot. -/
theorem RowEngine.attempting_attempts {composite : RowNo → RowBits} {fuel : Nat}
    (h : r.attempting = true → r.urgent.length + r.bulk.length < fuel) :
    (r.attempts limit composite fuel).attempting = false := by
  induction fuel generalizing r with
  | zero => exact Bool.eq_false_of_not_eq_true fun hr => absurd (h hr) (Nat.not_lt_zero _)
  | succ fuel ih =>
    rw [RowEngine.attempts]
    split
    · next hr =>
      obtain ⟨_, _, hlist⟩ := RowEngine.attempt_frame (limit := limit) composite r
      exact ih fun hnext => by have := hlist hnext; have := h hr; omega
    · next hr => exact Bool.eq_false_of_not_eq_true hr

theorem RowEngine.sensed_attempts (composite : RowNo → RowBits) (fuel : Nat) (r : RowEngine) :
    (r.attempts limit composite fuel).sensed = r.sensed := by
  induction fuel generalizing r with
  | zero => rfl
  | succ fuel ih =>
    rw [RowEngine.attempts]
    split
    · obtain ⟨hsensed, _⟩ := RowEngine.attempt_frame (limit := limit) composite r
      rw [ih, hsensed]
    · rfl

end

/-! ### The end of a slot, and its next attempt -/

section
variable {s : State}

theorem State.endSlot_running (h : s.seq.state = .running) :
    s.endSlot = { s with
      row := s.row.attempts s.seq.panel.urgentLimit s.ren.composite (s.row.urgent.length + s.row.bulk.length + 1) } := by
  rw [State.endSlot, if_pos h]

theorem State.endSlot_stopped (h : s.seq.state ≠ .running) :
    s.endSlot = { s with row := { s.row with attempting := false } } := by
  rw [State.endSlot, if_neg h]

theorem State.attempting_endSlot (s : State) : s.endSlot.row.attempting = false := by
  by_cases h : s.seq.state = .running
  · rw [State.endSlot_running h]
    exact RowEngine.attempting_attempts fun _ => Nat.lt_succ_self _
  · rw [State.endSlot_stopped h]

/-- With no attempt left the slot has ended. -/
theorem State.endSlot_of_done (h : s.row.attempting = false) : s.endSlot = s := by
  by_cases hrun : s.seq.state = .running
  · rw [State.endSlot_running hrun, RowEngine.attempts_of_done h]
  · rw [State.endSlot_stopped hrun, ← h]

theorem State.endSlot_endSlot (s : State) : s.endSlot.endSlot = s.endSlot := State.endSlot_of_done s.attempting_endSlot

theorem State.nextAttempt_of_done (h : s.row.attempting = false) : s.nextAttempt = s := by
  rw [State.nextAttempt, if_neg (by rw [h]; exact Bool.false_ne_true)]

theorem State.nextAttempt_running (h : s.row.attempting = true) (hrun : s.seq.state = .running) :
    s.nextAttempt = { s with row := s.row.attempt s.seq.panel.urgentLimit s.ren.composite } := by
  rw [State.nextAttempt, if_pos h, if_pos hrun]

theorem State.nextAttempt_stopped (h : s.row.attempting = true) (hrun : s.seq.state ≠ .running) :
    s.nextAttempt = { s with row := { s.row with attempting := false } } := by
  rw [State.nextAttempt, if_pos h, if_neg hrun]

/-- The attempts of a slot are its next one and those that follow. -/
theorem State.endSlot_nextAttempt (h : s.row.attempting = true) : s.endSlot = s.nextAttempt.endSlot := by
  by_cases hrun : s.seq.state = .running
  · rw [State.nextAttempt_running h hrun, State.endSlot_running hrun, RowEngine.attempts, if_pos h]
    refine Eq.trans ?_ (State.endSlot_running
      (s := { s with row := s.row.attempt s.seq.panel.urgentLimit s.ren.composite }) hrun).symm
    dsimp only
    obtain ⟨_, _, hlist⟩ := RowEngine.attempt_frame (limit := s.seq.panel.urgentLimit) s.ren.composite s.row
    cases hnext : (s.row.attempt s.seq.panel.urgentLimit s.ren.composite).attempting with
    | false => rw [RowEngine.attempts_of_done hnext, RowEngine.attempts_of_done hnext]
    | true => rw [hlist hnext]
  · rw [State.nextAttempt_stopped h hrun, State.endSlot_stopped hrun]
    exact (State.endSlot_of_done rfl).symm

end

/-! ### Where a slot goes (R76, R93, R94) -/

/-- The row engine as its next cycle begins. -/
def State.cycleBegun (s : State) : RowEngine := s.row.beginCycle s.seq.panel.settle

/-- The sequencer as its next cycle begins. -/
def State.cycleTimed (s : State) : Sequencer := { s.seq with cycle := some s.seq.panel.period }

section
variable {s : State}

theorem exec_addressSlot_off (h : s.seq.state = .off) : exec .addressSlot s = .next s := by
  show Host.Outcome.next _ = _
  rw [h]

/-- A slot follows the end of the one before it. -/
theorem exec_addressSlot_endSlot (h : s.seq.state ≠ .off) : exec .addressSlot s = exec .addressSlot s.endSlot := by
  show execAddressSlot s = execAddressSlot s.endSlot
  unfold execAddressSlot
  rw [State.endSlot_endSlot, State.endSlot_seq]
  split
  · next hoff => exact absurd hoff h
  all_goals rfl

section
variable (hdone : s.row.attempting = false)
include hdone

theorem exec_addressSlot_sweep (h : s.seq.state ≠ .off) (hsweep : s.seq.sweeping = true) (hpos : s.seq.sweepPos < 512) :
    exec .addressSlot s = .next { s with
      row := s.cycleBegun.sweepRow ⟨s.seq.sweepPos, hpos⟩
      seq := { s.cycleTimed with sweepPos := s.seq.sweepPos + 1 } } := by
  obtain ⟨hoff, _⟩ | ⟨_, ⟨_, _, heq⟩ | ⟨_, hout, _⟩ | ⟨hno, _⟩ | ⟨hno, _⟩⟩ := s.execAddressSlot_cases
  · exact absurd hoff h
  · rw [State.endSlot_of_done hdone] at heq
    exact heq
  · omega
  · exact Bool.noConfusion (hsweep.symm.trans hno)
  · exact Bool.noConfusion (hsweep.symm.trans hno)

/-- A slot that passes unused: after the sweep's last row, or with no sweep in STARTING and BLANKED. -/
theorem exec_addressSlot_unused (h : s.seq.state ≠ .off)
    (hunused : (s.seq.sweeping = true ∧ 512 ≤ s.seq.sweepPos) ∨ (s.seq.sweeping = false ∧ s.seq.state = .blanked)) :
    exec .addressSlot s = .next { s with row := s.cycleBegun, seq := s.cycleTimed } := by
  obtain ⟨hoff, _⟩ | ⟨_, ⟨hyes, hlt, _⟩ | ⟨_, _, heq⟩ | ⟨hno, hrun, _⟩ | ⟨_, _, heq⟩⟩ := s.execAddressSlot_cases
  · exact absurd hoff h
  · rcases hunused with ⟨_, hout⟩ | ⟨hno, _⟩
    · omega
    · exact Bool.noConfusion (hyes.symm.trans hno)
  · rw [State.endSlot_of_done hdone] at heq
    exact heq
  · rcases hunused with ⟨hyes, _⟩ | ⟨_, hb⟩
    · exact Bool.noConfusion (hyes.symm.trans hno)
    · rw [hb] at hrun
      exact absurd hrun (by decide)
  · rw [State.endSlot_of_done hdone] at heq
    exact heq

theorem exec_addressSlot_serve (h : s.seq.state = .running ∨ s.seq.state = .blanking) (hsweep : s.seq.sweeping = false) :
    exec .addressSlot s = .next { s with
      row := s.cycleBegun.serveSlot (decide (s.seq.state = .running)) s.seq.panel.urgentLimit s.ren.composite
      seq := s.cycleTimed } := by
  obtain ⟨hoff, _⟩ | ⟨_, ⟨hyes, _⟩ | ⟨hyes, _⟩ | ⟨_, _, heq⟩ | ⟨_, hother, _⟩⟩ := s.execAddressSlot_cases
  · rw [hoff] at h
    exact absurd h (by decide)
  · exact Bool.noConfusion (hyes.symm.trans hsweep)
  · exact Bool.noConfusion (hyes.symm.trans hsweep)
  · rw [State.endSlot_of_done hdone] at heq
    exact heq
  · rcases h with h | h <;> rw [h] at hother <;> exact absurd hother (by decide)

end
end

section
variable {r : RowEngine} {starts : Bool} {limit : Nat} {composite : RowNo → RowBits}

/-- What a service waits for after its last operation has been issued. -/
def Service.waits (y : RowNo) (v : Service) : Service := if v.row = y then { v with phase := .settling none } else v

theorem RowEngine.updateService_waits (y : RowNo) (r : RowEngine) :
    r.updateService y (fun v => { v with phase := .settling none }) = { r with sense := r.sense.map (Service.waits y) } := by
  have hf : (fun v : Service => if v.row == y then { v with phase := .settling none } else v) = Service.waits y := by
    funext v
    rw [Service.waits]
    simp only [beq_iff_eq]
  rw [RowEngine.updateService, hf]

theorem RowEngine.serveSlot_retry {op : AddressOp} {rest : List AddressOp} (h : r.retry = op :: rest) :
    r.serveSlot starts limit composite = { r with
      sense := if ∃ o ∈ rest, o.row = op.row then r.sense else r.sense.map (Service.waits op.row)
      retry := rest, slotOp := some op } := by
  have hany : (rest.any fun o => o.row == op.row) = true ↔ ∃ o ∈ rest, o.row = op.row := by
    rw [List.any_eq_true]
    exact exists_congr fun o => and_congr_right fun _ => beq_iff_eq
  rw [RowEngine.serveSlot, h]
  dsimp only
  rw [RowEngine.issueRetry]
  by_cases hmore : ∃ o ∈ rest, o.row = op.row
  · rw [if_pos (hany.mpr hmore), if_pos hmore]
    rfl
  · rw [if_neg (mt hany.mp hmore), if_neg hmore, RowEngine.updateService_waits]
    rfl

theorem RowEngine.issuing_of_first {before behind : List Service} {v : Service} {lit : RowBits}
    (h : r.sense = before ++ v :: behind) (hv : v.phase = .issuing lit)
    (hbefore : ∀ w ∈ before, ∀ l, w.phase ≠ .issuing l) : r.issuing = some (v.row, lit) := by
  have hnone : RowEngine.issuing { r with sense := before } = none := RowEngine.issuing_eq_none_iff.mpr hbefore
  rw [RowEngine.issuing] at hnone ⊢
  rw [h, List.findSome?_append, hnone, Option.none_or, List.findSome?_cons, hv]

theorem RowEngine.serveSlot_issuing {y : RowNo} {lit : RowBits} (hretry : r.retry = []) (h : r.issuing = some (y, lit)) :
    r.serveSlot starts limit composite =
      { r with sense := r.sense.map (Service.waits y), slotOp := some ⟨.write, y, lit⟩ } := by
  unfold RowEngine.serveSlot
  split
  · next hsome => cases hretry.symm.trans hsome
  · rw [h]
    dsimp only
    rw [RowEngine.issueRest, RowEngine.updateService_waits]
    rfl

theorem RowEngine.serveSlot_starts (hretry : r.retry = []) (h : r.issuing = none) :
    r.serveSlot starts limit composite = if starts then r.attempt limit composite else r := by
  unfold RowEngine.serveSlot
  split
  · next hsome => cases hretry.symm.trans hsome
  · rw [h]

/-- Serving the slot leaves the note of the cycle before. -/
theorem RowEngine.prevOp_serveSlot (starts : Bool) (limit : Nat) (composite : RowNo → RowBits) (r : RowEngine) :
    (r.serveSlot starts limit composite).prevOp = r.prevOp := by
  cases hretry : r.retry with
  | cons op rest => rw [RowEngine.serveSlot_retry hretry]
  | nil =>
    cases hissuing : r.issuing with
    | some p => rw [RowEngine.serveSlot_issuing (y := p.1) (lit := p.2) hretry hissuing]
    | none =>
      rw [RowEngine.serveSlot_starts hretry hissuing]
      split
      · obtain ⟨_, hprev, _⟩ := RowEngine.attempt_frame (limit := limit) composite r
        exact hprev
      · rfl

/-- The end of a cycle leaves the services that have an operation to issue, and each service's row. -/
theorem Service.endOfCycle_issuing (settle : Nat) (v : Service) (l : RowBits) :
    (v.endOfCycle settle).phase = .issuing l ↔ v.phase = .issuing l := by
  unfold Service.endOfCycle
  split
  · next h => simp [h]
  · next h => simp [h]
  · rfl
  · rfl

end

/-- The operation of the slot before stands as that of the cycle before. -/
theorem exec_addressSlot_prevOp {s t : State} (h : s.seq.state ≠ .off) (ht : exec .addressSlot s = .next t) :
    t.row.prevOp = s.endSlot.row.slotOp := by
  obtain ⟨hoff, _⟩ | ⟨_, ⟨_, _, heq⟩ | ⟨_, _, heq⟩ | ⟨_, _, heq⟩ | ⟨_, _, heq⟩⟩ := s.execAddressSlot_cases
  · exact absurd hoff h
  all_goals cases heq.symm.trans ht
  · rfl
  · rfl
  · exact RowEngine.prevOp_serveSlot _ _ _ _
  · rfl

section
variable {s : State}

theorem State.cycleBegun_eq (s : State) :
    s.cycleBegun = { s.row with
      sense := s.row.sense.map (Service.endOfCycle s.seq.panel.settle), prevOp := s.row.slotOp, slotOp := none
      sensed := false } := rfl

theorem State.issuing_cycleBegun (h : ∀ v ∈ s.row.sense, ∀ l, v.phase ≠ .issuing l) : s.cycleBegun.issuing = none := by
  refine RowEngine.issuing_eq_none_iff.mpr fun v hv l => ?_
  obtain ⟨w, hw, rfl⟩ := List.mem_map.mp hv
  exact mt (w.endOfCycle_issuing _ l).mp (h w hw l)

theorem State.issuing_cycleBegun_first {before behind : List Service} {v : Service} {lit : RowBits}
    (h : s.row.sense = before ++ v :: behind) (hv : v.phase = .issuing lit)
    (hbefore : ∀ w ∈ before, ∀ l, w.phase ≠ .issuing l) : s.cycleBegun.issuing = some (v.row, lit) := by
  obtain ⟨hrow, _⟩ := v.endOfCycle_frame s.seq.panel.settle
  rw [← hrow]
  refine RowEngine.issuing_of_first (before := before.map (Service.endOfCycle s.seq.panel.settle))
    (behind := behind.map (Service.endOfCycle s.seq.panel.settle)) ?_ ((v.endOfCycle_issuing _ lit).mpr hv) fun w hw l => ?_
  · rw [State.cycleBegun_eq, h, List.map_append, List.map_cons]
  · obtain ⟨u, hu, rfl⟩ := List.mem_map.mp hw
    exact mt (u.endOfCycle_issuing _ l).mp (hbefore u hu l)

theorem State.allInFlight_cycleBegun {rows : List RowNo} (h : s.row.AllInFlight rows) : s.cycleBegun.AllInFlight rows :=
  fun z hz => by
    obtain ⟨v, hv, hrow⟩ := h z hz
    exact ⟨_, List.mem_map_of_mem hv, (v.endOfCycle_frame _).1.trans hrow⟩

end

/-- Settles O44: the slot's sources in turn. -/
theorem addressSlotGoesToItsSource : Obligations.AddressSlotGoesToItsSource := by
  intro s waited begun waits q unused
  have hwaited : waited = Service.endOfCycle s.seq.panel.settle := rfl
  have hwaits : waits = Service.waits := rfl
  have hunused : unused = { s with row := s.cycleBegun, seq := s.cycleTimed } := rfl
  have hissuing (h : ∀ v ∈ s.row.sense, ∀ l, v.phase ≠ .issuing l) := State.issuing_cycleBegun h
  refine ⟨exec_addressSlot_off, fun h => ⟨exec_addressSlot_endSlot h, s.attempting_endSlot⟩,
    fun t h ht => exec_addressSlot_prevOp h ht, fun hdone => ⟨fun h hsweep => ⟨fun y hy => ?_, fun hpos => ?_⟩,
      fun h hsweep => ?_, fun h hsweep => ⟨fun op rest hretry => ?_, fun before v behind lit hretry hsense hv hbefore => ?_,
        fun hretry hno => ⟨fun hfull => ?_, fun hrun hlen hknown hu hb => ?_⟩⟩⟩⟩
  · have hpos : s.seq.sweepPos < 512 := by rw [hy]; exact y.isLt
    have hyrow : (⟨s.seq.sweepPos, hpos⟩ : RowNo) = y := Fin.ext hy
    rw [exec_addressSlot_sweep hdone h hsweep hpos, hyrow, hy]
    rfl
  · exact exec_addressSlot_unused hdone h (.inl ⟨hsweep, hpos⟩)
  · exact exec_addressSlot_unused hdone (by rw [h]; decide) (.inr ⟨hsweep, h⟩)
  · rw [exec_addressSlot_serve hdone h hsweep, RowEngine.serveSlot_retry (r := s.cycleBegun) hretry]
    rfl
  · rw [exec_addressSlot_serve hdone h hsweep, RowEngine.serveSlot_issuing (r := s.cycleBegun) hretry
      (State.issuing_cycleBegun_first hsense hv hbefore)]
    rfl
  · rw [exec_addressSlot_serve hdone h hsweep, RowEngine.serveSlot_starts (r := s.cycleBegun) hretry (hissuing hno), hunused]
    rcases hfull with hb | hfull
    · rw [hb]
      rfl
    · have hmay : s.cycleBegun.mayStart = false := Bool.eq_false_of_not_eq_true fun hmay => by
        obtain ⟨_, _, hlen, _⟩ := RowEngine.mayStart_iff.mp hmay
        rw [State.cycleBegun_eq, List.length_map] at hlen
        omega
      rw [RowEngine.attempt_of_not hmay]
      have hkept : ({ s.cycleBegun with attempting := false } : RowEngine) = s.cycleBegun := by
        rw [State.cycleBegun_eq, ← hdone]
      rw [hkept, ite_self]
  · have hmay : s.cycleBegun.mayStart = true := RowEngine.mayStart_iff.mpr
      ⟨hretry, hissuing hno, (List.length_map _).trans_lt hlen, hknown⟩
    rw [exec_addressSlot_serve hdone h hsweep, RowEngine.serveSlot_starts (r := s.cycleBegun) hretry (hissuing hno), hrun,
      decide_eq_true rfl, if_pos rfl, RowEngine.attempt_of_allInFlight hmay (State.allInFlight_cycleBegun hu)
        (State.allInFlight_cycleBegun hb), ← hdone]
    rfl

end Sys2Proof.Machine
end

