-- ==== Sys2Proof/Proofs/Senses.lean ====
section
/-! Start attempts as steps of their own (R77, logs 4 and 28), and the sense completion (R83 to R86, R89). -/

namespace Sys2Proof.Machine

/-! ### Start attempts -/

/-- A slot in RUNNING with no earlier source makes its first start attempt. -/
theorem exec_addressSlot_starts {s : State} (hdone : s.row.attempting = false) (hrun : s.seq.state = .running)
    (hsweep : s.seq.sweeping = false) (hretry : s.row.retry = []) (hno : ∀ v ∈ s.row.sense, ∀ l, v.phase ≠ .issuing l) :
    exec .addressSlot s =
      .next (State.nextAttempt { s with row := { s.cycleBegun with attempting := true }, seq := s.cycleTimed }) := by
  rw [exec_addressSlot_serve hdone (.inl hrun) hsweep,
    RowEngine.serveSlot_starts (r := s.cycleBegun) hretry (State.issuing_cycleBegun hno), hrun, decide_eq_true rfl, if_pos rfl,
    State.nextAttempt_running (s := { s with row := { s.cycleBegun with attempting := true }, seq := s.cycleTimed }) rfl hrun]
  dsimp only
  rw [RowEngine.attempt_attempting true _ s.cycleBegun]
  rfl

section
variable {s : State}

theorem step_idle (h : s.pending = []) : step s = .next s.idle := by
  rw [step, h]

/-- With no attempt possible the slot has ended. -/
theorem State.nextAttempt_closed (ha : s.row.attempting = true)
    (h : s.seq.state ≠ .running ∨ 4 ≤ s.row.sense.length) :
    s.nextAttempt = { s with row := { s.row with attempting := false } } := by
  by_cases hrun : s.seq.state = .running
  · have hmay : s.row.mayStart = false := Bool.eq_false_of_not_eq_true fun hmay => by
      obtain ⟨_, _, hlen, _⟩ := RowEngine.mayStart_iff.mp hmay
      have := h.resolve_left (not_not_intro hrun)
      omega
    rw [State.nextAttempt_running ha hrun, RowEngine.attempt_of_not hmay]
  · exact State.nextAttempt_stopped ha hrun

end

/-- Settles O45: the first attempt by `exec_addressSlot_starts`, a further one by `attempt_of_takes` or
`attempt_of_allInFlight`. -/
theorem rowStartServesTheArbitersRow : Obligations.RowStartServesTheArbitersRow := by
  refine ⟨fun s hrun hsweep hretry hno hdone => exec_addressSlot_starts hdone hrun hsweep hretry hno, fun s ha => ?_,
    fun s hdone => ⟨State.nextAttempt_of_done hdone, State.endSlot_of_done hdone⟩⟩
  refine ⟨fun hp hb => ?_, fun hp hb => ?_, State.endSlot_nextAttempt ha, State.nextAttempt_closed ha,
    fun hrun hretry hno hlen hknown => ?_⟩
  · rw [step_idle hp, State.idle_free ha hb]
  · dsimp only
    rw [step_idle hp]
    exact (State.idle_both ha hb).imp (congrArg _) (congrArg _)
  · have hmay : s.row.mayStart = true :=
      RowEngine.mayStart_iff.mpr ⟨hretry, RowEngine.issuing_eq_none_iff.mpr hno, hlen, hknown⟩
    refine ⟨fun hu hbulk => ?_, fun list y mirror htakes hm => ⟨fun heq => ?_, fun hne => ?_⟩⟩
    · rw [State.nextAttempt_running ha hrun, RowEngine.attempt_of_allInFlight hmay hu hbulk]
    · rw [State.nextAttempt_running ha hrun, RowEngine.attempt_of_takes hmay htakes hm, if_pos heq]
      cases list <;> rw [RowEngine.taken, ← ha]
    · rw [State.nextAttempt_running ha hrun, RowEngine.attempt_of_takes hmay htakes hm, if_neg hne, RowEngine.startService_eq]
      cases list <;> rfl

/-! ### The sense completion -/

theorem Service.due_iff (v : Service) : v.due = true ↔ ∃ n, v.phase = .settling (some n) ∧ n ≤ 1 := by
  unfold Service.due
  split
  · next h => simp [h]
  all_goals
    next h => simp [h]

/-- Start attempts add no service whose sense is due. -/
theorem RowEngine.attempt_adds (limit : Nat) (composite : RowNo → RowBits) (r : RowEngine) :
    ∃ added, (r.attempt limit composite).sense = r.sense ++ added ∧ ∀ v ∈ added, v.due = false := by
  have hnone {q : RowEngine} (h : q.sense = r.sense) : ∃ added, q.sense = r.sense ++ added ∧ ∀ v ∈ added, v.due = false :=
    ⟨[], h.trans (List.append_nil _).symm, List.forall_mem_nil _⟩
  cases hmay : r.mayStart with
  | false =>
    rw [RowEngine.attempt_of_not hmay]
    exact hnone rfl
  | true =>
    have harb := r.sense_arbitrate limit
    obtain ⟨_, heq⟩ | ⟨y, _, ⟨_, _, heq⟩ | ⟨_, heq⟩⟩ :=
      RowEngine.attempt_cases (limit := limit) (composite := composite) hmay <;> rw [heq]
    · exact hnone harb
    · exact hnone harb
    · rw [RowEngine.startService_eq]
      refine ⟨_, congrArg (· ++ _) harb, fun v hv => ?_⟩
      rw [List.mem_singleton.mp hv, Service.due]
      split
      · next n h => split at h <;> cases h
      all_goals rfl

theorem RowEngine.attempts_add (limit : Nat) (composite : RowNo → RowBits) (fuel : Nat) (r : RowEngine) :
    ∃ added, (r.attempts limit composite fuel).sense = r.sense ++ added ∧ ∀ v ∈ added, v.due = false := by
  have hnone : ∃ added, r.sense = r.sense ++ added ∧ ∀ v ∈ added, v.due = false :=
    ⟨[], (List.append_nil _).symm, List.forall_mem_nil _⟩
  induction fuel generalizing r with
  | zero => exact hnone
  | succ fuel ih =>
    rw [RowEngine.attempts]
    split
    · obtain ⟨added, hadded, hdue⟩ := r.attempt_adds limit composite
      obtain ⟨added', hadded', hdue'⟩ := ih (r.attempt limit composite)
        ⟨[], (List.append_nil _).symm, List.forall_mem_nil _⟩
      refine ⟨added ++ added', by rw [hadded', hadded, List.append_assoc], fun v hv => ?_⟩
      exact (List.mem_append.mp hv).elim (hdue v) (hdue' v)
    · exact hnone

/-- The end of the slot leaves what the sense completion asks for. -/
theorem State.endSlot_sense (s : State) :
    s.endSlot.row.sensed = s.row.sensed ∧ ∀ v, s.row.dueService = some v → s.endSlot.row.dueService = some v := by
  by_cases hrun : s.seq.state = .running
  · rw [State.endSlot_running hrun]
    refine ⟨RowEngine.sensed_attempts _ _ _, fun v hv => ?_⟩
    obtain ⟨added, hadded, _⟩ := s.row.attempts_add s.seq.panel.urgentLimit s.ren.composite
      (s.row.urgent.length + s.row.bulk.length + 1)
    rw [RowEngine.dueService] at hv ⊢
    rw [hadded, List.find?_append, hv, Option.some_or]
  · rw [State.endSlot_stopped hrun]
    exact ⟨rfl, fun _ hv => hv⟩

section
variable {s : State} {count : Fin 513}

/-- No sense is taken in a cycle that has had one, or with no service due. -/
theorem exec_sense_none (h : s.row.sensed = true ∨ s.row.dueService = none) : exec (.senseCompletion count) s = .next s := by
  show execSenseCompletion count s = _
  unfold execSenseCompletion
  rcases h with h | h
  · rw [if_pos h]
  · rw [h, ite_self]

/-- The sense of the service that is due, after the slot has ended. -/
theorem exec_sense_due {v : Service} (hs : s.row.sensed = false) (hv : s.row.dueService = some v) :
    exec (.senseCompletion count) s = .next
      (let u : State := { s.endSlot with row := { s.endSlot.row with sensed := true } }
      if s.seq.state = .running then
        if count.val = v.expected then { u with row := u.row.endService v }
        else if v.retries < s.seq.panel.retries then { u with row := u.row.refresh v }
        else u.rowFault v
      else { u with row := u.row.endService v }) := by
  show execSenseCompletion count s = _
  unfold execSenseCompletion
  rw [if_neg (by rw [hs]; exact Bool.false_ne_true), hv]
  dsimp only
  rw [State.endSlot_seq]
  split
  · next h => rw [if_pos h]
  all_goals
    next h => rw [if_neg (by rw [h]; decide)]

/-- The sense comes after the start attempts that the slot still has. -/
theorem exec_sense_endSlot {v : Service} (hs : s.row.sensed = false) (hv : s.row.dueService = some v) :
    exec (.senseCompletion count) s = exec (.senseCompletion count) s.endSlot := by
  obtain ⟨hsensed, hdue⟩ := s.endSlot_sense
  rw [exec_sense_due hs hv, exec_sense_due (s := s.endSlot) (hsensed.trans hs) (hdue v hv), State.endSlot_endSlot,
    State.endSlot_seq]

end

section
variable {r : RowEngine} {before behind : List Service} {v : Service}

theorem RowEngine.dueService_eq (h : r.sense = before ++ v :: behind) (hbefore : ∀ w ∈ before, w.due = false)
    (hv : v.due = true) : r.dueService = some v := by
  have hnone : before.find? Service.due = none :=
    List.find?_eq_none.mpr fun w hw hd => Bool.noConfusion ((hbefore w hw).symm.trans hd)
  rw [RowEngine.dueService, h, List.find?_append, hnone, Option.none_or, List.find?_cons_of_pos hv]

/-- In a sense queue that holds each row once, the other services are of other rows. -/
theorem Service.others_ne (hd : ((before ++ v :: behind).map Service.row).Nodup) :
    (∀ w ∈ before, w.row ≠ v.row) ∧ ∀ w ∈ behind, w.row ≠ v.row := by
  rw [List.map_append, List.map_cons, List.nodup_append, List.nodup_cons] at hd
  obtain ⟨_, ⟨hnot, _⟩, hdisjoint⟩ := hd
  refine ⟨fun w hw heq => ?_, fun w hw heq => hnot (heq ▸ List.mem_map_of_mem hw)⟩
  exact hdisjoint _ (List.mem_map_of_mem hw) _ List.mem_cons_self heq

theorem RowEngine.endService_eq (h : r.sense = before ++ v :: behind) (hd : (r.sense.map Service.row).Nodup) :
    r.endService v = { r with sense := before ++ behind, mirror := r.mirror.set v.row (some v.target) } := by
  rw [h] at hd
  obtain ⟨hbefore, hbehind⟩ := Service.others_ne hd
  have hkeep {l : List Service} (hl : ∀ w ∈ l, w.row ≠ v.row) : l.filter (fun w => w.row != v.row) = l :=
    List.filter_eq_self.mpr fun w hw => bne_iff_ne.mpr (hl w hw)
  rw [RowEngine.endService, h, List.filter_append, List.filter_cons_of_neg (by simp), hkeep hbefore, hkeep hbehind]

theorem RowEngine.refresh_eq (h : r.sense = before ++ v :: behind) (hd : (r.sense.map Service.row).Nodup) :
    r.refresh v = { r with
      sense := before ++ { v with retries := v.retries + 1, phase := .refreshing } :: behind
      retry := r.retry ++ refreshOps v.row v.target } := by
  rw [h] at hd
  obtain ⟨hbefore, hbehind⟩ := Service.others_ne hd
  have hkeep {f : Service → Service} {l : List Service} (hl : ∀ w ∈ l, w.row ≠ v.row) :
      l.map (fun w => if w.row == v.row then f w else w) = l :=
    (List.map_congr_left fun w hw => if_neg (by rw [beq_iff_eq]; exact hl w hw)).trans (List.map_id l)
  rw [RowEngine.refresh, RowEngine.updateService, h, List.map_append, List.map_cons, hkeep hbefore, hkeep hbehind,
    if_pos (beq_self_eq_true _)]

/-- A row offered to the fault row list (R86). -/
theorem RowEngine.offerFault_eq (y : RowNo) (r : RowEngine) :
    (y ∈ r.faults → r.offerFault y = (r, false)) ∧
      (y ∉ r.faults → r.faults.length < 8 → r.offerFault y = ({ r with faults := r.faults ++ [y] }, false)) ∧
      (y ∉ r.faults → 8 ≤ r.faults.length → r.offerFault y = (r, true)) := by
  unfold RowEngine.offerFault
  refine ⟨fun h => if_pos h, fun h hl => ?_, fun h hl => ?_⟩
  · rw [if_neg h]
    exact if_pos hl
  · rw [if_neg h]
    exact if_neg (Nat.not_lt.mpr hl)

end

theorem State.rowFault_eq {s : State} {v : Service} {r : RowEngine} {full : Bool}
    (h : (s.row.endService v).offerFault v.row = (r, full)) :
    s.rowFault v = ({ s with row := r }.latch .rowFault).latchIf full .faultListFull := by
  rw [State.rowFault, h]

/-- Settles O46: the service due, by `exec_sense_due` and what each outcome makes of its entry. -/
theorem senseCompletionDecidesTheService : Obligations.SenseCompletionDecidesTheService := by
  intro s count due
  have hdueNot {v : Service} (h : ¬ due v) : v.due = false := Bool.eq_false_of_not_eq_true (mt v.due_iff.mp h)
  refine ⟨fun h => ?_, fun hs ⟨v, hv, hdue⟩ => ?_, fun before v behind hsense hbefore hdue hs hdone honce => ?_⟩
  · refine exec_sense_none (h.imp_right fun hno => ?_)
    exact List.find?_eq_none.mpr fun v hv hd => Bool.noConfusion ((hdueNot (hno v hv)).symm.trans hd)
  · obtain ⟨w, hw⟩ := Option.isSome_iff_exists.mp (List.find?_isSome.mpr ⟨v, hv, v.due_iff.mpr hdue⟩)
    exact exec_sense_endSlot hs hw
  · obtain ⟨_, hnodup⟩ := honce
    have hexec := exec_sense_due (count := count) hs (RowEngine.dueService_eq hsense (fun w hw => hdueNot (hbefore w hw))
      (v.due_iff.mpr hdue))
    have hend := RowEngine.endService_eq (r := { s.row with sensed := true }) hsense hnodup
    have hrefresh := RowEngine.refresh_eq (r := { s.row with sensed := true }) hsense hnodup
    rw [State.endSlot_of_done hdone] at hexec
    dsimp only at hexec
    intro ended
    refine ⟨fun h => ?_, fun hrun hne hretries => ?_, fun hrun hne hretries => ?_⟩
    · rw [hexec, hend]
      by_cases hrun : s.seq.state = .running
      · rw [if_pos hrun, if_pos (h.resolve_left (not_not_intro hrun))]
      · rw [if_neg hrun]
    · rw [hexec, if_pos hrun, if_neg hne, if_pos hretries, hrefresh]
      rfl
    · rw [hexec, if_pos hrun, if_neg hne, if_neg (Nat.not_lt.mpr hretries)]
      obtain ⟨hin, hroom, hfull⟩ := ended.offerFault_eq v.row
      have hrow {q : RowEngine} {full : Bool} (h : ended.offerFault v.row = (q, full)) :=
        State.rowFault_eq (s := { s with row := { s.row with sensed := true } }) (v := v)
          ((congrArg (fun q : RowEngine => q.offerFault v.row) hend).trans h)
      refine ⟨fun h => ?_, fun h hl => ?_, fun h hl => ?_⟩
      · rw [hrow (hin h)]
        rfl
      · rw [hrow (hroom h hl)]
        rfl
      · rw [hrow (hfull h hl)]
        rfl

end Sys2Proof.Machine
end

