-- ==== Sys2Proof/Proofs/Pieces.lean ====
section
/-! How a piece of work is taken, goes on and ends, and the notices held for its end (R24, R55; logs 1, 4, 5 and 18). -/

namespace Sys2Proof.Machine

/-! ### Notices and the engine's own notes -/

/-- The state with the engine's notes of a piece of work: in progress or not, and the notices held for its end. -/
def State.noted (busy : Bool) (notices : List Notice) (s : State) : State :=
  { s with ren := { s.ren with busy := busy, notices := notices } }

theorem State.noted_self (s : State) : s.noted s.ren.busy s.ren.notices = s := rfl

theorem State.cadenceAtSlot_noted (busy : Bool) (notices : List Notice) (s : State) (k : Fin 4) :
    (s.noted busy notices).cadenceAtSlot k = (s.cadenceAtSlot k).noted busy notices := by
  rw [State.cadenceAtSlot_eq, State.cadenceAtSlot_eq]
  rfl

theorem Render.setWeights_noted (busy : Bool) (notices : List Notice) (w : Weights) (r : Render) :
    Render.setWeights w { r with busy := busy, notices := notices } =
      { r.setWeights w with busy := busy, notices := notices } := by
  by_cases h : w = r.weights
  · have hnoted : Render.setWeights w { r with busy := busy, notices := notices } =
        { r with busy := busy, notices := notices } := if_pos h
    have hplain : r.setWeights w = r := if_pos h
    rw [hnoted, hplain]
  · have hnoted : Render.setWeights w { r with busy := busy, notices := notices } =
        { r with busy := busy, notices := notices, weights := w, slots := r.slots.map Slot.zeroError } := if_neg h
    have hplain : r.setWeights w = { r with weights := w, slots := r.slots.map Slot.zeroError } := if_neg h
    rw [hnoted, hplain]

/-- A notice neither reads nor writes the engine's notes. -/
theorem State.applyNotice_noted (busy : Bool) (notices : List Notice) (s : State) (n : Notice) :
    (s.noted busy notices).applyNotice n = (s.applyNotice n).noted busy notices := by
  cases n with
  | cadence =>
    show State.cadenceAtContexts _ = State.noted busy notices (State.cadenceAtContexts _)
    unfold State.cadenceAtContexts
    generalize List.finRange 4 = ks
    induction ks generalizing s with
    | nil => rfl
    | cons k ks ih => rw [List.foldl_cons, List.foldl_cons, State.cadenceAtSlot_noted, ih]
  | factory =>
    show ({ s.noted busy notices with ren := (s.noted busy notices).ren.factoryHalftone } : State) =
      State.noted busy notices { s with ren := s.ren.factoryHalftone }
    rw [Render.factoryHalftone, Render.factoryHalftone]
    refine (congrArg (fun r : Render => ({ s with ren := r } : State)) ?_).trans rfl
    exact Render.setWeights_noted busy notices _ { s.ren with transfer := factoryTransfer, threshold := factoryThreshold }

theorem State.applyNotices_noted (busy : Bool) (notices : List Notice) (ns : List Notice) (s : State) :
    ns.foldl State.applyNotice (s.noted busy notices) = (ns.foldl State.applyNotice s).noted busy notices := by
  induction ns generalizing s with
  | nil => rfl
  | cons n ns ih => rw [List.foldl_cons, List.foldl_cons, State.applyNotice_noted, ih]

/-- A piece of work ends: what it has still to do, then its notices, and the engine is at rest. -/
theorem State.endPiece_eq (s : State) :
    s.endPiece = (s.ren.notices.foldl State.applyNotice s.perform).noted false [] := by
  rw [State.endPiece, State.perform_notices, ← State.applyNotices_noted]
  rfl

theorem State.atRest_endPiece (s : State) : s.endPiece.ren.AtRest := by
  rw [State.endPiece_eq]
  refine ⟨rfl, ?_, rfl⟩
  show (s.ren.notices.foldl State.applyNotice s.perform).ren.stages = []
  refine List.foldlRecOn s.ren.notices _ (motive := fun t : State => t.ren.stages = []) s.perform_stages fun t ht n _ => ?_
  exact (t.applyNotice_stages n).1.trans ht

theorem State.endPiece_endPiece (s : State) : s.endPiece.endPiece = s.endPiece := State.endPiece_atRest s.atRest_endPiece

/-! ### Commands that take a piece of work -/

/-- A command that takes a piece of work from the state in which the piece before it has ended, if it takes one. -/
def TakesPiece (run : State → State) : Prop :=
  ∀ s, (run s = s ∧ run s.endPiece = s.endPiece) ∨ (run s = run s.endPiece ∧ (run s.endPiece).ren.busy = true)

theorem TakesPiece.outcomes {run : State → State} (h : TakesPiece run) (s : State) :
    (Host.Outcome.next (run s.endPiece) ≠ (.next s.endPiece : Host.Outcome State Fault Refusal) → run s = run s.endPiece) ∧
      (Host.Outcome.next (run s.endPiece) = (.next s.endPiece : Host.Outcome State Fault Refusal) → run s = s) := by
  obtain ⟨hbusy, _⟩ := s.atRest_endPiece
  rcases h s with ⟨hs, he⟩ | ⟨hs, hb⟩
  · exact ⟨fun hne => absurd (congrArg _ he) hne, fun _ => hs⟩
  · refine ⟨fun _ => hs, fun heq => ?_⟩
    have hsame : run s.endPiece = s.endPiece := by injection heq
    rw [hsame, hbusy] at hb
    exact absurd hb Bool.false_ne_true

theorem takesPiece_runItem {k : WorkKind} {work : WorkItem → State → State}
    (h : ∀ item s, (work item s).ren.busy = s.ren.busy) : TakesPiece (State.runItem k work) := by
  intro s
  have htake : s.endPiece.takeItem k = s.takeItem k := by
    rw [State.takeItem, State.takeItem, State.endPiece_endPiece]
  unfold State.runItem
  rw [htake]
  cases hitem : s.takeItem k with
  | none => exact .inl ⟨rfl, rfl⟩
  | some p =>
    obtain ⟨item, t⟩ := p
    refine .inr ⟨rfl, ?_⟩
    show (work item t).ren.busy = true
    rw [h]
    unfold State.takeItem at hitem
    dsimp only at hitem
    split at hitem
    · split at hitem
      · cases hitem
        rfl
      · cases hitem
    · cases hitem

/-- The works on images, and those that plan row writes, write nothing of the engine but contexts and stages. -/
theorem imagesOnly_work (item : WorkItem) (s : State) :
    s.ImagesOnly (imageOpenWork item s) ∧ s.ImagesOnly (imageStripeWork item s) ∧ s.ImagesOnly (imageCloseWork item s) ∧
      s.ImagesOnly (imageAbortWork item s) ∧ s.ImagesOnly (textWork item s) ∧ s.ImagesOnly (fillWork item s) := by
  refine ⟨?_, ?_, ?_, ?_, ?_, ?_⟩
  · unfold imageOpenWork
    split
    · exact s.imagesOnly_latch _
    · exact State.imagesOnly_openImage _ _ _
  · unfold imageStripeWork
    split
    · exact s.imagesOnly_latch _
    · split
      · exact State.imagesOnly_takeStripe _ _ _
      · exact s.imagesOnly_latch _
  · unfold imageCloseWork
    split
    · exact .refl s
    · split
      · exact State.imagesOnly_deferContexts (State.imagesOnly_closeSlot _) s
      · exact .refl s
  · unfold imageAbortWork
    split
    · exact .refl s
    · exact s.imagesOnly_freeSlot _
  · unfold textWork
    split
    · exact s.imagesOnly_latch _
    · dsimp only
      split
      · exact s.imagesOnly_latch _
      · exact (s.imagesOnly_latchIf _ _).trans ((State.imagesOnly_stage _ _).trans (State.imagesOnly_stage _ _))
  · unfold fillWork
    split
    · exact s.imagesOnly_stage _
    · exact s.imagesOnly_latch _

/-- The works that write a table or a window leave the engine busy as it was. -/
theorem busy_work (item : WorkItem) (s : State) :
    (windowSetWork item s).ren.busy = s.ren.busy ∧ (eraseAllWork item s).ren.busy = s.ren.busy ∧
      (transferWork item s).ren.busy = s.ren.busy ∧ (thresholdWork item s).ren.busy = s.ren.busy ∧
      (weightsWork item s).ren.busy = s.ren.busy ∧ (glyphsWork item s).ren.busy = s.ren.busy := by
  have hload {range : LoadRange} {write : List (Nat × List Byte) → State → State}
      (h : ∀ entries u, (write entries u).ren.busy = u.ren.busy) : (s.applyLoad range write).ren.busy = s.ren.busy := by
    unfold State.applyLoad
    dsimp only
    split
    · rw [h, State.latchIf_ren]
    · rw [State.latch_ren, State.latchIf_ren]
  refine ⟨?_, rfl, hload fun _ _ => rfl, hload fun _ _ => rfl, hload fun _ _ => ?_, hload fun _ _ => rfl⟩
  · unfold windowSetWork
    split
    · rfl
    · unfold State.setWindow
      split <;> rfl
  · dsimp only
    rw [Render.setWeights_eq]

theorem takesPiece_echoRequest : TakesPiece fun s =>
    match s.endPiece.ren.echoes with
    | e :: rest =>
      State.rowWrites .urgent (echoWrites s.endPiece.ren e)
        { s.endPiece with ren := { s.endPiece.ren with echoes := rest, busy := true } }
    | [] => s := by
  intro s
  dsimp only
  rw [State.endPiece_endPiece]
  split
  · exact .inr ⟨rfl, rfl⟩
  · exact .inl ⟨rfl, rfl⟩

theorem takesPiece_readyStripe : TakesPiece fun s =>
    match s.endPiece.ren.echoes, s.endPiece.ren.ready with
    | [], some h => State.renderReady h { s.endPiece with ren := { s.endPiece.ren with ready := none, busy := true } }
    | _, _ => s := by
  intro s
  dsimp only
  rw [State.endPiece_endPiece]
  split
  · exact .inr ⟨rfl, (State.imagesOnly_renderReady _ _).busy⟩
  · exact .inl ⟨rfl, rfl⟩

/-- Each command that takes a piece of work. -/
theorem exists_takesPiece {i : Instr}
    (h : i ∈ [Instr.imageOpen, .imageStripe, .readyStripe, .imageClose, .imageAbort, .text, .fill, .windowSet, .eraseAll,
      .echoRequest, .transferLoad, .thresholdLoad, .weightsLoad, .glyphsLoad]) :
    ∃ run, (∀ s, exec i s = .next (run s)) ∧ TakesPiece run := by
  simp only [List.mem_cons, List.not_mem_nil, or_false] at h
  rcases h with rfl | rfl | rfl | rfl | rfl | rfl | rfl | rfl | rfl | rfl | rfl | rfl | rfl | rfl
  · refine ⟨_, fun _ => rfl, takesPiece_runItem fun item s => ?_⟩
    obtain ⟨hopen, _⟩ := imagesOnly_work item s
    exact hopen.busy
  · refine ⟨_, fun _ => rfl, takesPiece_runItem fun item s => ?_⟩
    obtain ⟨_, hstripe, _⟩ := imagesOnly_work item s
    exact hstripe.busy
  · exact ⟨_, fun _ => rfl, takesPiece_readyStripe⟩
  · refine ⟨_, fun _ => rfl, takesPiece_runItem fun item s => ?_⟩
    obtain ⟨_, _, hclose, _⟩ := imagesOnly_work item s
    exact hclose.busy
  · refine ⟨_, fun _ => rfl, takesPiece_runItem fun item s => ?_⟩
    obtain ⟨_, _, _, habort, _⟩ := imagesOnly_work item s
    exact habort.busy
  · refine ⟨_, fun _ => rfl, takesPiece_runItem fun item s => ?_⟩
    obtain ⟨_, _, _, _, htext, _⟩ := imagesOnly_work item s
    exact htext.busy
  · refine ⟨_, fun _ => rfl, takesPiece_runItem fun item s => ?_⟩
    obtain ⟨_, _, _, _, _, hfill⟩ := imagesOnly_work item s
    exact hfill.busy
  · refine ⟨_, fun _ => rfl, takesPiece_runItem fun item s => ?_⟩
    obtain ⟨hwindow, _⟩ := busy_work item s
    exact hwindow
  · exact ⟨_, fun _ => rfl, takesPiece_runItem fun _ _ => rfl⟩
  · exact ⟨_, fun _ => rfl, takesPiece_echoRequest⟩
  · refine ⟨_, fun _ => rfl, takesPiece_runItem fun item s => ?_⟩
    obtain ⟨_, _, htransfer, _⟩ := busy_work item s
    exact htransfer
  · refine ⟨_, fun _ => rfl, takesPiece_runItem fun item s => ?_⟩
    obtain ⟨_, _, _, hthreshold, _⟩ := busy_work item s
    exact hthreshold
  · refine ⟨_, fun _ => rfl, takesPiece_runItem fun item s => ?_⟩
    obtain ⟨_, _, _, _, hweights, _⟩ := busy_work item s
    exact hweights
  · refine ⟨_, fun _ => rfl, takesPiece_runItem fun item s => ?_⟩
    obtain ⟨_, _, _, _, _, hglyphs⟩ := busy_work item s
    exact hglyphs

/-! ### A piece of work goes on, and ends -/

section
variable {s : State}

/-- What is left of a piece of work, and what its end comes to, do not change as it goes on. -/
theorem State.continuePiece_same (h : s.ren.stages ≠ []) :
    s.continuePiece.perform = s.perform ∧ s.continuePiece.endPiece = s.endPiece := by
  obtain ⟨g, rest, hg⟩ := List.exists_cons_of_ne_nil h
  have hperform : s.continuePiece.perform = s.perform := by
    rw [State.continuePiece_cons hg]
    exact State.perform_next hg
  have hnotices : s.continuePiece.ren.notices = s.ren.notices := by
    rw [State.continuePiece_cons hg, State.performStage_notices]
  refine ⟨hperform, ?_⟩
  rw [State.endPiece_eq, State.endPiece_eq, hperform, hnotices]

theorem State.endPiece_done (hg : s.ren.stages = []) (hn : s.ren.notices = []) :
    s.endPiece = { s with ren := { s.ren with busy := false } } := by
  rw [State.endPiece_eq, State.perform_nil hg, hn]
  dsimp only [State.noted, List.foldl_nil]
  rw [← hn]

/-- A notice that is not the one held first does nothing. -/
theorem State.applyHeld_other {n : Notice} (h : s.ren.notices.head? ≠ some n) : s.applyHeld n = s := by
  unfold State.applyHeld
  split
  · next m rest hn => rw [if_neg fun hm => h (by rw [hn, hm]; rfl)]
  · rfl

/-- The notice held first, applied when what the piece of work has still to do is done. -/
theorem State.applyHeld_first {n : Notice} {rest : List Notice} (h : s.ren.notices = n :: rest) :
    s.applyHeld n = (s.perform.applyNotice n).noted (!rest.isEmpty) rest := by
  rw [State.applyHeld, h]
  dsimp only
  rw [if_pos rfl, ← State.applyNotice_noted]
  rfl

/-- A piece of work that ends with the notice held first ends as one with the others. -/
theorem State.endPiece_first {n : Notice} {rest : List Notice} (hg : s.ren.stages = []) (h : s.ren.notices = n :: rest) :
    s.endPiece = (s.applyHeld n).endPiece := by
  have hstages : (s.applyHeld n).ren.stages = [] := by
    rw [State.applyHeld_first h, State.perform_nil hg]
    exact (s.applyNotice_stages n).1.trans hg
  rw [State.endPiece_eq, State.endPiece_eq, State.perform_nil hg, State.perform_nil hstages, State.applyHeld_first h,
    State.perform_nil hg, h, List.foldl_cons]
  show _ = (rest.foldl State.applyNotice (State.noted (!rest.isEmpty) rest (s.applyNotice n))).noted false []
  rw [State.applyNotices_noted]
  rfl

/-- A CADENCE notice applied between pieces of work (R36, R37). -/
theorem State.applyHeld_cadence {rest : List Notice} (h : s.ren.notices = .cadence :: rest) :
    let u := s.perform
    ∃ t r, exec .applyHeldCadenceNotice s = .next t ∧ u.ren.CadenceApplied r ∧
      t = { u with ren := { r with notices := rest, busy := !rest.isEmpty }, ev := t.ev } ∧
      EventUnit.OccurredIf u.ren.CadenceLosesImage .imageIncomplete u.ev t.ev := by
  intro u
  obtain ⟨hframe, happlied, hlost⟩ := u.cadenceApplied_cadenceAtContexts
  have hexec : exec .applyHeldCadenceNotice s = .next (u.cadenceAtContexts.noted (!rest.isEmpty) rest) :=
    congrArg Host.Outcome.next (State.applyHeld_first h)
  generalize u.cadenceAtContexts = v at hexec hframe happlied hlost
  refine ⟨_, v.ren, hexec, happlied, ?_, hlost⟩
  rw [hframe]
  rfl

/-- A STORE-FACTORY notice applied between pieces of work (R55). -/
theorem State.applyHeld_factory {rest : List Notice} (h : s.ren.notices = .factory :: rest) :
    let u := s.perform
    ∃ t, exec .factoryHalftoneNotice s = .next t ∧
      t = { u with ren := { u.ren with
        transfer := factoryTransfer, threshold := factoryThreshold, weights := factoryWeights
        slots := t.ren.slots, notices := rest, busy := !rest.isEmpty } } ∧
      ∀ k : Fin 4, t.ren.slots[k] =
        if u.ren.weights ≠ factoryWeights ∧ u.ren.slots[k].state ≠ .free ∧ u.ren.slots[k].params.method = .diffusion then
          { u.ren.slots[k] with err := Vector.replicate 512 0 }
        else u.ren.slots[k] := by
  intro u
  have hexec : exec .factoryHalftoneNotice s =
      .next (State.noted (!rest.isEmpty) rest { u with ren := u.ren.factoryHalftone }) :=
    congrArg Host.Outcome.next (State.applyHeld_first h)
  have hren := u.ren.factoryHalftone_eq
  have hslot := u.ren.factoryHalftone_slot
  generalize u.ren.factoryHalftone = r at hexec hren hslot
  refine ⟨_, hexec, ?_, hslot⟩
  rw [hren]
  rfl

end

/-- Settles O42: how a piece of work is taken by `TakesPiece.outcomes`, how it goes on and ends by the laws above. -/
theorem heldNoticesAppliedInTurn : Obligations.HeldNoticesAppliedInTurn := by
  refine ⟨fun s i hi => ?_, fun s => ?_, fun s => ⟨fun h => ?_, fun h => ?_, fun rest => ⟨State.applyHeld_cadence, State.applyHeld_factory⟩⟩⟩
  · obtain ⟨run, hrun, htakes⟩ := exists_takesPiece hi
    obtain ⟨htaken, hnone⟩ := htakes.outcomes s
    rw [hrun, hrun]
    exact ⟨s.atRest_endPiece, fun h => congrArg _ (htaken h), fun h => congrArg _ (hnone h)⟩
  · intro left
    refine ⟨fun hp ha => ?_, fun c w rest h => ⟨fun hsame => ?_, fun hchange => ?_⟩, fun x rest h => State.continuePiece_cons h,
      fun rest h => State.continuePiece_cons h, State.continuePiece_same, fun h => ?_, State.endPiece_done,
      fun t rest hg h ht => ?_, fun t rest hg h ht => ?_⟩
    · rw [step_idle hp, State.idle_closed ha]
    · rw [State.continuePiece_cons h]
      exact State.rowWrite_same (s := left rest) (hsame : w.op.apply ((left rest).ren.planeRow w.plane w.row) = _)
    · rw [State.continuePiece_cons h]
      exact State.rowWrite_change (s := left rest) hchange
    · rw [State.continuePiece, h]
    · rw [State.endPiece_first hg h]
      injection ht with ht
      rw [ht]
    · rw [State.endPiece_first hg h]
      injection ht with ht
      rw [ht]
  · exact congrArg Host.Outcome.next (State.applyHeld_other h)
  · exact congrArg Host.Outcome.next (State.applyHeld_other h)

end Sys2Proof.Machine
end

