-- ==== Sys2Proof/Proofs/RenderLoads.lean ====
section
/-! The table loads of the render path (R46, R52, R54, R57, R166): TRANSFER, THRESHOLD, WEIGHTS and GLYPHS. -/

namespace Sys2Proof.Machine

/-! ### Entries -/

/-- A byte of entry n, in the load's own bytes. -/
theorem byteAt_entryBytes {size k : Nat} (hk : k < size) (first n : Nat) (bytes : List Byte) :
    byteAt (entryBytes size first n bytes) k = byteAt bytes (size * (n - first) + k) := by
  rw [byteAt, byteAt, entryBytes, List.getD_eq_getElem?_getD, List.getD_eq_getElem?_getD, List.getElem?_take_of_lt hk,
    List.getElem?_drop]

/-- The one byte of entry n. -/
theorem byteAt_entryBytes_one (first n : Nat) (bytes : List Byte) :
    byteAt (entryBytes 1 first n bytes) 0 = byteAt bytes (n - first) := by
  rw [byteAt_entryBytes Nat.one_pos, Nat.one_mul, Nat.add_zero]

theorem thresholdOfByte_toNat (b : Byte) : (thresholdOfByte b).toNat = min b.toNat 254 := by
  unfold thresholdOfByte
  by_cases h : b = 255
  · rw [if_pos h, h]
    rfl
  · have hne : b.toNat ≠ 255 := fun hb => h (BitVec.eq_of_toNat_eq hb)
    rw [if_neg h]
    omega

/-- The entries written through an entry rule, each from its own byte. -/
theorem getElem_writeBytes {k : Nat} (rule : Byte → Byte) (count first : Nat) (bytes : List Byte) (t : Vector Byte k)
    (n : Fin k) :
    (writeBytes rule (entriesFrom 1 count first bytes) t)[n] =
      if first ≤ n.val ∧ n.val < first + count then rule (byteAt bytes (n.val - first)) else t[n] := by
  refine (getElem_writeEntries (fun b => rule (byteAt b 0)) 1 count first bytes t n).trans ?_
  rw [byteAt_entryBytes_one]

/-! ### Weights (R46) -/

/-- A weight after the entries of a load: stored from its byte, above 16 as 16. -/
def storedWeight (count first : Nat) (bytes : List Byte) (n was : Nat) : Nat :=
  if first ≤ n ∧ n < first + count then min (byteAt bytes (n - first)).toNat 16 else was

/-- An entry of WEIGHTS leaves the fields of the others. -/
theorem Weights.write_other (w : Weights) (m v : Nat) :
    (m ≠ 0 → (w.write m v).wR = w.wR) ∧ (m ≠ 1 → (w.write m v).wBL = w.wBL) ∧
      (m ≠ 2 → (w.write m v).wB = w.wB) ∧ (m ≠ 3 → (w.write m v).wBR = w.wBR) := by
  match m with
  | 0 | 1 | 2 | 3 | _ + 4 => simp [Weights.write]

/-- The weights after the entries of a load, before their sum is reduced (R46, step 1). -/
def Weights.stored (w : Weights) (count first : Nat) (bytes : List Byte) : Weights :=
  (entriesFrom 1 count first bytes).foldl (fun w e => w.write e.1 (byteAt e.2 0).toNat) w

/-- A weight after the entries of a load: its entry's value, or as it was. -/
theorem Weights.stored_field {get : Weights → Nat} {n : Nat} (same : ∀ w v, get (Weights.write w n v) = min v 16)
    (other : ∀ w m v, m ≠ n → get (Weights.write w m v) = get w) (w : Weights) (count first : Nat) (bytes : List Byte) :
    get (w.stored count first bytes) = storedWeight count first bytes n (get w) := by
  refine (foldl_entriesFrom (upd := fun bytes _ => min (byteAt bytes 0).toNat 16)
    (fun w bytes => same w (byteAt bytes 0).toNat) (fun w m bytes hm => other w m (byteAt bytes 0).toNat hm)
    1 count first bytes w).trans ?_
  rw [byteAt_entryBytes_one]
  rfl

theorem Weights.stored_eq (w : Weights) (count first : Nat) (bytes : List Byte) :
    w.stored count first bytes =
      { wR := storedWeight count first bytes 0 w.wR, wBL := storedWeight count first bytes 1 w.wBL
        wB := storedWeight count first bytes 2 w.wB, wBR := storedWeight count first bytes 3 w.wBR } := by
  have hR := w.stored_field (get := Weights.wR) (n := 0) (fun _ _ => rfl) (fun w m v => (w.write_other m v).1)
    count first bytes
  have hBL := w.stored_field (get := Weights.wBL) (n := 1) (fun _ _ => rfl) (fun w m v => (w.write_other m v).2.1)
    count first bytes
  have hB := w.stored_field (get := Weights.wB) (n := 2) (fun _ _ => rfl) (fun w m v => (w.write_other m v).2.2.1)
    count first bytes
  have hBR := w.stored_field (get := Weights.wBR) (n := 3) (fun _ _ => rfl) (fun w m v => (w.write_other m v).2.2.2)
    count first bytes
  rw [← hR, ← hBL, ← hB, ← hBR]

/-- What the excess leaves: a sum of 16 at most. -/
theorem Weights.sum_reduce (w : Weights) : w.reduce.sum ≤ 16 := by
  unfold Weights.reduce Weights.sum
  dsimp only
  omega

theorem Weights.reduce_of_sum {w : Weights} (h : w.sum ≤ 16) : w.reduce = w := by
  have h0 : w.sum - 16 = 0 := Nat.sub_eq_zero_of_le h
  unfold Weights.reduce
  dsimp only
  simp only [h0, Nat.zero_sub, Nat.sub_zero]

/-- The slots after a change of weights (R54). -/
theorem Render.setWeights_slot (w : Weights) (r : Render) (k : Fin 4) :
    (r.setWeights w).slots[k] =
      if w ≠ r.weights ∧ r.slots[k].state ≠ .free ∧ r.slots[k].params.method = .diffusion then
        { r.slots[k] with err := Vector.replicate 512 0 }
      else r.slots[k] := by
  by_cases hw : w = r.weights
  · rw [Render.setWeights, if_pos hw, if_neg fun h => h.1 hw]
  · have hmap : (r.slots.map Slot.zeroError)[k] = r.slots[k].zeroError := Vector.getElem_map ..
    rw [Render.setWeights, if_neg hw]
    dsimp only
    rw [hmap, Slot.zeroError]
    refine if_congr ?_ rfl rfl
    rw [Bool.and_eq_true, bne_iff_ne, beq_iff_eq, and_iff_right hw]

/-! ### The four loads -/

/-- What each of the four works is: a load judged by R166, which writes nothing where it has no entry; for WEIGHTS, where
their sum is in range. -/
theorem loadWork_eq {load : Instr} {kind : WorkKind} {stop size : Nat}
    (h : (load, kind, stop, size) ∈
      [(Instr.transferLoad, WorkKind.transferLoad, 64, 1), (.thresholdLoad, .thresholdLoad, 64, 1),
        (.weightsLoad, .weightsLoad, 4, 1), (.glyphsLoad, .glyphsLoad, 512, 16)]) :
    ∃ write : List (Nat × List Byte) → State → State,
      (∀ s, exec load s = .next (s.runItem kind fun item s => s.applyLoad (judgeLoad stop size item.body) write)) ∧
      ∀ s, (kind = .weightsLoad → s.ren.weights.sum ≤ 16) → write [] s = s := by
  simp only [List.mem_cons, List.not_mem_nil, or_false, Prod.mk.injEq] at h
  rcases h with ⟨rfl, rfl, rfl, rfl⟩ | ⟨rfl, rfl, rfl, rfl⟩ | ⟨rfl, rfl, rfl, rfl⟩ | ⟨rfl, rfl, rfl, rfl⟩
  · exact ⟨_, fun _ => rfl, fun _ _ => rfl⟩
  · exact ⟨_, fun _ => rfl, fun _ _ => rfl⟩
  · refine ⟨_, fun _ => rfl, fun s hs => ?_⟩
    have hload : s.ren.weights.load [] = s.ren.weights := Weights.reduce_of_sum (hs rfl)
    rw [hload, Render.setWeights, if_pos rfl]
  · exact ⟨_, fun _ => rfl, fun _ _ => rfl⟩

section
variable {s : State} {item : WorkItem} {rest : List WorkItem} {id count : Byte} {first : BitVec 16} {bytes : List Byte}
  {load : Instr} {stop size : Nat} {write : List (Nat × List Byte) → State → State}

/-- A load that the engine takes is judged in the state in which it executes. -/
theorem exec_taken_load {kind : WorkKind}
    (hexec : ∀ s, exec load s = .next (s.runItem kind fun item s => s.applyLoad (judgeLoad stop size item.body) write))
    (ho : s.ren.Offers item rest) (hk : item.kind = kind) (hb : item.body = id :: loadRest first count bytes) :
    exec load s = .next ((s.took rest).applyLoad (judgeLoad stop size (id :: loadRest first count bytes)) write) := by
  rw [hexec, State.runItem_offers ho hk, hb]

/-- The engine that has such a load cut to the entries below the table end as its next piece of work. -/
theorem Render.offers_cut (ho : s.ren.Offers item rest) (e : EdgeEvent) (body : List Byte) :
    Render.Offers ({ s.latch e with ren := { s.ren with queue := { item with body := body } :: rest } } : State).ren
      { item with body := body } rest := by
  obtain ⟨⟨hbusy, hstages, hnotices⟩, hechoes, hready, _⟩ := ho
  exact ⟨⟨hbusy, hstages, hnotices⟩, hechoes, hready, rfl⟩

end

/-- Settles O36: the range in the table by the entries of each load, and the judgement of the range as in O16. -/
theorem renderPathLoadsWriteTheirTables : Obligations.RenderPathLoadsWriteTheirTables := by
  intro s item rest id first count bytes ho hb
  refine ⟨fun hk hr hc => ?_, fun hk hr hc => ?_, fun hk hr hc => ?_, fun hk hr hc => ?_, fun load stop size hmem => ?_⟩
  · have hexec : exec .transferLoad s = .next _ := congrArg Host.Outcome.next (State.runItem_offers ho hk)
    rw [transferWork, hb, State.applyLoad_within hr (by omega)] at hexec
    refine ⟨_, hexec, rfl, fun n => ⟨fun hin => ?_, fun hout => ?_⟩⟩
    · exact (getElem_writeBytes _ _ _ _ _ n).trans (if_pos hin)
    · exact (getElem_writeBytes _ _ _ _ _ n).trans (if_neg hout)
  · have hexec : exec .thresholdLoad s = .next _ := congrArg Host.Outcome.next (State.runItem_offers ho hk)
    rw [thresholdWork, hb, State.applyLoad_within hr (by omega)] at hexec
    refine ⟨_, hexec, rfl, fun n => ⟨fun hin => ?_, fun hout => ?_⟩⟩
    · rw [← thresholdOfByte_toNat]
      exact congrArg BitVec.toNat ((getElem_writeBytes _ _ _ _ _ n).trans (if_pos hin))
    · exact (getElem_writeBytes _ _ _ _ _ n).trans (if_neg hout)
  · have hexec : exec .glyphsLoad s = .next _ := congrArg Host.Outcome.next (State.runItem_offers ho hk)
    rw [glyphsWork, hb, State.applyLoad_within hr hc] at hexec
    refine ⟨_, hexec, rfl, fun n => ⟨fun hin => ?_, fun hout => ?_⟩⟩
    · have hglyph := (getElem_writeEntries glyphOfBytes 16 count.toNat first.toNat bytes s.ren.glyphs n).trans (if_pos hin)
      refine ⟨congrArg Glyph.loaded hglyph, fun k => ?_⟩
      refine (congrArg (fun g : Glyph => g.rows[k]) hglyph).trans ?_
      exact (getElem_tabulate _ k.val k.isLt).trans (byteAt_entryBytes k.isLt _ _ _)
    · exact (getElem_writeEntries _ _ _ _ _ _ n).trans (if_neg hout)
  · have hexec : exec .weightsLoad s = .next _ := congrArg Host.Outcome.next (State.runItem_offers ho hk)
    rw [weightsWork, hb, State.applyLoad_within hr (by omega)] at hexec
    generalize hw : (s.took rest).ren.weights.load (entriesFrom 1 count.toNat first.toNat bytes) = w at hexec
    have hstored : w = (s.ren.weights.stored count.toNat first.toNat bytes).reduce := hw.symm
    have hren : ((s.took rest).ren.setWeights w).weights = w := by rw [Render.setWeights_eq]
    refine ⟨_, hexec, ?_, ?_, ?_, fun k => ?_⟩
    · rw [Render.setWeights_eq]
    · refine hren.trans (hstored.trans ?_)
      rw [Weights.stored_eq]
      rfl
    · refine (congrArg Weights.sum hren).trans_le ?_
      rw [hstored]
      exact Weights.sum_reduce _
    · refine (Render.setWeights_slot w (s.took rest).ren k).trans ?_
      rw [hren]
      rfl
  · obtain ⟨write, hexec, hnone⟩ := loadWork_eq hmem
    have hload := exec_taken_load hexec ho rfl hb
    refine ⟨fun hshort => ?_, fun hsum hout => ?_, fun below hstop hlt hpos hcarried => ?_⟩
    · rw [hload, State.applyLoad_refused hshort]
    · rw [hload, State.applyLoad_beyond hout, hnone]
      intro hk
      rw [State.latchIf_ren]
      exact hsum hk
    · rw [hload, State.applyLoad_cut hstop hlt hcarried]
      exact (exec_taken_load hexec (Render.offers_cut ho .tableClipped (id :: loadRest first below bytes)) rfl rfl).symm

end Sys2Proof.Machine
end

