-- ==== Sys2Proof/Proofs/ImageSlots.lean ====
section
/-! Image contexts (R25 to R28, R32, R34): which slot an image has or takes, and the stripes that are not drawn at once. -/

namespace Sys2Proof.Machine

/-! ### The slot of an image -/

section
variable {r : Render} {n : Byte} {k : Fin 4}

/-- The one slot that is not FREE and holds the image is found. -/
theorem Render.findImage_eq_some (hs : r.slots[k].state ≠ .free) (hn : r.slots[k].image = n)
    (honly : ∀ j : Fin 4, r.slots[j].state ≠ .free → r.slots[j].image = n → j = k) : r.findImage n = some k := by
  cases hfind : r.findImage n with
  | none =>
    rcases Render.findImage_none hfind k with h | h
    · exact absurd h hs
    · exact absurd hn h
  | some j =>
    obtain ⟨hj, hi⟩ := Render.findImage_some hfind
    rw [honly j hj hi]

theorem Render.findImage_eq_none (h : ∀ j : Fin 4, r.slots[j].state ≠ .free → r.slots[j].image ≠ n) :
    r.findImage n = none := by
  cases hfind : r.findImage n with
  | none => rfl
  | some j =>
    obtain ⟨hj, hi⟩ := Render.findImage_some hfind
    exact absurd hi (h j hj)

/-- The first of the greatest values along an ascending list. -/
theorem foldl_greatest {m : Nat} (f : Fin m → Nat) (b : Fin m) (l : List (Fin m)) (h : (b :: l).Pairwise (· < ·)) :
    let g := l.foldl (fun best k => if f best < f k then k else best) b
    g ∈ b :: l ∧ ∀ j ∈ b :: l, f j ≤ f g ∧ (f j = f g → g ≤ j) := by
  induction l generalizing b with
  | nil => simp
  | cons c l ih =>
    obtain ⟨hb, hcl⟩ := List.pairwise_cons.mp h
    obtain ⟨hc, hl⟩ := List.pairwise_cons.mp hcl
    have hbc : b < c := hb c List.mem_cons_self
    rw [List.foldl_cons]
    by_cases hlt : f b < f c
    · rw [if_pos hlt]
      obtain ⟨hmem, hbest⟩ := ih c hcl
      refine ⟨List.mem_cons_of_mem _ hmem, fun j hj => ?_⟩
      rcases List.mem_cons.mp hj with rfl | hj
      · obtain ⟨hle, _⟩ := hbest c List.mem_cons_self
        exact ⟨by omega, fun heq => by omega⟩
      · exact hbest j hj
    · rw [if_neg hlt]
      have hbl : (b :: l).Pairwise (· < ·) := List.pairwise_cons.mpr ⟨fun j hj => hb j (List.mem_cons_of_mem _ hj), hl⟩
      obtain ⟨hmem, hbest⟩ := ih b hbl
      refine ⟨?_, fun j hj => ?_⟩
      · rcases List.mem_cons.mp hmem with h | h
        · rw [h]
          exact List.mem_cons_self
        · exact List.mem_cons_of_mem _ (List.mem_cons_of_mem _ h)
      · rcases List.mem_cons.mp hj with rfl | hj
        · exact hbest j List.mem_cons_self
        · rcases List.mem_cons.mp hj with rfl | hj
          · obtain ⟨hle, hlow⟩ := hbest b List.mem_cons_self
            exact ⟨by omega, fun heq => (hlow (by omega)).trans hbc.le⟩
          · exact hbest j (List.mem_cons_of_mem _ hj)

/-- The slot of greatest age, and of equal ages the lowest-numbered. -/
theorem Render.oldestSlot_eq {count : BitVec 16}
    (h : ∀ j : Fin 4, (count - r.slots[j].activity).toNat ≤ (count - r.slots[k].activity).toNat ∧
      ((count - r.slots[j].activity).toNat = (count - r.slots[k].activity).toNat → k ≤ j)) :
    r.oldestSlot count = k := by
  have hlist : r.oldestSlot count =
      [1, 2, 3].foldl (fun best k => if r.slots[best].age count < r.slots[k].age count then k else best) (0 : Fin 4) := by
    have hrange : List.finRange 4 = [0, 1, 2, 3] := rfl
    rw [Render.oldestSlot, hrange, List.foldl_cons, if_neg (Nat.lt_irrefl _)]
  obtain ⟨_, hbest⟩ := foldl_greatest (fun k => r.slots[k].age count) (0 : Fin 4) [1, 2, 3] (by decide)
  rw [← hlist] at hbest
  have hall : ∀ j : Fin 4, j ∈ [0, 1, 2, 3] := by decide
  obtain ⟨hle, hlow⟩ := hbest k (hall k)
  obtain ⟨hle', hlow'⟩ := h (r.oldestSlot count)
  have hage : (count - r.slots[k].activity).toNat = (count - r.slots[r.oldestSlot count].activity).toNat :=
    Nat.le_antisymm hle hle'
  exact le_antisymm (hlow hage) (hlow' hage.symm)

end

/-! ### IMAGE-OPEN (R25 to R27) -/

theorem window8_eq_none_iff (b : Byte) : window8 b = none ↔ 8 ≤ b.toNat := by
  unfold window8
  by_cases h : b.toNat < 8
  · rw [dif_pos h]
    simp only [reduceCtorEq, false_iff]
    omega
  · rw [dif_neg h]
    simp only [true_iff]
    omega

theorem window8_val {b : Byte} {w : Fin 8} (h : window8 b = some w) : w.val = b.toNat := by
  unfold window8 at h
  split at h
  · cases h
    rfl
  · cases h

theorem imageParamsOf_eq_none_iff (channel : Fin 64) (body : List Byte) :
    imageParamsOf channel body = none ↔
      8 ≤ (byteAt body 1).toNat ∨ (wordAt body 2).toNat = 0 ∨ (wordAt body 4).toNat = 0 := by
  unfold imageParamsOf
  cases hw : window8 (byteAt body 1) with
  | none => exact iff_of_true rfl (.inl ((window8_eq_none_iff _).mp hw))
  | some w =>
    have hlt : ¬ 8 ≤ (byteAt body 1).toNat := fun h => by
      rw [(window8_eq_none_iff _).mpr h] at hw
      cases hw
    dsimp only
    by_cases hzero : (wordAt body 2).toNat = 0 ∨ (wordAt body 4).toNat = 0
    · rw [if_pos hzero]
      exact iff_of_true rfl (.inr hzero)
    · rw [if_neg hzero]
      exact iff_of_false nofun (not_or.mpr ⟨hlt, hzero⟩)

/-- The clamped parameters (R25). -/
theorem imageParamsOf_fields {channel : Fin 64} {body : List Byte} {p : ImageParams}
    (h : imageParamsOf channel body = some p) :
    p.channel = channel ∧ p.window.val = (byteAt body 1).toNat ∧
      p.width = min (wordAt body 2).toNat 512 ∧ p.height = min (wordAt body 4).toNat 512 ∧
      p.scale = max 1 (min (byteAt body 6).toNat 4) ∧ p.x0 = min (wordAt body 7).toNat 511 ∧
      p.y0 = min (wordAt body 9).toNat 511 ∧
      p.method = (if byteAt body 11 = 1 then Method.diffusion else .threshold) ∧
      p.select.val = (byteAt body 12).toNat % 4 ∧ p.rows = max 1 (min (byteAt body 13).toNat 16) := by
  unfold imageParamsOf at h
  split at h
  · cases h
  · next w hw =>
    dsimp only at h
    split at h
    · cases h
    · cases h
      exact ⟨rfl, window8_val hw, rfl, rfl, rfl, rfl, rfl, rfl, rfl, rfl⟩

/-- The held stripes of an image dropped, by an engine with no ready stripe. -/
theorem Render.dropHeld_eq {r : Render} (h : r.ready = none) (n : Byte) :
    r.dropHeld n = { r with held := r.held.filter (fun g => decide (g.image ≠ n)) } := by
  have hkeeps : (fun g : HeldStripe => g.image != n) = fun g : HeldStripe => decide (g.image ≠ n) := by
    funext g
    rw [Bool.eq_iff_iff, bne_iff_ne, decide_eq_true_eq]
  have hnone : r.ready.filter (fun g => decide (g.image ≠ n)) = r.ready := by
    rw [h]
    rfl
  rw [Render.dropHeld, hkeeps, hnone]

/-- Settles O37: the slot found, the lowest FREE one or the oldest. -/
theorem imageOpenTakesItsSlot : Obligations.ImageOpenTakesItsSlot := by
  intro s item rest ho hk n count u
  obtain ⟨_, _, hready, _⟩ := id ho
  have hexec : exec .imageOpen s = .next (imageOpenWork item u) := congrArg Host.Outcome.next (State.runItem_offers ho hk)
  refine ⟨imageParamsOf_eq_none_iff _ _, fun hnone => ?_, fun p hp => ⟨imageParamsOf_fields hp, fun k hs hi honly => ?_, fun hno k => ?_⟩⟩
  · rw [hexec, imageOpenWork, hnone]
  · have hfind : u.ren.findImage (byteAt item.body 0) = some k := Render.findImage_eq_some (r := u.ren) hs hi honly
    rw [hexec, imageOpenWork, hp]
    dsimp only
    rw [State.openImage, hfind]
    dsimp only
    refine ⟨fun hsame => ?_, fun hother => ?_⟩
    · rw [if_pos (show u.ren.slots[k].params = p from hsame)]
      rfl
    · rw [if_neg (show ¬ u.ren.slots[k].params = p from hother), Render.dropHeld_eq (r := u.ren) hready]
      rfl
  · have hfind : u.ren.findImage (byteAt item.body 0) = none := Render.findImage_eq_none (r := u.ren) hno
    rw [hexec, imageOpenWork, hp]
    dsimp only
    rw [State.openImage, hfind]
    dsimp only
    refine ⟨fun hs hlow => ?_, fun hfull hold => ?_⟩
    · have hfree : (List.finRange 4).find? (fun j => u.ren.slots[j].state == .free) = some k :=
        find?_finRange_eq_some (beq_iff_eq.mpr hs) fun j hj => beq_eq_false_iff_ne.mpr (hlow j hj)
      rw [hfree]
      rfl
    · have hfree : (List.finRange 4).find? (fun j => u.ren.slots[j].state == .free) = none :=
        find?_finRange_eq_none fun j => beq_eq_false_iff_ne.mpr (hfull j)
      have hk : u.ren.oldestSlot u.rx.lastCount = k := Render.oldestSlot_eq (r := u.ren) hold
      rw [hfree]
      dsimp only
      subst hk
      rw [Render.dropHeld_eq (r := u.ren) hready]
      rfl

/-! ### Stripes that are not drawn (R28, R30, R32, R34) -/

/-- Work that is planned without a stage is done at once. -/
theorem State.deferContexts_plain {plan : State → State} {s : State} (h : (plan s).ren.stages = []) :
    s.deferContexts plan = plan s := by
  rw [State.deferContexts, h]
  rfl

theorem State.freeIfDone_of_not {k : Fin 4} {s : State} (h : s.ren.slots[k].state ≠ .closing) : s.freeIfDone k = s := by
  rw [State.freeIfDone, if_neg fun hc => h hc.1]

/-- The stripe that an item carries, fitted to the pixels needed (R30). -/
def WorkItem.stripe (item : WorkItem) (needed : Nat) : HeldStripe :=
  ⟨byteAt item.body 0, (wordAt item.body 1).toNat, fitPixels needed (decodeRuns (item.body.drop 3)), item.cls⟩

/-- The state in which an accepted stripe is drawn or held: its slot refreshed, and what its fitting latches (R30, R34). -/
def State.fitted (k : Fin 4) (item : WorkItem) (s : State) : State :=
  let c := s.ren.slots[k]
  let px := decodeRuns (item.body.drop 3)
  let need := c.params.pixelsNeeded (wordAt item.body 1).toNat
  (({ s with ren := s.ren.setSlot k (c.refresh s.rx.lastCount) } : State).latchIf (px.length < need) .stripeShort).latchIf
    (need < px.length) .stripeLong

/-- A stripe whose index was received, or is held for a DIFFUSION slot (R31, R32, R34). -/
theorem State.takeStripe_repeated {k : Fin 4} {item : WorkItem} {s : State}
    (h : s.ren.slots[k].received.getLsbD (wordAt item.body 1).toNat = true ∨
      (s.ren.slots[k].params.method = .diffusion ∧
        ∃ g ∈ s.ren.held, g.image = byteAt item.body 0 ∧ g.index = (wordAt item.body 1).toNat)) :
    s.takeStripe k item = { s with ren := s.ren.setSlot k (s.ren.slots[k].refresh s.rx.lastCount) } := by
  unfold State.takeStripe
  dsimp only
  by_cases hr : s.ren.slots[k].received.getLsbD (wordAt item.body 1).toNat = true
  · rw [if_pos hr]
  · obtain ⟨hmethod, g, hg, hi, hx⟩ := h.resolve_left hr
    have hany : (s.ren.held.any fun g => g.image == byteAt item.body 0 && g.index == (wordAt item.body 1).toNat) = true :=
      List.any_eq_true.mpr ⟨g, hg, by rw [hi, hx, beq_self_eq_true, beq_self_eq_true]; rfl⟩
    rw [if_neg hr, if_pos ⟨hmethod, hany⟩]

/-- A stripe that is neither: it is drawn or held. -/
theorem State.takeStripe_accepted {k : Fin 4} {item : WorkItem} {s : State}
    (hr : s.ren.slots[k].received.getLsbD (wordAt item.body 1).toNat = false)
    (hh : s.ren.slots[k].params.method = .diffusion →
      ∀ g ∈ s.ren.held, g.image = byteAt item.body 0 → g.index ≠ (wordAt item.body 1).toNat) :
    s.takeStripe k item = (s.fitted k item).deferContexts fun t =>
      match s.ren.slots[k].params.method with
      | .threshold =>
        (t.renderThreshold k (item.stripe (s.ren.slots[k].params.pixelsNeeded (wordAt item.body 1).toNat))).freeIfDone k
      | .diffusion =>
        (t.diffusionStripe k (item.stripe (s.ren.slots[k].params.pixelsNeeded (wordAt item.body 1).toNat))).freeIfDone k := by
  have hany : ¬ (s.ren.slots[k].params.method = .diffusion ∧
      (s.ren.held.any fun g => g.image == byteAt item.body 0 && g.index == (wordAt item.body 1).toNat) = true) := by
    rintro ⟨hm, ha⟩
    obtain ⟨g, hg, heq⟩ := List.any_eq_true.mp ha
    rw [Bool.and_eq_true, beq_iff_eq, beq_iff_eq] at heq
    exact hh hm g hg heq.1 heq.2
  unfold State.takeStripe
  dsimp only
  rw [if_neg (by rw [hr]; exact Bool.false_ne_true)]
  exact if_neg hany

/-- The engine after the fitting: its slot refreshed, and nothing else. -/
theorem State.fitted_ren (k : Fin 4) (item : WorkItem) (s : State) :
    (s.fitted k item).ren = s.ren.setSlot k (s.ren.slots[k].refresh s.rx.lastCount) := by
  rw [State.fitted, State.latchIf_ren, State.latchIf_ren]

theorem State.fitted_slot (k : Fin 4) (item : WorkItem) (s : State) :
    (s.fitted k item).ren.slots[k] = s.ren.slots[k].refresh s.rx.lastCount := by
  have hself : (s.ren.setSlot k (s.ren.slots[k].refresh s.rx.lastCount)).slots[k] =
      s.ren.slots[k].refresh s.rx.lastCount := Vector.getElem_set_self k.isLt
  rw [State.fitted_ren, hself]

/-- A stripe of an OPEN slot above e, with room in the hold queue (R32). -/
theorem State.diffusionStripe_held {k : Fin 4} {h : HeldStripe} {s : State} (hnext : s.ren.slots[k].next < h.index)
    (hopen : s.ren.slots[k].state = .opened) (hroom : s.ren.held.length < 4) :
    s.diffusionStripe k h = { s with ren := { s.ren with held := s.ren.held ++ [h] } } := by
  rw [State.diffusionStripe]
  dsimp only
  rw [if_neg (by omega), if_neg (by omega)]
  exact if_pos ⟨hopen, hroom⟩

section
variable {s : State} {item : WorkItem} {rest : List WorkItem}

/-- A stripe that the engine takes, of an image that a slot holds. -/
theorem exec_taken_stripe (ho : s.ren.Offers item rest) (hk : item.kind = .imageStripe) {k : Fin 4}
    (hfind : s.ren.findImage (byteAt item.body 0) = some k)
    (hi : (wordAt item.body 1).toNat < s.ren.slots[k].params.stripeCount) :
    exec .imageStripe s = .next ((s.took rest).takeStripe k item) := by
  refine (congrArg Host.Outcome.next (State.runItem_offers ho hk)).trans (congrArg _ ?_)
  have hfind' : (s.took rest).ren.findImage (byteAt item.body 0) = some k := hfind
  rw [imageStripeWork, hfind']
  exact if_pos hi

/-- A stripe with no slot or beyond the stripe count is discarded (R28). -/
theorem exec_stripe_discarded (ho : s.ren.Offers item rest) (hk : item.kind = .imageStripe)
    (h : ∀ k, s.ren.findImage (byteAt item.body 0) = some k →
      s.ren.slots[k].params.stripeCount ≤ (wordAt item.body 1).toNat) :
    exec .imageStripe s = .next ((s.took rest).latch .stripeDiscarded) := by
  refine (congrArg Host.Outcome.next (State.runItem_offers ho hk)).trans (congrArg _ ?_)
  unfold imageStripeWork
  split
  · rfl
  · next k hfind => exact if_neg (Nat.not_lt.mpr (h k hfind))

end

/-- Settles O38: the discards, and the stripe held by `diffusionStripe_held`. -/
theorem stripeDiscardedOrHeld : Obligations.StripeDiscardedOrHeld := by
  intro s item rest ho hk n i u
  refine ⟨fun hno => ?_, fun k hs hn honly => ?_⟩
  · refine exec_stripe_discarded ho hk fun k hfind => ?_
    rw [Render.findImage_eq_none hno] at hfind
    cases hfind
  · have hfind : s.ren.findImage n = some k := Render.findImage_eq_some hs hn honly
    intro c fresh px need
    refine ⟨fun hi => ?_, fun hi hrep => ?_, fun hi hr hheld hm hopen hnext hroom => ?_⟩
    · refine exec_stripe_discarded ho hk fun j hj => ?_
      cases hfind.symm.trans hj
      exact hi
    · exact (exec_taken_stripe ho hk hfind hi).trans (congrArg _ (State.takeStripe_repeated (s := u) hrep))
    · rw [exec_taken_stripe ho hk hfind hi]
      refine congrArg _ ((State.takeStripe_accepted (s := u) hr fun _ => hheld).trans ?_)
      have hslot := u.fitted_slot k item
      have hren := u.fitted_ren k item
      have hv : u.fitted k item = (({ u with ren := u.ren.setSlot k fresh } : State).latchIf (px.length < need)
          .stripeShort).latchIf (need < px.length) .stripeLong := rfl
      rw [← hv]
      generalize u.fitted k item = v at hslot hren ⊢
      have hfresh : u.ren.slots[k] = c := rfl
      have hplan : ((v.diffusionStripe k (item.stripe need)).freeIfDone k) =
          { v with ren := { v.ren with held := s.ren.held ++ [item.stripe need] } } := by
        have hv : v.ren.held = s.ren.held := by rw [hren]; rfl
        rw [State.diffusionStripe_held (by rw [hslot]; exact hnext) (by rw [hslot]; exact hopen) (by rw [hv]; exact hroom), hv]
        refine State.freeIfDone_of_not ?_
        have hstate : v.ren.slots[k].state = .opened := by rw [hslot]; exact hopen
        exact fun hc => by cases hstate.symm.trans hc
      rw [State.deferContexts_plain]
      · rw [hfresh, hm]
        exact hplan
      · rw [hfresh, hm]
        refine (congrArg (fun t : State => t.ren.stages) hplan).trans ?_
        obtain ⟨⟨_, hstages, _⟩, _⟩ := ho
        show v.ren.stages = []
        rw [hren]
        exact hstages

end Sys2Proof.Machine
end

