-- ==== Sys2Proof/Proofs/Drawing.lean ====
section
/-! Row writes made one after another (R3, R14): a drawing whose writes go down one plane writes each row of its own from what
stood there before, leaves every other row, and marks the rows that changed from the top down. -/

namespace Sys2Proof.Machine

/-! ### Rows of the planes -/

section
variable {p q : PlaneId} {y z : RowNo} {b : RowBits} {r : Render}

theorem Render.planeRow_setPlaneRow_self : (r.setPlaneRow p y b).planeRow p y = b := by
  cases p <;> exact Vector.getElem_set_self y.isLt

theorem Render.planeRow_setPlaneRow_row (h : y ≠ z) : (r.setPlaneRow p y b).planeRow p z = r.planeRow p z := by
  cases p <;> exact Vector.getElem_set_ne y.isLt z.isLt (fun hv => h (Fin.ext hv))

theorem Render.planeRow_setPlaneRow_plane (h : q ≠ p) : (r.setPlaneRow p y b).planeRow q z = r.planeRow q z := by
  cases p <;> cases q <;> simp_all [Render.planeRow, Render.setPlaneRow]

end

/-! ### One row write -/

section
variable {c : MarkClass} {s : State} {w : RowWrite} {q : PlaneId} {y : RowNo}

theorem State.planeRow_rowWrite_self :
    (s.rowWrite c w).ren.planeRow w.plane w.row = w.op.apply (s.ren.planeRow w.plane w.row) := by
  by_cases h : w.op.apply (s.ren.planeRow w.plane w.row) = s.ren.planeRow w.plane w.row
  · rw [State.rowWrite_same h, h]
  · rw [State.rowWrite_change h]
    exact Render.planeRow_setPlaneRow_self

theorem State.planeRow_rowWrite_row (hy : w.row ≠ y) :
    (s.rowWrite c w).ren.planeRow w.plane y = s.ren.planeRow w.plane y := by
  by_cases h : w.op.apply (s.ren.planeRow w.plane w.row) = s.ren.planeRow w.plane w.row
  · rw [State.rowWrite_same h]
  · rw [State.rowWrite_change h]
    exact Render.planeRow_setPlaneRow_row hy

theorem State.planeRow_rowWrite_plane (hq : q ≠ w.plane) :
    (s.rowWrite c w).ren.planeRow q y = s.ren.planeRow q y := by
  by_cases h : w.op.apply (s.ren.planeRow w.plane w.row) = s.ren.planeRow w.plane w.row
  · rw [State.rowWrite_same h]
  · rw [State.rowWrite_change h]
    exact Render.planeRow_setPlaneRow_plane hq

/-- A row write writes the planes and the row engine's lists, and nothing else. -/
theorem State.rowWrite_frame (c : MarkClass) (s : State) (w : RowWrite) :
    ∃ image text mark urgent bulk, s.rowWrite c w =
      { s with
        ren := { s.ren with image := image, text := text, mark := mark }
        row := { s.row with urgent := urgent, bulk := bulk } } := by
  by_cases h : w.op.apply (s.ren.planeRow w.plane w.row) = s.ren.planeRow w.plane w.row
  · rw [State.rowWrite_same h]
    exact ⟨_, _, _, _, _, rfl⟩
  · rw [State.rowWrite_change h]
    have hren (b : RowBits) : ∃ image text mark, s.ren.setPlaneRow w.plane w.row b =
        { s.ren with image := image, text := text, mark := mark } := by
      cases w.plane <;> exact ⟨_, _, _, rfl⟩
    have hrow : ∃ urgent bulk, s.row.mark c w.row = { s.row with urgent := urgent, bulk := bulk } := by
      cases c with
      | urgent =>
        by_cases hw : w.row ∈ s.row.urgent
        · exact ⟨s.row.urgent, s.row.bulk, if_pos hw⟩
        · exact ⟨_, _, if_neg hw⟩
      | bulk =>
        by_cases hw : w.row ∈ s.row.urgent ∨ w.row ∈ s.row.bulk
        · exact ⟨s.row.urgent, s.row.bulk, if_pos hw⟩
        · exact ⟨s.row.urgent, _, if_neg hw⟩
    obtain ⟨image, text, mark, hren⟩ := hren (w.op.apply (s.ren.planeRow w.plane w.row))
    obtain ⟨urgent, bulk, hrow⟩ := hrow
    exact ⟨image, text, mark, urgent, bulk, by rw [hren, hrow]⟩

end

/-! ### Row writes one after another -/

/-- Row writes made one after another. -/
def State.drawn (c : MarkClass) (ws : List RowWrite) (s : State) : State := ws.foldl (fun t w => t.rowWrite c w) s

theorem State.drawn_nil (c : MarkClass) (s : State) : s.drawn c [] = s := rfl

theorem State.drawn_cons (c : MarkClass) (w : RowWrite) (ws : List RowWrite) (s : State) :
    s.drawn c (w :: ws) = (s.rowWrite c w).drawn c ws := rfl

theorem State.drawn_append (c : MarkClass) (ws ws' : List RowWrite) (s : State) :
    s.drawn c (ws ++ ws') = (s.drawn c ws).drawn c ws' := List.foldl_append

theorem State.drawn_frame (c : MarkClass) (ws : List RowWrite) (s : State) :
    ∃ image text mark urgent bulk, s.drawn c ws =
      { s with
        ren := { s.ren with image := image, text := text, mark := mark }
        row := { s.row with urgent := urgent, bulk := bulk } } := by
  induction ws generalizing s with
  | nil => exact ⟨_, _, _, _, _, rfl⟩
  | cons w ws ih =>
    obtain ⟨image, text, mark, urgent, bulk, h⟩ := ih (s.rowWrite c w)
    obtain ⟨_, _, _, _, _, hw⟩ := s.rowWrite_frame c w
    exact ⟨image, text, mark, urgent, bulk, by rw [State.drawn_cons, h, hw]⟩

/-- The writes go down the rows of one plane. -/
structure Descends (p : PlaneId) (ws : List RowWrite) : Prop where
  plane : ∀ w ∈ ws, w.plane = p
  rows : ws.Pairwise (fun a b => a.row < b.row)

theorem Descends.nil (p : PlaneId) : Descends p [] := ⟨by simp, .nil⟩

/-- The rows that writes change, each compared with what stands in it. -/
def Render.changedBy (r : Render) (ws : List RowWrite) : List RowNo :=
  (ws.filter fun w => decide (w.op.apply (r.planeRow w.plane w.row) ≠ r.planeRow w.plane w.row)).map RowWrite.row

section
variable {c : MarkClass} {p q : PlaneId} {w : RowWrite} {ws : List RowWrite} {s : State} {y : RowNo}

theorem Descends.tail (h : Descends p (w :: ws)) : Descends p ws :=
  ⟨fun v hv => h.plane v (.tail _ hv), (List.pairwise_cons.mp h.rows).2⟩

theorem Descends.head_lt (h : Descends p (w :: ws)) {v : RowWrite} (hv : v ∈ ws) : w.row < v.row :=
  (List.pairwise_cons.mp h.rows).1 v hv

/-- A row that no write names is as it was. -/
theorem State.planeRow_drawn_off (h : Descends p ws) (hy : ∀ w ∈ ws, w.row ≠ y) :
    (s.drawn c ws).ren.planeRow p y = s.ren.planeRow p y := by
  induction ws generalizing s with
  | nil => rfl
  | cons w ws ih =>
    have hp := h.plane w (.head _)
    rw [State.drawn_cons, ih h.tail (fun v hv => hy v (.tail _ hv)), ← hp]
    exact State.planeRow_rowWrite_row (hy w (.head _))

/-- A row that a write names takes what the write makes of it. -/
theorem State.planeRow_drawn_at (h : Descends p ws) (hw : w ∈ ws) :
    (s.drawn c ws).ren.planeRow p w.row = w.op.apply (s.ren.planeRow p w.row) := by
  induction ws generalizing s with
  | nil => cases hw
  | cons v ws ih =>
    rw [State.drawn_cons]
    rcases List.mem_cons.mp hw with rfl | hw
    · rw [State.planeRow_drawn_off h.tail (fun v hv => (h.head_lt hv).ne'), ← h.plane w (.head _)]
      exact State.planeRow_rowWrite_self
    · rw [ih h.tail hw, ← h.plane v (.head _), State.planeRow_rowWrite_row (h.head_lt hw).ne]

/-- The other planes are as they were. -/
theorem State.planeRow_drawn_plane (h : ∀ w ∈ ws, w.plane = p) (hq : q ≠ p) :
    (s.drawn c ws).ren.planeRow q y = s.ren.planeRow q y := by
  induction ws generalizing s with
  | nil => rfl
  | cons w ws ih =>
    rw [State.drawn_cons, ih (fun v hv => h v (.tail _ hv))]
    exact State.planeRow_rowWrite_plane (by rw [h w (.head _)]; exact hq)

/-- The marks are those of the rows changed, in the order of the writes. -/
theorem State.row_drawn (h : Descends p ws) : (s.drawn c ws).row = s.row.markAll c (s.ren.changedBy ws) := by
  induction ws generalizing s with
  | nil => rfl
  | cons w ws ih =>
    have hrest : (s.rowWrite c w).ren.changedBy ws = s.ren.changedBy ws := by
      refine congrArg (List.map RowWrite.row) (List.filter_congr fun v hv => ?_)
      have hsame : v.plane = w.plane := (h.plane v (.tail _ hv)).trans (h.plane w (.head _)).symm
      rw [hsame, State.planeRow_rowWrite_row (h.head_lt hv).ne]
    rw [State.drawn_cons, ih h.tail, hrest]
    by_cases hw : w.op.apply (s.ren.planeRow w.plane w.row) = s.ren.planeRow w.plane w.row
    · rw [State.rowWrite_same hw]
      simp [Render.changedBy, hw]
    · have hchanged : s.ren.changedBy (w :: ws) = w.row :: s.ren.changedBy ws := by simp [Render.changedBy, hw]
      rw [State.rowWrite_change hw, hchanged]
      rfl

/-! ### URGENT marks of several rows (R72) -/

/-- URGENT marks of distinct rows: those that wait in URGENT keep their place, and the others join it and leave BULK. -/
theorem RowEngine.markAll_urgent {ys : List RowNo} (hys : ys.Nodup) (r : RowEngine) :
    r.markAll .urgent ys =
      { r with
        urgent := r.urgent ++ ys.filter (fun y => decide (y ∉ r.urgent))
        bulk := r.bulk.diff (ys.filter (fun y => decide (y ∉ r.urgent))) } := by
  induction ys generalizing r with
  | nil => simp [RowEngine.markAll]
  | cons y ys ih =>
    obtain ⟨hy, hys⟩ := List.nodup_cons.mp hys
    have hcons : r.markAll .urgent (y :: ys) = (r.mark .urgent y).markAll .urgent ys := rfl
    rw [hcons, ih hys]
    by_cases hw : y ∈ r.urgent
    · have hmark : r.mark .urgent y = r := if_pos hw
      rw [hmark, List.filter_cons_of_neg (by simpa using hw)]
    · have hmark : r.mark .urgent y = { r with urgent := r.urgent ++ [y], bulk := r.bulk.erase y } := if_neg hw
      have hsame : ys.filter (fun z => decide (z ∉ r.urgent ++ [y])) = ys.filter (fun z => decide (z ∉ r.urgent)) :=
        List.filter_congr fun z hz => by
          have hzy : z ≠ y := fun h => hy (h ▸ hz)
          simp [hzy]
      rw [hmark, List.filter_cons_of_pos (by simpa using hw)]
      simp only [hsame, List.append_assoc, List.singleton_append, List.diff_cons]

/-! ### A drawing into one plane -/

/-- The rows in increasing order that are in an increasing list are that list. -/
theorem filter_finRange_of_pairwise {n : Nat} {l : List (Fin n)} (h : l.Pairwise (· < ·)) {f : Fin n → Bool}
    (hf : ∀ y, f y = true ↔ y ∈ l) : (List.finRange n).filter f = l := by
  have hrange : ((List.finRange n).filter f).Pairwise (· < ·) := (List.pairwise_lt_finRange n).filter f
  refine List.Perm.eq_of_pairwise (fun a b _ _ hab hba => absurd hab (lt_asymm hba)) hrange h ?_
  refine (List.perm_ext_iff_of_nodup (hrange.imp fun hlt => hlt.ne) (h.imp fun hlt => hlt.ne)).mpr fun y => ?_
  rw [List.mem_filter, hf]
  exact and_iff_right (List.mem_finRange y)

theorem Descends.changedBy_pairwise (h : Descends p ws) (r : Render) : (r.changedBy ws).Pairwise (· < ·) :=
  List.pairwise_map.mpr (h.rows.filter _)

theorem Descends.mem_changedBy (h : Descends p ws) :
    y ∈ s.ren.changedBy ws ↔ s.ren.planeRow p y ≠ (s.drawn c ws).ren.planeRow p y := by
  constructor
  · intro hy
    obtain ⟨w, hw, rfl⟩ := List.mem_map.mp hy
    obtain ⟨hmem, hne⟩ := List.mem_filter.mp hw
    rw [decide_eq_true_eq, h.plane w hmem] at hne
    rw [State.planeRow_drawn_at h hmem]
    exact hne.symm
  · intro hne
    by_cases hy : ∃ w ∈ ws, w.row = y
    · obtain ⟨w, hmem, rfl⟩ := hy
      rw [State.planeRow_drawn_at h hmem] at hne
      refine List.mem_map.mpr ⟨w, List.mem_filter.mpr ⟨hmem, ?_⟩, rfl⟩
      rw [decide_eq_true_eq, h.plane w hmem]
      exact hne.symm
    · exact absurd (State.planeRow_drawn_off h fun w hw hy' => hy ⟨w, hw, hy'⟩).symm hne

/-- Writes that go down one plane draw into that plane alone and mark what changed. -/
theorem Descends.drawnInto (h : Descends p ws) (c : MarkClass) (s : State) : DrawnInto c p s (s.drawn c ws) := by
  refine ⟨?_, fun q y hq => State.planeRow_drawn_plane h.plane hq, ?_⟩
  · obtain ⟨_, _, _, _, _, hframe⟩ := s.drawn_frame c ws
    rw [hframe]
  · have hsorted := h.changedBy_pairwise s.ren
    have hrows : (List.finRange 512).filter
        (fun y => decide (s.ren.planeRow p y ≠ (s.drawn c ws).ren.planeRow p y)) = s.ren.changedBy ws :=
      filter_finRange_of_pairwise hsorted fun y => by rw [decide_eq_true_eq, h.mem_changedBy]
    have hnodup : (s.ren.changedBy ws).Nodup := hsorted.imp fun hlt => hlt.ne
    have hrow : (s.drawn c ws).row = s.row.markAll c (s.ren.changedBy ws) := State.row_drawn h
    have hmem (y : RowNo) : y ∈ s.ren.changedBy ws ↔ s.ren.planeRow p y ≠ (s.drawn c ws).ren.planeRow p y := h.mem_changedBy
    generalize s.ren.changedBy ws = rows at hrows hnodup hrow hmem
    generalize s.drawn c ws = t at hrows hrow hmem ⊢
    cases c with
    | bulk =>
      rw [RowEngine.markAll_bulk hnodup] at hrow
      unfold MarksChanges
      dsimp only
      rw [hrows, hrow]
      exact ⟨rfl, rfl⟩
    | urgent =>
      rw [RowEngine.markAll_urgent hnodup] at hrow
      unfold MarksChanges
      dsimp only
      rw [hrows, hrow]
      refine ⟨rfl, fun hbulk => ?_⟩
      refine (List.Nodup.sdiff_eq_filter hbulk).trans ?_
      refine List.filter_congr fun y _ => ?_
      rw [Bool.eq_iff_iff, decide_eq_true_eq, Bool.not_eq_true', Bool.and_eq_false_iff, List.mem_filter, hmem]
      simp only [decide_eq_true_eq, decide_eq_false_iff_not]
      exact not_and_or

/-- A drawing whose writes are left to do, by an engine with nothing else to do. -/
theorem State.perform_rowWrites_drawn (h : s.ren.stages = []) (c : MarkClass) (ws : List RowWrite) :
    (s.rowWrites c ws).perform = s.drawn c ws := State.perform_rowWrites h c ws

theorem State.plans_rowWrites (c : MarkClass) (ws : List RowWrite) (s : State) : s.Plans (s.rowWrites c ws) := rfl

end

end Sys2Proof.Machine
end

