-- ==== Sys2Proof/Proofs/FillsAndEchoes.lean ====
section
/-! FILL and ECHO_REQUEST (R65 to R68): their row writes, and each cell that they leave. -/

namespace Sys2Proof.Machine

/-! ### FILL (R65, R66) -/

theorem descends_fillWrites (p : PlaneId) (op : FillOp) (a b : Rect) : Descends p (fillWrites p op a b) := by
  unfold fillWrites
  dsimp only
  split
  · exact .nil p
  · refine ⟨fun w hw => ?_, List.pairwise_map.mpr ((List.pairwise_lt_finRange 512).filter _)⟩
    obtain ⟨y, _, rfl⟩ := List.mem_map.mp hw
    rfl

/-- A row that both rectangles reach is written between their common edges. -/
theorem mem_fillWrites {p : PlaneId} {op : FillOp} {a b : Rect} {w : RowWrite} :
    w ∈ fillWrites p op a b ↔ max a.x0 b.x0 ≤ min a.x1 b.x1 ∧ max a.y0 b.y0 ≤ w.row ∧ w.row ≤ min a.y1 b.y1 ∧
      w = ⟨p, w.row, op.cellOp (columns (max a.x0 b.x0).val (min a.x1 b.x1).val)⟩ := by
  unfold fillWrites
  dsimp only
  by_cases h : min a.x1 b.x1 < max a.x0 b.x0
  · rw [if_pos h]
    exact iff_of_false (List.not_mem_nil) fun hw => absurd hw.1 (not_le.mpr h)
  · rw [if_neg h]
    constructor
    · intro hw
      obtain ⟨y, hy, rfl⟩ := List.mem_map.mp hw
      obtain ⟨_, hy⟩ := List.mem_filter.mp hy
      rw [Bool.and_eq_true, decide_eq_true_eq, decide_eq_true_eq] at hy
      exact ⟨not_lt.mp h, hy.1, hy.2, rfl⟩
    · rintro ⟨_, h0, h1, heq⟩
      rw [heq]
      refine List.mem_map.mpr ⟨w.row, List.mem_filter.mpr ⟨List.mem_finRange _, ?_⟩, rfl⟩
      rw [Bool.and_eq_true, decide_eq_true_eq, decide_eq_true_eq]
      exact ⟨h0, h1⟩

/-- What a FILL's operation makes of a cell (R66). -/
theorem FillOp.getLsbD_cellOp (op : FillOp) (cells old : RowBits) {x : Nat} (hx : x < 512) :
    ((op.cellOp cells).apply old).getLsbD x =
      if cells.getLsbD x then (match op with | .set => true | .clear => false | .invert => !old.getLsbD x)
      else old.getLsbD x := by
  cases hc : cells.getLsbD x <;> cases op <;> simp [FillOp.cellOp, CellOp.getLsbD_apply _ _ hx, hc]

/-- Each cell after a FILL. -/
theorem State.getLsbD_fill (c : MarkClass) (p : PlaneId) (op : FillOp) (a b : Rect) (s : State) (x y : RowNo) :
    ((s.drawn c (fillWrites p op a b)).ren.planeRow p y).getLsbD x.val =
      if a.contains x.val y.val && b.contains x.val y.val then
        (match op with | .set => true | .clear => false | .invert => !(s.ren.planeRow p y).getLsbD x.val)
      else (s.ren.planeRow p y).getLsbD x.val := by
  have hcommon : (a.contains x.val y.val && b.contains x.val y.val) = true ↔
      (max a.x0 b.x0 ≤ x ∧ x ≤ min a.x1 b.x1) ∧ max a.y0 b.y0 ≤ y ∧ y ≤ min a.y1 b.y1 := by
    simp only [Rect.contains, Bool.and_eq_true, decide_eq_true_eq, max_le_iff, le_min_iff, Fin.le_def]
    tauto
  by_cases hy : max a.x0 b.x0 ≤ min a.x1 b.x1 ∧ max a.y0 b.y0 ≤ y ∧ y ≤ min a.y1 b.y1
  · obtain ⟨hx, hy0, hy1⟩ := hy
    have hmem : (⟨p, y, op.cellOp (columns (max a.x0 b.x0).val (min a.x1 b.x1).val)⟩ : RowWrite) ∈ fillWrites p op a b :=
      mem_fillWrites.mpr ⟨hx, hy0, hy1, rfl⟩
    have hcols : (columns (max a.x0 b.x0).val (min a.x1 b.x1).val).getLsbD x.val =
        (a.contains x.val y.val && b.contains x.val y.val) := by
      rw [getLsbD_columns (min a.x1 b.x1).isLt x.isLt, Bool.eq_iff_iff, decide_eq_true_eq, hcommon]
      exact (and_iff_left ⟨hy0, hy1⟩).symm
    rw [State.planeRow_drawn_at (descends_fillWrites p op a b) hmem, FillOp.getLsbD_cellOp _ _ _ x.isLt, hcols]
  · have hoff : ∀ w ∈ fillWrites p op a b, w.row ≠ y := by
      rintro w hw rfl
      obtain ⟨hx, h0, h1, _⟩ := mem_fillWrites.mp hw
      exact hy ⟨hx, h0, h1⟩
    rw [State.planeRow_drawn_off (descends_fillWrites p op a b) hoff, if_neg]
    rw [hcommon]
    exact fun h => hy ⟨h.1.1.trans h.1.2, h.2⟩

theorem planeOfCode_eq_none {b : Byte} (h : 3 ≤ b.toNat) : planeOfCode b = none := by
  unfold planeOfCode
  split
  · omega
  · omega
  · omega
  · rfl

theorem fillOpOfCode_eq_none {b : Byte} (h : 3 ≤ b.toNat) : fillOpOfCode b = none := by
  unfold fillOpOfCode
  split
  · omega
  · omega
  · omega
  · rfl

/-- Settles O32: the writes go down the plane, and `State.getLsbD_fill` gives each cell. -/
theorem fillWritesTheCommonCells : Obligations.FillWritesTheCommonCells := by
  intro s item rest ho hk
  have hexec : exec .fill s = .next (fillWork item (s.took rest)) := congrArg Host.Outcome.next (State.runItem_offers ho hk)
  refine ⟨fun hbad => ?_, fun w p op hw hp hop => ?_⟩
  · refine hexec.trans (congrArg _ ?_)
    unfold fillWork
    split
    · next w p op hw hp hop =>
      rcases hbad with h | h | h
      · rw [(window8_eq_none_iff _).mpr h] at hw
        cases hw
      · rw [planeOfCode_eq_none h] at hp
        cases hp
      · rw [fillOpOfCode_eq_none h] at hop
        cases hop
    · rfl
  · have hwork : fillWork item (s.took rest) =
        (s.took rest).rowWrites item.cls (fillWrites p op (bodyRect item.body) s.ren.windows[w].rect) := by
      unfold fillWork
      rw [window8_eq_some hw, hp, hop]
      rfl
    have hperform : (fillWork item (s.took rest)).perform =
        (s.took rest).drawn item.cls (fillWrites p op (bodyRect item.body) s.ren.windows[w].rect) := by
      rw [hwork]
      obtain ⟨⟨_, hstages, _⟩, _⟩ := ho
      exact State.perform_rowWrites_drawn (s := s.took rest) hstages _ _
    refine ⟨_, hexec, ?_, ?_, fun x y => ?_⟩
    · rw [hwork]
      exact State.plans_rowWrites _ _ _
    · rw [hperform]
      exact (descends_fillWrites _ _ _ _).drawnInto _ _
    · rw [hperform]
      exact State.getLsbD_fill _ _ _ _ _ _ _ _

/-! ### Patterns (R58, R63) -/

theorem Render.glyph_eq (r : Render) (set : Fin 4) (code : Fin 128) :
    r.glyph set code = r.glyphs.getD (set.val * 128 + code.val) Glyph.unloaded := by
  have h : set.val * 128 + code.val < 512 := by omega
  simp [Render.glyph, Vector.getD, Array.getD, h]

/-- The glyph where it is loaded, else the substitute, else an all-off box. -/
theorem Render.pattern_eq (r : Render) (set : Fin 4) (code : Byte) :
    r.pattern set code =
      if code.toNat < 128 ∧ (r.glyphs.getD (set.val * 128 + code.toNat) Glyph.unloaded).loaded = true then
        (r.glyphs.getD (set.val * 128 + code.toNat) Glyph.unloaded).rows
      else if (r.glyphs.getD (set.val * 128 + 127) Glyph.unloaded).loaded then
        (r.glyphs.getD (set.val * 128 + 127) Glyph.unloaded).rows
      else Vector.replicate 16 0 := by
  have hsub : r.glyph set 127 = r.glyphs.getD (set.val * 128 + 127) Glyph.unloaded := r.glyph_eq set 127
  unfold Render.pattern
  dsimp only
  rw [hsub]
  by_cases h : code.toNat < 128
  · have hglyph : r.glyph set ⟨code.toNat, h⟩ = r.glyphs.getD (set.val * 128 + code.toNat) Glyph.unloaded := r.glyph_eq set _
    simp only [hglyph, h, true_and]
    rfl
  · simp only [h, false_and, if_false]
    rfl

/-- The dots of a pattern's row drawn at a size from column x0. -/
theorem getLsbD_patternCells (p : Vector Byte 16) (size x0 b : Nat) {x : Nat} (hx : x < 512) :
    (patternCells p size x0 b).getLsbD x =
      (decide (x0 ≤ x ∧ x < x0 + 8 * size) && (p.getD (b / size) 0).getLsbD (7 - (x - x0) / size)) := by
  rw [patternCells, getLsbD_cellsFrom _ _ hx]
  by_cases h0 : x0 ≤ x
  · by_cases h1 : x - x0 < 8 * size
    · simp [h0, h1, show x < x0 + 8 * size by omega, List.getD_eq_getElem?_getD]
    · simp [h0, h1, show ¬ x < x0 + 8 * size by omega, List.getD_eq_getElem?_getD]
  · simp [h0]

/-! ### Echoes (R67, R68) -/

theorem descends_echoWrites (r : Render) (e : EchoRequest) : Descends .mark (echoWrites r e) := by
  refine ⟨fun w hw => ?_, ?_⟩
  · obtain ⟨b, _, hb⟩ := List.mem_filterMap.mp hw
    split at hb
    · cases hb
      rfl
    · cases hb
  · refine List.Pairwise.filterMap _ (fun a b hab v hv w hw => ?_) List.pairwise_lt_range
    split at hv
    · split at hw
      · cases hv
        cases hw
        exact Nat.add_lt_add_left hab _
      · cases hw
    · cases hv

/-- The box's rows on the panel are written, each from its own row of the pattern. -/
theorem mem_echoWrites {r : Render} {e : EchoRequest} {w : RowWrite} :
    w ∈ echoWrites r e ↔ e.y.val ≤ w.row.val ∧ w.row.val < e.y.val + 16 ∧
      w = ⟨.mark, w.row, .invert (patternCells (r.pattern e.set (byteOf e.code.val)) 1 e.x.val (w.row.val - e.y.val))⟩ := by
  constructor
  · intro hw
    obtain ⟨b, hb, hwrite⟩ := List.mem_filterMap.mp hw
    split at hwrite
    · cases hwrite
      refine ⟨Nat.le_add_right _ _, Nat.add_lt_add_left (List.mem_range.mp hb) _, ?_⟩
      dsimp only
      rw [Nat.add_sub_cancel_left]
    · cases hwrite
  · rintro ⟨h0, h1, heq⟩
    have hrow : e.y.val + (w.row.val - e.y.val) = w.row.val := by omega
    refine List.mem_filterMap.mpr ⟨w.row.val - e.y.val, List.mem_range.mpr (by omega), ?_⟩
    refine (dif_pos (by omega)).trans (congrArg some (Eq.trans ?_ heq.symm))
    simp only [hrow]

/-- Each cell of MARK after an echo. -/
theorem State.getLsbD_echo (c : MarkClass) (r : Render) (e : EchoRequest) (s : State) (x y : RowNo) :
    ((s.drawn c (echoWrites r e)).ren.planeRow .mark y).getLsbD x.val =
      ((s.ren.planeRow .mark y).getLsbD x.val !=
        (decide (e.x.val ≤ x.val ∧ x.val < e.x.val + 8 ∧ e.y.val ≤ y.val ∧ y.val < e.y.val + 16) &&
          ((r.pattern e.set (byteOf e.code.val)).getD (y.val - e.y.val) 0).getLsbD (7 - (x.val - e.x.val)))) := by
  by_cases hy : e.y.val ≤ y.val ∧ y.val < e.y.val + 16
  · have hmem : (⟨.mark, y, .invert (patternCells (r.pattern e.set (byteOf e.code.val)) 1 e.x.val (y.val - e.y.val))⟩ :
        RowWrite) ∈ echoWrites r e := mem_echoWrites.mpr ⟨hy.1, hy.2, rfl⟩
    rw [State.planeRow_drawn_at (descends_echoWrites r e) hmem, CellOp.getLsbD_apply _ _ x.isLt]
    dsimp only
    rw [getLsbD_patternCells _ _ _ _ x.isLt, bne_comm]
    simp only [Nat.div_one, Nat.mul_one, hy, and_true]
  · have hoff : ∀ w ∈ echoWrites r e, w.row ≠ y := by
      rintro w hw rfl
      obtain ⟨h0, h1, _⟩ := mem_echoWrites.mp hw
      exact hy ⟨h0, h1⟩
    rw [State.planeRow_drawn_off (descends_echoWrites r e) hoff]
    have hno : ¬ (e.x.val ≤ x.val ∧ x.val < e.x.val + 8 ∧ e.y.val ≤ y.val ∧ y.val < e.y.val + 16) :=
      fun h => hy ⟨h.2.2.1, h.2.2.2⟩
    rw [decide_eq_false hno, Bool.false_and, Bool.bne_false]

/-- The engine takes the head of the echo queue once the piece of work before it has ended (R23, R67). -/
theorem exec_echoRequest {s : State} {e : EchoRequest} {rest : List EchoRequest} (h : s.endPiece.ren.echoes = e :: rest) :
    exec .echoRequest s =
      .next (({ s.endPiece with ren := { s.endPiece.ren with echoes := rest, busy := true } } : State).rowWrites .urgent
        (echoWrites s.endPiece.ren e)) := by
  show execEchoRequest s = _
  unfold execEchoRequest
  dsimp only
  rw [h]

/-- A drawing left to do, and then the end of its piece, by an engine that holds no notice. -/
theorem State.endPiece_rowWrites {s : State} (hs : s.ren.stages = []) (hn : s.ren.notices = []) (c : MarkClass)
    (ws : List RowWrite) : (s.rowWrites c ws).endPiece = (s.drawn c ws).noted false [] := by
  have hnotices : (s.rowWrites c ws).ren.notices = [] := hn
  rw [State.endPiece_eq, hnotices, List.foldl_nil, State.perform_rowWrites_drawn hs]

/-- Planes are their rows' cells. -/
theorem plane_ext {a b : Vector RowBits 512} (h : ∀ x y : RowNo, a[y].getLsbD x.val = b[y].getLsbD x.val) : a = b :=
  Vector.ext fun y hy => BitVec.eq_of_getLsbD_eq fun x hx => h ⟨x, hx⟩ ⟨y, hy⟩

/-- Settles O33: each cell by `State.getLsbD_echo`, twice for the same request. -/
theorem echoInvertsAndTwoCancel : Obligations.EchoInvertsAndTwoCancel := by
  intro s e rest hr he glyph pattern u
  have hrest : s.endPiece = s := State.endPiece_atRest hr
  obtain ⟨_, hstages, hnotices⟩ := hr
  have hpattern : s.ren.pattern e.set (byteOf e.code.val) = pattern := by
    have hcode : (byteOf e.code.val).toNat = e.code.val := by
      show (BitVec.ofNat 8 e.code.val).toNat = _
      rw [BitVec.toNat_ofNat, Nat.mod_eq_of_lt (by omega)]
    rw [Render.pattern_eq, hcode]
    simp only [e.code.isLt, true_and]
    rfl
  have hexec : exec .echoRequest s = .next (u.rowWrites .urgent (echoWrites s.ren e)) := by
    rw [exec_echoRequest (s := s) (by rw [hrest]; exact he), hrest]
  have hperform : (u.rowWrites .urgent (echoWrites s.ren e)).perform = u.drawn .urgent (echoWrites s.ren e) :=
    State.perform_rowWrites_drawn (s := u) hstages _ _
  refine ⟨_, hexec, State.plans_rowWrites _ _ _, ?_, fun x y => ?_, fun rest' hagain => ?_⟩
  · rw [hperform]
    exact (descends_echoWrites _ _).drawnInto _ _
  · rw [hperform, ← hpattern]
    exact State.getLsbD_echo _ _ _ u x y
  · have hend : (u.rowWrites .urgent (echoWrites s.ren e)).endPiece =
        (u.drawn .urgent (echoWrites s.ren e)).noted false [] :=
      State.endPiece_rowWrites (s := u) hstages hnotices _ _
    obtain ⟨_, _, _, _, _, hframe⟩ := u.drawn_frame .urgent (echoWrites s.ren e)
    have hechoes : (u.rowWrites .urgent (echoWrites s.ren e)).endPiece.ren.echoes = e :: rest' := by
      rw [hend, hframe]
      exact hagain
    have hstages' : (u.rowWrites .urgent (echoWrites s.ren e)).endPiece.ren.stages = [] := by
      rw [hend, hframe]
      exact hstages
    refine ⟨_, exec_echoRequest hechoes, ?_⟩
    rw [State.perform_rowWrites_drawn (by exact hstages')]
    refine plane_ext fun x y => ?_
    refine (State.getLsbD_echo _ _ e _ x y).trans ?_
    have hfirst := State.getLsbD_echo .urgent s.ren e u x y
    have hglyphs : (u.rowWrites .urgent (echoWrites s.ren e)).endPiece.ren.pattern e.set (byteOf e.code.val) =
        s.ren.pattern e.set (byteOf e.code.val) := by
      rw [hend, hframe]
      rfl
    have hplane : (u.rowWrites .urgent (echoWrites s.ren e)).endPiece.ren.planeRow .mark y =
        (u.drawn .urgent (echoWrites s.ren e)).ren.planeRow .mark y := by
      rw [hend]
      rfl
    rw [hglyphs]
    refine (congrArg (fun b : RowBits => (b.getLsbD x.val != _)) hplane).trans ?_
    rw [hfirst, Bool.bne_assoc, bne_self_eq_false, Bool.bne_false]
    rfl

end Sys2Proof.Machine
end

