-- ==== Sys2Proof/Proofs/Texts.lean ====
section
/-! TEXT (R58 to R64): where its codes go, and each cell that its boxes leave. -/

namespace Sys2Proof.Machine

/-! ### Where the codes go (R60 to R62) -/

section
variable {rect : Rect} {size ret row column : Nat} {code : Byte} {rest : List Byte}

theorem placeBox_here (h : rect.x0.val + 8 * size * column ≤ rect.x1.val) :
    placeBox rect size ret row column = some (row, column) := if_pos h

theorem placeBox_wrapped (h : rect.x1.val < rect.x0.val + 8 * size * column)
    (hret : rect.x0.val + 8 * size * ret ≤ rect.x1.val) : placeBox rect size ret row column = some (row + 1, ret) :=
  (if_neg (Nat.not_le.mpr h)).trans (if_pos hret)

theorem placeBox_lost (h : rect.x1.val < rect.x0.val + 8 * size * column)
    (hret : rect.x1.val < rect.x0.val + 8 * size * ret) : placeBox rect size ret row column = none :=
  (if_neg (Nat.not_le.mpr h)).trans (if_neg (Nat.not_le.mpr hret))

theorem layText_newLine : layText rect size ret row column (0x80 :: rest) = layText rect size ret (row + 1) ret rest :=
  if_pos rfl

/-- A code with a place on the character rows of the window. -/
theorem layText_placed (hc : code ≠ 0x80) {r c : Nat} (hp : placeBox rect size ret row column = some (r, c))
    (hy : rect.y0.val + 16 * size * r ≤ rect.y1.val) :
    layText rect size ret row column (code :: rest) =
      (⟨rect.x0.val + 8 * size * c, rect.y0.val + 16 * size * r, code⟩ :: (layText rect size ret r (c + 1) rest).1,
        (layText rect size ret r (c + 1) rest).2) := by
  rw [layText, if_neg hc, hp]
  exact if_neg (Nat.not_lt.mpr hy)

theorem layText_unplaced (hc : code ≠ 0x80) (hp : placeBox rect size ret row column = none) :
    layText rect size ret row column (code :: rest) = ([], true) := by
  rw [layText, if_neg hc, hp]

theorem layText_below (hc : code ≠ 0x80) {r c : Nat} (hp : placeBox rect size ret row column = some (r, c))
    (hy : rect.y1.val < rect.y0.val + 16 * size * r) :
    layText rect size ret row column (code :: rest) = ([], true) := by
  rw [layText, if_neg hc, hp]
  exact if_pos hy

end

/-- Settles O35, by the place of the first code. -/
theorem textCodesAreLaidOut : Obligations.TextCodesAreLaidOut := by
  intro rect size ret row column code rest
  refine ⟨rfl, fun hc => ?_, fun hc => ⟨fun hx hy => ?_, fun hx hret hy => ?_, ?_⟩⟩
  · subst hc
    exact layText_newLine
  · exact layText_placed hc (placeBox_here hx) hy
  · exact layText_placed hc (placeBox_wrapped hx hret) hy
  · rintro (⟨hx, hlost⟩ | ⟨hx, hy⟩)
    · by_cases hret : rect.x0.val + 8 * size * ret ≤ rect.x1.val
      · exact layText_below hc (placeBox_wrapped hx hret) (hlost.resolve_left (Nat.not_lt.mpr hret))
      · exact layText_unplaced hc (placeBox_lost hx (Nat.not_le.mp hret))
    · exact layText_below hc (placeBox_here hx) hy

/-! ### One box (R62 to R64) -/

section
variable {r : Render} {rect : Rect} {t : TextBody} {box : CharBox}

theorem descends_boxWrites : Descends .text (boxWrites r rect t box) := by
  refine ⟨fun w hw => ?_, ?_⟩
  · obtain ⟨b, _, hb⟩ := List.mem_filterMap.mp hw
    split at hb
    · cases hb
      rfl
    · cases hb
  · refine List.Pairwise.filterMap _ (fun a b hab v hv w hw => ?_) List.pairwise_lt_range
    split at hv
    · split at hw
      · cases hv
        cases hw
        exact Nat.add_lt_add_left hab _
      · cases hw
    · cases hv

/-- The box's rows down to the window's bottom edge are written, each from its own row of the pattern. -/
theorem mem_boxWrites {w : RowWrite} :
    w ∈ boxWrites r rect t box ↔ box.y ≤ w.row.val ∧ w.row.val < box.y + 16 * t.size ∧ w.row ≤ rect.y1 ∧
      w = ⟨.text, w.row, textOp t.mode (columns box.x (min (box.x + 8 * t.size - 1) rect.x1.val))
        (patternCells (r.pattern t.set box.code) t.size box.x (w.row.val - box.y))⟩ := by
  constructor
  · intro hw
    obtain ⟨b, hb, hwrite⟩ := List.mem_filterMap.mp hw
    split at hwrite
    · next hedge =>
      cases hwrite
      refine ⟨Nat.le_add_right _ _, Nat.add_lt_add_left (List.mem_range.mp hb) _, hedge, ?_⟩
      dsimp only
      rw [Nat.add_sub_cancel_left]
    · cases hwrite
  · rintro ⟨h0, h1, hedge, heq⟩
    have hrow : box.y + (w.row.val - box.y) = w.row.val := by omega
    refine List.mem_filterMap.mpr ⟨w.row.val - box.y, List.mem_range.mpr (by omega), ?_⟩
    refine (dif_pos (by rw [hrow]; exact hedge)).trans (congrArg some (Eq.trans ?_ heq.symm))
    simp only [hrow]

/-- A cell that held `old` after a mode has written a pattern's dot (R63). -/
def TextWrite.cell (mode : TextWrite) (old dot : Bool) : Bool :=
  match mode with
  | .write => dot
  | .over => old || dot
  | .erase => false

theorem getLsbD_textOp (mode : TextWrite) (cells pattern old : RowBits) {x : Nat} (hx : x < 512) :
    ((textOp mode cells pattern).apply old).getLsbD x =
      if cells.getLsbD x then mode.cell (old.getLsbD x) (pattern.getLsbD x) else old.getLsbD x := by
  cases hc : cells.getLsbD x <;> cases mode <;> simp [textOp, TextWrite.cell, CellOp.getLsbD_apply _ _ hx, hc, Bool.or_comm]

/-- Each cell of TEXT after a box. -/
theorem State.getLsbD_box (c : MarkClass) (s : State) (x y : RowNo) :
    ((s.drawn c (boxWrites r rect t box)).ren.planeRow .text y).getLsbD x.val =
      textCell (r.pattern t.set box.code) rect t.size t.mode box x y ((s.ren.planeRow .text y).getLsbD x.val) := by
  unfold textCell
  dsimp only
  by_cases hy : box.y ≤ y.val ∧ y.val < box.y + 16 * t.size ∧ y ≤ rect.y1
  · obtain ⟨h0, h1, h2⟩ := hy
    have hmem : (⟨.text, y, textOp t.mode (columns box.x (min (box.x + 8 * t.size - 1) rect.x1.val))
        (patternCells (r.pattern t.set box.code) t.size box.x (y.val - box.y))⟩ : RowWrite) ∈ boxWrites r rect t box :=
      mem_boxWrites.mpr ⟨h0, h1, h2, rfl⟩
    have hedge : min (box.x + 8 * t.size - 1) rect.x1.val < 512 := Nat.lt_of_le_of_lt (Nat.min_le_right _ _) rect.x1.isLt
    have hcells : (columns box.x (min (box.x + 8 * t.size - 1) rect.x1.val)).getLsbD x.val = true ↔
        box.x ≤ x.val ∧ x.val < box.x + 8 * t.size ∧ x ≤ rect.x1 ∧ box.y ≤ y.val ∧ y.val < box.y + 16 * t.size ∧ y ≤ rect.y1 := by
      rw [getLsbD_columns hedge x.isLt, decide_eq_true_eq, Nat.le_min]
      simp only [h0, h1, h2, and_true, Fin.le_def]
      omega
    rw [State.planeRow_drawn_at descends_boxWrites hmem, getLsbD_textOp _ _ _ _ x.isLt]
    by_cases hin : (columns box.x (min (box.x + 8 * t.size - 1) rect.x1.val)).getLsbD x.val = true
    · rw [if_pos hin, if_pos (hcells.mp hin), getLsbD_patternCells _ _ _ _ x.isLt]
      obtain ⟨hx0, hx1, _⟩ := hcells.mp hin
      rw [decide_eq_true ⟨hx0, hx1⟩, Bool.true_and]
      cases t.mode <;> rfl
    · rw [if_neg hin, if_neg fun h => hin (hcells.mpr h)]
  · have hoff : ∀ w ∈ boxWrites r rect t box, w.row ≠ y := by
      rintro w hw rfl
      obtain ⟨h0, h1, h2, _⟩ := mem_boxWrites.mp hw
      exact hy ⟨h0, h1, h2⟩
    rw [State.planeRow_drawn_off descends_boxWrites hoff, if_neg fun h => hy h.2.2.2]

/-- The boxes drawn one after another. -/
theorem State.boxesDrawn (c : MarkClass) (boxes : List CharBox) (s : State) :
    BoxesDrawn c r rect t boxes s (s.drawn c (boxes.flatMap (boxWrites r rect t))) := by
  induction boxes generalizing s with
  | nil => rfl
  | cons box boxes ih =>
    refine ⟨s.drawn c (boxWrites r rect t box), descends_boxWrites.drawnInto _ _, State.getLsbD_box c s, ?_⟩
    rw [List.flatMap_cons, State.drawn_append]
    exact ih _

end

/-! ### TEXT (R59) -/

/-- More left to do is done after the rest. -/
theorem State.perform_stage (gs : List Stage) (s : State) : (s.stage gs).perform = gs.foldl State.performStage s.perform :=
  List.foldl_append

theorem State.perform_drawText {c : MarkClass} {rect : Rect} {t : TextBody} {s : State} (h : s.ren.stages = []) :
    (s.drawText c rect t).perform =
      (s.drawn c ((layText rect t.size t.column t.row t.column t.codes).1.flatMap (boxWrites s.ren rect t))).latchIf
        (layText rect t.size t.column t.row t.column t.codes).2 .textClipped := by
  unfold State.drawText
  generalize layText rect t.size t.column t.row t.column t.codes = laid
  obtain ⟨boxes, clipped⟩ := laid
  dsimp only
  rw [State.perform_stage, State.perform_rowWrites_drawn h]
  cases clipped <;> rfl

theorem State.plans_drawText (c : MarkClass) (rect : Rect) (t : TextBody) (s : State) : s.Plans (s.drawText c rect t) := rfl

/-- The TEXT that an engine takes, with its window and a code byte. -/
theorem exec_text {s : State} {item : WorkItem} {rest : List WorkItem} (ho : s.ren.Offers item rest) (hk : item.kind = .text)
    {w : Fin 8} (hw : (byteAt item.body 0).toNat = w.val) (hlen : 6 < item.body.length) :
    exec .text s = .next (((s.took rest).latchIf (206 < item.body.length) .formatError).drawText item.cls
      s.ren.windows[w].rect (textOfBody item.body)) := by
  refine (congrArg Host.Outcome.next (State.runItem_offers ho hk)).trans (congrArg _ ?_)
  have hcodes : (textCodes item.body).isEmpty = false := by
    rw [textCodes, List.isEmpty_eq_false_iff_exists_mem]
    exact List.exists_mem_of_length_pos (by rw [List.length_drop]; omega)
  have hmany : (decide (200 < (textCodes item.body).length)) = decide (206 < item.body.length) := by
    rw [textCodes, List.length_drop, decide_eq_decide]
    omega
  unfold textWork
  rw [window8_eq_some hw]
  dsimp only
  rw [hcodes, hmany]
  rfl

/-- Settles O34: the boxes drawn by `State.boxesDrawn`, and the one box of one code. -/
theorem textDrawsItsBox : Obligations.TextDrawsItsBox := by
  refine ⟨Render.pattern_eq, fun s item rest ho hk => ⟨fun hbad => ?_, fun w hw hlen => ?_, fun w code hw hcode hcr => ?_⟩⟩
  · refine (congrArg Host.Outcome.next (State.runItem_offers ho hk)).trans (congrArg _ ?_)
    unfold textWork
    split
    · rfl
    · next w hw =>
      rcases hbad with h | h
      · rw [(window8_eq_none_iff _).mpr h] at hw
        cases hw
      · have hempty : (textCodes item.body).isEmpty = true := List.isEmpty_iff.mpr (List.drop_eq_nil_of_le h)
        exact if_pos hempty
  · intro rect text laid u
    obtain ⟨⟨_, hstages, _⟩, _⟩ := id ho
    have hren : u.ren = (s.took rest).ren := State.latchIf_ren _ _ _
    have hwrites : boxWrites u.ren rect text = boxWrites s.ren rect text := by
      rw [hren]
      rfl
    refine ⟨_, u.drawn item.cls (laid.1.flatMap (boxWrites s.ren rect text)), exec_text ho hk hw hlen,
      State.plans_drawText _ _ _ u, State.boxesDrawn _ _ _, ?_⟩
    rw [← hwrites]
    exact State.perform_drawText (s := u) (by rw [hren]; exact hstages)
  · intro rect size bx by' set
    obtain ⟨⟨_, hstages, _⟩, _⟩ := id ho
    have hlen : item.body.length = 7 := by
      have := congrArg List.length hcode
      rw [List.length_drop, List.length_singleton] at this
      omega
    have hcodes : (textOfBody item.body).codes = [code] := by
      show ((item.body.drop 6).take 200) = _
      rw [hcode]
      rfl
    have hexec := exec_text ho hk hw (by omega)
    rw [decide_eq_false (by omega)] at hexec
    have hperform := State.perform_drawText (c := item.cls) (rect := rect) (t := textOfBody item.body) (s := s.took rest) hstages
    rw [hcodes] at hperform
    refine ⟨fun hx hy => ?_, fun hx hy => ?_⟩
    · have hlaid : layText rect size (textOfBody item.body).column (textOfBody item.body).row (textOfBody item.body).column
          [code] = ([⟨bx, by', code⟩], false) := layText_placed hcr (placeBox_here hx) hy
      have hdrawn : ((s.took rest).drawText item.cls rect (textOfBody item.body)).perform =
          (s.took rest).drawn item.cls (boxWrites s.ren rect (textOfBody item.body) ⟨bx, by', code⟩) := by
        rw [hperform]
        refine (congrArg (fun laid : List CharBox × Bool => ((s.took rest).drawn item.cls
          (laid.1.flatMap (boxWrites (s.took rest).ren rect (textOfBody item.body)))).latchIf laid.2 .textClipped) hlaid).trans ?_
        dsimp only
        rw [List.flatMap_cons, List.flatMap_nil, List.append_nil]
        rfl
      refine ⟨_, hexec, ?_, fun x y => ?_⟩
      · exact hdrawn ▸ descends_boxWrites.drawnInto _ _
      · refine (congrArg (fun v : State => (v.ren.planeRow .text y).getLsbD x.val) hdrawn).trans ?_
        refine (State.getLsbD_box _ _ x y).trans ?_
        unfold textCell
        dsimp only
        refine if_congr Iff.rfl ?_ rfl
        have hmode : (textOfBody item.body).mode =
            if byteAt item.body 4 = 1 then .over else if byteAt item.body 4 = 2 then .erase else .write := rfl
        by_cases hover : byteAt item.body 4 = 1
        · rw [hmode, if_pos hover, if_pos hover]
          rfl
        · by_cases herase : byteAt item.body 4 = 2
          · rw [hmode, if_neg hover, if_pos herase, if_neg hover, if_pos herase]
          · rw [hmode, if_neg hover, if_neg herase, if_neg hover, if_neg herase]
            rfl
    · have hlaid : layText rect size (textOfBody item.body).column (textOfBody item.body).row (textOfBody item.body).column
          [code] = ([], true) := layText_below hcr (placeBox_here hx) hy
      refine ⟨_, hexec, State.plans_drawText _ _ _ (s.took rest), ?_⟩
      refine hperform.trans ?_
      exact (congrArg (fun laid : List CharBox × Bool => ((s.took rest).drawn item.cls
          (laid.1.flatMap (boxWrites (s.took rest).ren rect (textOfBody item.body)))).latchIf laid.2 .textClipped) hlaid)

end Sys2Proof.Machine
end

