-- ==== Sys2Proof/Proofs/Halftones.lean ====
section
/-! The row writes of a stripe (R40 to R50): its cell rows, the cells that a row's decisions write, and the line-diffusion
arithmetic of one cell row and of a stripe. -/

namespace Sys2Proof.Machine

/-! ### The cell rows of a stripe (R41, R42) -/

/-- A list made from the indices below n, of which just those below m give an entry. -/
theorem filterMap_range_prefix {α : Type} {f : Nat → Option α} {n m : Nat} (hsome : ∀ r, r < n → r < m → (f r).isSome)
    (hnone : ∀ r, r < n → m ≤ r → f r = none) :
    ((List.range n).filterMap f).length = min n m ∧ ∀ r, r < n → r < m → ((List.range n).filterMap f)[r]? = f r := by
  induction n with
  | zero => exact ⟨(Nat.zero_min m).symm, fun r hr => absurd hr (Nat.not_lt_zero r)⟩
  | succ n ih =>
    obtain ⟨hlen, hget⟩ := ih (fun r hr => hsome r (by omega)) (fun r hr => hnone r (by omega))
    rw [List.range_succ, List.filterMap_append]
    by_cases hn : n < m
    · obtain ⟨a, ha⟩ := Option.isSome_iff_exists.mp (hsome n (Nat.lt_succ_self n) hn)
      have hlast : List.filterMap f [n] = [a] := by simp [ha]
      have hlen' : ((List.range n).filterMap f).length = n := by omega
      rw [hlast]
      refine ⟨by rw [List.length_append, hlen', List.length_singleton]; omega, fun r hr hm => ?_⟩
      by_cases heq : r = n
      · rw [heq, ha, List.getElem?_append_right (by omega), hlen', Nat.sub_self]
        rfl
      · rw [List.getElem?_append_left (by omega)]
        exact hget r (by omega) hm
    · have hlast : List.filterMap f [n] = [] := by simp [hnone n (Nat.lt_succ_self n) (Nat.not_lt.mp hn)]
      rw [hlast, List.append_nil]
      exact ⟨by omega, fun r hr hm => hget r (by omega) hm⟩

section
variable {p : ImageParams} {i : Nat} {levels : List (Fin 16)}

/-- The panel row of a stripe's first cell row. -/
def ImageParams.stripeTop (p : ImageParams) (i : Nat) : Nat := p.y0 + p.scale * (p.rows * i)

theorem stripeCellRows_shape (p : ImageParams) (i : Nat) (levels : List (Fin 16)) :
    (stripeCellRows p i levels).length = min (p.stripeRows i * p.scale) (512 - p.stripeTop i) ∧
      ∀ (r : Nat) (y : RowNo), y.val = p.stripeTop i + r → r < p.stripeRows i * p.scale →
        (stripeCellRows p i levels)[r]? = some (y, (levels.drop (p.width * (r / p.scale))).take p.width) := by
  have hshape := filterMap_range_prefix (n := p.stripeRows i * p.scale) (m := 512 - p.stripeTop i)
    (f := fun r => if h : p.y0 + p.scale * (p.rows * i) + r < 512 then
      some ((⟨_, h⟩ : RowNo), (levels.drop (p.width * (r / p.scale))).take p.width) else none)
    (fun r _ hr => by
      have hrow : p.y0 + p.scale * (p.rows * i) + r < 512 := by
        unfold ImageParams.stripeTop at hr
        omega
      rw [dif_pos hrow]
      rfl)
    (fun r _ hr => by
      refine dif_neg ?_
      unfold ImageParams.stripeTop at hr
      omega)
  obtain ⟨hlen, hget⟩ := hshape
  refine ⟨hlen, fun r y hy hr => (hget r hr (by omega)).trans ?_⟩
  have hrow : p.y0 + p.scale * (p.rows * i) + r < 512 := by
    unfold ImageParams.stripeTop at hy
    omega
  rw [dif_pos hrow]
  exact congrArg (fun z : RowNo => some (z, (levels.drop (p.width * (r / p.scale))).take p.width)) (Fin.ext hy.symm)

/-- The cell rows: their panel rows and their source rows' levels. -/
theorem mem_stripeCellRows {y : RowNo} {source : List (Fin 16)} :
    (y, source) ∈ stripeCellRows p i levels ↔ p.stripeTop i ≤ y.val ∧ y.val < p.stripeTop i + p.stripeRows i * p.scale ∧
      source = (levels.drop (p.width * ((y.val - p.stripeTop i) / p.scale))).take p.width := by
  constructor
  · intro h
    obtain ⟨r, hr, hrow⟩ := List.mem_filterMap.mp h
    dsimp only at hrow
    split at hrow
    · cases hrow
      rw [ImageParams.stripeTop]
      dsimp only
      rw [Nat.add_sub_cancel_left]
      exact ⟨Nat.le_add_right _ _, Nat.add_lt_add_left (List.mem_range.mp hr) _, rfl⟩
    · cases hrow
  · rintro ⟨h0, h1, rfl⟩
    exact List.mem_of_getElem? ((stripeCellRows_shape p i levels).2 (y.val - p.stripeTop i) y (by omega) (by omega))

theorem stripeCellRows_descend (p : ImageParams) (i : Nat) (levels : List (Fin 16)) :
    (stripeCellRows p i levels).Pairwise (fun a b => a.1 < b.1) := by
  refine List.Pairwise.filterMap _ (fun a b hab v hv w hw => ?_) List.pairwise_lt_range
  dsimp only at hv hw
  split at hv
  · split at hw
    · cases hv
      cases hw
      exact Nat.add_lt_add_left hab _
    · cases hw
  · cases hv

end

/-! ### The cells of a row's decisions (R43) -/

/-- The cells that an image processes are some, and start on the panel. -/
structure ImageParams.Processes (p : ImageParams) : Prop where
  width : 1 ≤ p.width * p.scale
  x0 : p.x0 ≤ 511

theorem ImageParams.InRange.processes {p : ImageParams} (h : p.InRange) : p.Processes := by
  obtain ⟨hwidth, _, _, _, hscale, _, hx0, _⟩ := h
  exact ⟨Nat.mul_pos hwidth hscale, hx0⟩

section
variable {p : ImageParams} {rect : Rect} {y : RowNo} {cells : List Bool} {c : MarkClass} {s : State}

/-- The columns written are the processed ones inside the window. -/
theorem getLsbD_writtenColumns (hp : p.Processes) (rect : Rect) (x y : RowNo) :
    (writtenColumns p rect y).getLsbD x.val =
      decide (p.x0 ≤ x.val ∧ x.val < p.x0 + p.width * p.scale ∧ rect.contains x.val y.val = true) := by
  obtain ⟨hwidth, hx0⟩ := hp
  have hx := x.isLt
  have hedge : p.x0 + p.processedWidth - 1 < 512 := by
    unfold ImageParams.processedWidth
    omega
  have hspan : rect.contains x.val y.val = true ↔ (rect.x0.val ≤ x.val ∧ x.val ≤ rect.x1.val) ∧ rect.spansRow y.val = true := by
    simp only [Rect.contains, Rect.spansRow, Bool.and_eq_true, decide_eq_true_eq, and_assoc]
  unfold writtenColumns
  by_cases hy : rect.spansRow y.val = true
  · rw [if_pos hy, BitVec.getLsbD_and, getLsbD_columns hedge hx, getLsbD_columns rect.x1.isLt hx, ← Bool.decide_and,
      decide_eq_decide, hspan, and_iff_left hy, ImageParams.processedWidth]
    omega
  · rw [if_neg hy]
    refine (BitVec.getLsbD_zero (w := 512)).trans (decide_eq_false fun h => hy ?_).symm
    exact (hspan.mp h.2.2).2

theorem decisionWrite_none (h : writtenColumns p rect y = 0) : decisionWrite p rect y cells = none := if_pos h

theorem decisionWrite_some (h : writtenColumns p rect y ≠ 0) :
    decisionWrite p rect y cells = some ⟨.image, y, .put (writtenColumns p rect y) (cellsFrom p.x0 cells)⟩ := if_neg h

/-- The row writes of cell rows whose decisions `f` gives. -/
def decisionWrites (p : ImageParams) (rect : Rect) (f : RowNo → List (Fin 16) → List Bool)
    (rows : List (RowNo × List (Fin 16))) : List RowWrite :=
  rows.filterMap fun row => decisionWrite p rect row.1 (f row.1 row.2)

variable {f : RowNo → List (Fin 16) → List Bool} {rows : List (RowNo × List (Fin 16))}

theorem mem_decisionWrites {w : RowWrite} (hw : w ∈ decisionWrites p rect f rows) :
    writtenColumns p rect w.row ≠ 0 ∧ w.plane = .image ∧ ∃ source, (w.row, source) ∈ rows := by
  obtain ⟨⟨y, source⟩, hmem, hwrite⟩ := List.mem_filterMap.mp hw
  by_cases h : writtenColumns p rect y = 0
  · cases (decisionWrite_none h).symm.trans hwrite
  · cases (decisionWrite_some h).symm.trans hwrite
    exact ⟨h, rfl, source, hmem⟩

theorem descends_decisionWrites (hrows : rows.Pairwise (fun a b => a.1 < b.1)) :
    Descends .image (decisionWrites p rect f rows) := by
  refine ⟨fun w hw => (mem_decisionWrites hw).2.1, List.Pairwise.filterMap _ (fun a b hab v hv w hw => ?_) hrows⟩
  have hrow {a : RowNo × List (Fin 16)} {v : RowWrite} (hv : decisionWrite p rect a.1 (f a.1 a.2) = some v) : v.row = a.1 := by
    by_cases h : writtenColumns p rect a.1 = 0
    · cases (decisionWrite_none h).symm.trans hv
    · cases (decisionWrite_some h).symm.trans hv
      rfl
  rw [hrow hv, hrow hw]
  exact hab

/-- A cell of a cell row: its decision where it is written, and what was there elsewhere. -/
theorem State.getLsbD_decisions (hrows : rows.Pairwise (fun a b => a.1 < b.1)) {source : List (Fin 16)}
    (hmem : (y, source) ∈ rows) (x : RowNo) :
    ((s.drawn c (decisionWrites p rect f rows)).ren.planeRow .image y).getLsbD x.val =
      if (writtenColumns p rect y).getLsbD x.val then decide (p.x0 ≤ x.val) && (f y source).getD (x.val - p.x0) false
      else (s.ren.planeRow .image y).getLsbD x.val := by
  by_cases h : writtenColumns p rect y = 0
  · have hzero : (0 : RowBits).getLsbD x.val = false := BitVec.getLsbD_zero
    rw [State.planeRow_drawn_off (descends_decisionWrites hrows), h, hzero]
    · exact (if_neg Bool.false_ne_true).symm
    · rintro w hw rfl
      exact (mem_decisionWrites hw).1 h
  · have hw : (⟨.image, y, .put (writtenColumns p rect y) (cellsFrom p.x0 (f y source))⟩ : RowWrite) ∈
        decisionWrites p rect f rows := List.mem_filterMap.mpr ⟨(y, source), hmem, decisionWrite_some h⟩
    rw [State.planeRow_drawn_at (descends_decisionWrites hrows) hw, CellOp.getLsbD_apply _ _ x.isLt]
    dsimp only
    rw [getLsbD_cellsFrom _ _ x.isLt]

/-- A row that is no cell row is as it was. -/
theorem State.planeRow_decisions_off (hrows : rows.Pairwise (fun a b => a.1 < b.1)) (hy : ∀ source, (y, source) ∉ rows) :
    (s.drawn c (decisionWrites p rect f rows)).ren.planeRow .image y = s.ren.planeRow .image y := by
  refine State.planeRow_drawn_off (descends_decisionWrites hrows) ?_
  rintro w hw rfl
  obtain ⟨_, _, source, hmem⟩ := mem_decisionWrites hw
  exact hy source hmem

end

/-! ### The arithmetic of a cell row (R47, R48) -/

/-- The decisions and errors of a cell row, cell by cell. -/
theorem diffuseCells_spec (w : Weights) (ts : List Nat) : ∀ (right : Int) (inc : List Int), inc.length = ts.length →
    (diffuseCells w right (ts.zip inc)).length = ts.length ∧
      ∀ k, k < ts.length →
        let errs := (diffuseCells w right (ts.zip inc)).map Prod.snd
        let value : Int := ts.getD k 0 + inc.getD k 0 + (if k = 0 then right else share (errs.getD (k - 1) 0) w.wR)
        ((diffuseCells w right (ts.zip inc)).map Prod.fst).getD k false = decide (128 ≤ value) ∧
          errs.getD k 0 = if 128 ≤ value then value - 255 else value := by
  induction ts with
  | nil => exact fun right inc _ => ⟨rfl, fun k hk => absurd hk (Nat.not_lt_zero k)⟩
  | cons t ts ih =>
    intro right inc hinc
    cases inc with
    | nil => cases hinc
    | cons e inc =>
      have hv : (t : Int) + (right + e) = t + e + right := by omega
      rw [List.zip_cons_cons, diffuseCells, hv]
      simp only [decide_eq_true_eq]
      generalize herr : (if 128 ≤ (t : Int) + e + right then (t : Int) + e + right - 255 else t + e + right) = err
      obtain ⟨hlen, hcells⟩ := ih (share err w.wR) inc (Nat.succ.inj hinc)
      refine ⟨congrArg (· + 1) hlen, fun k hk => ?_⟩
      cases k with
      | zero => exact ⟨rfl, herr.symm⟩
      | succ k =>
        have hrest := hcells k (Nat.lt_of_succ_lt_succ hk)
        cases k with
        | zero => exact hrest
        | succ k => exact hrest

/-- The outgoing entries of a cell row's errors. -/
theorem outgoingEntries_spec (w : Weights) (errs : List Int) : ∀ left : Int,
    (outgoingEntries w left errs).length = errs.length ∧
      ∀ k, k < errs.length → (outgoingEntries w left errs).getD k 0 =
        (if k = 0 then share left w.wBR else share (errs.getD (k - 1) 0) w.wBR) + share (errs.getD k 0) w.wB +
          (if k + 1 < errs.length then share (errs.getD (k + 1) 0) w.wBL else 0) := by
  induction errs with
  | nil => exact fun left => ⟨rfl, fun k hk => absurd hk (Nat.not_lt_zero k)⟩
  | cons e errs ih =>
    intro left
    cases errs with
    | nil =>
      refine ⟨rfl, fun k hk => ?_⟩
      obtain rfl : k = 0 := Nat.lt_one_iff.mp hk
      exact (Int.add_zero _).symm
    | cons e' errs =>
      obtain ⟨hlen, hout⟩ := ih e
      refine ⟨congrArg (· + 1) hlen, fun k hk => ?_⟩
      cases k with
      | zero => simp [outgoingEntries]
      | succ k =>
        have hrest := hout k (Nat.lt_of_succ_lt_succ hk)
        have hcount : k + 1 + 1 < (e :: e' :: errs).length ↔ k + 1 < (e' :: errs).length := Nat.succ_lt_succ_iff
        rw [outgoingEntries, List.getD_cons_succ, hrest, if_neg (Nat.succ_ne_zero k)]
        simp only [hcount, List.getD_cons_succ, Nat.add_sub_cancel]
        cases k with
        | zero => rfl
        | succ k => rfl

/-- One cell row under line diffusion follows the rules. -/
theorem rowDiffused_diffuseRow (w : Weights) {ts : List Nat} {inc : List Int} (h : inc.length = ts.length) :
    RowDiffused w ts inc (diffuseRow w ts inc).1 (diffuseRow w ts inc).2 := by
  obtain ⟨hlen, hcells⟩ := diffuseCells_spec w ts 0 inc h
  have hzero (weight : Nat) : share 0 weight = 0 := by simp [share]
  unfold diffuseRow
  dsimp only
  generalize diffuseCells w 0 (ts.zip inc) = cells at hlen hcells
  obtain ⟨hout, hentries⟩ := outgoingEntries_spec w (cells.map Prod.snd) 0
  rw [List.length_map, hlen] at hout
  refine ⟨(List.length_map _).trans hlen, hout, cells.map Prod.snd, (List.length_map _).trans hlen, fun k hk => ?_⟩
  obtain ⟨hon, herr⟩ := hcells k hk
  refine ⟨hon, herr, ?_⟩
  have hentry := hentries k (by rw [List.length_map, hlen]; exact hk)
  rw [List.length_map, hlen, hzero] at hentry
  exact hentry

/-! ### A stripe under line diffusion (R47 to R50) -/

theorem length_cellIntensities (transfer : Vector Byte 64) (p : ImageParams) (source : List (Fin 16)) :
    (cellIntensities transfer p source).length = p.processedWidth := by
  rw [cellIntensities, List.length_map, List.length_range]

/-- The intensities of a cell row (R40, R41). -/
theorem cellIntensities_eq (transfer : Vector Byte 64) (p : ImageParams) (source : List (Fin 16)) :
    cellIntensities transfer p source = (List.range (min (p.width * p.scale) (512 - p.x0))).map fun k =>
      (transfer.getD (p.select.val * 16 + (source.getD (k / p.scale) 0).val) 0).toNat := by
  refine List.map_congr_left fun k _ => ?_
  have hentry : p.select.val * 16 + (cellLevel p source k).val < 64 := by omega
  have hget : transfer.getD (p.select.val * 16 + (cellLevel p source k).val) 0 =
      transfer[p.select.val * 16 + (cellLevel p source k).val] := by
    simp [Vector.getD, Array.getD, hentry]
  exact congrArg BitVec.toNat hget.symm

/-- The writes of a stripe under line diffusion, made one after another. -/
theorem stripeDiffused {t : HalftoneTables} {p : ImageParams} (hp : p.Processes) (rect : Rect) (c : MarkClass)
    (rows : List (RowNo × List (Fin 16))) (inc : List Int) (h : inc.length = p.processedWidth) (s : State) :
    StripeDiffused t p rect c rows inc s (s.drawn c (diffuseStripe t p rect inc rows).1) (diffuseStripe t p rect inc rows).2 := by
  induction rows generalizing inc s with
  | nil => exact ⟨rfl, rfl⟩
  | cons row rest ih =>
    obtain ⟨y, source⟩ := row
    have hinc : inc.length = (cellIntensities t.transfer p source).length := h.trans (length_cellIntensities _ _ _).symm
    have hrow := rowDiffused_diffuseRow t.weights hinc
    obtain ⟨_, hout, _⟩ := id hrow
    have hstep : diffuseStripe t p rect inc ((y, source) :: rest) =
        ((decisionWrite p rect y (diffuseRow t.weights (cellIntensities t.transfer p source) inc).1).toList ++
          (diffuseStripe t p rect (diffuseRow t.weights (cellIntensities t.transfer p source) inc).2 rest).1,
        (diffuseStripe t p rect (diffuseRow t.weights (cellIntensities t.transfer p source) inc).2 rest).2) := rfl
    generalize diffuseRow t.weights (cellIntensities t.transfer p source) inc = cells at hrow hout hstep
    have hwrites : (decisionWrite p rect y cells.1).toList = decisionWrites p rect (fun _ _ => cells.1) [(y, source)] := by
      rw [decisionWrites, List.filterMap_cons]
      cases decisionWrite p rect y cells.1 <;> rfl
    have hpair : [(y, source)].Pairwise (fun a b : RowNo × List (Fin 16) => a.1 < b.1) := List.pairwise_singleton _ _
    rw [hstep]
    dsimp only
    rw [State.drawn_append, hwrites]
    refine ⟨cells.1, cells.2, s.drawn c (decisionWrites p rect (fun _ _ => cells.1) [(y, source)]), ?_,
      (descends_decisionWrites hpair).drawnInto _ _, fun x z => ?_, ?_⟩
    · rw [← cellIntensities_eq]
      exact hrow
    · by_cases hz : z = y
      · subst hz
        refine (State.getLsbD_decisions hpair (List.mem_singleton_self _) x).trans ?_
        rw [getLsbD_writtenColumns hp]
        by_cases hin : p.x0 ≤ x.val ∧ x.val < p.x0 + p.width * p.scale ∧ rect.contains x.val z.val = true
        · rw [if_pos (decide_eq_true hin), if_pos ⟨rfl, hin⟩, decide_eq_true hin.1, Bool.true_and]
        · rw [if_neg (by rw [decide_eq_false hin]; exact Bool.false_ne_true), if_neg fun hc => hin hc.2]
          rfl
      · rw [if_neg fun hc => hz hc.1]
        refine congrArg (fun b : RowBits => b.getLsbD x.val) (State.planeRow_decisions_off hpair fun _ hmem => hz ?_)
        exact congrArg Prod.fst (List.mem_singleton.mp hmem)
    · exact ih cells.2 (hout.trans (length_cellIntensities _ _ _)) _

end Sys2Proof.Machine
end

