-- ==== Sys2Proof/Proofs/Plans.lean ====
section
/-! What planned image work comes to (R14, R32, R35; log 5). A plan leaves row writes to do and carries the contexts on; its
outcome is the state once all that is left to do is done and the contexts are those of the plan. A deferred plan performs to
its outcome, and each operation of a plan has its effect on the outcome. -/

namespace Sys2Proof.Machine

/-- The state with other contexts. -/
def State.putContexts (x : Contexts) (s : State) : State := { s with ren := s.ren.withContexts x }

/-- What is left to do done, with the contexts as they stand. -/
def State.outcome (s : State) : State := s.perform.putContexts s.ren.contexts

/-- `t` is `s` with other contexts and more or less left to do. -/
def State.PlansContexts (s t : State) : Prop :=
  ∃ slots held ready stages, t =
    { s with ren := { s.ren with slots := slots, held := held, ready := ready, stages := stages } }

section
variable {s t u : State} {x y : Contexts} {k : Fin 4} {h : HeldStripe} {plan : State → State}

/-! ### Contexts put -/

theorem State.putContexts_self (s : State) : s.putContexts s.ren.contexts = s := rfl

theorem State.putContexts_putContexts (x y : Contexts) (s : State) : (s.putContexts x).putContexts y = s.putContexts y := rfl

theorem State.contexts_putContexts (x : Contexts) (s : State) : (s.putContexts x).ren.contexts = x := rfl

/-- A row write neither reads nor writes the contexts. -/
theorem State.rowWrite_putContexts (c : MarkClass) (w : RowWrite) (x : Contexts) (s : State) :
    (s.putContexts x).rowWrite c w = (s.rowWrite c w).putContexts x := by
  have hrow : (s.putContexts x).ren.planeRow w.plane w.row = s.ren.planeRow w.plane w.row := by
    cases w.plane <;> rfl
  by_cases h : w.op.apply (s.ren.planeRow w.plane w.row) = s.ren.planeRow w.plane w.row
  · rw [State.rowWrite_same h, State.rowWrite_same (by rw [hrow]; exact h)]
  · rw [State.rowWrite_change h, State.rowWrite_change (by rw [hrow]; exact h), hrow]
    cases w.plane <;> rfl

theorem State.drawn_putContexts (c : MarkClass) (ws : List RowWrite) (x : Contexts) (s : State) :
    (s.putContexts x).drawn c ws = (s.drawn c ws).putContexts x := by
  induction ws generalizing s with
  | nil => rfl
  | cons w ws ih => rw [State.drawn_cons, State.rowWrite_putContexts, ih, State.drawn_cons]

/-- Stages done from other contexts come to the same but for the contexts. -/
theorem State.performStages_putContexts (gs : List Stage) (x y : Contexts) (s : State) :
    (gs.foldl State.performStage (s.putContexts x)).putContexts y = (gs.foldl State.performStage s).putContexts y := by
  induction gs generalizing s x with
  | nil => rfl
  | cons g gs ih =>
    rw [List.foldl_cons, List.foldl_cons]
    cases g with
    | write c w =>
      show (gs.foldl State.performStage ((s.putContexts x).rowWrite c w)).putContexts y = _
      rw [State.rowWrite_putContexts]
      exact ih x _
    | contexts z => rfl
    | textClipped => exact ih x (s.latch .textClipped)

/-! ### What stages leave alone -/

theorem State.performStages_frame (gs : List Stage) (s : State) :
    (gs.foldl State.performStage s).ren.tables = s.ren.tables ∧ (gs.foldl State.performStage s).ren.windows = s.ren.windows := by
  refine List.foldlRecOn gs _ (motive := fun t : State => t.ren.tables = s.ren.tables ∧ t.ren.windows = s.ren.windows)
    ⟨rfl, rfl⟩ fun t ht g _ => ?_
  cases g with
  | write c w =>
    obtain ⟨_, _, _, _, _, hw⟩ := t.rowWrite_frame c w
    show (t.rowWrite c w).ren.tables = _ ∧ (t.rowWrite c w).ren.windows = _
    rw [hw]
    exact ht
  | contexts z => exact ht
  | textClipped => exact ht

theorem State.tables_outcome (s : State) : s.outcome.ren.tables = s.ren.tables := (State.performStages_frame _ _).1

theorem State.windows_outcome (s : State) : s.outcome.ren.windows = s.ren.windows := (State.performStages_frame _ _).2

theorem State.contexts_outcome (s : State) : s.outcome.ren.contexts = s.ren.contexts := rfl

/-! ### Outcomes -/

theorem State.outcome_of_nil (hs : s.ren.stages = []) : s.outcome = s := by
  rw [State.outcome, State.perform_nil hs]
  rfl

theorem State.outcome_putContexts (x : Contexts) (s : State) : (s.putContexts x).outcome = s.outcome.putContexts x :=
  State.performStages_putContexts s.ren.stages x x { s with ren := { s.ren with stages := [] } }

theorem State.performStages_writes (c : MarkClass) (ws : List RowWrite) (s : State) :
    (ws.map (Stage.write c)).foldl State.performStage s = s.drawn c ws := List.foldl_map

theorem State.outcome_rowWrites (c : MarkClass) (ws : List RowWrite) (s : State) :
    (s.rowWrites c ws).outcome = s.outcome.drawn c ws := by
  have hperform : (s.rowWrites c ws).perform = s.perform.drawn c ws :=
    (State.perform_stage _ s).trans (State.performStages_writes c ws s.perform)
  rw [State.outcome, State.outcome, hperform, State.drawn_putContexts]
  rfl

theorem State.perform_stageContexts (s : State) : s.stageContexts.perform = s.outcome := State.perform_stage _ s

theorem State.outcome_stageContexts (s : State) : s.stageContexts.outcome = s.outcome := by
  rw [State.outcome, State.perform_stageContexts]
  rfl

/-- A deferred plan performs to the plan's outcome. -/
theorem State.perform_deferContexts (plan : State → State) (s : State) :
    (s.deferContexts plan).perform = (plan s).outcome := by
  unfold State.deferContexts
  dsimp only
  split
  · next hnil =>
    have hstages : (plan s).ren.stages = [] := List.isEmpty_iff.mp hnil
    rw [State.perform_nil hstages, State.outcome_of_nil hstages]
  · have hcontexts := State.performStages_putContexts (plan s).ren.stages s.ren.contexts (plan s).ren.contexts
      { plan s with ren := { (plan s).ren with stages := [] } }
    refine Eq.trans ?_ hcontexts
    exact List.foldl_append

/-! ### Plans that carry the contexts on -/

theorem State.PlansContexts.refl (s : State) : s.PlansContexts s := ⟨_, _, _, _, rfl⟩

theorem State.PlansContexts.trans (h : s.PlansContexts t) (h' : t.PlansContexts u) : s.PlansContexts u := by
  obtain ⟨_, _, _, _, rfl⟩ := h
  obtain ⟨_, _, _, _, rfl⟩ := h'
  exact ⟨_, _, _, _, rfl⟩

theorem State.ImagesOnly.plansContexts (h : s.ImagesOnly t) (hev : t.ev = s.ev) : s.PlansContexts t := by
  obtain ⟨ev, _, _, _, _, rfl⟩ := h
  have hev : ev = s.ev := hev
  subst hev
  exact ⟨_, _, _, _, rfl⟩

/-- The stages of a plan, done from where the plan started, come to its outcome but for the contexts. -/
theorem State.PlansContexts.performStages (h : s.PlansContexts t) (y : Contexts) :
    (t.ren.stages.foldl State.performStage { s with ren := { s.ren with stages := [] } }).putContexts y =
      t.outcome.putContexts y := by
  have hbase : { t with ren := { t.ren with stages := [] } } =
      State.putContexts t.ren.contexts { s with ren := { s.ren with stages := [] } } := by
    obtain ⟨_, _, _, _, rfl⟩ := h
    rfl
  have hperform : t.perform =
      t.ren.stages.foldl State.performStage (State.putContexts t.ren.contexts { s with ren := { s.ren with stages := [] } }) :=
    congrArg (t.ren.stages.foldl State.performStage) hbase
  rw [State.outcome, State.putContexts_putContexts, hperform]
  exact (State.performStages_putContexts _ _ _ _).symm

/-- A deferred plan changes the contexts at once where nothing is left to do, and else leaves all to do. -/
theorem State.PlansContexts.deferContexts (h : s.PlansContexts (plan s)) :
    s.PlansContexts (s.deferContexts plan) ∧ ((s.deferContexts plan).ren.stages ≠ [] → s.Plans (s.deferContexts plan)) := by
  unfold State.deferContexts
  dsimp only
  split
  · next hnil => exact ⟨h, fun hne => absurd (List.isEmpty_iff.mp hnil) hne⟩
  · generalize plan s = t at h ⊢
    obtain ⟨_, _, _, _, rfl⟩ := h
    exact ⟨⟨_, _, _, _, rfl⟩, fun _ => rfl⟩

theorem State.PlansContexts.nothingDrawn (h : s.PlansContexts t) : s.NothingDrawn t := by
  obtain ⟨_, _, _, _, rfl⟩ := h
  exact ⟨rfl, rfl, rfl, rfl⟩

end

end Sys2Proof.Machine
end

