-- ==== Sys2Proof/Proofs/ThresholdStripes.lean ====
section
/-! A stripe under the threshold method (R31, R36, R44): the cells that it draws, and the slot that it may end. -/

namespace Sys2Proof.Machine

section
variable {s : State} {k : Fin 4} {h : HeldStripe} {item : WorkItem} {rest : List WorkItem}

/-! ### Outcomes of plans -/

theorem State.freeIfDone_of (h : s.ren.slots[k].state = .closing ∧ s.ren.slots[k].complete) :
    s.freeIfDone k = s.putContexts (s.ren.freeSlot k).contexts := if_pos h

theorem State.outcome_freeIfDone (k : Fin 4) (s : State) : (s.freeIfDone k).outcome = s.outcome.freeIfDone k := by
  by_cases hdone : s.ren.slots[k].state = .closing ∧ s.ren.slots[k].complete
  · rw [State.freeIfDone_of hdone, State.outcome_putContexts]
    exact (State.freeIfDone_of (s := s.outcome) hdone).symm
  · have hself : s.freeIfDone k = s := if_neg hdone
    have hself' : s.outcome.freeIfDone k = s.outcome := if_neg hdone
    rw [hself, hself']

theorem State.contexts_drawn (c : MarkClass) (ws : List RowWrite) (s : State) :
    (s.drawn c ws).ren.contexts = s.ren.contexts := by
  obtain ⟨_, _, _, _, _, hframe⟩ := s.drawn_frame c ws
  rw [hframe]
  rfl

theorem State.putContexts_latchIf (x : Contexts) (b : Bool) (e : EdgeEvent) (s : State) :
    (s.latchIf b e).putContexts x = (s.putContexts x).latchIf b e := by
  cases b <;> rfl

/-- The row writes of a stripe under the threshold method. -/
def HeldStripe.thresholdWrites (h : HeldStripe) (t : HalftoneTables) (p : ImageParams) (rect : Rect) : List RowWrite :=
  thresholdStripe t p rect (stripeCellRows p h.index h.levels)

theorem State.outcome_renderThreshold (k : Fin 4) (h : HeldStripe) (s : State) :
    (s.renderThreshold k h).outcome =
      (s.outcome.drawn h.cls (h.thresholdWrites s.ren.tables s.ren.slots[k].params
        (s.ren.windowRect s.ren.slots[k].params))).putContexts (s.ren.contexts.setSlot k (s.ren.slots[k].receive h.index)) := by
  have hput : s.renderThreshold k h = (s.rowWrites h.cls (h.thresholdWrites s.ren.tables s.ren.slots[k].params
      (s.ren.windowRect s.ren.slots[k].params))).putContexts (s.ren.contexts.setSlot k (s.ren.slots[k].receive h.index)) := rfl
  rw [hput, State.outcome_putContexts, State.outcome_rowWrites]

/-- A slot is freed before a drawing or after it. -/
theorem State.freeIfDone_drawn (k : Fin 4) (c : MarkClass) (ws : List RowWrite) (s : State) :
    (s.drawn c ws).freeIfDone k = (s.freeIfDone k).drawn c ws := by
  obtain ⟨_, _, _, _, _, hframe⟩ := s.drawn_frame c ws
  have hcontexts : (s.drawn c ws).ren.contexts = s.ren.contexts := s.contexts_drawn c ws
  have hfreed : ((s.drawn c ws).ren.freeSlot k).contexts = (s.ren.freeSlot k).contexts := by
    rw [hframe]
    rfl
  have hdone : ((s.drawn c ws).ren.slots[k].state = .closing ∧ (s.drawn c ws).ren.slots[k].complete) ↔
      (s.ren.slots[k].state = .closing ∧ s.ren.slots[k].complete) := by
    rw [hframe]
  by_cases h : s.ren.slots[k].state = .closing ∧ s.ren.slots[k].complete
  · rw [State.freeIfDone_of h, State.freeIfDone_of (hdone.mpr h), State.drawn_putContexts, hfreed]
  · have hsame : s.freeIfDone k = s := if_neg h
    rw [hsame]
    exact if_neg fun hd => h (hdone.mp hd)

/-- A stripe under the threshold method, drawn from the state whose slot has received it and is freed if it is done. -/
theorem State.perform_threshold (hs : s.ren.stages = []) (k : Fin 4) (h : HeldStripe) :
    (s.deferContexts fun t => (t.renderThreshold k h).freeIfDone k).perform =
      ((s.putContexts (s.ren.contexts.setSlot k (s.ren.slots[k].receive h.index))).freeIfDone k).drawn h.cls
        (h.thresholdWrites s.ren.tables s.ren.slots[k].params (s.ren.windowRect s.ren.slots[k].params)) := by
  rw [State.perform_deferContexts, State.outcome_freeIfDone, State.outcome_renderThreshold, State.outcome_of_nil hs,
    ← State.drawn_putContexts, State.freeIfDone_drawn]

theorem State.plansContexts_renderThreshold (k : Fin 4) (h : HeldStripe) (s : State) :
    s.PlansContexts (s.renderThreshold k h) := ⟨_, _, _, _, rfl⟩

theorem State.plansContexts_freeIfDone (k : Fin 4) (s : State) : s.PlansContexts (s.freeIfDone k) :=
  (s.imagesOnly_freeIfDone k).plansContexts (s.freeIfDone_ev k)

/-! ### Stripes that the engine draws -/

theorem exec_threshold_stripe (ho : s.ren.Offers item rest) (hk : item.kind = .imageStripe)
    (hfind : s.ren.findImage (byteAt item.body 0) = some k)
    (hi : (wordAt item.body 1).toNat < s.ren.slots[k].params.stripeCount)
    (hr : s.ren.slots[k].received.getLsbD (wordAt item.body 1).toNat = false)
    (hm : s.ren.slots[k].params.method = .threshold) :
    exec .imageStripe s = .next (((s.took rest).fitted k item).deferContexts fun t =>
      (t.renderThreshold k (item.stripe (s.ren.slots[k].params.pixelsNeeded (wordAt item.body 1).toNat))).freeIfDone k) := by
  rw [exec_taken_stripe ho hk hfind hi]
  have hno : (s.took rest).ren.slots[k].params.method = .diffusion → ∀ g ∈ (s.took rest).ren.held,
      g.image = byteAt item.body 0 → g.index ≠ (wordAt item.body 1).toNat := fun hd => absurd (hm.symm.trans hd) nofun
  refine congrArg _ ((State.takeStripe_accepted (s := s.took rest) hr hno).trans ?_)
  have hm : (s.took rest).ren.slots[k].params.method = .threshold := hm
  rw [hm]
  rfl

theorem State.nothingDrawn_fitted {t : State} (h : ((s.took rest).fitted k item).PlansContexts t) : s.NothingDrawn t := by
  obtain ⟨himage, htext, hmark, hrow⟩ := h.nothingDrawn
  have hren := (s.took rest).fitted_ren k item
  refine ⟨himage.trans ?_, htext.trans ?_, hmark.trans ?_, hrow.trans ?_⟩
  · rw [hren]
    rfl
  · rw [hren]
    rfl
  · rw [hren]
    rfl
  · rw [State.fitted, State.latchIf_row, State.latchIf_row]
    rfl

end

/-! ### The threshold decisions (R44) -/

/-- The level of a cell, from the levels of the whole stripe. -/
theorem cellLevel_source {p : ImageParams} {levels : List (Fin 16)} {r k : Nat} (hk : k < p.width * p.scale) :
    cellLevel p ((levels.drop (p.width * r)).take p.width) k = levels.getD (p.width * r + k / p.scale) 0 := by
  have hpixel : k / p.scale < p.width := Nat.div_lt_of_lt_mul (by rw [Nat.mul_comm]; exact hk)
  rw [cellLevel, List.getD_eq_getElem?_getD, List.getElem?_take_of_lt hpixel, List.getElem?_drop,
    ← List.getD_eq_getElem?_getD]

/-- The decision of a processed cell. -/
theorem getD_thresholdRow (m : Vector Byte 64) (x0 : Nat) (y : RowNo) (ts : List Nat) {k : Nat} (hk : k < ts.length) :
    (thresholdRow m x0 y ts).getD k false = decide ((m.getD ((y.val % 8) * 8 + (x0 + k) % 8) 0).toNat < ts[k]) := by
  have hentry : y.val % 8 * 8 + (x0 + k) % 8 < 64 := by omega
  simp [thresholdRow, thresholdCell, List.getD_eq_getElem?_getD, hk, Vector.getD, Array.getD, hentry]

theorem HeldStripe.thresholdWrites_eq (h : HeldStripe) (t : HalftoneTables) (p : ImageParams) (rect : Rect) :
    h.thresholdWrites t p rect = decisionWrites p rect
      (fun y source => thresholdRow t.threshold p.x0 y (cellIntensities t.transfer p source))
      (stripeCellRows p h.index h.levels) := rfl

theorem HeldStripe.descends_thresholdWrites (h : HeldStripe) (t : HalftoneTables) (p : ImageParams) (rect : Rect) :
    Descends .image (h.thresholdWrites t p rect) := by
  rw [HeldStripe.thresholdWrites_eq]
  exact descends_decisionWrites (stripeCellRows_descend p h.index h.levels)

/-- Each cell of IMAGE after a stripe under the threshold method. -/
theorem State.getLsbD_threshold {p : ImageParams} (hp : p.Processes) (h : HeldStripe) (t : HalftoneTables) (rect : Rect)
    (s : State) (x y : RowNo) :
    ((s.drawn h.cls (h.thresholdWrites t p rect)).ren.image[y]).getLsbD x.val =
      if p.x0 ≤ x.val ∧ x.val < p.x0 + p.width * p.scale ∧ p.stripeTop h.index ≤ y.val ∧
          y.val < p.stripeTop h.index + p.scale * p.stripeRows h.index ∧ rect.contains x.val y.val = true then
        decide ((t.threshold.getD ((y.val % 8) * 8 + x.val % 8) 0).toNat <
          (t.transfer.getD (p.select.val * 16 + (h.levels.getD (p.width * ((y.val - p.stripeTop h.index) / p.scale) +
            (x.val - p.x0) / p.scale) 0).val) 0).toNat)
      else (s.ren.image[y]).getLsbD x.val := by
  have hrows := stripeCellRows_descend p h.index h.levels
  rw [HeldStripe.thresholdWrites_eq]
  by_cases hy : p.stripeTop h.index ≤ y.val ∧ y.val < p.stripeTop h.index + p.scale * p.stripeRows h.index
  · obtain ⟨hy0, hy1⟩ := hy
    have hmem := (mem_stripeCellRows (p := p) (i := h.index) (levels := h.levels) (y := y)).mpr
      ⟨hy0, by rw [Nat.mul_comm]; exact hy1, rfl⟩
    refine (State.getLsbD_decisions hrows hmem x).trans ?_
    rw [getLsbD_writtenColumns hp]
    by_cases hx : p.x0 ≤ x.val ∧ x.val < p.x0 + p.width * p.scale ∧ rect.contains x.val y.val = true
    · obtain ⟨hx0, hx1, hin⟩ := hx
      rw [if_pos (decide_eq_true ⟨hx0, hx1, hin⟩), if_pos ⟨hx0, hx1, hy0, hy1, hin⟩, decide_eq_true hx0, Bool.true_and]
      have hk : x.val - p.x0 < p.width * p.scale := by omega
      have hlen (source : List (Fin 16)) : x.val - p.x0 < (cellIntensities t.transfer p source).length := by
        rw [length_cellIntensities, ImageParams.processedWidth]
        omega
      rw [getD_thresholdRow _ _ _ _ (hlen _), Nat.add_sub_cancel' hx0]
      simp only [cellIntensities_eq, List.getElem_map, List.getElem_range]
      rw [← cellLevel_source (p := p) (r := (y.val - p.stripeTop h.index) / p.scale) hk]
      rfl
    · rw [if_neg (by rw [decide_eq_false hx]; exact Bool.false_ne_true), if_neg fun hc => hx ⟨hc.1, hc.2.1, hc.2.2.2.2⟩]
      rfl
  · rw [if_neg fun hc => hy ⟨hc.2.2.1, hc.2.2.2.1⟩]
    refine congrArg (fun b : RowBits => b.getLsbD x.val) (State.planeRow_decisions_off hrows fun source hmem => hy ?_)
    obtain ⟨hy0, hy1, _⟩ := mem_stripeCellRows.mp hmem
    exact ⟨hy0, by rw [Nat.mul_comm]; exact hy1⟩

/-- Settles O39: the plan's outcome is the drawing from the state whose slot has the stripe, or is FREE. -/
theorem thresholdStripeDrawnCellByCell : Obligations.ThresholdStripeDrawnCellByCell := by
  intro s item rest k ho hk n i c p hs hn honly hm hscale _ hwidth hx0 hi hr px need levels fitted fresh got
  obtain ⟨⟨_, hstages, _⟩, _, hready, _⟩ := id ho
  have hp : p.Processes := ⟨Nat.mul_pos hwidth hscale, hx0⟩
  have hexec := exec_threshold_stripe ho hk (Render.findImage_eq_some hs hn honly) hi hr hm
  have hv : fitted fresh s.ren.held = (s.took rest).fitted k item := rfl
  have hvren : (fitted fresh s.ren.held).ren = (s.took rest).ren.setSlot k fresh := (s.took rest).fitted_ren k item
  have hvslot : (fitted fresh s.ren.held).ren.slots[k] = fresh := (s.took rest).fitted_slot k item
  rw [← hv] at hexec
  have hplans := ((fitted fresh s.ren.held).plansContexts_renderThreshold k (item.stripe need)).trans
    (State.plansContexts_freeIfDone k _)
  have hdefer := State.PlansContexts.deferContexts
    (plan := fun t => (t.renderThreshold k (item.stripe need)).freeIfDone k) hplans
  have hput (c₀ c' : Slot) (held₀ held : List HeldStripe) : (fitted c₀ held₀).putContexts
      ⟨s.ren.slots.set k c', held, s.ren.ready⟩ = fitted c' held := by
    show (State.latchIf _ _ _).putContexts _ = _
    rw [State.putContexts_latchIf, State.putContexts_latchIf]
    rfl
  have hcontexts (c' : Slot) (held : List HeldStripe) : (fitted c' held).ren.contexts =
      ⟨s.ren.slots.set k c', held, s.ren.ready⟩ := by
    show (State.latchIf _ _ _).ren.contexts = _
    rw [State.latchIf_ren, State.latchIf_ren]
    rfl
  have hgot : (fitted fresh s.ren.held).putContexts ((fitted fresh s.ren.held).ren.contexts.setSlot k got) =
      fitted got s.ren.held := by
    rw [hcontexts, ← hput fresh got s.ren.held s.ren.held]
    exact congrArg (fun slots => (fitted fresh s.ren.held).putContexts ⟨slots, s.ren.held, s.ren.ready⟩) (Vector.set_set ..)
  have hslot : (fitted got s.ren.held).ren.slots[k] = got :=
    (congrArg (fun x : Contexts => x.slots[k]) (hcontexts got s.ren.held)).trans (Vector.getElem_set_self k.isLt)
  have hperform := State.perform_threshold (s := fitted fresh s.ren.held) (by rw [hvren]; exact hstages) k (item.stripe need)
  have hreceived : fresh.receive (item.stripe need).index = got := rfl
  rw [hvslot, hreceived, hgot, hvren] at hperform
  have hwrites := HeldStripe.descends_thresholdWrites (item.stripe need) s.ren.tables p s.ren.windows[p.window].rect
  refine ⟨_, (fitted got s.ren.held).freeIfDone k, hexec, State.nothingDrawn_fitted hdefer.1, hdefer.2, fun hnot => ?_,
    fun hclosing hcomplete => ?_, ?_, fun x y => ?_⟩
  · refine if_neg fun hdone => ?_
    rw [hslot] at hdone
    rcases hnot with h | h
    · cases h.symm.trans hdone.1
    · cases h.symm.trans hdone.2
  · rw [State.freeIfDone_of (by rw [hslot]; exact ⟨hclosing, hcomplete⟩), Render.freeSlot_eq, hslot]
    refine Eq.trans ?_ (hput got _ s.ren.held _)
    refine congrArg (fun x => (fitted got s.ren.held).putContexts x) ?_
    have hslots : (fitted got s.ren.held).ren.slots = s.ren.slots.set k got := congrArg Contexts.slots (hcontexts _ _)
    have hheld : (fitted got s.ren.held).ren.held = s.ren.held := congrArg Contexts.held (hcontexts _ _)
    have hnone : (fitted got s.ren.held).ren.ready = none := (congrArg Contexts.ready (hcontexts _ _)).trans hready
    show Contexts.mk (Vector.set _ _ _) (List.filter _ _) (Option.filter _ _) = _
    rw [hslots, hheld, hnone, hready, Vector.set_set, ← hn]
    rfl
  · rw [hperform]
    exact hwrites.drawnInto item.cls _
  · have himage : ((fitted got s.ren.held).freeIfDone k).ren.image = s.ren.image := by
      obtain ⟨hkept, _⟩ := (State.plansContexts_freeIfDone k (fitted got s.ren.held)).nothingDrawn
      rw [hkept]
      show (State.latchIf _ _ _).ren.image = _
      rw [State.latchIf_ren, State.latchIf_ren]
      rfl
    rw [hperform, ← himage]
    exact State.getLsbD_threshold hp (item.stripe need) s.ren.tables s.ren.windows[p.window].rect _ x y

end Sys2Proof.Machine
end

