-- ==== Sys2Proof/Proofs/Renderings.lean ====
section
/-! Renderings of stripes under the line-diffusion method (R22, R32, R33, R35): what the plan of one stripe, or of several one
after another, comes to. -/

namespace Sys2Proof.Machine

section
variable {s t u : State} {k : Fin 4} {h : HeldStripe} {c : Slot} {i : Nat}

/-! ### The slot under a rendering -/

/-- The lowest missing index above the one received. -/
theorem Slot.missingAbove_nextMissing (c : Slot) (i : Nat) : c.MissingAbove i ((c.receive i).nextMissing i) := by
  refine ⟨fun j hij hj hcount => ?_, Slot.nextMissing_le_count _ _, fun hlt => ?_⟩
  · by_contra hmissing
    have hmissing : (c.receive i).received.getLsbD j = false :=
      (getLsbD_receive_ne (Nat.ne_of_lt hij)).trans (Bool.not_eq_true _ ▸ hmissing)
    exact absurd (Slot.nextMissing_le (c := c.receive i) hij hcount hmissing) (Nat.not_le.mpr hj)
  · have hparams : (c.receive i).params = c.params := rfl
    unfold Slot.nextMissing at hlt ⊢
    rw [hparams] at hlt ⊢
    cases hfind : (List.range c.params.stripeCount).find? (fun j => decide (i < j) && !(c.receive i).received.getLsbD j) with
    | none =>
      rw [hfind] at hlt
      exact absurd hlt (Nat.lt_irrefl _)
    | some j =>
      have hj := List.find?_some hfind
      rw [Bool.and_eq_true, decide_eq_true_eq, Bool.not_eq_true'] at hj
      exact ⟨hj.1, (getLsbD_receive_ne (Nat.ne_of_lt hj.1)).symm.trans hj.2⟩

theorem Slot.skipTo_eq (i : Nat) (c : Slot) :
    c.skipTo i = { c with err := (c.skipTo i).err, next := (c.skipTo i).next } := by
  unfold Slot.skipTo
  split <;> rfl

theorem Slot.skipTo_err (i : Nat) (c : Slot) :
    (c.skipTo i).err = if c.next < i then Vector.replicate 512 0 else c.err := by
  unfold Slot.skipTo
  split <;> rfl

theorem Contexts.setSlot_self (k : Fin 4) (x : Contexts) : x.setSlot k x.slots[k] = x :=
  congrArg (fun slots => Contexts.mk slots x.held x.ready) (Vector.set_getElem_self k.isLt)

theorem Contexts.setSlot_setSlot (k : Fin 4) (c c' : Slot) (x : Contexts) : (x.setSlot k c).setSlot k c' = x.setSlot k c' :=
  congrArg (fun slots => Contexts.mk slots x.held x.ready) (Vector.set_set ..)

theorem Contexts.slot_setSlot (k : Fin 4) (c : Slot) (x : Contexts) : (x.setSlot k c).slots[k] = c :=
  Vector.getElem_set_self k.isLt

/-! ### One stripe -/

/-- The stripe's writes and last entries, from a slot's error row. -/
def HeldStripe.diffused (h : HeldStripe) (t : HalftoneTables) (p : ImageParams) (rect : Rect) (inc : List Int) :
    List RowWrite × List Int := diffuseStripe t p rect inc (stripeCellRows p h.index h.levels)

theorem HeldStripe.stripeDiffused (h : HeldStripe) {p : ImageParams} (hp : p.Processes) (t : HalftoneTables) (rect : Rect)
    (c : MarkClass) {inc : List Int} (hinc : inc.length = p.processedWidth) (s : State) :
    StripeDiffused t p rect c (stripeCellRows p h.index h.levels) inc s (s.drawn c (h.diffused t p rect inc).1)
      (h.diffused t p rect inc).2 := Machine.stripeDiffused hp rect c _ inc hinc s

/-- The slot after a stripe rendered in order, from the entries left under its last row (R32). -/
def Slot.renderedFrom (h : HeldStripe) (out : List Int) (c : Slot) : Slot :=
  c.rendered h.index (if (stripeCellRows c.params h.index h.levels).isEmpty then c.err else errorRowOf out)

theorem State.outcome_renderInOrder (k : Fin 4) (h : HeldStripe) (s : State) :
    let c := s.ren.slots[k]
    let out := h.diffused s.ren.tables c.params (s.ren.windowRect c.params) (incomingOf c.params c.err)
    (s.renderInOrder k h).outcome =
      (s.outcome.drawn h.cls out.1).putContexts (s.ren.contexts.setSlot k (c.renderedFrom h out.2)) := by
  intro c out
  have hput : s.renderInOrder k h =
      (s.rowWrites h.cls out.1).putContexts (s.ren.contexts.setSlot k (c.renderedFrom h out.2)) := rfl
  rw [hput, State.outcome_putContexts, State.outcome_rowWrites]

theorem State.contexts_renderInOrder (k : Fin 4) (h : HeldStripe) (s : State) :
    ∃ err, (s.renderInOrder k h).ren.contexts = s.ren.contexts.setSlot k (s.ren.slots[k].rendered h.index err) := ⟨_, rfl⟩

theorem State.skipGap_of_not (hn : ¬ s.ren.slots[k].next < h.index) : s.skipGap k h = s := if_neg hn

theorem State.contexts_skipGap (k : Fin 4) (h : HeldStripe) (s : State) :
    (s.skipGap k h).ren.contexts = s.ren.contexts.setSlot k (s.ren.slots[k].skipTo h.index) := by
  by_cases hn : s.ren.slots[k].next < h.index
  · rw [State.skipGap, if_pos hn]
    rfl
  · have hslot : s.ren.slots[k].skipTo h.index = s.ren.contexts.slots[k] := if_neg hn
    rw [State.skipGap_of_not hn, hslot, Contexts.setSlot_self]

theorem State.outcome_skipGap (k : Fin 4) (h : HeldStripe) (s : State) :
    (s.skipGap k h).outcome = s.outcome.putContexts (s.ren.contexts.setSlot k (s.ren.slots[k].skipTo h.index)) := by
  rw [← State.contexts_skipGap]
  by_cases hn : s.ren.slots[k].next < h.index
  · have hput : s.skipGap k h =
        (s.putContexts (s.ren.contexts.setSlot k (s.ren.slots[k].skipTo h.index))).stageContexts := if_pos hn
    rw [hput, State.outcome_stageContexts, State.outcome_putContexts]
    rfl
  · rw [State.skipGap_of_not hn]
    rfl

theorem State.plansContexts_skipGap (k : Fin 4) (h : HeldStripe) (s : State) : s.PlansContexts (s.skipGap k h) := by
  unfold State.skipGap
  split
  · exact ⟨_, _, _, _, rfl⟩
  · exact .refl s

theorem State.plansContexts_renderAfterGap (k : Fin 4) (h : HeldStripe) (s : State) :
    s.PlansContexts (s.renderAfterGap k h) := (s.plansContexts_skipGap k h).trans ⟨_, _, _, _, rfl⟩

theorem State.PlansContexts.tables (h : s.PlansContexts t) : t.ren.tables = s.ren.tables := by
  obtain ⟨_, _, _, _, rfl⟩ := h
  rfl

theorem State.PlansContexts.windows (h : s.PlansContexts t) : t.ren.windows = s.ren.windows := by
  obtain ⟨_, _, _, _, rfl⟩ := h
  rfl

/-- A stripe rendered after its gap writes its slot: the index received, e and the error row. -/
theorem State.contexts_renderAfterGap (k : Fin 4) (h : HeldStripe) (s : State) : ∃ next err,
    (s.renderAfterGap k h).ren.contexts = s.ren.contexts.setSlot k
      { s.ren.slots[k] with received := s.ren.slots[k].received ||| BitVec.twoPow 512 h.index, next := next, err := err } := by
  obtain ⟨err, hcontexts⟩ := (s.skipGap k h).contexts_renderInOrder k h
  have hslot : (s.skipGap k h).ren.slots[k] = s.ren.slots[k].skipTo h.index := by
    show (s.skipGap k h).ren.contexts.slots[k] = _
    rw [State.contexts_skipGap, Contexts.slot_setSlot]
  rw [hslot, State.contexts_skipGap, Contexts.setSlot_setSlot, Slot.skipTo_eq] at hcontexts
  exact ⟨_, err, hcontexts⟩

theorem length_incomingOf (p : ImageParams) (err : Vector Int 512) : (incomingOf p err).length = p.processedWidth := by
  rw [incomingOf, List.length_take, Vector.length_toList, ImageParams.processedWidth]
  omega

/-- What a stripe rendered after its gap comes to. -/
theorem State.renderedInOrder (hp : s.ren.slots[k].params.Processes) :
    RenderedInOrder k s.outcome h (s.renderAfterGap k h).outcome := by
  have houtcome := (s.skipGap k h).outcome_renderInOrder k h
  have hslot : (s.skipGap k h).ren.slots[k] = s.ren.slots[k].skipTo h.index := by
    show (s.skipGap k h).ren.contexts.slots[k] = _
    rw [State.contexts_skipGap, Contexts.slot_setSlot]
  have hparams : (s.ren.slots[k].skipTo h.index).params = s.ren.slots[k].params := by rw [Slot.skipTo_eq]
  have hwindow : (s.skipGap k h).ren.windowRect s.ren.slots[k].params = s.ren.windowRect s.ren.slots[k].params := by
    rw [Render.windowRect, (s.plansContexts_skipGap k h).windows]
    rfl
  dsimp only at houtcome
  rw [hslot, hparams, hwindow, (s.plansContexts_skipGap k h).tables, State.outcome_skipGap, State.contexts_skipGap,
    State.drawn_putContexts, State.putContexts_putContexts, Contexts.setSlot_setSlot] at houtcome
  have hnext : ((s.ren.slots[k].skipTo h.index).receive h.index).nextMissing h.index =
      (s.ren.slots[k].receive h.index).nextMissing h.index := by
    rw [Slot.skipTo_eq]
    rfl
  have hstripe := h.stripeDiffused hp s.ren.tables (s.ren.windowRect s.ren.slots[k].params) h.cls
    (length_incomingOf s.ren.slots[k].params (s.ren.slots[k].skipTo h.index).err) s.outcome
  generalize h.diffused _ _ _ _ = out at hstripe houtcome
  have hstart := Slot.skipTo_err h.index s.ren.slots[k]
  unfold RenderedInOrder
  dsimp only
  rw [State.tables_outcome, State.windows_outcome]
  show ∃ v out err e, StripeDiffused s.ren.tables s.ren.slots[k].params _ h.cls (stripeCellRows s.ren.slots[k].params h.index
    h.levels) ((if s.ren.slots[k].next < h.index then Vector.replicate 512 0 else s.ren.slots[k].err).toList.take
      s.ren.slots[k].params.processedWidth) s.outcome v out ∧ (_ → err = if s.ren.slots[k].next < h.index then
        Vector.replicate 512 0 else s.ren.slots[k].err) ∧ _ ∧ s.ren.slots[k].MissingAbove h.index e ∧ _
  rw [← hstart]
  refine ⟨_, out.2, if (stripeCellRows s.ren.slots[k].params h.index h.levels).isEmpty then
    (s.ren.slots[k].skipTo h.index).err else errorRowOf out.2, _, hstripe, fun hrows => ?_, fun hrows n => ?_,
    Slot.missingAbove_nextMissing _ _, houtcome.trans ?_⟩
  · exact if_pos (List.isEmpty_iff.mpr hrows)
  · rw [if_neg (by rw [List.isEmpty_iff]; exact hrows)]
    exact getElem_tabulate _ n.val n.isLt
  · have hcontexts : (s.outcome.drawn h.cls out.1).ren.contexts = s.ren.contexts := State.contexts_drawn _ _ _
    rw [Slot.renderedFrom, hparams, Slot.rendered, hnext, ← hcontexts]
    generalize s.outcome.drawn h.cls out.1 = v
    have hslot : (s.ren.slots[k].skipTo h.index).receive h.index = { s.ren.slots[k].receive h.index with
        err := (s.ren.slots[k].skipTo h.index).err, next := (s.ren.slots[k].skipTo h.index).next } :=
      congrArg (Slot.receive h.index) (Slot.skipTo_eq h.index s.ren.slots[k])
    rw [hslot]
    rfl

/-! ### Several stripes one after another (R32, R35) -/

/-- Stripes rendered one after another, each ending by itself. -/
def State.renderEach (k : Fin 4) (hs : List HeldStripe) (s : State) : State :=
  hs.foldl (fun s h => (s.renderAfterGap k h).stageContexts) s

theorem State.renderEach_cons (k : Fin 4) (h : HeldStripe) (hs : List HeldStripe) (s : State) :
    s.renderEach k (h :: hs) = ((s.renderAfterGap k h).stageContexts).renderEach k hs := rfl

theorem State.renderEach_append (k : Fin 4) (hs hs' : List HeldStripe) (s : State) :
    s.renderEach k (hs ++ hs') = (s.renderEach k hs).renderEach k hs' := List.foldl_append

theorem State.plansContexts_renderEach (k : Fin 4) (hs : List HeldStripe) (s : State) :
    s.PlansContexts (s.renderEach k hs) := by
  induction hs generalizing s with
  | nil => exact .refl s
  | cons h hs ih => exact ((s.plansContexts_renderAfterGap k h).trans ⟨_, _, _, _, rfl⟩).trans (ih _)

/-- A rendering writes its slot and nothing else of the contexts. -/
theorem State.slot_renderAfterGap (k : Fin 4) (h : HeldStripe) (s : State) :
    s.SameHold k (s.renderAfterGap k h) ∧ (s.renderAfterGap k h).ren.ready = s.ren.ready ∧
      (s.renderAfterGap k h).ren.slots[k].received = s.ren.slots[k].received ||| BitVec.twoPow 512 h.index := by
  obtain ⟨next, err, hcontexts⟩ := s.contexts_renderAfterGap k h
  have hslots := congrArg Contexts.slots hcontexts
  refine ⟨.of_slot (c := { s.ren.slots[k] with
    received := s.ren.slots[k].received ||| BitVec.twoPow 512 h.index, next := next, err := err }) rfl rfl rfl hslots (congrArg Contexts.held hcontexts), congrArg Contexts.ready hcontexts, ?_⟩
  have hslot := (congrArg (fun x : Contexts => x.slots[k]) hcontexts).trans (Contexts.slot_setSlot _ _ _)
  exact congrArg Slot.received hslot

theorem State.slot_renderEach (k : Fin 4) (hs : List HeldStripe) (s : State) :
    s.SameHold k (s.renderEach k hs) ∧ (s.renderEach k hs).ren.ready = s.ren.ready ∧
      ∀ i, i < 512 → (s.ren.slots[k].received.getLsbD i = true ∨ ∃ h ∈ hs, h.index = i) →
        (s.renderEach k hs).ren.slots[k].received.getLsbD i = true := by
  induction hs generalizing s with
  | nil =>
    refine ⟨.refl k s, rfl, fun i _ hi => ?_⟩
    rcases hi with hi | ⟨_, hh, _⟩
    · exact hi
    · cases hh
  | cons h hs ih =>
    obtain ⟨hsame, hready, hreceived⟩ := s.slot_renderAfterGap k h
    obtain ⟨hsame', hready', hall⟩ := ih (s.renderAfterGap k h).stageContexts
    refine ⟨hsame.trans ⟨hsame'.state, hsame'.image, hsame'.params, hsame'.held⟩, hready'.trans hready, fun i hlt hi => ?_⟩
    refine hall i hlt ?_
    have hreceived : (s.renderAfterGap k h).stageContexts.ren.slots[k].received =
      s.ren.slots[k].received ||| BitVec.twoPow 512 h.index := hreceived
    rw [hreceived, BitVec.getLsbD_or, BitVec.getLsbD_twoPow]
    rcases hi with hi | ⟨g, hg, rfl⟩
    · left
      rw [hi, Bool.true_or]
    · rcases List.mem_cons.mp hg with rfl | hg
      · left
        rw [decide_eq_true hlt, decide_eq_true rfl, Bool.and_self, Bool.or_true]
      · exact .inr ⟨g, hg, rfl⟩

/-- What stripes rendered one after another come to. -/
theorem State.renderedAll (hp : s.ren.slots[k].params.Processes) (hs : List HeldStripe) :
    RenderedAll k hs s.outcome (s.renderEach k hs).outcome := by
  induction hs generalizing s with
  | nil => rfl
  | cons h hs ih =>
    obtain ⟨hsame, _⟩ := s.slot_renderAfterGap k h
    have hp' : (s.renderAfterGap k h).stageContexts.ren.slots[k].params.Processes := hsame.params ▸ hp
    have hrest := ih hp'
    rw [State.outcome_stageContexts] at hrest
    exact ⟨_, State.renderedInOrder hp, hrest⟩

theorem renderedAll_append {hs hs' : List HeldStripe} (h : RenderedAll k hs s t) (h' : RenderedAll k hs' t u) :
    RenderedAll k (hs ++ hs') s u := by
  induction hs generalizing s with
  | nil =>
    cases h
    exact h'
  | cons g hs ih =>
    obtain ⟨w, hw, hrest⟩ := h
    exact ⟨w, hw, ih hrest⟩

theorem State.stages_renderAfterGap (k : Fin 4) (h : HeldStripe) (s : State) :
    ∃ more, (s.renderAfterGap k h).ren.stages = s.ren.stages ++ more := by
  have hskip : ∃ more, (s.skipGap k h).ren.stages = s.ren.stages ++ more := by
    unfold State.skipGap
    split
    · exact ⟨_, rfl⟩
    · exact ⟨[], (List.append_nil _).symm⟩
  obtain ⟨more, hskip⟩ := hskip
  obtain ⟨err, ws, heq⟩ := (s.skipGap k h).renderInOrder_eq k h
  refine ⟨more ++ ws.map (Stage.write h.cls), ?_⟩
  rw [State.renderAfterGap, heq]
  exact (congrArg (· ++ ws.map (Stage.write h.cls)) hskip).trans (List.append_assoc _ _ _)

theorem State.stages_renderEach (k : Fin 4) (hs : List HeldStripe) (s : State) :
    ∃ more, (s.renderEach k hs).ren.stages = s.ren.stages ++ more := by
  induction hs generalizing s with
  | nil => exact ⟨[], (List.append_nil _).symm⟩
  | cons h hs ih =>
    obtain ⟨more, hfirst⟩ := s.stages_renderAfterGap k h
    obtain ⟨more', hrest⟩ := ih (s.renderAfterGap k h).stageContexts
    refine ⟨more ++ [.contexts (s.renderAfterGap k h).ren.contexts] ++ more', ?_⟩
    rw [State.renderEach_cons, hrest, State.stageContexts_stages, hfirst, List.append_assoc, List.append_assoc, List.append_assoc]

/-- The stages of stripes rendered one after another come, from where the plan started, to their outcome. -/
theorem State.performStages_renderEach (h : u.PlansContexts s) {hs : List HeldStripe} (hne : hs ≠ []) :
    (s.renderEach k hs).ren.stages.foldl State.performStage { u with ren := { u.ren with stages := [] } } =
      (s.renderEach k hs).outcome := by
  obtain ⟨init, last, rfl⟩ := (List.eq_nil_or_concat hs).resolve_left hne
  rw [List.concat_eq_append, State.renderEach_append]
  have hplan := (h.trans (s.plansContexts_renderEach k init)).trans ((s.renderEach k init).plansContexts_renderAfterGap k last)
  show ((s.renderEach k init).renderAfterGap k last).stageContexts.ren.stages.foldl _ _ =
    ((s.renderEach k init).renderAfterGap k last).stageContexts.outcome
  rw [State.stageContexts_stages, List.foldl_append, State.outcome_stageContexts]
  exact hplan.performStages _

theorem State.stages_renderEach_ne {hs : List HeldStripe} (hne : hs ≠ []) : (s.renderEach k hs).ren.stages ≠ [] := by
  obtain ⟨init, last, rfl⟩ := (List.eq_nil_or_concat hs).resolve_left hne
  rw [List.concat_eq_append, State.renderEach_append]
  exact List.append_ne_nil_of_right_ne_nil _ (List.cons_ne_nil _ _)

theorem State.stages_deferContexts (plan : State → State) (s : State) :
    ∃ left, (s.deferContexts plan).ren.stages = (plan s).ren.stages ++ left := by
  unfold State.deferContexts
  dsimp only
  split
  · exact ⟨[], (List.append_nil _).symm⟩
  · exact ⟨_, rfl⟩

/-- Each of the stripes ends by itself among what a plan that goes on from them leaves to do. -/
theorem State.endsEach {mine : List HeldStripe} {plan : State → State} (hp : s.ren.slots[k].params.Processes)
    (hs : s.ren.stages = []) (h : u.PlansContexts s) (hplan : u.PlansContexts (plan u))
    (hstages : ∃ left, (plan u).ren.stages = (s.renderEach k mine).ren.stages ++ left) :
    EndsEach k mine s (u.deferContexts plan) := by
  intro j hj hlen
  have htake : mine.take j ≠ [] := fun hnil => by
    have := congrArg List.length hnil
    rw [List.length_take, List.length_nil] at this
    omega
  obtain ⟨more, hmore⟩ := ((s.renderEach k (mine.take j)).stages_renderEach k (mine.drop j))
  rw [← State.renderEach_append, List.take_append_drop] at hmore
  obtain ⟨left, hleft⟩ := hstages
  obtain ⟨last, hlast⟩ := u.stages_deferContexts plan
  rw [hleft, hmore, List.append_assoc, List.append_assoc] at hlast
  have hne : (u.deferContexts plan).ren.stages ≠ [] := by
    rw [hlast]
    exact List.append_ne_nil_of_left_ne_nil (State.stages_renderEach_ne htake) _
  have hall := State.renderedAll hp (mine.take j)
  rw [State.outcome_of_nil hs] at hall
  refine ⟨_, _, _, hlast, hall, ?_⟩
  have hplans : u.Plans (u.deferContexts plan) := hplan.deferContexts.2 hne
  rw [hplans]
  exact State.performStages_renderEach h htake

/-! ### Held stripes in index order -/

theorem perm_insertByIndex (h : HeldStripe) (l : List HeldStripe) : (insertByIndex h l).Perm (h :: l) := by
  induction l with
  | nil => exact .refl _
  | cons g l ih =>
    unfold insertByIndex
    split
    · exact .refl _
    · exact (ih.cons g).trans (.swap h g l)

theorem pairwise_insertByIndex {h : HeldStripe} {l : List HeldStripe} (hl : l.Pairwise (fun a b => a.index ≤ b.index)) :
    (insertByIndex h l).Pairwise (fun a b => a.index ≤ b.index) := by
  induction l with
  | nil => exact List.pairwise_singleton _ _
  | cons g l ih =>
    obtain ⟨hg, hrest⟩ := List.pairwise_cons.mp hl
    unfold insertByIndex
    split
    · next hle =>
      refine List.pairwise_cons.mpr ⟨fun f hf => ?_, hl⟩
      rcases List.mem_cons.mp hf with rfl | hf
      · exact hle
      · exact hle.trans (hg f hf)
    · next hnle =>
      refine List.pairwise_cons.mpr ⟨fun f hf => ?_, ih hrest⟩
      rcases mem_insertByIndex.mp hf with rfl | hf
      · exact (Nat.not_le.mp hnle).le
      · exact hg f hf

theorem inIndexOrder_byIndex {p : HeldStripe → Bool} {held : List HeldStripe} :
    InIndexOrder p held (byIndex (held.filter p)) := by
  unfold byIndex
  refine ⟨?_, ?_⟩
  · induction held.filter p with
    | nil => exact .refl _
    | cons h l ih => exact (perm_insertByIndex h _).trans (ih.cons h)
  · induction held.filter p with
    | nil => exact .nil
    | cons h l ih => exact pairwise_insertByIndex ih

theorem mem_of_inIndexOrder {p : HeldStripe → Bool} {held mine : List HeldStripe} (h : InIndexOrder p held mine)
    {g : HeldStripe} : g ∈ mine ↔ g ∈ held ∧ p g = true := by
  rw [h.1.mem_iff, List.mem_filter]

/-- The held stripes of an image that satisfy `p` are rendered in index order, and the others stay held. -/
theorem State.renderHeld_eq (k : Fin 4) (n : Byte) (p : HeldStripe → Bool) (s : State) :
    s.renderHeld k n p = State.renderEach k (byIndex (s.ren.held.filter (fun h => h.image == n && p h)))
      { s with ren := { s.ren with held := s.ren.held.filter (fun h => !(h.image == n && p h)) } } := rfl

end

end Sys2Proof.Machine
end

