-- ==== Sys2Proof/Proofs/Closes.lean ====
section
/-! IMAGE_CLOSE and IMAGE_ABORT (R35, R38): the slot that they end, after its held stripes are rendered. -/

namespace Sys2Proof.Machine

/-- What a close leaves of its slot (R35). -/
def Slot.ended (c : Slot) : Slot :=
  if c.complete = true then { c with state := .free } else { c with state := .closing, closing := 0 }

/-- The slot's end at a close, after its held stripes. -/
def State.endImage (k : Fin 4) (s : State) : State :=
  if s.ren.slots[k].complete then { s with ren := s.ren.freeSlot k }
  else { s with ren := s.ren.setSlot k { s.ren.slots[k] with state := .closing, closing := 0 } }

section
variable {s : State} {k : Fin 4} {n : Byte} {item : WorkItem} {rest : List WorkItem}

theorem Render.freeSlot_of_ready {r : Render} (h : r.ready = none) (k : Fin 4) :
    r.freeSlot k = { r.setSlot k { r.slots[k] with state := .free } with
      held := r.held.filter (fun g => decide (g.image ≠ r.slots[k].image)) } :=
  Render.dropHeld_eq (r := r.setSlot k { r.slots[k] with state := .free }) h _

/-- With no stripe of its image held or ready, the slot alone is written. -/
theorem State.endImage_eq (hready : s.ren.ready = none) (hheld : ∀ g ∈ s.ren.held, g.image ≠ s.ren.slots[k].image) :
    s.endImage k = { s with ren := s.ren.setSlot k s.ren.slots[k].ended } := by
  unfold State.endImage Slot.ended
  by_cases hc : s.ren.slots[k].complete = true
  · have hall : s.ren.held.filter (fun g => decide (g.image ≠ s.ren.slots[k].image)) = s.ren.held :=
      List.filter_eq_self.mpr fun g hg => decide_eq_true (hheld g hg)
    rw [if_pos hc, if_pos hc, Render.freeSlot_of_ready hready, hall]
    rfl
  · rw [if_neg hc, if_neg hc]

theorem State.outcome_endImage (k : Fin 4) (s : State) : (s.endImage k).outcome = s.outcome.endImage k := by
  have hput (t : State) : t.endImage k = t.putContexts (t.endImage k).ren.contexts := by
    unfold State.endImage
    split <;> rfl
  have hcontexts : (s.outcome.endImage k).ren.contexts = (s.endImage k).ren.contexts := by
    unfold State.endImage
    by_cases hc : s.ren.slots[k].complete = true
    · have hc' : s.outcome.ren.slots[k].complete = true := hc
      rw [if_pos hc, if_pos hc']
      rfl
    · have hc' : ¬ s.outcome.ren.slots[k].complete = true := hc
      rw [if_neg hc, if_neg hc']
      rfl
  rw [hput s, State.outcome_putContexts, hput s.outcome, hcontexts]

theorem State.stages_endImage (k : Fin 4) (s : State) : (s.endImage k).ren.stages = s.ren.stages := by
  unfold State.endImage
  split <;> rfl

theorem State.plansContexts_endImage (k : Fin 4) (s : State) : s.PlansContexts (s.endImage k) := by
  unfold State.endImage
  split
  · exact ⟨_, _, _, _, rfl⟩
  · exact ⟨_, _, _, _, rfl⟩

theorem State.closeSlot_diffusion (h : s.ren.slots[k].params.method = .diffusion) :
    s.closeSlot k = (s.renderHeld k s.ren.slots[k].image fun _ => true).endImage k := by
  unfold State.closeSlot
  rw [h]
  rfl

theorem State.closeSlot_threshold (h : s.ren.slots[k].params.method = .threshold) : s.closeSlot k = s.endImage k := by
  unfold State.closeSlot
  rw [h]
  rfl

/-- The held stripes of an image leave the hold queue. -/
theorem State.renderHeld_all (k : Fin 4) (n : Byte) (s : State) :
    s.renderHeld k n (fun _ => true) = State.renderEach k (byIndex (s.ren.held.filter (fun g => decide (g.image = n))))
      { s with ren := { s.ren with held := s.ren.held.filter (fun g => decide (g.image ≠ n)) } } := by
  have hmine : (fun g : HeldStripe => g.image == n && true) = fun g => decide (g.image = n) := by
    funext g
    rw [Bool.and_true, Bool.eq_iff_iff, beq_iff_eq, decide_eq_true_eq]
  have hothers : (fun g : HeldStripe => !(g.image == n && true)) = fun g => decide (g.image ≠ n) := by
    funext g
    rw [Bool.and_true, Bool.eq_iff_iff, Bool.not_eq_true', beq_eq_false_iff_ne, decide_eq_true_eq]
  rw [State.renderHeld_eq, hmine, hothers]

theorem State.renderHeld_none (h : ∀ g ∈ s.ren.held, g.image ≠ n) : s.renderHeld k n (fun _ => true) = s := by
  have hmine : s.ren.held.filter (fun g => decide (g.image = n)) = [] :=
    List.filter_eq_nil_iff.mpr fun g hg => by
      rw [decide_eq_true_eq]
      exact h g hg
  have hothers : s.ren.held.filter (fun g => decide (g.image ≠ n)) = s.ren.held :=
    List.filter_eq_self.mpr fun g hg => decide_eq_true (h g hg)
  rw [State.renderHeld_all, hmine, hothers]
  rfl

/-- The close of an OPEN slot that the engine takes. -/
theorem exec_imageClose_opened (ho : s.ren.Offers item rest) (hk : item.kind = .imageClose)
    (hfind : s.ren.findImage (byteAt item.body 0) = some k) (hopen : s.ren.slots[k].state = .opened) :
    exec .imageClose s = .next ((s.took rest).deferContexts (State.closeSlot k)) := by
  refine (congrArg Host.Outcome.next (State.runItem_offers ho hk)).trans (congrArg _ ?_)
  have hfind' : (s.took rest).ren.findImage (byteAt item.body 0) = some k := hfind
  rw [imageCloseWork, hfind']
  exact if_pos hopen

/-- A close of an image with no held stripes ends its slot at once. -/
theorem State.closeSlot_plain (hready : s.ren.ready = none) (hheld : ∀ g ∈ s.ren.held, g.image ≠ s.ren.slots[k].image) :
    s.closeSlot k = { s with ren := s.ren.setSlot k s.ren.slots[k].ended } := by
  rw [← State.endImage_eq hready hheld]
  cases hm : s.ren.slots[k].params.method with
  | diffusion => rw [State.closeSlot_diffusion hm, State.renderHeld_none hheld]
  | threshold => exact State.closeSlot_threshold hm

/-- The state from which a close renders: the slot's held stripes have left the hold queue. -/
def State.unheld (n : Byte) (s : State) : State :=
  { s with ren := { s.ren with held := s.ren.held.filter (fun g => decide (g.image ≠ n)) } }

/-- What the close of a DIFFUSION slot comes to: its held stripes rendered, and then its end. -/
theorem State.perform_close (hready : s.ren.ready = none) (hn : s.ren.slots[k].image = n)
    (hm : s.ren.slots[k].params.method = .diffusion) {v : State}
    (hv : v = ((s.unheld n).renderEach k (byIndex (s.ren.held.filter (fun g => decide (g.image = n))))).outcome) :
    (s.deferContexts (State.closeSlot k)).perform = { v with ren := v.ren.setSlot k v.ren.slots[k].ended } := by
  obtain ⟨hsame, hready', _⟩ := (s.unheld n).slot_renderEach k (byIndex (s.ren.held.filter (fun g => decide (g.image = n))))
  rw [State.perform_deferContexts, State.closeSlot_diffusion hm, hn, State.outcome_endImage, State.renderHeld_all]
  subst hv
  refine State.endImage_eq (hready'.trans hready) fun g hg => ?_
  have hg : g ∈ (s.unheld n).ren.held := hsame.held ▸ hg
  have himage : ((s.unheld n).renderEach k (byIndex (s.ren.held.filter (fun g => decide (g.image = n))))).ren.slots[k].image =
    n := hsame.image.trans hn
  have hne := of_decide_eq_true (List.mem_filter.mp hg).2
  exact fun heq => hne (heq.trans himage)

theorem State.stages_close (hn : s.ren.slots[k].image = n) (hm : s.ren.slots[k].params.method = .diffusion) :
    (s.closeSlot k).ren.stages =
      ((s.unheld n).renderEach k (byIndex (s.ren.held.filter (fun g => decide (g.image = n))))).ren.stages := by
  rw [State.closeSlot_diffusion hm, State.stages_endImage, hn, State.renderHeld_all]
  rfl

end

theorem Slot.ended_state (c : Slot) : c.ended.state ≠ .opened := by
  unfold Slot.ended
  split <;> nofun

theorem Slot.ended_received (c : Slot) : c.ended.received = c.received := by
  unfold Slot.ended
  split <;> rfl

/-- Settles O41: a close comes to `State.perform_close`, and an abort frees its slot. -/
theorem closeAndAbortEndTheImage : Obligations.CloseAndAbortEndTheImage := by
  intro s item rest ho n u ended
  obtain ⟨⟨_, hstages, _⟩, _, hready, _⟩ := id ho
  refine ⟨fun hno => ⟨fun hk => ?_, fun hk => ?_⟩, fun k hs hn honly =>
    ⟨fun hk => ?_, fun hk hclosing => ?_, fun hk hopen hheld => ?_, fun hk hopen hm => ?_⟩⟩
  · refine (congrArg Host.Outcome.next (State.runItem_offers ho hk)).trans (congrArg _ ?_)
    have hfind : u.ren.findImage (byteAt item.body 0) = none := Render.findImage_eq_none (r := u.ren) hno
    rw [imageCloseWork, hfind]
  · refine (congrArg Host.Outcome.next (State.runItem_offers ho hk)).trans (congrArg _ ?_)
    have hfind : u.ren.findImage (byteAt item.body 0) = none := Render.findImage_eq_none (r := u.ren) hno
    rw [imageAbortWork, hfind]
  · refine (congrArg Host.Outcome.next (State.runItem_offers ho hk)).trans (congrArg _ ?_)
    have hfind : u.ren.findImage (byteAt item.body 0) = some k := Render.findImage_eq_some (r := u.ren) hs hn honly
    rw [imageAbortWork, hfind]
    dsimp only
    rw [Render.freeSlot_of_ready (r := u.ren) hready, ← hn]
    rfl
  · refine (congrArg Host.Outcome.next (State.runItem_offers ho hk)).trans (congrArg _ ?_)
    have hfind : u.ren.findImage (byteAt item.body 0) = some k := Render.findImage_eq_some (r := u.ren) hs hn honly
    rw [imageCloseWork, hfind]
    refine if_neg fun hopen => ?_
    cases hclosing.symm.trans hopen
  · have hexec := exec_imageClose_opened ho hk (Render.findImage_eq_some hs hn honly) hopen
    have hplain : u.closeSlot k = { u with ren := u.ren.setSlot k u.ren.slots[k].ended } :=
      State.closeSlot_plain (s := u) hready (by rw [show u.ren.slots[k].image = n from hn]; exact hheld)
    refine hexec.trans (congrArg _ ((State.deferContexts_plain (s := u) ?_).trans hplain))
    rw [hplain]
    exact hstages
  · have hexec := exec_imageClose_opened ho hk (Render.findImage_eq_some hs hn honly) hopen
    have hplan : u.PlansContexts (u.closeSlot k) := (State.imagesOnly_closeSlot k u).plansContexts (u.closeSlot_ev k)
    obtain ⟨hdefer, hplans⟩ := hplan.deferContexts
    obtain ⟨himage, htext, hmark, hrow⟩ := hdefer.nothingDrawn
    generalize hmine : byIndex (s.ren.held.filter (fun g => decide (g.image = n))) = mine
    have hperform := State.perform_close (s := u) (k := k) hready hn hm rfl
    obtain ⟨hsame, _, hreceived⟩ := (u.unheld n).slot_renderEach k mine
    have horder : InIndexOrder (fun g => decide (g.image = n)) s.ren.held mine := hmine ▸ inIndexOrder_byIndex
    have hmine' : byIndex (u.ren.held.filter (fun g => decide (g.image = n))) = mine := hmine
    rw [hmine'] at hperform
    have hslot : (u.deferContexts (State.closeSlot k)).perform.ren.slots[k] =
        ((u.unheld n).renderEach k mine).ren.slots[k].ended := by
      rw [hperform]
      exact Vector.getElem_set_self k.isLt
    refine ⟨_, hexec, ⟨himage, htext, hmark, hrow⟩, hplans, ?_, ?_, fun g hg hgn hlt => ?_, fun hsound => ?_⟩
    · rw [hslot]
      exact Slot.ended_state _
    · rw [hperform]
      exact hsame.held
    · rw [hslot, Slot.ended_received]
      refine hreceived g.index hlt (.inr ⟨g, ?_, rfl⟩)
      exact (mem_of_inIndexOrder horder).mpr ⟨hg, decide_eq_true hgn⟩
    · have hp : (u.unheld n).ren.slots[k].params.Processes :=
        ((s.contextsSound_iff.mp hsound).agree.contexts.slots k hs).params.processes
      have hall := State.renderedAll hp mine
      rw [State.outcome_of_nil (s := u.unheld n) hstages] at hall
      refine ⟨_, mine, horder, ⟨hall, ?_⟩, hperform⟩
      refine State.endsEach (s := u.unheld n) hp hstages ⟨_, _, _, _, rfl⟩ hplan ⟨[], ?_⟩
      rw [List.append_nil, ← hmine]
      exact State.stages_close (s := u) hn hm

end Sys2Proof.Machine
end

