-- ==== Sys2Proof/Proofs/DiffusionStripes.lean ====
section
/-! A stripe under the line-diffusion method (R22, R32, R33, R36): in order, as the ready stripe, late, or after a gap, and what
follows its rendering. -/

namespace Sys2Proof.Machine

section
variable {s t u v : State} {k : Fin 4} {h : HeldStripe} {item : WorkItem} {rest : List WorkItem}

/-! ### After a rendering (R22, R36) -/

theorem State.promote_some (hfind : s.ren.held.find? (fun g => g.image == s.ren.slots[k].image &&
    g.index == s.ren.slots[k].next) = some h) :
    s.promote k = { s with ren := { s.ren with
      ready := some h
      held := s.ren.held.filter (fun g => decide (g.image ≠ h.image ∨ g.index ≠ h.index)) } } := by
  have hat := List.find?_some hfind
  rw [Bool.and_eq_true, beq_iff_eq, beq_iff_eq] at hat
  obtain ⟨himage, hindex⟩ := hat
  have hothers : (fun g : HeldStripe => !(g.image == s.ren.slots[k].image && g.index == s.ren.slots[k].next)) =
      fun g => decide (g.image ≠ h.image ∨ g.index ≠ h.index) := by
    funext g
    rw [Bool.eq_iff_iff, Bool.not_eq_true', Bool.and_eq_false_iff, beq_eq_false_iff_ne, beq_eq_false_iff_ne, himage, hindex,
      decide_eq_true_eq]
  unfold State.promote
  dsimp only
  rw [hfind, hothers]

theorem State.promote_none (h : ∀ g ∈ s.ren.held, g.image = s.ren.slots[k].image → g.index ≠ s.ren.slots[k].next) :
    s.promote k = s := by
  have hfind : s.ren.held.find? (fun g => g.image == s.ren.slots[k].image && g.index == s.ren.slots[k].next) = none :=
    List.find?_eq_none.mpr fun g hg hat => by
      rw [Bool.and_eq_true, beq_iff_eq, beq_iff_eq] at hat
      exact h g hg hat.1 hat.2
  unfold State.promote
  dsimp only
  rw [hfind]

theorem State.slots_promote (k : Fin 4) (s : State) : (s.promote k).ren.slots = s.ren.slots := by
  unfold State.promote
  dsimp only
  split <;> rfl

theorem State.stages_promote (k : Fin 4) (s : State) : (s.promote k).ren.stages = s.ren.stages := by
  unfold State.promote
  dsimp only
  split <;> rfl

theorem State.stages_freeIfDone (k : Fin 4) (s : State) : (s.freeIfDone k).ren.stages = s.ren.stages := by
  unfold State.freeIfDone
  split <;> rfl

theorem State.outcome_promote (k : Fin 4) (s : State) : (s.promote k).outcome = s.outcome.promote k := by
  by_cases hnone : ∀ g ∈ s.ren.held, g.image = s.ren.slots[k].image → g.index ≠ s.ren.slots[k].next
  · rw [State.promote_none hnone, State.promote_none (s := s.outcome) hnone]
  · cases hfind : s.ren.held.find? (fun g => g.image == s.ren.slots[k].image && g.index == s.ren.slots[k].next) with
    | none =>
      refine absurd (fun g hg himage hindex => ?_) hnone
      refine List.find?_eq_none.mp hfind g hg ?_
      rw [himage, hindex, beq_self_eq_true, beq_self_eq_true]
      rfl
    | some g =>
      rw [State.promote_some hfind, State.promote_some (s := s.outcome) hfind]
      exact State.outcome_putContexts
        ⟨s.ren.slots, s.ren.held.filter (fun f => decide (f.image ≠ g.image ∨ f.index ≠ g.index)), some g⟩ s

theorem State.plansContexts_promote (k : Fin 4) (s : State) : s.PlansContexts (s.promote k) :=
  (s.imagesOnly_promote k).plansContexts (s.promote_ev k)

/-- The held stripe at e becomes the ready stripe, and a CLOSING slot with every stripe is FREE. -/
theorem afterRendering (honce : (v.ren.held.map fun g => (g.image, g.index)).Nodup) :
    AfterRendering k v ((v.promote k).freeIfDone k) := by
  have hslot : (v.promote k).ren.slots[k] = v.ren.slots[k] := by rw [State.slots_promote]
  refine ⟨v.promote k, fun g hg himage hindex => ?_, State.promote_none, fun hnot => ?_, fun hdone => ?_⟩
  · cases hfind : v.ren.held.find? (fun g => g.image == v.ren.slots[k].image && g.index == v.ren.slots[k].next) with
    | none =>
      refine absurd ?_ (List.find?_eq_none.mp hfind g hg)
      rw [himage, hindex, beq_self_eq_true, beq_self_eq_true]
      rfl
    | some f =>
      have hat := List.find?_some hfind
      rw [Bool.and_eq_true, beq_iff_eq, beq_iff_eq] at hat
      have hsame : f = g := List.inj_on_of_nodup_map honce (List.mem_of_find?_eq_some hfind) hg
        (Prod.ext (hat.1.trans himage.symm) (hat.2.trans hindex.symm))
      rw [State.promote_some hfind, hsame]
  · exact if_neg (by rw [hslot]; exact hnot)
  · rw [State.freeIfDone, if_pos (by rw [hslot]; exact hdone), Render.freeSlot_eq, hslot]

/-! ### Stripes at, below and above e -/

theorem exec_diffusion_stripe (ho : s.ren.Offers item rest) (hk : item.kind = .imageStripe)
    (hfind : s.ren.findImage (byteAt item.body 0) = some k)
    (hi : (wordAt item.body 1).toNat < s.ren.slots[k].params.stripeCount)
    (hr : s.ren.slots[k].received.getLsbD (wordAt item.body 1).toNat = false)
    (hm : s.ren.slots[k].params.method = .diffusion)
    (hnew : ∀ g ∈ s.ren.held, g.image = byteAt item.body 0 → g.index ≠ (wordAt item.body 1).toNat) :
    exec .imageStripe s = .next (((s.took rest).fitted k item).deferContexts fun t =>
      (t.diffusionStripe k (item.stripe (s.ren.slots[k].params.pixelsNeeded (wordAt item.body 1).toNat))).freeIfDone k) := by
  rw [exec_taken_stripe ho hk hfind hi]
  refine congrArg _ ((State.takeStripe_accepted (s := s.took rest) hr fun _ => hnew).trans ?_)
  have hm : (s.took rest).ren.slots[k].params.method = .diffusion := hm
  rw [hm]
  rfl

theorem State.renderReady_found (hfind : s.ren.findImage h.image = some k) :
    s.renderReady h = s.deferContexts fun t => ((t.renderInOrder k h).promote k).freeIfDone k := by
  unfold State.renderReady
  rw [hfind]

/-- The ready stripe that the engine takes. -/
theorem exec_readyStripe (hrest : s.ren.AtRest) (he : s.ren.echoes = []) (hready : s.ren.ready = some h)
    (hfind : s.ren.findImage h.image = some k) :
    exec .readyStripe s = .next (({ s with ren := { s.ren with ready := none, busy := true } } : State).deferContexts fun t =>
      ((t.renderInOrder k h).promote k).freeIfDone k) := by
  show execReadyStripe s = _
  unfold execReadyStripe
  rw [State.endPiece_atRest hrest]
  dsimp only
  split
  · next g _ hg =>
    cases hready.symm.trans hg
    exact congrArg Host.Outcome.next (State.renderReady_found hfind)
  · next hno => exact absurd hready (hno h he)

theorem State.diffusionStripe_late (hlow : h.index < s.ren.slots[k].next) : s.diffusionStripe k h = s.renderLate k h :=
  if_pos hlow

theorem State.diffusionStripe_next (hat : h.index = s.ren.slots[k].next) :
    s.diffusionStripe k h = (s.renderAfterGap k h).promote k := by
  have hnot : ¬ s.ren.slots[k].next < h.index := by omega
  rw [State.renderAfterGap, State.skipGap_of_not hnot]
  exact (if_neg (by omega)).trans (if_pos hat)

theorem State.diffusionStripe_gap (hhigh : s.ren.slots[k].next < h.index)
    (hnot : ¬ (s.ren.slots[k].state = .opened ∧ s.ren.held.length < 4)) : s.diffusionStripe k h = s.gapSkip k h :=
  (if_neg (by omega)).trans ((if_neg (by omega)).trans (if_neg hnot))

/-- A rendering, its promotion and the end of its slot, where nothing was left to do before. -/
theorem State.perform_rendered {plan : State → State} (h : plan u = (t.promote k).freeIfDone k) :
    (u.deferContexts plan).perform = (t.outcome.promote k).freeIfDone k := by
  rw [State.perform_deferContexts, h, State.outcome_freeIfDone, State.outcome_promote]

theorem State.PlansContexts.rendered (h : u.PlansContexts t) : u.PlansContexts ((t.promote k).freeIfDone k) :=
  (h.trans (t.plansContexts_promote k)).trans (State.plansContexts_freeIfDone k _)

/-- A stripe rendered in order, by a slot with nothing to skip (R32). -/
theorem State.inOrder_rendered (hs : u.ren.stages = []) (hp : u.ren.slots[k].params.Processes)
    (honce : (u.ren.held.map fun g => (g.image, g.index)).Nodup) {plan : State → State}
    (hplan : plan u = ((u.renderAfterGap k h).promote k).freeIfDone k) :
    u.PlansContexts (u.deferContexts plan) ∧ ((u.deferContexts plan).ren.stages ≠ [] → u.Plans (u.deferContexts plan)) ∧
      ∃ v, RenderedInOrder k u h v ∧ AfterRendering k v (u.deferContexts plan).perform := by
  obtain ⟨hdefer, hplans⟩ := State.PlansContexts.deferContexts (plan := plan) (s := u)
    (by rw [hplan]; exact (u.plansContexts_renderAfterGap k h).rendered)
  have hrendered := State.renderedInOrder (h := h) hp
  rw [State.outcome_of_nil hs] at hrendered
  refine ⟨hdefer, hplans, _, hrendered, ?_⟩
  rw [State.perform_rendered hplan]
  obtain ⟨hsame, _⟩ := u.slot_renderAfterGap k h
  exact afterRendering (v := (u.renderAfterGap k h).outcome) (by
    show (List.map _ (u.renderAfterGap k h).ren.held).Nodup
    rw [hsame.held]
    exact honce)

theorem State.outcome_renderLate (k : Fin 4) (h : HeldStripe) (s : State) :
    let c := s.ren.slots[k]
    (s.renderLate k h).outcome = (s.outcome.drawn h.cls (h.diffused s.ren.tables c.params (s.ren.windowRect c.params)
      (List.replicate c.params.processedWidth 0)).1).putContexts (s.ren.contexts.setSlot k (c.receive h.index)) := by
  intro c
  have hput : s.renderLate k h = (s.rowWrites h.cls (h.diffused s.ren.tables c.params (s.ren.windowRect c.params)
      (List.replicate c.params.processedWidth 0)).1).putContexts (s.ren.contexts.setSlot k (c.receive h.index)) := rfl
  rw [hput, State.outcome_putContexts, State.outcome_rowWrites]

/-- A stripe below e rendered late (R33): no held stripe of its slot is at e. -/
theorem State.late_rendered (hs : u.ren.stages = []) (hp : u.ren.slots[k].params.Processes)
    (honce : (u.ren.held.map fun g => (g.image, g.index)).Nodup)
    (habove : ∀ g ∈ u.ren.held, g.image = u.ren.slots[k].image → g.index ≠ u.ren.slots[k].next) {plan : State → State}
    (hplan : plan u = (u.renderLate k h).freeIfDone k) :
    u.PlansContexts (u.deferContexts plan) ∧ ((u.deferContexts plan).ren.stages ≠ [] → u.Plans (u.deferContexts plan)) ∧
      ∃ v out, StripeDiffused u.ren.tables u.ren.slots[k].params (u.ren.windowRect u.ren.slots[k].params) h.cls
          (stripeCellRows u.ren.slots[k].params h.index h.levels)
          (List.replicate u.ren.slots[k].params.processedWidth 0) u v out ∧
        AfterRendering k { v with ren := v.ren.setSlot k (u.ren.slots[k].receive h.index) } (u.deferContexts plan).perform := by
  have hlate : u.PlansContexts (u.renderLate k h) := ⟨_, _, _, _, rfl⟩
  obtain ⟨hdefer, hplans⟩ := State.PlansContexts.deferContexts (plan := plan) (s := u)
    (by rw [hplan]; exact hlate.trans (State.plansContexts_freeIfDone k _))
  have houtcome := u.outcome_renderLate k h
  have hstripe := h.stripeDiffused hp u.ren.tables (u.ren.windowRect u.ren.slots[k].params) h.cls
    (List.length_replicate (n := u.ren.slots[k].params.processedWidth) (a := (0 : Int))) u
  dsimp only at houtcome
  rw [State.outcome_of_nil hs] at houtcome
  generalize h.diffused _ _ _ _ = out at hstripe houtcome
  refine ⟨hdefer, hplans, _, _, hstripe, ?_⟩
  rw [State.perform_deferContexts, hplan, State.outcome_freeIfDone, houtcome]
  have hcontexts := State.contexts_drawn h.cls out.1 u
  have hw : ({ u.drawn h.cls out.1 with
      ren := (u.drawn h.cls out.1).ren.setSlot k (u.ren.slots[k].receive h.index) } : State) =
      (u.drawn h.cls out.1).putContexts (u.ren.contexts.setSlot k (u.ren.slots[k].receive h.index)) := by
    rw [← hcontexts]
    rfl
  rw [hw]
  generalize hv : (u.drawn h.cls out.1).putContexts (u.ren.contexts.setSlot k (u.ren.slots[k].receive h.index)) = v
  have hvcontexts : v.ren.contexts = u.ren.contexts.setSlot k (u.ren.slots[k].receive h.index) := by
    rw [← hv]
    rfl
  have hheld : v.ren.held = u.ren.held := congrArg Contexts.held hvcontexts
  have hslot : v.ren.slots[k] = u.ren.slots[k].receive h.index :=
    (congrArg (fun x : Contexts => x.slots[k]) hvcontexts).trans (Contexts.slot_setSlot _ _ _)
  have hstays : v.promote k = v := State.promote_none (by rw [hheld, hslot]; exact habove)
  have hafter := afterRendering (k := k) (v := v) (by rw [hheld]; exact honce)
  rw [hstays] at hafter
  exact hafter

/-- A gap skipped: the slot's held stripes below the stripe, and then the stripe (R32). -/
theorem State.gap_rendered (hs : u.ren.stages = []) (hp : u.ren.slots[k].params.Processes)
    (honce : (u.ren.held.map fun g => (g.image, g.index)).Nodup) {plan : State → State}
    (hplan : plan u = (u.gapSkip k h).freeIfDone k) :
    let below (g : HeldStripe) : Bool := decide (g.image = h.image ∧ g.index < h.index)
    let start : State := { u with ren := { u.ren with held := u.ren.held.filter (fun g => !below g) } }
    u.PlansContexts (u.deferContexts plan) ∧ ((u.deferContexts plan).ren.stages ≠ [] → u.Plans (u.deferContexts plan)) ∧
      ∃ v mine, InIndexOrder below u.ren.held mine ∧ RenderedAll k (mine ++ [h]) start v ∧
        EndsEach k mine start (u.deferContexts plan) ∧ AfterRendering k v (u.deferContexts plan).perform := by
  intro below start
  have hbelow : (fun g : HeldStripe => g.image == h.image && decide (g.index < h.index)) = below := by
    funext g
    rw [Bool.eq_iff_iff, Bool.and_eq_true, beq_iff_eq, decide_eq_true_eq, decide_eq_true_eq]
  have hrender : u.renderHeld k h.image (fun g => decide (g.index < h.index)) =
      start.renderEach k (byIndex (u.ren.held.filter below)) := by
    have hothers : (fun g : HeldStripe => !(g.image == h.image && decide (g.index < h.index))) = fun g => !below g := by
      funext g
      rw [← hbelow]
    rw [State.renderHeld_eq, hbelow, hothers]
  generalize hmine : byIndex (u.ren.held.filter below) = mine at hrender
  have horder : InIndexOrder below u.ren.held mine := hmine ▸ inIndexOrder_byIndex
  have hstart : u.PlansContexts start := ⟨_, _, _, _, rfl⟩
  have heach := hstart.trans (start.plansContexts_renderEach k mine)
  have hplan' : plan u = (((start.renderEach k mine).renderAfterGap k h).promote k).freeIfDone k := by
    rw [hplan, State.gapSkip, hrender]
  have hplansContexts : u.PlansContexts (plan u) := by
    rw [hplan']
    exact (heach.trans ((start.renderEach k mine).plansContexts_renderAfterGap k h)).rendered
  obtain ⟨hdefer, hplans⟩ := hplansContexts.deferContexts
  obtain ⟨hsame, _⟩ := start.slot_renderEach k mine
  obtain ⟨hsame', _⟩ := (start.renderEach k mine).slot_renderAfterGap k h
  have hpstart : start.ren.slots[k].params.Processes := hp
  have hall := State.renderedAll hpstart mine
  rw [State.outcome_of_nil (s := start) hs] at hall
  have hpmine : (start.renderEach k mine).ren.slots[k].params.Processes := hsame.params ▸ hp
  refine ⟨hdefer, hplans, _, mine, horder,
    renderedAll_append hall ⟨_, State.renderedInOrder (h := h) hpmine, rfl⟩, ?_, ?_⟩
  · refine State.endsEach hpstart hs hstart hplansContexts ?_
    obtain ⟨more, hmore⟩ := (start.renderEach k mine).stages_renderAfterGap k h
    refine ⟨more, ?_⟩
    rw [hplan', State.stages_freeIfDone, State.stages_promote, hmore]
  · rw [State.perform_rendered hplan']
    refine afterRendering (v := ((start.renderEach k mine).renderAfterGap k h).outcome) ?_
    show (List.map _ ((start.renderEach k mine).renderAfterGap k h).ren.held).Nodup
    rw [hsame'.held, hsame.held]
    exact honce.sublist (List.filter_sublist.map _)

end

/-- Settles O40, by where the stripe stands to e. -/
theorem diffusionStripeInOrderOrLate : Obligations.DiffusionStripeInOrderOrLate := by
  refine ⟨fun p i levels => stripeCellRows_shape p i levels, fun s k hsound hrest he hused hm => ?_⟩
  intro c p
  have hagree := (s.contextsSound_iff.mp hsound).agree.contexts
  have hp : p.Processes := (hagree.slots k hused).params.processes
  have hfind {n : Byte} (hn : c.image = n) : s.ren.findImage n = some k :=
    Render.findImage_eq_some hused hn fun j hj hjn => hagree.images j k hj hused (hjn.trans hn.symm)
  have habove : ∀ g ∈ s.ren.held, g.image = c.image → c.next < g.index := hagree.heldAbove hused
  obtain ⟨_, hstages, _⟩ := id hrest
  refine ⟨fun h hready himage => ?_, fun item rest hready hqueue hk hn => ?_⟩
  · intro u
    obtain ⟨j, hj, hawaits, hnext⟩ := hagree.ready h hready
    have hjk : j = k := hagree.images j k hj hused (hawaits.image.trans himage)
    subst hjk
    have hnext : c.next = h.index := hnext
    have hplan : ((u.renderInOrder j h).promote j).freeIfDone j = ((u.renderAfterGap j h).promote j).freeIfDone j := by
      rw [State.renderAfterGap, State.skipGap_of_not (s := u) (show ¬ c.next < h.index by omega)]
    obtain ⟨hdefer, hplans, v, hrendered, hafter⟩ := State.inOrder_rendered (u := u) (h := h) hstages hp hagree.once
      (plan := fun t => ((t.renderInOrder j h).promote j).freeIfDone j) hplan
    exact ⟨_, v, exec_readyStripe hrest he hready (hfind himage.symm), hdefer.nothingDrawn, hplans, hrendered, hafter⟩
  · intro i px need h fresh u hi hr
    have ho : s.ren.Offers item rest := ⟨hrest, he, hready, hqueue⟩
    have hren : u.ren = (s.took rest).ren.setSlot k fresh := (s.took rest).fitted_ren k item
    have hslot : u.ren.slots[k] = fresh := (s.took rest).fitted_slot k item
    have hstripe : item.stripe need = h := congrArg (fun n : Byte => HeldStripe.mk n i _ item.cls) hn
    have hstages : u.ren.stages = [] := by rw [hren]; exact hstages
    have hheld : u.ren.held = s.ren.held := by rw [hren]; rfl
    have hp : u.ren.slots[k].params.Processes := by rw [hslot]; exact hp
    have honce : (u.ren.held.map fun g => (g.image, g.index)).Nodup := by rw [hheld]; exact hagree.once
    have hdrawn {t : State} (ht : u.PlansContexts t) : s.NothingDrawn t := State.nothingDrawn_fitted ht
    have hexec (hnew : ∀ g ∈ s.ren.held, g.image = c.image → g.index ≠ i) :
        exec .imageStripe s = .next (u.deferContexts fun t => (t.diffusionStripe k h).freeIfDone k) := by
      rw [← hstripe]
      exact exec_diffusion_stripe ho hk (hfind hn.symm) hi hr hm (by rw [hn]; exact hnew)
    refine ⟨fun hat => ?_, fun hlow => ?_, fun hhigh hnohold hnew => ?_⟩
    · have hplan : (u.diffusionStripe k h).freeIfDone k = ((u.renderAfterGap k h).promote k).freeIfDone k := by
        rw [State.diffusionStripe_next (by rw [hslot]; exact hat)]
      obtain ⟨hdefer, hplans, v, hrendered, hafter⟩ := State.inOrder_rendered hstages hp honce
        (plan := fun t => (t.diffusionStripe k h).freeIfDone k) hplan
      exact ⟨_, v, hexec fun g hg hgn => by have := habove g hg hgn; omega, hdrawn hdefer, hplans, hrendered, hafter⟩
    · have hplan : (u.diffusionStripe k h).freeIfDone k = (u.renderLate k h).freeIfDone k := by
        rw [State.diffusionStripe_late (by rw [hslot]; exact hlow)]
      obtain ⟨hdefer, hplans, v, out, hdiffused, hafter⟩ := State.late_rendered hstages hp honce
        (by rw [hheld, hslot]; exact fun g hg hgn => (habove g hg hgn).ne') (plan := fun t => (t.diffusionStripe k h).freeIfDone k) hplan
      rw [hslot] at hdiffused hafter
      refine ⟨_, v, _, out, hexec fun g hg hgn => by have := habove g hg hgn; omega, hdrawn hdefer, hplans, ?_, rfl, hafter⟩
      rw [hren] at hdiffused
      exact hdiffused
    · have hnot : ¬ (u.ren.slots[k].state = .opened ∧ u.ren.held.length < 4) := by
        rw [hslot, hheld]
        rintro ⟨hopen, hroom⟩
        rcases hnohold with hclosing | hfull
        · cases hclosing.symm.trans hopen
        · omega
      have hplan : (u.diffusionStripe k h).freeIfDone k = (u.gapSkip k h).freeIfDone k := by
        rw [State.diffusionStripe_gap (by rw [hslot]; exact hhigh) hnot]
      have hgap := State.gap_rendered hstages hp honce (plan := fun t => (t.diffusionStripe k h).freeIfDone k) hplan
      dsimp only at hgap
      rw [hheld] at hgap
      obtain ⟨hdefer, hplans, v, mine, horder, hall, hends, hafter⟩ := hgap
      exact ⟨_, v, mine, hexec hnew, hdrawn hdefer, hplans, horder, ⟨hall, hends⟩, hafter⟩

end Sys2Proof.Machine
end
